-- ==== Sys2Proof/Word.lean ====
section
/-! DEFINITION. The word types of SKEL-TWB (spec/00_scope.md R9): a byte is 8 bits, every value is unsigned. -/

namespace Sys2Proof

/-- A byte (R9). -/
abbrev Byte := BitVec 8

/-- A 16-bit value: the checksum field, `CALC`, `XCNT`, `STRETCH_LIMIT`. -/
abbrev Half := BitVec 16

/-- A 32-bit word: command words, registers, `NOW`, deadlines. -/
abbrev Word := BitVec 32

end Sys2Proof
end

