-- ==== Sys2Proof/Syntax.lean ====
section
/-! DEFINITION. The instructions of SKEL-TWB, one constructor per row of spec/opcode_table.json: the nine `BE_CMD`
commands, the two `PF_CMD` commands and the twelve packet types. -/

namespace Sys2Proof

/-- The three encoded objects (spec/30_encoding.md R100): the two command words and the packet header word. -/
inductive Port where
  /-- A word written to `BE_CMD` (R101). -/
  | busCmd
  /-- A word written to `PF_CMD` (R113). -/
  | framerCmd
  /-- Bytes 0 to 3 of a packet, read as a little-endian word (R115). -/
  | packet
  deriving DecidableEq, Repr

/-- One constructor per row of the opcode table. A packet carries its header's length and checksum fields (R115). -/
inductive Instr where
  /-- INIT (R192). -/
  | init
  /-- START (R150). -/
  | start
  /-- STOP (R153). -/
  | stop
  /-- WRITE_BIT (R156): the bit to write. -/
  | writeBit (b : Bool)
  /-- READ_BIT (R159). -/
  | readBit
  /-- WRITE_BYTE (R162): the byte to write. -/
  | writeByte (d : Byte)
  /-- READ_BYTE (R165): the acknowledge bit to send, `false` = ACK, `true` = NAK. -/
  | readByte (k : Bool)
  /-- REG_WRITE (R198): device address, register address, byte count. -/
  | regWrite (dev : BitVec 7) (reg : Byte) (n : Byte)
  /-- REG_READ (R203): device address, register address, byte count. -/
  | regRead (dev : BitVec 7) (reg : Byte) (n : Byte)
  /-- READ_PACKET (R239). -/
  | readPacket
  /-- WRITE_PACKET (R249). -/
  | writePacket
  /-- Packet type 0 (R284). -/
  | pktAck (len : Byte) (csum : Half)
  /-- Packet type 1 (R285). -/
  | pktNak (len : Byte) (csum : Half)
  /-- Packet type 2 (R288). -/
  | pktReset (len : Byte) (csum : Half)
  /-- Packet type 3 (R289). -/
  | pktId (len : Byte) (csum : Half)
  /-- Packet type 4 (R293). -/
  | pktWriteReg (len : Byte) (csum : Half)
  /-- Packet type 5 (R293). -/
  | pktReadReg (len : Byte) (csum : Half)
  /-- Packet type 6 (R290). -/
  | pktEcho (len : Byte) (csum : Half)
  /-- Packet type 7 (R291). -/
  | pktSsn (len : Byte) (csum : Half)
  /-- Packet type 8 (R292). -/
  | pktUid (len : Byte) (csum : Half)
  /-- Packet type 9 (R293). -/
  | pktOpt (len : Byte) (csum : Half)
  /-- Packet type 10 (R293). -/
  | pktIsn (len : Byte) (csum : Half)
  /-- Packet type 11 (R293). -/
  | pktDiag (len : Byte) (csum : Half)
  deriving DecidableEq, Repr

/-- The encoded object an instruction is written as (R100). -/
def Instr.port : Instr → Port
  | .init | .start | .stop | .writeBit _ | .readBit | .writeByte _ | .readByte _
  | .regWrite _ _ _ | .regRead _ _ _ => .busCmd
  | .readPacket | .writePacket => .framerCmd
  | .pktAck _ _ | .pktNak _ _ | .pktReset _ _ | .pktId _ _ | .pktWriteReg _ _ | .pktReadReg _ _
  | .pktEcho _ _ | .pktSsn _ _ | .pktUid _ _ | .pktOpt _ _ | .pktIsn _ _ | .pktDiag _ _ => .packet

end Sys2Proof
end

