-- ==== Sys2Proof/Decode.lean ====
section
/-! DEFINITION. Decoding of the three encoded objects (spec/30_encoding.md R107, R113, R117), total on every 32-bit
word and rejecting by name, and after it the encoder (R101, R105, R112, R113, R115). -/

namespace Sys2Proof

/-- Why a word encodes no instruction. -/
inductive DecodeError where
  /-- `BE_CMD`: `OP` is 0x0 or 0xA to 0xF (R102). -/
  | reservedOp
  /-- `BE_CMD`: a reserved bit, or a bit of a field the operation does not use, is not 0 (R103). -/
  | reservedBits
  /-- `PF_CMD`: the word is neither 1 nor 2 (R114). -/
  | illegalFramerWord
  /-- Packet: the type code is 12 to 255 (R117). -/
  | undefinedType
  deriving DecidableEq, Repr

/-! ### Fields (R101, R115) -/

/-- `OP`, bits 3:0 (R101). -/
def fieldOp (w : Word) : BitVec 4 := w.extractLsb' 0 4
/-- `B`, bit 4 (R101). -/
def fieldB (w : Word) : Bool := w.getLsbD 4
/-- `DATA` and `REG`, bits 15:8 (R101). -/
def fieldData (w : Word) : Byte := w.extractLsb' 8 8
/-- `DEV`, bits 22:16 (R101). -/
def fieldDev (w : Word) : BitVec 7 := w.extractLsb' 16 7
/-- `LEN`, bits 31:24 (R101). -/
def fieldLen (w : Word) : Byte := w.extractLsb' 24 8
/-- The length of a packet header word, bits 7:0 (R115). -/
def fieldPktLength (w : Word) : Byte := w.extractLsb' 0 8
/-- The type of a packet header word, bits 15:8 (R115). -/
def fieldPktType (w : Word) : Byte := w.extractLsb' 8 8
/-- The checksum of a packet header word, bits 31:16 (R115). -/
def fieldPktChecksum (w : Word) : Half := w.extractLsb' 16 16

/-! ### Decoders -/

/-- `some i` when the bits under `mask` are `pattern`, else the error of R111. -/
def whenMasked (w mask pattern : Word) (i : Instr) : Except DecodeError Instr :=
  if w &&& mask = pattern then .ok i else .error .reservedBits

/-- `decode_BE` (R107). -/
def decodeBusCmd (w : Word) : Except DecodeError Instr :=
  match (fieldOp w).toNat with
  | 0x1 => whenMasked w 0xFFFFFFFF 0x1 .init
  | 0x2 => whenMasked w 0xFFFFFFFF 0x2 .start
  | 0x3 => whenMasked w 0xFFFFFFFF 0x3 .stop
  | 0x4 => whenMasked w 0xFFFFFFEF 0x4 (.writeBit (fieldB w))
  | 0x5 => whenMasked w 0xFFFFFFFF 0x5 .readBit
  | 0x6 => whenMasked w 0xFFFF00FF 0x6 (.writeByte (fieldData w))
  | 0x7 => whenMasked w 0xFFFFFFEF 0x7 (.readByte (fieldB w))
  | 0x8 => whenMasked w 0x008000FF 0x8 (.regWrite (fieldDev w) (fieldData w) (fieldLen w))
  | 0x9 => whenMasked w 0x008000FF 0x9 (.regRead (fieldDev w) (fieldData w) (fieldLen w))
  | _ => .error .reservedOp

/-- Decoding of a `PF_CMD` word (R113, R114). -/
def decodeFramerCmd (w : Word) : Except DecodeError Instr :=
  if w = 0x00000001 then .ok .readPacket
  else if w = 0x00000002 then .ok .writePacket
  else .error .illegalFramerWord

/-- Decoding of a packet header word by its type code (R117). The length is not judged here: READ_PACKET rejects a
malformed one before any dispatch (spec/42_framer.md R241), and `Instr.wellFormed` states it. -/
def decodePacket (w : Word) : Except DecodeError Instr :=
  let len := fieldPktLength w
  let csum := fieldPktChecksum w
  match (fieldPktType w).toNat with
  | 0 => .ok (.pktAck len csum)
  | 1 => .ok (.pktNak len csum)
  | 2 => .ok (.pktReset len csum)
  | 3 => .ok (.pktId len csum)
  | 4 => .ok (.pktWriteReg len csum)
  | 5 => .ok (.pktReadReg len csum)
  | 6 => .ok (.pktEcho len csum)
  | 7 => .ok (.pktSsn len csum)
  | 8 => .ok (.pktUid len csum)
  | 9 => .ok (.pktOpt len csum)
  | 10 => .ok (.pktIsn len csum)
  | 11 => .ok (.pktDiag len csum)
  | _ => .error .undefinedType

/-- The decoder of each encoded object. -/
def decode : Port → Word → Except DecodeError Instr
  | .busCmd, w => decodeBusCmd w
  | .framerCmd, w => decodeFramerCmd w
  | .packet, w => decodePacket w

/-! ### The opcode table as one number space -/

/-- The encoded object a bare 32-bit number is taken for when nothing says where it was written. DESIGN CHOICE,
assumption log 10: first `BE_CMD`, then `PF_CMD`, then a packet header, so words 1 and 2 are INIT and START. -/
def tablePort (w : Word) : Port :=
  match decodeBusCmd w with
  | .ok _ => .busCmd
  | .error _ =>
    match decodeFramerCmd w with
    | .ok _ => .framerCmd
    | .error _ =>
      match decodePacket w with
      | .ok _ => .packet
      | .error _ => .busCmd

/-- The word whose low `nbits` bits are those of `w`, all others 0. Every row of the table has 32 bits. -/
def tableWord (nbits w : Nat) : Word := BitVec.ofNat 32 (w % 2 ^ nbits)

/-- The instruction the decoder reads from a word of the opcode table, `none` where it refuses. -/
def decodeTableWord (nbits w : Nat) : Option Instr :=
  let word := tableWord nbits w
  match decode (tablePort word) word with
  | .ok i => some i
  | .error _ => none

/-! ### The encoder -/

/-- A `BE_CMD` word from its fields (R101, R112). -/
def busWord (op : BitVec 4) (b : Bool) (data : Byte) (dev : BitVec 7) (len : Byte) : Word :=
  len ++ 0#1 ++ dev ++ data ++ 0#3 ++ BitVec.ofBool b ++ op

/-- A packet header word from its fields (R115). -/
def headerWord (len typ : Byte) (csum : Half) : Word := csum ++ typ ++ len

/-- The word of an instruction (R103, R112, R113, R115, R117). -/
def encode : Instr → Word
  | .init => busWord 0x1 false 0 0 0
  | .start => busWord 0x2 false 0 0 0
  | .stop => busWord 0x3 false 0 0 0
  | .writeBit b => busWord 0x4 b 0 0 0
  | .readBit => busWord 0x5 false 0 0 0
  | .writeByte d => busWord 0x6 false d 0 0
  | .readByte k => busWord 0x7 k 0 0 0
  | .regWrite dev reg n => busWord 0x8 false reg dev n
  | .regRead dev reg n => busWord 0x9 false reg dev n
  | .readPacket => 0x00000001
  | .writePacket => 0x00000002
  | .pktAck len csum => headerWord len 0 csum
  | .pktNak len csum => headerWord len 1 csum
  | .pktReset len csum => headerWord len 2 csum
  | .pktId len csum => headerWord len 3 csum
  | .pktWriteReg len csum => headerWord len 4 csum
  | .pktReadReg len csum => headerWord len 5 csum
  | .pktEcho len csum => headerWord len 6 csum
  | .pktSsn len csum => headerWord len 7 csum
  | .pktUid len csum => headerWord len 8 csum
  | .pktOpt len csum => headerWord len 9 csum
  | .pktIsn len csum => headerWord len 10 csum
  | .pktDiag len csum => headerWord len 11 csum

end Sys2Proof
end

