-- ==== Sys2Proof/Config.lean ====
section
/-! DEFINITION. What an implementation fixes (spec/00_scope.md R7, R8), what the environment may answer in one step
(R6 and spec/93_implementation_defined.md), and the free values: constants with no body, of which nothing can be proved. -/

namespace Sys2Proof

/-! ### Parameters whose value the source fixes (R7) and the spec's own fixed ones (R8) -/

/-- `HDR_BYTES` (R7). -/
abbrev Config.hdrBytes : Nat := 4
/-- `MAX_PAYLOAD` (R7). -/
abbrev Config.maxPayload : Nat := 250
/-- `MAX_LEN` (R7). -/
abbrev Config.maxLen : Nat := 254
/-- `PF_BUF_BYTES` (R7). -/
abbrev Config.pfBufBytes : Nat := 254
/-- `BE_BUF_BYTES` (R8). -/
abbrev Config.beBufBytes : Nat := 256
/-- `RECOVERY_MAX_PULSES` (R7). -/
abbrev Config.recoveryMaxPulses : Nat := 9
/-- `FP_BYTES` (R7). -/
abbrev Config.fpBytes : Nat := 6

/-! ### Parameters left open (R8) -/

/-- `IDENT` (R8, spec/43_responder.md R289): product id, protocol version, firmware version, build strings. -/
structure Ident where
  productId : Byte
  protocolVersion : Byte
  fwMajor : Byte
  fwMinor : Byte
  fwBuild : Half
  /-- 8 bytes, the last 0x00 (R289). -/
  buildHash : List Byte
  /-- 1 to 220 bytes, the last 0x00 (R289). -/
  buildInfo : List Byte
  deriving DecidableEq, Repr

/-- `CHECKSUM_FN` (R8, spec/42_framer.md R243): the default, or another function named by a number. -/
inductive ChecksumFn where
  | fletcher16
  | other (k : Nat)
  deriving DecidableEq, Repr

/-- The parameters marked OPEN in R8. They are plain data of the state and no step changes one.
Assumption log 3. -/
structure Params where
  /-- `BLK_BASE`, a multiple of 0x400. -/
  blkBase : Nat
  /-- `T_HALF` > 0: timing only, no rule depends on its value. -/
  tHalf : Nat
  /-- `TICK_HZ`: timing only. -/
  tickHz : Nat
  /-- `RESPONDER = present`. -/
  responderPresent : Bool
  /-- `CR_RDEADLINE`, in ticks, 0 for none. -/
  crReadDeadline : Word
  /-- `CR_WDEADLINE`, in ticks, 0 for none. -/
  crWriteDeadline : Word
  /-- `UID_WORDS`, 1 to 4. -/
  uidWords : Nat
  ident : Ident
  checksumFn : ChecksumFn
  deriving DecidableEq, Repr

/-- The parameter record of `State.reset`. DESIGN CHOICE (unsafe), assumption log 3: R8 leaves each value open.
Statements are made for every record; none rests on this one. The identity record is the example of R289. -/
def Config.defaultParams : Params where
  blkBase := 0
  tHalf := 1
  tickHz := 1000
  responderPresent := false
  crReadDeadline := 0
  crWriteDeadline := 0
  uidWords := 3
  ident :=
    { productId := 1, protocolVersion := 2, fwMajor := 3, fwMinor := 4, fwBuild := 0x0102
      buildHash := [0x61, 0x62, 0x63, 0x31, 0x32, 0x33, 0x34, 0x00]
      buildInfo := [0x78, 0x00] }
  checksumFn := .fletcher16

/-! ### What the environment answers, and whose step it is (R6) -/

/-- One Host CPU access (spec/00_scope.md R10): `MemRead(addr, n)` or `MemWrite(addr, n, v)`, `n` in bytes. -/
inductive Access where
  | read (addr n : Nat)
  | write (addr n : Nat) (v : Word)
  deriving DecidableEq, Repr, Inhabited

/-- The environment's answers in one step. Every field is an unconstrained draw
(spec/93_implementation_defined.md rows 12, 17, 18, 19); a step reads only those its rule names. -/
structure Env where
  /-- Level the bus peers leave SCL at: `true` when no peer pulls it low (spec/40_bus_primitives.md R142). -/
  scl : Bool
  /-- Level the bus peers leave SDA at (R142). -/
  sda : Bool
  /-- Bytes that reach the transport before this step's `Transport.read` (spec/42_framer.md R236). -/
  arriving : List Byte
  /-- The byte count `k` a transport call answers, before it is bounded by the call's maximum (R236). -/
  count : Nat
  /-- `Transport.ready()` (R236). -/
  ready : Bool
  /-- `InstrumentReset()` (spec/43_responder.md R288). -/
  resetOk : Bool
  /-- `IdentAvailable()` (R289). -/
  identOk : Bool
  /-- Success of `UidRead()` (R291, R292). -/
  uidOk : Bool
  /-- The words of `UidRead()`, of which the first `UID_WORDS` are used. -/
  uid0 : Word
  uid1 : Word
  uid2 : Word
  uid3 : Word
  /-- The value of an any-value buffer read (spec/20_memory.md R76). -/
  anyValue : Word
  deriving DecidableEq, Repr, Inhabited

/-- The agent that takes a step (R6). The peers and the transport answer inside the steps of the others. -/
inductive Agent where
  | host (a : Access)
  | busEngine
  | framer
  | responder
  | tick
  | reset
  deriving DecidableEq, Repr, Inhabited

/-- One step's agent with what the environment answers in it. -/
structure Turn where
  agent : Agent
  env : Env
  deriving DecidableEq, Repr, Inhabited

/-! ### Free values -/

/-- The `k`-th turn taken when the script is empty: R6 lets any enabled agent move next and leaves every draw open.
No body: no proof can know an agent or a draw. Assumption log 1. -/
opaque Config.freeTurn : Nat → Turn

/-- A `CHECKSUM_FN` other than the default (R8, R243). Assumption log 4. -/
opaque Config.otherChecksum : Nat → List Byte → Half

/-- `DIGEST` (R8, spec/43_responder.md R292): the first six bytes of the digest of a byte string, by index.
A function, so equal inputs give equal fingerprints. Assumption log 4. -/
opaque Config.digest : List Byte → Fin 6 → Byte

end Sys2Proof
end

