-- ==== Sys2Proof/Machine/State.lean ====
section
/-! DEFINITION. The state of SKEL-TWB as plain data (spec/10_state.md), the reasons a step stops, and the state right
after reset (spec/70_reset_and_hazards.md R360). -/

namespace Sys2Proof.Machine

/-- A unit buffer: (index, byte) pairs, indices strictly rising. An unlisted index holds no value (spec/10_state.md
R42), so no entry equals what an unlisted index reads as. -/
abbrev Memory := List Host.Cell

/-! ### Bus Engine -/

/-- The two bus lines (R23). -/
inductive Line where
  | scl
  | sda
  deriving DecidableEq, Repr

/-- `CODE` values (spec/60_exceptions.md R321); the reserved values 10 to 15 are never written. -/
inductive BusCode where
  | ok | addrNak | regNak | writeFail | stretchTimeout | arbLost | recoveryFail | argError | illegalCmd
  | recoveryRequired
  deriving DecidableEq, Repr

/-- A pending operation of the Bus Engine's sequencer. The first ten take one step each (spec/40_bus_primitives.md
R141); the others are internal and take none. The arguments hold the procedure's private variables and loop indices. -/
inductive BusOp where
  /-- `HI(l)`: release with its delay (R145). -/
  | release (l : Line)
  /-- A `Sample(l)` whose value is discarded: the pre-read of `LO(l)` (R144). -/
  | sample (l : Line)
  /-- `DriveLow(l)` with its delay (R143). -/
  | driveLow (l : Line)
  /-- One sample of `WAIT_SCL`, after `lows` low samples (R146). -/
  | waitScl (lows : Nat)
  /-- START's pre-read of SDA, used as its arbitration check (R150). -/
  | startCheck
  /-- `ARB_CHECK` (R147). -/
  | arbCheck
  /-- READ_BIT's data sample, into the private bit (R159). -/
  | readBit
  /-- INIT's sample of SCL after `p` pulses (spec/41_bus_composite.md R192). -/
  | initScl (p : Nat)
  /-- INIT's sample of SDA and its loop test, SCL having read `scl` (R192). -/
  | initSda (p : Nat) (scl : Bool)
  /-- REG_WRITE's loop over `BEBUF[i .. n-1]`; with `i < n` it reads `BEBUF[i]` and begins to send it (R198). -/
  | sendLoop (i n : Nat)
  /-- START's test of `OPEN`, choosing the plain or the repeated start (R150). -/
  | startTest
  /-- `v <- (v << 1) | bit` of READ_BYTE (R165). -/
  | shiftIn
  /-- `OPEN <- v`. -/
  | setOpen (v : Bool)
  /-- SEND's test of the acknowledge bit (R197). -/
  | ackTest (err : BusCode)
  /-- `BEBUF[i] <- byte; xcnt' <- xcnt' + 1` of REG_READ (R203). -/
  | storeByte (i : Nat)
  /-- REG_READ's loop over `BEBUF[i .. n-1]` (R203). -/
  | readLoop (i n : Nat)
  /-- `finish_BE(c)` with the command's completion fields (spec/60_exceptions.md R320). -/
  | finish (c : BusCode)
  /-- `finish_BE(c)` that publishes no completion field: an ending decided before any line operation (R191). -/
  | reject (c : BusCode)
  /-- The last part of `abort(c)`: `OPEN <- 0`, `NEED_RECOV <- 1`, `finish_BE(c)` (R148). -/
  | abortEnd (c : BusCode)
  deriving DecidableEq, Repr

/-- The Bus Engine's sequencer position (R27). -/
inductive BusPos where
  | idle
  /-- A command word was latched and its procedure has not begun. -/
  | latched (w : Word)
  /-- The command of word `w` has these operations still to do. -/
  | running (w : Word) (todo : List BusOp)
  deriving DecidableEq, Repr

/-- The private result copies of the command in progress (R37). -/
structure BusPrivate where
  bit : Bool := false
  byte : Byte := 0
  xcnt : Half := 0
  pulses : BitVec 4 := 0
  deriving DecidableEq, Repr

/-- The Bus Engine (R20). `BUSY` is 1 exactly when `pos` is not idle (R27, R38). -/
structure BusEngine where
  /-- `OPEN` (R21). -/
  opened : Bool
  /-- `NEED_RECOV` (R22). -/
  needRecov : Bool
  /-- `SCL_OUT`: `true` released, `false` driven low (R23). -/
  sclOut : Bool
  /-- `SDA_OUT` (R23). -/
  sdaOut : Bool
  /-- `ARB`, sticky. -/
  arb : Bool
  /-- `CODE`. -/
  code : BusCode
  /-- `RXBIT`. -/
  rxBit : Bool
  /-- `RXBYTE`. -/
  rxByte : Byte
  /-- `PULSES`. -/
  pulses : BitVec 4
  /-- `XCNT`. -/
  xcnt : Half
  /-- `ARB_ABORT`. -/
  arbAbort : Bool
  /-- `STRETCH_BOUND`. -/
  stretchBound : Bool
  /-- `STRETCH_LIMIT`. -/
  stretchLimit : Half
  /-- `BEBUF[0..255]`. -/
  buf : Memory
  /-- Sequencer position (R27). -/
  pos : BusPos
  /-- Private copies (R37). -/
  priv : BusPrivate
  deriving DecidableEq, Repr

/-! ### Packet Framer -/

/-- `RESULT` values (spec/60_exceptions.md R322); the reserved values 6 to 15 are never written. -/
inductive FramerResult where
  | ok | timeout | framingError | checksumError | partialWrite | illegalCmd
  deriving DecidableEq, Repr

/-- What a framer command latches at its start (spec/42_framer.md R238). -/
structure Latch where
  /-- `t0`. -/
  t0 : Word
  /-- `D`, 0 for no deadline. -/
  d : Word
  /-- `S`. -/
  strict : Bool
  deriving DecidableEq, Repr

/-- The point a framer command has reached (R27, R28(c)). -/
inductive FramerPhase where
  /-- READ_PACKET's header phase, `got` bytes received. -/
  | header (got : Nat)
  /-- READ_PACKET's payload phase: packet length and bytes received. -/
  | payload (len got : Nat)
  /-- WRITE_PACKET: packet length, bytes accepted, and the checksum computed in strict mode. -/
  | sending (len sent : Nat) (csum : Option Half)
  deriving DecidableEq, Repr

/-- The Packet Framer's sequencer position (R27). -/
inductive FramerPos where
  | idle
  /-- A command word was latched and its procedure has not begun. -/
  | latched (w : Word) (l : Latch)
  | running (w : Word) (l : Latch) (phase : FramerPhase)
  deriving DecidableEq, Repr

/-- The Packet Framer and its Checksum Unit (R24). `PF_BUSY` is 1 exactly when `pos` is not idle. -/
structure Framer where
  /-- `PFBUF[0..253]`. -/
  buf : Memory
  /-- `RESULT`. -/
  result : FramerResult
  /-- `COUNT`. -/
  count : Byte
  /-- `CALC`. -/
  checksum : Half
  /-- `CSUM_STRICT`. -/
  strict : Bool
  /-- `PF_DEADLINE`. -/
  deadline : Word
  /-- Sequencer position. -/
  pos : FramerPos
  deriving DecidableEq, Repr

/-! ### Command Responder -/

/-- The next numbered line of the Command Responder's cycle (spec/43_responder.md R282). -/
inductive CrStep where
  /-- (2) zero `PFBUF`. -/
  | zero
  /-- (3) call READ_PACKET. -/
  | callRead
  /-- (4) act on the result of READ_PACKET. -/
  | gotRead
  /-- (5) zero the checksum bytes. -/
  | clearCsum
  /-- (6) call WRITE_PACKET. -/
  | callWrite
  deriving DecidableEq, Repr

/-- `CR_STATE` (R26) with the in-progress step of the cycle. -/
inductive CrState where
  | waitReady
  | cycle (at_ : CrStep)
  deriving DecidableEq, Repr

/-! ### The block and its surroundings -/

/-- The byte streams of the Packet Framer's transport (R28(d), spec/42_framer.md R236). -/
structure Transport where
  /-- Bytes the transport holds that no `Transport.read` has returned, oldest first. -/
  rx : List Byte
  /-- The outgoing stream so far, oldest first. -/
  tx : List Byte
  deriving DecidableEq, Repr

/-- The whole state: the parameters, the block's units, and the environment as the steps see it. -/
structure State where
  /-- The OPEN parameters (spec/00_scope.md R8). -/
  par : Params
  be : BusEngine
  pf : Framer
  /-- `NOW` (R25). -/
  now : Word
  cr : CrState
  tr : Transport
  /-- MODEL's own: the value the last Host CPU read returned. -/
  rdata : Word
  /-- MODEL's own: what the environment answers in the step being taken. -/
  env : Env
  /-- MODEL's own: the turns still to be taken. -/
  script : List Turn
  /-- MODEL's own: how many free turns have been drawn. -/
  turns : Nat
  deriving DecidableEq, Repr

/-- The model faults (spec/60_exceptions.md R330). A step that faults has no next state: the terminal `Faulted(F)`.
Each is safe: a program is correct for SKEL-TWB only if no run of it reaches `Faulted`. -/
inductive Fault where
  /-- A Host CPU access at an address or width the window does not permit (R72). Raised by the window. Safe. -/
  | badAccess
  /-- A Host CPU write to a unit that is busy, or to a framer register the Command Responder owns (R331). Raised by
  the window. Safe. -/
  | busyWrite
  /-- A read of a buffer byte that holds no value (R42), by the Host CPU or by a unit. Raised by the window, by
  REG_WRITE, READ_PACKET, WRITE_PACKET and the responder's dispatch. Safe. -/
  | unwrittenRead
  deriving DecidableEq, Repr

/-- Why a step gives no meaning. -/
inductive Refusal where
  /-- The instruction has no meaning in the model yet. No arm of `exec` answers it. Safe. -/
  | notModelled (mnemonic : String)
  /-- The parameters break a constraint of spec/43_responder.md R289 or spec/00_scope.md R8, which
  spec/93_implementation_defined.md rows 21 and 22 say a model refuses before running. Raised by `step`. Safe. -/
  | badParameters
  deriving DecidableEq, Repr

/-! ### Reset values -/

/-- The Bus Engine after reset (R38, R42). -/
def BusEngine.reset : BusEngine where
  opened := false
  needRecov := false
  sclOut := true
  sdaOut := true
  arb := false
  code := .ok
  rxBit := false
  rxByte := 0
  pulses := 0
  xcnt := 0
  arbAbort := false
  stretchBound := false
  stretchLimit := 0xFFFF
  buf := []
  pos := .idle
  priv := {}

/-- The Packet Framer after reset (R39, R42). -/
def Framer.reset : Framer where
  buf := []
  result := .ok
  count := 0
  checksum := 0
  strict := false
  deadline := 0
  pos := .idle

/-- The environment's answers before any turn. DESIGN CHOICE (unsafe), assumption log 15: both lines high, nothing
else. No statement rests on them. -/
def idleEnv : Env where
  scl := true
  sda := true
  arriving := []
  count := 0
  ready := false
  resetOk := false
  identOk := false
  uidOk := false
  uid0 := 0
  uid1 := 0
  uid2 := 0
  uid3 := 0
  anyValue := 0

/-- The machine right after reset, for the parameters `p` (R360, R38 to R42). The fields that are not block state
(`tr`, `rdata`, `env`, `script`, `turns`) hold DESIGN CHOICE values, assumption log 1 and 15. -/
def State.resetOf (p : Params) : State where
  par := p
  be := .reset
  pf := .reset
  now := 0
  cr := .waitReady
  tr := { rx := [], tx := [] }
  rdata := 0
  env := idleEnv
  script := []
  turns := 0

/-- The machine right after reset. Its parameter record is a DESIGN CHOICE, assumption log 3. -/
def State.reset : State := State.resetOf Config.defaultParams

end Sys2Proof.Machine
end

