-- ==== Sys2Proof/Machine/Operands.lean ====
section
/-! DEFINITION. Operand forms: bus address bytes, the bit order of the bus, little-endian bytes of a value, the words
of the unique id (spec/20_memory.md R71, R77, R78; spec/30_encoding.md R105; spec/43_responder.md R291, R292). -/

namespace Sys2Proof.Machine

/-- `addr_w = dev || 0` (spec/30_encoding.md R105). -/
def addrWrite (dev : BitVec 7) : Byte := dev ++ 0#1

/-- `addr_r = dev || 1` (R105). -/
def addrRead (dev : BitVec 7) : Byte := dev ++ 1#1

/-- The bits of a byte, most significant first (spec/20_memory.md R78, spec/40_bus_primitives.md R162). -/
def bitsMsbFirst (d : Byte) : List Bool :=
  [7, 6, 5, 4, 3, 2, 1, 0].map d.getLsbD

/-- `((v << 1) | bit) mod 256` (R165). -/
def shiftBit (v : Byte) (bit : Bool) : Byte :=
  (v <<< 1) ||| (BitVec.ofBool bit).setWidth 8

/-- Byte `i` of a word, byte 0 the least significant (spec/20_memory.md R71). -/
def wordByte (v : Word) (i : Nat) : Byte := v.extractLsb' (8 * i) 8

/-- The `n` low bytes of a word, least significant first (R71). -/
def leBytes (n : Nat) (v : Word) : List Byte := (List.range n).map (wordByte v)

/-- The word whose bytes, least significant first, are those of the list (R71); bytes past the fourth are dropped. -/
def leWord : List Byte → Word
  | [] => 0
  | b :: rest => (leWord rest <<< 8) ||| b.setWidth 32

/-- The low `n` bytes of a word as a value of `n` bytes (an access of width `n`, spec/20_memory.md R76). -/
def truncateTo (n : Nat) (v : Word) : Word := leWord (leBytes (min n 4) v)

/-- `f[7:0]` of a 16-bit value. -/
def lowByte (v : Half) : Byte := v.extractLsb' 0 8

/-- `f[15:8]` of a 16-bit value. -/
def highByte (v : Half) : Byte := v.extractLsb' 8 8

/-- Word `j` that `UidRead()` draws (R291). -/
def uidDraw (e : Env) : Nat → Word
  | 0 => e.uid0
  | 1 => e.uid1
  | 2 => e.uid2
  | 3 => e.uid3
  | _ => 0

/-- Word `j` of the SSN payload: `u[j]` for `j < UID_WORDS`, else 0 (R291). -/
def uidSlot (p : Params) (e : Env) (j : Nat) : Word :=
  if j < p.uidWords then uidDraw e j else 0

/-- The SSN payload (R291, spec/30_encoding.md R120): count, three reserved zeros, four little-endian words. -/
def ssnPayload (p : Params) (e : Env) : List Byte :=
  [BitVec.ofNat 8 p.uidWords, 0, 0, 0]
    ++ leBytes 4 (uidSlot p e 0) ++ leBytes 4 (uidSlot p e 1) ++ leBytes 4 (uidSlot p e 2) ++ leBytes 4 (uidSlot p e 3)

/-- The unique id's bytes, `4 * UID_WORDS` of them, little-endian per word (R292). -/
def uidBytes (p : Params) (e : Env) : List Byte :=
  ((List.range p.uidWords).map fun j => leBytes 4 (uidDraw e j)).flatten

/-- The fingerprint: the first six bytes of the digest of the unique id (R292, spec/30_encoding.md R121). -/
def fingerprint (p : Params) (e : Env) : List Byte :=
  let d := Config.digest (uidBytes p e)
  [d 0, d 1, d 2, d 3, d 4, d 5]

/-- The ID payload (spec/43_responder.md R289, spec/30_encoding.md R119). -/
def identPayload (x : Ident) : List Byte :=
  [x.productId, x.protocolVersion, x.fwMajor, x.fwMinor, lowByte x.fwBuild, highByte x.fwBuild, 8]
    ++ x.buildHash ++ [BitVec.ofNat 8 x.buildInfo.length] ++ x.buildInfo

/-- A string field of `IDENT` ends in 0x00. -/
def nullTerminated (bs : List Byte) : Bool := bs.getLast? == some 0

/-- The constraints of R289 on `IDENT`: a hash of 8 bytes and an info string of 1 to 220 bytes, each ending in 0x00. -/
def identOk (x : Ident) : Bool :=
  x.buildHash.length == 8 && nullTerminated x.buildHash
    && 1 ≤ x.buildInfo.length && x.buildInfo.length ≤ 220 && nullTerminated x.buildInfo

/-- The constraints of spec/00_scope.md R8 and R289 on the parameters: `BLK_BASE` a multiple of 0x400, `T_HALF > 0`,
`UID_WORDS` in 1..4, and `IDENT` as above. -/
def paramsOk (p : Params) : Bool :=
  p.blkBase % 0x400 == 0 && 0 < p.tHalf && 1 ≤ p.uidWords && p.uidWords ≤ 4 && identOk p.ident

end Sys2Proof.Machine
end

