-- ==== Sys2Proof/Machine/Flags.lean ====
section
/-! DEFINITION. Status bits and status words: busy flags, the numeric codes (spec/60_exceptions.md R321, R322), the
register words (spec/10_state.md R31 to R35), and the deadline tests (spec/42_framer.md R232). -/

namespace Sys2Proof.Machine

/-- `BUSY` (spec/10_state.md R20): 1 exactly when the sequencer is not idle (R27, R38). -/
def BusEngine.busy (b : BusEngine) : Bool :=
  match b.pos with
  | .idle => false
  | .latched _ => true
  | .running _ _ => true

/-- `PF_BUSY` (R24). -/
def Framer.busy (f : Framer) : Bool :=
  match f.pos with
  | .idle => false
  | .latched _ _ => true
  | .running _ _ _ => true

/-- The number of a `CODE` value (spec/60_exceptions.md R321). -/
def BusCode.bits : BusCode → BitVec 4
  | .ok => 0
  | .addrNak => 1
  | .regNak => 2
  | .writeFail => 3
  | .stretchTimeout => 4
  | .arbLost => 5
  | .recoveryFail => 6
  | .argError => 7
  | .illegalCmd => 8
  | .recoveryRequired => 9

/-- The number of a `RESULT` value (R322). -/
def FramerResult.bits : FramerResult → BitVec 4
  | .ok => 0
  | .timeout => 1
  | .framingError => 2
  | .checksumError => 3
  | .partialWrite => 4
  | .illegalCmd => 5

/-- `Sample(l)` (spec/40_bus_primitives.md R142): 0 when the master drives the line low, else the peers' level. -/
def BusEngine.sample (e : Env) (b : BusEngine) : Line → Bool
  | .scl => b.sclOut && e.scl
  | .sda => b.sdaOut && e.sda

/-- `BE_STATUS` as a read assembles it (spec/10_state.md R31), bit 31 first. -/
def BusEngine.statusWord (e : Env) (b : BusEngine) : Word :=
  0#4 ++ b.pulses ++ 0#3 ++ BitVec.ofBool b.needRecov
    ++ BitVec.ofBool b.sdaOut ++ BitVec.ofBool b.sclOut
    ++ BitVec.ofBool (b.sample e .sda) ++ BitVec.ofBool (b.sample e .scl)
    ++ b.rxByte ++ b.code.bits
    ++ BitVec.ofBool b.arb ++ BitVec.ofBool b.rxBit ++ BitVec.ofBool b.opened ++ BitVec.ofBool b.busy

/-- `BE_CONFIG` (R32). -/
def BusEngine.configWord (b : BusEngine) : Word :=
  b.stretchLimit ++ 0#14 ++ BitVec.ofBool b.stretchBound ++ BitVec.ofBool b.arbAbort

/-- `BE_XCNT` (R33). -/
def BusEngine.xcntWord (b : BusEngine) : Word := 0#16 ++ b.xcnt

/-- `PF_STATUS` (R35). -/
def Framer.statusWord (f : Framer) : Word :=
  f.checksum ++ f.count ++ f.result.bits ++ 0#3 ++ BitVec.ofBool f.busy

/-- `PF_CONFIG` (R35). -/
def Framer.configWord (f : Framer) : Word := 0#31 ++ BitVec.ofBool f.strict

/-- `elapsed()`: the modular difference (spec/42_framer.md R232). -/
def Latch.elapsed (l : Latch) (now : Word) : Word := now - l.t0

/-- `expired()` (R232): there is a deadline and the elapsed time has reached it. -/
def Latch.expired (l : Latch) (now : Word) : Bool := l.d != 0 && l.d ≤ l.elapsed now

/-- `remaining()` (R232), `none` for INF. -/
def Latch.remaining (l : Latch) (now : Word) : Option Word :=
  if l.d = 0 then none else some (if l.expired now then 0 else l.d - l.elapsed now)

/-- The bound of the clock-stretch wait in low samples, `max(STRETCH_LIMIT, 1)` (spec/40_bus_primitives.md R146). -/
def BusEngine.stretchMax (b : BusEngine) : Nat := max b.stretchLimit.toNat 1

end Sys2Proof.Machine
end

