-- ==== Sys2Proof/Machine/Ops.lean ====
section
/-! DEFINITION. The named operations over buffers, lines, results and streams that the meanings share. SKEL-TWB takes no
trap (spec/60_exceptions.md R334), so there is no exception entry: the one shared way a command ends is `finish_BE` and
`finish_PF` (R320), with `abort` (spec/40_bus_primitives.md R148) ahead of it. -/

namespace Sys2Proof.Machine

/-! ### Buffers (spec/10_state.md R42) -/

/-- Byte `a` of a buffer, `none` when it holds no value (R42). -/
def Memory.read (m : Memory) (a : Nat) : Option Byte :=
  match m with
  | [] => none
  | (k, b) :: rest => if k = a then some b else Memory.read rest a

/-- Write byte `a`, keeping the indices strictly rising. -/
def Memory.write (m : Memory) (a : Nat) (v : Byte) : Memory :=
  match m with
  | [] => [(a, v)]
  | (k, b) :: rest =>
    if a < k then (a, v) :: (k, b) :: rest
    else if a = k then (a, v) :: rest
    else (k, b) :: Memory.write rest a v

/-- Write byte `a` of a buffer of `size` bytes; an index past its end is dropped. -/
def Memory.put (size : Nat) (m : Memory) (a : Nat) (v : Byte) : Memory :=
  if a < size then m.write a v else m

/-- Write bytes from index `a` upward. -/
def Memory.putBytes (size : Nat) (m : Memory) (a : Nat) : List Byte → Memory
  | [] => m
  | b :: rest => Memory.putBytes size (m.put size a b) (a + 1) rest

/-- Bytes `a .. a+n-1`, `none` when one of them holds no value. -/
def Memory.readBytes (m : Memory) (a : Nat) : Nat → Option (List Byte)
  | 0 => some []
  | n + 1 =>
    match m.read a, Memory.readBytes m (a + 1) n with
    | some b, some bs => some (b :: bs)
    | _, _ => none

/-- The canonical form: every index from `lo` up, below `size`, and strictly rising. -/
def Memory.wfFrom (size lo : Nat) : Memory → Bool
  | [] => true
  | (k, _) :: rest => lo ≤ k && k < size && Memory.wfFrom size (k + 1) rest

/-- The canonical form of a buffer of `size` bytes. -/
def Memory.wf (size : Nat) (m : Memory) : Bool := Memory.wfFrom size 0 m

/-- A buffer of `size` zero bytes (spec/43_responder.md R282, step 2). -/
def Memory.zeros (size : Nat) : Memory := (List.range size).map fun i => (i, 0)

/-- `BEBUF[i] <- v`. -/
def BusEngine.putByte (b : BusEngine) (i : Nat) (v : Byte) : BusEngine :=
  { b with buf := b.buf.put Config.beBufBytes i v }

/-- `PFBUF[a ..] <- bs`; bytes past index 253 are dropped (spec/20_memory.md R75). -/
def Framer.putBytes (f : Framer) (a : Nat) (bs : List Byte) : Framer :=
  { f with buf := f.buf.putBytes Config.pfBufBytes a bs }

/-! ### Lines (spec/40_bus_primitives.md R143) -/

/-- `Release(l)`: `ST.l_OUT <- 1`; the delay changes no state. -/
def BusEngine.release (b : BusEngine) : Line → BusEngine
  | .scl => { b with sclOut := true }
  | .sda => { b with sdaOut := true }

/-- `DriveLow(l)`: `ST.l_OUT <- 0`; the delay changes no state. -/
def BusEngine.driveLow (b : BusEngine) : Line → BusEngine
  | .scl => { b with sclOut := false }
  | .sda => { b with sdaOut := false }

/-! ### Starting and ending a Bus Engine command -/

/-- The completion fields a command writes (spec/41_bus_composite.md R191). -/
inductive Publish where
  /-- START, STOP, WRITE_BIT, and every ending decided before a line operation. -/
  | nothing
  /-- INIT: `PULSES`, and `XCNT <- 0`. -/
  | pulses
  /-- READ_BIT, WRITE_BYTE: `RXBIT`. -/
  | bit
  /-- READ_BYTE: `RXBYTE`. -/
  | byte
  /-- REG_WRITE, REG_READ: `XCNT`. -/
  | xcnt
  deriving DecidableEq, Repr

/-- The completion fields written on an abort (R191): the value of READ_BIT, WRITE_BYTE and READ_BYTE is not yet known
then, and their field is left unchanged. -/
def Publish.onAbort : Publish → Publish
  | .nothing => .nothing
  | .pulses => .pulses
  | .bit => .nothing
  | .byte => .nothing
  | .xcnt => .xcnt

/-- Copy the private results of a command to its completion fields (R191, spec/10_state.md R37). -/
def BusEngine.publish (b : BusEngine) : Publish → BusEngine
  | .nothing => b
  | .pulses => { b with pulses := b.priv.pulses, xcnt := 0 }
  | .bit => { b with rxBit := b.priv.bit }
  | .byte => { b with rxByte := b.priv.byte }
  | .xcnt => { b with xcnt := b.priv.xcnt }

/-- `finish_BE(c)` (spec/60_exceptions.md R320): publish, write `CODE`, clear `BUSY`. The private copies are gone with
the command. -/
def BusEngine.finish (b : BusEngine) (pub : Publish) (c : BusCode) : BusEngine :=
  { b.publish pub with code := c, pos := .idle, priv := {} }

/-- The end of `abort(c)` after both lines are released (spec/40_bus_primitives.md R148). -/
def BusEngine.endAbort (b : BusEngine) (pub : Publish) (c : BusCode) : BusEngine :=
  { b with opened := false, needRecov := true }.finish pub.onAbort c

/-- `start_BE(w)` (spec/41_bus_composite.md R190): set `BUSY` and latch the command word. -/
def BusEngine.startCommand (b : BusEngine) (w : Word) : BusEngine := { b with pos := .latched w }

/-! ### Starting and ending a Packet Framer command -/

/-- What a framer command started now latches (spec/42_framer.md R238). Assumption log 6. -/
def Framer.latchNow (f : Framer) (now : Word) : Latch := { t0 := now, d := f.deadline, strict := f.strict }

/-- `start_PF(w)` (R237): set `PF_BUSY`, latch the word and what R238 names. -/
def Framer.startCommand (f : Framer) (now w : Word) : Framer := { f with pos := .latched w (f.latchNow now) }

/-- `finish_PF(r, count)` (spec/60_exceptions.md R320): `none` leaves `COUNT`, or `CALC`, unchanged. -/
def Framer.finish (f : Framer) (r : FramerResult) (count : Option Byte) (csum : Option Half) : Framer :=
  { f with result := r, count := count.getD f.count, checksum := csum.getD f.checksum, pos := .idle }

/-! ### Checksum Unit (spec/42_framer.md R243, R245) -/

/-- One byte of Fletcher-16: both sums modulo 255. -/
def fletcherStep (s : Nat × Nat) (b : Byte) : Nat × Nat :=
  let s1 := (s.1 + b.toNat) % 255
  (s1, (s.2 + s1) % 255)

/-- `FLETCHER16` (R243): `(s2 << 8) | s1`. -/
def fletcher16 (bs : List Byte) : Half :=
  let s := bs.foldl fletcherStep (0, 0)
  BitVec.ofNat 8 s.2 ++ BitVec.ofNat 8 s.1

/-- `CHECKSUM_FN` (R243). -/
def checksumOf : ChecksumFn → List Byte → Half
  | .fletcher16, bs => fletcher16 bs
  | .other k, bs => Config.otherChecksum k bs

/-- `PKT_CHECKSUM(len)` over a packet buffer (R245): the checksum field is taken as zero and not read; `none` when
another byte of the packet holds no value. -/
def pktChecksum (fn : ChecksumFn) (m : Memory) (len : Nat) : Option Half :=
  match m.readBytes 0 2, m.readBytes 4 (len - 4) with
  | some h, some p => some (checksumOf fn (h ++ [0, 0] ++ p))
  | _, _ => none

/-! ### Transport (spec/42_framer.md R236) -/

/-- `Transport.read` for at most `max` bytes: the bytes returned and the transport after it. The environment lets bytes
arrive and answers a count. -/
def Transport.readCall (t : Transport) (e : Env) (max : Nat) : List Byte × Transport :=
  let held := t.rx ++ e.arriving
  let k := min e.count max
  (held.take k, { t with rx := held.drop k })

/-- `Transport.write` of the bytes accepted: they are appended, in order, to the outgoing stream. -/
def Transport.accept (t : Transport) (bs : List Byte) : Transport := { t with tx := t.tx ++ bs }

/-! ### Reset (spec/70_reset_and_hazards.md R360) -/

/-- The reset input: every element of block state to its reset value. The parameters, the transport's bytes and the
model's own fields are not block state. -/
def State.applyReset (s : State) : State :=
  { s with be := .reset, pf := .reset, now := 0, cr := .waitReady }

end Sys2Proof.Machine
end

