-- ==== Sys2Proof/Machine/Sequencer.lean ====
section
/-! DEFINITION. The Bus Engine's procedures as lists of operations, and one step of its sequencer
(spec/40_bus_primitives.md R141 to R165, spec/41_bus_composite.md R190 to R203). -/

namespace Sys2Proof.Machine

/-! ### Procedures -/

/-- `LO(l)`: read the line, then drive it low (R144). -/
def loOps (l : Line) : List BusOp := [.sample l, .driveLow l]

/-- `HI(SCL); WAIT_SCL()`. -/
def raiseScl : List BusOp := [.release .scl, .waitScl 0]

/-- START (R150), `repeated` when a transaction is open. -/
def startOps (repeated : Bool) : List BusOp :=
  (if repeated then .release .sda :: raiseScl else [])
    ++ [.startCheck, .driveLow .sda] ++ loOps .scl ++ [.setOpen true]

/-- STOP (R153). -/
def stopOps : List BusOp :=
  loOps .sda ++ raiseScl ++ [.release .sda, .arbCheck, .setOpen false]

/-- WRITE_BIT (R156). -/
def writeBitOps (b : Bool) : List BusOp :=
  (if b then [.release .sda] else loOps .sda) ++ raiseScl
    ++ (if b then [.arbCheck] else []) ++ loOps .scl

/-- READ_BIT (R159). -/
def readBitOps : List BusOp :=
  .release .sda :: raiseScl ++ [.readBit] ++ loOps .scl

/-- WRITE_BYTE (R162). -/
def writeByteOps (d : Byte) : List BusOp :=
  (bitsMsbFirst d).flatMap writeBitOps ++ readBitOps

/-- READ_BYTE (R165). -/
def readByteOps (k : Bool) : List BusOp :=
  (List.replicate 8 (readBitOps ++ [.shiftIn])).flatten ++ writeBitOps k

/-- `SEND(d, err)` (spec/41_bus_composite.md R197). -/
def sendOps (d : Byte) (err : BusCode) : List BusOp := writeByteOps d ++ [.ackTest err]

/-- INIT (R192). -/
def initOps : List BusOp := [.setOpen false, .release .sda, .release .scl, .initScl 0]

/-- One recovery pulse of INIT and the samples after it; there is no `WAIT_SCL` (R192, R193). -/
def pulseOps (p : Nat) : List BusOp := loOps .scl ++ [.release .scl, .initScl p]

/-- REG_WRITE (R198). -/
def regWriteOps (dev : BitVec 7) (reg : Byte) (n : Byte) : List BusOp :=
  .startTest :: sendOps (addrWrite dev) .addrNak ++ sendOps reg .regNak
    ++ .sendLoop 0 n.toNat :: stopOps ++ [.finish .ok]

/-- REG_READ (R203). -/
def regReadOps (dev : BitVec 7) (reg : Byte) (n : Byte) : List BusOp :=
  if n = 0 then [.reject .argError]
  else
    .startTest :: sendOps (addrWrite dev) .addrNak ++ sendOps reg .regNak
      ++ .startTest :: sendOps (addrRead dev) .addrNak
      ++ .readLoop 0 n.toNat :: stopOps ++ [.finish .ok]

/-- `abort(c)` (R148). -/
def abortOps (c : BusCode) : List BusOp := [.release .sda, .release .scl, .abortEnd c]

/-! ### The sequencer -/

/-- The operations of the command in progress become `todo`. -/
def BusEngine.withTodo (b : BusEngine) (todo : List BusOp) : BusEngine :=
  match b.pos with
  | .idle => { b with pos := .running 0 todo }
  | .latched w => { b with pos := .running w todo }
  | .running w _ => { b with pos := .running w todo }

/-- Run the internal operations at the head of `todo`, which take no step (R141), up to the next line operation or the
command's end. `sendLoop` waits with a byte to send: its read of `BEBUF` belongs to the step that begins the byte
(spec/20_memory.md R83). Assumption log 5. -/
def settle (pub : Publish) : List BusOp → BusEngine → BusEngine
  | .startTest :: r, b => b.withTodo (startOps b.opened ++ r)
  | .shiftIn :: r, b =>
    settle pub r { b with priv := { b.priv with byte := shiftBit b.priv.byte b.priv.bit } }
  | .setOpen v :: r, b => settle pub r { b with opened := v }
  | .ackTest err :: r, b =>
    if b.priv.bit then b.withTodo (stopOps ++ [.finish err])
    else settle pub r { b with priv := { b.priv with xcnt := b.priv.xcnt + 1 } }
  | .storeByte i :: r, b =>
    settle pub r { b.putByte i b.priv.byte with priv := { b.priv with xcnt := b.priv.xcnt + 1 } }
  | .sendLoop i n :: r, b => if i < n then b.withTodo (.sendLoop i n :: r) else settle pub r b
  | .readLoop i n :: r, b =>
    if i < n then
      { b with priv := { b.priv with byte := 0 } }.withTodo
        (readByteOps (i + 1 == n) ++ [BusOp.storeByte i, .readLoop (i + 1) n] ++ r)
    else settle pub r b
  | .finish c :: _, b => b.finish pub c
  | .reject c :: _, b => b.finish .nothing c
  | .abortEnd c :: _, b => b.endAbort pub c
  | todo, b => b.withTodo todo

/-- `ARB_LOST_HOOK()` (R147) with `r` still to do: `ARB <- 1`, and an abort when `ARB_ABORT = 1`. -/
def arbLost (pub : Publish) (r : List BusOp) (b : BusEngine) : BusEngine :=
  if b.arbAbort then { b with arb := true }.withTodo (abortOps .arbLost)
  else settle pub r { b with arb := true }

/-- One sample of `WAIT_SCL` after `lows` low ones (R146). -/
def waitStep (pub : Publish) (e : Env) (lows : Nat) (r : List BusOp) (b : BusEngine) : BusEngine :=
  if b.sample e .scl then settle pub r b
  else if b.stretchBound && b.stretchMax ≤ lows + 1 then b.withTodo (abortOps .stretchTimeout)
  else b.withTodo (.waitScl (lows + 1) :: r)

/-- INIT's loop test after its two samples (R192). -/
def initTest (pub : Publish) (p : Nat) (scl sda : Bool) (b : BusEngine) : BusEngine :=
  if scl && sda then
    { b with needRecov := false, priv := { b.priv with pulses := BitVec.ofNat 4 p } }.finish pub .ok
  else if p < Config.recoveryMaxPulses then b.withTodo (pulseOps (p + 1))
  else
    { b with needRecov := true, priv := { b.priv with pulses := 9 } }.finish pub .recoveryFail

/-- One line micro-operation (R141) and the internal operations after it. -/
def lineStep (pub : Publish) (e : Env) : List BusOp → BusEngine → BusEngine
  | .release l :: r, b => settle pub r (b.release l)
  | .sample _ :: r, b => settle pub r b
  | .driveLow l :: r, b => settle pub r (b.driveLow l)
  | .waitScl lows :: r, b => waitStep pub e lows r b
  | .startCheck :: r, b => if b.sample e .sda then settle pub r b else arbLost pub r b
  | .arbCheck :: r, b => if b.sample e .sda then settle pub r b else arbLost pub r b
  | .readBit :: r, b => settle pub r { b with priv := { b.priv with bit := b.sample e .sda } }
  | .initScl p :: _, b => b.withTodo [.initSda p (b.sample e .scl)]
  | .initSda p scl :: _, b => initTest pub p scl (b.sample e .sda) b
  | todo, b => settle pub todo b

/-- One step of the Bus Engine on a command in progress. REG_WRITE's next data byte is read when it is reached (R198);
a byte that holds no value is the fault `UnwrittenRead` (spec/10_state.md R42). -/
def sequencerStep (pub : Publish) (todo : List BusOp) (s : State) : Host.Outcome State Fault Refusal :=
  match todo with
  | .sendLoop i n :: r =>
    if i < n then
      match s.be.buf.read i with
      | none => .fault .unwrittenRead
      | some d =>
        .next { s with be := lineStep pub s.env (sendOps d .writeFail ++ .sendLoop (i + 1) n :: r) s.be }
    else .next { s with be := lineStep pub s.env todo s.be }
  | _ => .next { s with be := lineStep pub s.env todo s.be }

/-- The command of word `w` begins: its procedure's first internal operations are run. -/
def BusEngine.begin (b : BusEngine) (w : Word) (pub : Publish) (ops : List BusOp) : BusEngine :=
  settle pub ops { b with pos := .running w [], priv := {} }

/-- One step of the Bus Engine agent on the command of word `w` with procedure `ops` (`run_BE`,
spec/41_bus_composite.md R190). A command other than INIT is refused while `NEED_RECOV = 1`; an ending decided before
any line operation takes a step of its own. From a position that is not in the command's procedure, the command begins
(assumption log 11). -/
def busTurn (w : Word) (pub : Publish) (isInit : Bool) (ops : List BusOp) (s : State) :
    Host.Outcome State Fault Refusal :=
  match s.be.pos with
  | .running _ todo => sequencerStep pub todo s
  | _ =>
    if s.be.needRecov && !isInit then .next { s with be := s.be.finish .nothing .recoveryRequired }
    else
      let b := s.be.begin w pub ops
      match b.pos with
      | .running _ todo => sequencerStep pub todo { s with be := b }
      | _ => .next { s with be := b }

end Sys2Proof.Machine
end

