-- ==== Sys2Proof/Machine/BusComposite.lean ====
section
/-! DEFINITION. Bus recovery and register I/O (spec/41_bus_composite.md R192, R198, R203). Each meaning is one step of
the Bus Engine agent on that command. -/

namespace Sys2Proof.Machine

/-- INIT (R192), the only command accepted while `NEED_RECOV = 1`. -/
def execInit (s : State) : Host.Outcome State Fault Refusal :=
  busTurn (encode .init) .pulses true initOps s

/-- REG_WRITE (R198). -/
def execRegWrite (dev : BitVec 7) (reg n : Byte) (s : State) : Host.Outcome State Fault Refusal :=
  busTurn (encode (.regWrite dev reg n)) .xcnt false (regWriteOps dev reg n) s

/-- REG_READ (R203). -/
def execRegRead (dev : BitVec 7) (reg n : Byte) (s : State) : Host.Outcome State Fault Refusal :=
  busTurn (encode (.regRead dev reg n)) .xcnt false (regReadOps dev reg n) s

end Sys2Proof.Machine
end

