-- ==== Sys2Proof/Machine/BusPrimitives.lean ====
section
/-! DEFINITION. The primitive Bus Engine commands (spec/40_bus_primitives.md R150 to R165). Each meaning is one step of
the Bus Engine agent on that command: one line micro-operation (R141). -/

namespace Sys2Proof.Machine

/-- START as a command (R150). -/
def startProcedure : List BusOp := [.startTest, .finish .ok]
/-- STOP as a command (R153). -/
def stopProcedure : List BusOp := stopOps ++ [.finish .ok]
/-- WRITE_BIT as a command (R156). -/
def writeBitProcedure (b : Bool) : List BusOp := writeBitOps b ++ [.finish .ok]
/-- READ_BIT as a command (R159). -/
def readBitProcedure : List BusOp := readBitOps ++ [.finish .ok]
/-- WRITE_BYTE as a command (R162). -/
def writeByteProcedure (d : Byte) : List BusOp := writeByteOps d ++ [.finish .ok]
/-- READ_BYTE as a command (R165). -/
def readByteProcedure (k : Bool) : List BusOp := readByteOps k ++ [.finish .ok]

/-- START (R150). -/
def execStart (s : State) : Host.Outcome State Fault Refusal :=
  busTurn (encode .start) .nothing false startProcedure s

/-- STOP (R153). -/
def execStop (s : State) : Host.Outcome State Fault Refusal :=
  busTurn (encode .stop) .nothing false stopProcedure s

/-- WRITE_BIT (R156). -/
def execWriteBit (b : Bool) (s : State) : Host.Outcome State Fault Refusal :=
  busTurn (encode (.writeBit b)) .nothing false (writeBitProcedure b) s

/-- READ_BIT (R159). -/
def execReadBit (s : State) : Host.Outcome State Fault Refusal :=
  busTurn (encode .readBit) .bit false readBitProcedure s

/-- WRITE_BYTE (R162). -/
def execWriteByte (d : Byte) (s : State) : Host.Outcome State Fault Refusal :=
  busTurn (encode (.writeByte d)) .bit false (writeByteProcedure d) s

/-- READ_BYTE (R165). -/
def execReadByte (k : Bool) (s : State) : Host.Outcome State Fault Refusal :=
  busTurn (encode (.readByte k)) .byte false (readByteProcedure k) s

end Sys2Proof.Machine
end

