-- ==== Sys2Proof/Machine/Framer.lean ====
section
/-! DEFINITION. The Packet Framer's commands (spec/42_framer.md R236 to R251). Each meaning is one step of the Packet
Framer agent on that command: one transport call, or an ending decided before one. -/

namespace Sys2Proof.Machine

/-- A framer result with the rest of the state unchanged. -/
def finishFramer (s : State) (r : FramerResult) (count : Option Byte) (csum : Option Half) :
    Host.Outcome State Fault Refusal :=
  .next { s with pf := s.pf.finish r count csum }

/-- What the framer command in progress latched (R238); from the idle position it would latch now. -/
def Framer.latch (f : Framer) (now : Word) : Latch :=
  match f.pos with
  | .idle => f.latchNow now
  | .latched _ l => l
  | .running _ l _ => l

/-- The packet of `len` bytes is complete (R239): in strict mode its checksum is computed over `PFBUF` and compared
with bytes 2 and 3 (R244, R245). -/
def completePacket (l : Latch) (len : Nat) (s : State) : Host.Outcome State Fault Refusal :=
  if l.strict then
    match pktChecksum s.par.checksumFn s.pf.buf len, s.pf.buf.readBytes 2 2 with
    | some c, some field =>
      if [lowByte c, highByte c] = field then finishFramer s .ok (some (BitVec.ofNat 8 len)) (some c)
      else finishFramer s .checksumError (some 0) (some c)
    | _, _ => .fault .unwrittenRead
  else finishFramer s .ok (some (BitVec.ofNat 8 len)) none

/-- After `got` bytes of a packet of `len` are in: more are needed, or the packet is complete (R239). -/
def payloadTest (w : Word) (l : Latch) (len got : Nat) (s : State) : Host.Outcome State Fault Refusal :=
  if got < len then .next { s with pf := { s.pf with pos := .running w l (.payload len got) } }
  else completePacket l len s

/-- After `got` header bytes are in: more are needed, or the length byte is judged (R239, R241). -/
def headerTest (w : Word) (l : Latch) (got : Nat) (s : State) : Host.Outcome State Fault Refusal :=
  if got < Config.hdrBytes then .next { s with pf := { s.pf with pos := .running w l (.header got) } }
  else
    match s.pf.buf.read 0 with
    | none => .fault .unwrittenRead
    | some len =>
      if len.toNat < Config.hdrBytes ∨ Config.maxLen < len.toNat then finishFramer s .framingError (some 0) none
      else payloadTest w l len.toNat got s

/-- `got <- got + Transport.read(got, want - got, remaining())` (R236, R239): the state after the call and the new
`got`. -/
def receive (got want : Nat) (s : State) : State × Nat :=
  let r := s.tr.readCall s.env (want - got)
  ({ s with tr := r.2, pf := s.pf.putBytes got r.1 }, got + r.1.length)

/-- One pass of READ_PACKET's header loop: the expiry test immediately before the call (R233), then the call. -/
def headerTurn (w : Word) (l : Latch) (got : Nat) (s : State) : Host.Outcome State Fault Refusal :=
  if l.expired s.now then finishFramer s .timeout (some 0) none
  else
    let r := receive got Config.hdrBytes s
    headerTest w l r.2 r.1

/-- One pass of READ_PACKET's payload loop. -/
def payloadTurn (w : Word) (l : Latch) (len got : Nat) (s : State) : Host.Outcome State Fault Refusal :=
  if l.expired s.now then finishFramer s .timeout (some 0) none
  else
    let r := receive got len s
    payloadTest w l len r.2 r.1

/-- READ_PACKET (R239). -/
def execReadPacket (s : State) : Host.Outcome State Fault Refusal :=
  let w := encode .readPacket
  let l := s.pf.latch s.now
  match s.pf.pos with
  | .running _ _ (.header got) => headerTurn w l got s
  | .running _ _ (.payload len got) => payloadTurn w l len got s
  | _ => headerTurn w l 0 s

/-- One pass of WRITE_PACKET's loop (R249): the expiry test, then `Transport.write(sent, len - sent, remaining())`.
The accepted bytes are read from `PFBUF`; one that holds no value is the fault `UnwrittenRead`. -/
def sendTurn (w : Word) (l : Latch) (len sent : Nat) (csum : Option Half) (s : State) :
    Host.Outcome State Fault Refusal :=
  if l.expired s.now then finishFramer s .partialWrite (some (BitVec.ofNat 8 sent)) csum
  else
    let k := min s.env.count (len - sent)
    match s.pf.buf.readBytes sent k with
    | none => .fault .unwrittenRead
    | some bs =>
      let s1 := { s with tr := s.tr.accept bs }
      if sent + k < len then
        .next { s1 with pf := { s1.pf with pos := .running w l (.sending len (sent + k) csum) } }
      else finishFramer s1 .ok (some (BitVec.ofNat 8 len)) csum

/-- WRITE_PACKET's length check and, in strict mode, its checksum (R249), then the first pass of its loop. -/
def beginWrite (w : Word) (l : Latch) (s : State) : Host.Outcome State Fault Refusal :=
  match s.pf.buf.read 0 with
  | none => .fault .unwrittenRead
  | some len =>
    if len.toNat < Config.hdrBytes ∨ Config.maxLen < len.toNat then finishFramer s .framingError (some 0) none
    else if l.strict then
      match pktChecksum s.par.checksumFn s.pf.buf len.toNat with
      | none => .fault .unwrittenRead
      | some c =>
        sendTurn w l len.toNat 0 (some c) { s with pf := s.pf.putBytes 2 [lowByte c, highByte c] }
    else sendTurn w l len.toNat 0 none s

/-- WRITE_PACKET (R249). -/
def execWritePacket (s : State) : Host.Outcome State Fault Refusal :=
  let w := encode .writePacket
  let l := s.pf.latch s.now
  match s.pf.pos with
  | .running _ _ (.sending len sent csum) => sendTurn w l len sent csum s
  | _ => beginWrite w l s

/-- The ending of a `PF_CMD` word that is neither READ_PACKET nor WRITE_PACKET (spec/30_encoding.md R114): one step, no
transport call, `COUNT` and `CALC` unchanged. -/
def illegalFramerCommand (s : State) : Host.Outcome State Fault Refusal :=
  finishFramer s .illegalCmd none none

end Sys2Proof.Machine
end

