-- ==== Sys2Proof/Machine/Responder.lean ====
section
/-! DEFINITION. The Command Responder's dispatch arms (spec/43_responder.md R284 to R293): each meaning is the one step
(4) of the responder's cycle on a packet of that type, after which step (5) is next (R282). -/

namespace Sys2Proof.Machine

/-- Packet types of the replies (spec/30_encoding.md R117). -/
abbrev typeAck : Byte := 0
/-- The type code of a NAK packet (R117). -/
abbrev typeNak : Byte := 1

/-- `reply(t, p)` (R282): the type byte, and the length `4 + p`. -/
def Framer.reply (f : Framer) (t : Byte) (p : Nat) : Framer :=
  (f.putBytes 1 [t]).putBytes 0 [BitVec.ofNat 8 (4 + p)]

/-- The dispatch step is done: the reply is in `PFBUF` and step (5) is next (R282). -/
def replied (s : State) (f : Framer) : Host.Outcome State Fault Refusal :=
  .next { s with pf := f, cr := .cycle .clearCsum }

/-- `reply(ACK, 0)` as a whole dispatch step. -/
def replyAck (s : State) : Host.Outcome State Fault Refusal := replied s (s.pf.reply typeAck 0)

/-- `reply(NAK, 0)` as a whole dispatch step (R287, R293). -/
def replyNak (s : State) : Host.Outcome State Fault Refusal := replied s (s.pf.reply typeNak 0)

/-- A payload written from byte 4 up, then `reply(ACK, its length)`. -/
def replyPayload (s : State) (payload : List Byte) : Host.Outcome State Fault Refusal :=
  replied s ((s.pf.putBytes 4 payload).reply typeAck payload.length)

/-- ACK (R284): `reply(ACK, 0)`. -/
def execPktAck (s : State) : Host.Outcome State Fault Refusal := replyAck s

/-- NAK (R285): answered with ACK, length forced to 4. -/
def execPktNak (s : State) : Host.Outcome State Fault Refusal := replyAck s

/-- RESET (R288): ACK when the instrument reset succeeds, else NAK; it resets nothing of the block. -/
def execPktReset (s : State) : Host.Outcome State Fault Refusal :=
  if s.env.resetOk then replyAck s else replyNak s

/-- ID (R289). -/
def execPktId (s : State) : Host.Outcome State Fault Refusal :=
  if s.env.identOk then replyPayload s (identPayload s.par.ident) else replyNak s

/-- WRITE_REG (R293): not in the dispatch table, NAK. -/
def execPktWriteReg (s : State) : Host.Outcome State Fault Refusal := replyNak s

/-- READ_REG (R293): not in the dispatch table, NAK. -/
def execPktReadReg (s : State) : Host.Outcome State Fault Refusal := replyNak s

/-- ECHO (R290): the type becomes ACK when `COUNT >= 1`; length and payload are untouched. -/
def execPktEcho (s : State) : Host.Outcome State Fault Refusal :=
  replied s (if 1 ≤ s.pf.count.toNat then s.pf.putBytes 1 [typeAck] else s.pf)

/-- SSN (R291). -/
def execPktSsn (s : State) : Host.Outcome State Fault Refusal :=
  if s.env.uidOk then replyPayload s (ssnPayload s.par s.env) else replyNak s

/-- UID (R292). -/
def execPktUid (s : State) : Host.Outcome State Fault Refusal :=
  if s.env.uidOk then replyPayload s (fingerprint s.par s.env) else replyNak s

/-- OPT (R293): not in the dispatch table, NAK. -/
def execPktOpt (s : State) : Host.Outcome State Fault Refusal := replyNak s

/-- ISN (R293): not in the dispatch table, NAK. -/
def execPktIsn (s : State) : Host.Outcome State Fault Refusal := replyNak s

/-- DIAG (R293): not in the dispatch table, NAK. -/
def execPktDiag (s : State) : Host.Outcome State Fault Refusal := replyNak s

end Sys2Proof.Machine
end

