-- ==== Sys2Proof/Machine/Dispatch.lean ====
section
/-! DEFINITION. The meaning of every instruction: one step of the agent that runs it. -/

namespace Sys2Proof.Machine

def exec (i : Instr) (s : State) : Host.Outcome State Fault Refusal :=
  match i with
  | .init => Sys2Proof.Machine.execInit s
  | .start => Sys2Proof.Machine.execStart s
  | .stop => Sys2Proof.Machine.execStop s
  | .writeBit b => Sys2Proof.Machine.execWriteBit b s
  | .readBit => Sys2Proof.Machine.execReadBit s
  | .writeByte d => Sys2Proof.Machine.execWriteByte d s
  | .readByte k => Sys2Proof.Machine.execReadByte k s
  | .regWrite dev reg n => Sys2Proof.Machine.execRegWrite dev reg n s
  | .regRead dev reg n => Sys2Proof.Machine.execRegRead dev reg n s
  | .readPacket => Sys2Proof.Machine.execReadPacket s
  | .writePacket => Sys2Proof.Machine.execWritePacket s
  | .pktAck _ _ => Sys2Proof.Machine.execPktAck s
  | .pktNak _ _ => Sys2Proof.Machine.execPktNak s
  | .pktReset _ _ => Sys2Proof.Machine.execPktReset s
  | .pktId _ _ => Sys2Proof.Machine.execPktId s
  | .pktWriteReg _ _ => Sys2Proof.Machine.execPktWriteReg s
  | .pktReadReg _ _ => Sys2Proof.Machine.execPktReadReg s
  | .pktEcho _ _ => Sys2Proof.Machine.execPktEcho s
  | .pktSsn _ _ => Sys2Proof.Machine.execPktSsn s
  | .pktUid _ _ => Sys2Proof.Machine.execPktUid s
  | .pktOpt _ _ => Sys2Proof.Machine.execPktOpt s
  | .pktIsn _ _ => Sys2Proof.Machine.execPktIsn s
  | .pktDiag _ _ => Sys2Proof.Machine.execPktDiag s

end Sys2Proof.Machine
end

