-- ==== Sys2Proof/Machine/Window.lean ====
section
/-! DEFINITION. Host CPU accesses to the register window (spec/20_memory.md R71 to R76, spec/10_state.md R29 to R37). -/

namespace Sys2Proof.Machine

/-- The regions of the window by offset (spec/10_state.md R29). -/
inductive Region where
  | beCmd | beStatus | beConfig | beXcnt
  | beBuf (i : Nat)
  | pfCmd | pfDeadline | pfStatus | pfConfig | pfTime
  | pfBuf (i : Nat)
  | reserved
  deriving DecidableEq, Repr

/-- The region an offset below 0x400 lies in. -/
def regionOf (o : Nat) : Region :=
  if o < 0x004 then .beCmd
  else if o < 0x008 then .beStatus
  else if o < 0x00C then .beConfig
  else if o < 0x010 then .beXcnt
  else if o < 0x100 then .reserved
  else if o < 0x200 then .beBuf (o - 0x100)
  else if o < 0x204 then .pfCmd
  else if o < 0x208 then .pfDeadline
  else if o < 0x20C then .pfStatus
  else if o < 0x210 then .pfConfig
  else if o < 0x214 then .pfTime
  else if o < 0x300 then .reserved
  else if o < 0x3FE then .pfBuf (o - 0x300)
  else .reserved

/-- Whether a region takes only 32-bit accesses (R72). -/
def Region.isRegister : Region → Bool
  | .beCmd | .beStatus | .beConfig | .beXcnt | .pfCmd | .pfDeadline | .pfStatus | .pfConfig | .pfTime => true
  | .beBuf _ | .pfBuf _ | .reserved => false

/-- `permitted(o, n)` (R72): inside the window, 8, 16 or 32 bits wide, naturally aligned, and 32 bits wide at a
register. A 32-bit access at 0x3FC is the only aligned one that reaches from `PF_BUF` into 0x3FE-0x3FF. -/
def permitted (o n : Nat) : Bool :=
  o < 0x400 && (n == 1 || n == 2 || n == 4) && o % n == 0 && (n == 4 || !(regionOf o).isRegister)

/-- The offset of an address in the window, `none` outside it (R72; R70: the window is all the block decodes). -/
def windowOffset (p : Params) (a : Nat) : Option Nat :=
  if p.blkBase ≤ a ∧ a < p.blkBase + 0x400 then some (a - p.blkBase) else none

/-- `owned_by_CR` (R75, spec/43_responder.md R280). -/
def State.ownedByCr (s : State) : Bool := s.par.responderPresent

/-! ### Reads (R74, R76) -/

/-- `n` bytes of a buffer from index `i`, assembled by R71. Bytes past its end are the reserved offsets, which read 0
(spec/10_state.md R36). A byte that holds no value is the fault `UnwrittenRead` (R42). -/
def readBuffer (size : Nat) (m : Memory) (i n : Nat) : Except Fault Word :=
  match m.readBytes i (min n (size - i)) with
  | some bs => .ok (leWord bs)
  | none => .error .unwrittenRead

/-- The value of a permitted read. A buffer read while its unit is busy, or of `PF_BUF` while the Command Responder is
present, is any value of the access width (R76). DESIGN CHOICE, assumption log 25: at 0x3FC such a 32-bit read draws all
four bytes, although 0x3FE-0x3FF are offsets that read 0 (R36, R72). -/
def windowRead (s : State) (o n : Nat) : Except Fault Word :=
  match regionOf o with
  | .beCmd => .ok 0
  | .beStatus => .ok (s.be.statusWord s.env)
  | .beConfig => .ok s.be.configWord
  | .beXcnt => .ok s.be.xcntWord
  | .beBuf i =>
    if s.be.busy then .ok (truncateTo n s.env.anyValue) else readBuffer Config.beBufBytes s.be.buf i n
  | .pfCmd => .ok 0
  | .pfDeadline => .ok s.pf.deadline
  | .pfStatus => .ok s.pf.statusWord
  | .pfConfig => .ok s.pf.configWord
  | .pfTime => .ok s.now
  | .pfBuf i =>
    if s.pf.busy || s.ownedByCr then .ok (truncateTo n s.env.anyValue)
    else readBuffer Config.pfBufBytes s.pf.buf i n
  | .reserved => .ok 0

/-- `MemRead(a, n)` (R75): the value goes to the Host CPU and no other state changes (R74). -/
def hostRead (a n : Nat) (s : State) : Host.Outcome State Fault Refusal :=
  match windowOffset s.par a with
  | none => .fault .badAccess
  | some o =>
    if permitted o n then
      match windowRead s o n with
      | .ok v => .next { s with rdata := v }
      | .error f => .fault f
    else .fault .badAccess

/-! ### Writes (R75) -/

/-- `BEBUF[i ..] <- bs`. -/
def BusEngine.putBytes (b : BusEngine) (i : Nat) (bs : List Byte) : BusEngine :=
  { b with buf := b.buf.putBytes Config.beBufBytes i bs }

/-- Write `BE_CONFIG` (spec/10_state.md R32). -/
def BusEngine.writeConfig (b : BusEngine) (v : Word) : BusEngine :=
  { b with arbAbort := v.getLsbD 0, stretchBound := v.getLsbD 1, stretchLimit := v.extractLsb' 16 16 }

/-- Write `BE_STATUS`: bit 3 clears `ARB`, everything else is ignored (R31). -/
def BusEngine.writeStatus (b : BusEngine) (v : Word) : BusEngine :=
  if v.getLsbD 3 then { b with arb := false } else b

/-- The Bus Engine after a permitted write to it, `BusyWrite` where R331 says so. -/
def busWrite (s : State) (b : BusEngine) : Host.Outcome State Fault Refusal :=
  if s.be.busy then .fault .busyWrite else .next { s with be := b }

/-- The Packet Framer after a permitted write to it, `BusyWrite` where R331 says so. -/
def framerWrite (s : State) (f : Framer) : Host.Outcome State Fault Refusal :=
  if s.ownedByCr || s.pf.busy then .fault .busyWrite else .next { s with pf := f }

/-- The effect of a permitted write (R75). -/
def windowWrite (s : State) (o n : Nat) (v : Word) : Host.Outcome State Fault Refusal :=
  match regionOf o with
  | .beCmd => busWrite s (s.be.startCommand v)
  | .beStatus => .next { s with be := s.be.writeStatus v }
  | .beConfig => busWrite s (s.be.writeConfig v)
  | .beXcnt => .next s
  | .beBuf i => busWrite s (s.be.putBytes i (leBytes n v))
  | .pfCmd => framerWrite s (s.pf.startCommand s.now v)
  | .pfDeadline => framerWrite s { s.pf with deadline := v }
  | .pfStatus => .next s
  | .pfConfig => .next { s with pf := { s.pf with strict := v.getLsbD 0 } }
  | .pfTime => .next s
  | .pfBuf i => framerWrite s (s.pf.putBytes i (leBytes n v))
  | .reserved => .next s

/-- `MemWrite(a, n, v)` (R75). -/
def hostWrite (a n : Nat) (v : Word) (s : State) : Host.Outcome State Fault Refusal :=
  match windowOffset s.par a with
  | none => .fault .badAccess
  | some o => if permitted o n then windowWrite s o n v else .fault .badAccess

/-- One Host CPU access: one step (R73). -/
def hostAccess : Access → State → Host.Outcome State Fault Refusal
  | .read a n, s => hostRead a n s
  | .write a n v, s => hostWrite a n v s

/-! ### Assembler syntax (spec/00_scope.md R11, spec/30_encoding.md R112) -/

/-- `wr OFFSET, VALUE`. -/
def asmWr (p : Params) (offset : Nat) (v : Word) : Access := .write (p.blkBase + offset) 4 v
/-- `wrb OFFSET, VALUE`. -/
def asmWrb (p : Params) (offset : Nat) (v : Byte) : Access := .write (p.blkBase + offset) 1 (v.setWidth 32)
/-- `rd OFFSET`. -/
def asmRd (p : Params) (offset : Nat) : Access := .read (p.blkBase + offset) 4
/-- `poll OFFSET, MASK, VALUE` ends with the `rd` whose value passes this test; `be.wait` is `poll 0x004, 1, 0` and
`pf.wait` is `poll 0x208, 1, 0` (R112). -/
def pollDone (mask value read : Word) : Bool := read &&& mask == value

end Sys2Proof.Machine
end

