-- ==== Sys2Proof/Machine/Agents.lean ====
section
/-! DEFINITION. One step of each agent (spec/00_scope.md R6): where the command words and the packet header are fetched
and decoded, and what an agent does with a word that encodes no instruction. -/

namespace Sys2Proof.Machine

/-- The command word in progress at the Bus Engine, `none` when it is idle (spec/10_state.md R27). -/
def BusEngine.word? (b : BusEngine) : Option Word :=
  match b.pos with
  | .idle => none
  | .latched w => some w
  | .running w _ => some w

/-- The command word in progress at the Packet Framer. -/
def Framer.word? (f : Framer) : Option Word :=
  match f.pos with
  | .idle => none
  | .latched w _ => some w
  | .running w _ _ => some w

/-- The Bus Engine agent (spec/41_bus_composite.md R190): idle, it has no step and the turn passes; a word that decodes
to ILLEGAL ends at once with ILLEGAL_CMD and no other effect (spec/30_encoding.md R111); else the command's step. -/
def busAgent (s : State) : Host.Outcome State Fault Refusal :=
  match s.be.word? with
  | none => .next s
  | some w =>
    match decode .busCmd w with
    | .ok i => exec i s
    | .error _ => .next { s with be := s.be.finish .nothing .illegalCmd }

/-- The Packet Framer agent (spec/42_framer.md R237). -/
def framerAgent (s : State) : Host.Outcome State Fault Refusal :=
  match s.pf.word? with
  | none => .next s
  | some w =>
    match decode .framerCmd w with
    | .ok i => exec i s
    | .error _ => illegalFramerCommand s

/-- `pf_call(op, d)` (spec/43_responder.md R281): latch `d` as the deadline and start the framer command of word `w`.
The deadline goes through `PF_DEADLINE`, which the responder writes (spec/10_state.md R24). Assumption log 8. -/
def Framer.call (f : Framer) (now w d : Word) : Framer := { f with deadline := d }.startCommand now w

/-- The header word of the packet in `PFBUF` (spec/30_encoding.md R115). -/
def Framer.header? (f : Framer) : Option Word := (f.buf.readBytes 0 4).map leWord

/-- `dispatch(PFBUF[1], COUNT)` (R282, R284 to R293): a type with a row of the table runs its meaning; every other type
gets `reply(NAK, 0)` (R293). -/
def dispatchPacket (s : State) : Host.Outcome State Fault Refusal :=
  match s.pf.header? with
  | none => .fault .unwrittenRead
  | some w =>
    match decode .packet w with
    | .ok i => exec i s
    | .error _ => replyNak s

/-- Step (2) of the cycle: `PFBUF[0 .. 253] <- 0` (R282). -/
def zeroBuffer (s : State) : Host.Outcome State Fault Refusal :=
  .next { s with pf := { s.pf with buf := .zeros Config.pfBufBytes }, cr := .cycle .callRead }

/-- One numbered line of the cycle, the framer being idle (R282). After a READ_PACKET that gave no packet the loop goes
to its next iteration, so the step taken is that iteration's (2) (assumption log 9). -/
def cycleStep (s : State) : CrStep → Host.Outcome State Fault Refusal
  | .zero => zeroBuffer s
  | .callRead =>
    .next { s with
      pf := s.pf.call s.now (encode .readPacket) s.par.crReadDeadline
      cr := .cycle .gotRead }
  | .gotRead =>
    match s.pf.result with
    | .checksumError => replyNak s
    | .ok => dispatchPacket s
    | .timeout | .framingError | .partialWrite | .illegalCmd => zeroBuffer s
  | .clearCsum => .next { s with pf := s.pf.putBytes 2 [0, 0], cr := .cycle .callWrite }
  | .callWrite =>
    .next { s with
      pf := s.pf.call s.now (encode .writePacket) s.par.crWriteDeadline
      cr := .cycle .zero }

/-- The Command Responder agent (R280 to R282). Absent, or waiting for the framer, it has no step and the turn
passes. -/
def responderAgent (s : State) : Host.Outcome State Fault Refusal :=
  if s.par.responderPresent then
    match s.cr with
    | .waitReady => if s.env.ready then .next { s with cr := .cycle .zero } else .next s
    | .cycle c => if s.pf.busy then .next s else cycleStep s c
  else .next s

/-- The tick source (spec/42_framer.md R230). -/
def tickAgent (s : State) : Host.Outcome State Fault Refusal := .next { s with now := s.now + 1 }

/-- One step of an agent (spec/00_scope.md R6). -/
def agentStep : Agent → State → Host.Outcome State Fault Refusal
  | .host a, s => hostAccess a s
  | .busEngine, s => busAgent s
  | .framer, s => framerAgent s
  | .responder, s => responderAgent s
  | .tick, s => tickAgent s
  | .reset, s => .next s.applyReset

/-- The next turn and the state as that turn finds it: the head of the script with the environment's answers in force,
or a free turn when the script is empty (assumption log 1). -/
def State.nextTurn (s : State) : Agent × State :=
  match s.script with
  | t :: rest => (t.agent, { s with script := rest, env := t.env })
  | [] =>
    let t := Config.freeTurn s.turns
    (t.agent, { s with turns := s.turns + 1, env := t.env })

/-- One step of the block: parameters that break a constraint are refused (spec/93_implementation_defined.md rows 21,
22), else the next turn's agent takes its step. -/
def blockStep (s : State) : Host.Outcome State Fault Refusal :=
  if paramsOk s.par then agentStep s.nextTurn.1 s.nextTurn.2 else .refused .badParameters

/-! ### Placing a word of the opcode table where the next step runs it -/

/-- Place a `BE_CMD` word as a Host CPU write latches it. -/
def State.placeBusWord (s : State) (w : Word) : State :=
  { s with be := s.be.startCommand w, script := { agent := .busEngine, env := s.env } :: s.script }

/-- Place a `PF_CMD` word as a Host CPU write latches it. -/
def State.placeFramerWord (s : State) (w : Word) : State :=
  { s with pf := s.pf.startCommand s.now w, script := { agent := .framer, env := s.env } :: s.script }

/-- Place a packet header as a READ_PACKET that ended OK leaves it, with the responder present and about to dispatch. -/
def State.placePacket (s : State) (w : Word) : State :=
  { s with
    par := { s.par with responderPresent := true }
    pf := { s.pf.putBytes 0 (leBytes 4 w) with result := .ok, count := fieldPktLength w, pos := .idle }
    cr := .cycle .gotRead
    script := { agent := .responder, env := s.env } :: s.script }

/-- Place a word at the encoded object it is taken for (assumption log 10). -/
def State.placeWord (s : State) (w : Word) : State :=
  match tablePort w with
  | .busCmd => s.placeBusWord w
  | .framerCmd => s.placeFramerWord w
  | .packet => s.placePacket w

end Sys2Proof.Machine
end

