-- ==== Sys2Proof/Machine/Step.lean ====
section
/-! DEFINITION. The step function of the machine and the placing of an instruction where the next step runs it. -/

namespace Sys2Proof.Machine

/-- One step: exactly one agent's step (spec/00_scope.md R6). -/
def step (s : State) : Host.Outcome State Fault Refusal := blockStep s

/-- The state with a word of the opcode table placed so that the very next step fetches and runs it. Assumption log 10
and 20. -/
def State.withFetchWord (s : State) (nbits w : Nat) : State := s.placeWord (tableWord nbits w)

end Sys2Proof.Machine
end

