-- ==== Sys2Proof/Machine/Trace.lean ====
section
/-! DEFINITION. Runs of one command's agent, and the trace notation of spec/40_bus_primitives.md R149. -/

namespace Sys2Proof.Machine

/-- Successive steps of the agent that runs instruction `i`, with what the environment answers in each. -/
def runCommand (i : Instr) : List Env → State → Host.Outcome State Fault Refusal
  | [], s => .next s
  | e :: es, s =>
    match exec i { s with env := e } with
    | .next t => runCommand i es t
    | .fault f => .fault f
    | .refused r => .refused r

/-- One line micro-operation in a trace (R149). -/
inductive Token where
  /-- `r:l=v`. -/
  | read (l : Line) (v : Bool)
  /-- `L:l`. -/
  | low (l : Line)
  /-- `H:l`. -/
  | high (l : Line)
  deriving DecidableEq, Repr

/-- The micro-operation a line operation performs; an internal operation performs none. -/
def lineToken (e : Env) (b : BusEngine) : BusOp → Option Token
  | .release l => some (.high l)
  | .sample l => some (.read l (b.sample e l))
  | .driveLow l => some (.low l)
  | .waitScl _ | .initScl _ => some (.read .scl (b.sample e .scl))
  | .startCheck | .arbCheck | .readBit | .initSda _ _ => some (.read .sda (b.sample e .sda))
  | .sendLoop _ _ | .startTest | .shiftIn | .setOpen _ | .ackTest _ | .storeByte _ | .readLoop _ _
  | .finish _ | .reject _ | .abortEnd _ => none

/-- The micro-operation at the head of the operations to do; REG_WRITE's loop begins the byte it reads. -/
def headToken (e : Env) (b : BusEngine) : List BusOp → Option Token
  | .sendLoop i _ :: _ =>
    match b.buf.read i with
    | some d => (writeByteOps d).head?.bind (lineToken e b)
    | none => none
  | op :: _ => lineToken e b op
  | [] => none

/-- The procedure of a Bus Engine command; a framer command and a packet type have none. -/
def procedureOf : Instr → List BusOp
  | .init => initOps
  | .start => startProcedure
  | .stop => stopProcedure
  | .writeBit b => writeBitProcedure b
  | .readBit => readBitProcedure
  | .writeByte d => writeByteProcedure d
  | .readByte k => readByteProcedure k
  | .regWrite dev reg n => regWriteOps dev reg n
  | .regRead dev reg n => regReadOps dev reg n
  | .readPacket | .writePacket => []
  | .pktAck _ _ | .pktNak _ _ | .pktReset _ _ | .pktId _ _ | .pktWriteReg _ _ | .pktReadReg _ _
  | .pktEcho _ _ | .pktSsn _ _ | .pktUid _ _ | .pktOpt _ _ | .pktIsn _ _ | .pktDiag _ _ => []

/-- The micro-operation that the next Bus Engine step on command `i` performs, `none` for a step with no line
operation. -/
def nextToken (i : Instr) (e : Env) (b : BusEngine) : Option Token :=
  match b.pos with
  | .running _ todo => headToken e b todo
  | _ =>
    if b.needRecov && i != .init then none
    else
      let b1 := b.begin (encode i) .nothing (procedureOf i)
      match b1.pos with
      | .running _ todo => headToken e b1 todo
      | _ => none

/-- The trace of successive Bus Engine steps on command `i` (R149). -/
def traceCommand (i : Instr) : List Env → State → List Token
  | [], _ => []
  | e :: es, s =>
    (nextToken i e s.be).toList ++
      match exec i { s with env := e } with
      | .next t => traceCommand i es t
      | _ => []

end Sys2Proof.Machine
end

