-- ==== Sys2Proof/Safety.lean ====
section
/-! DEFINITION. What claims are made of: invariants of the block, and the words a claim about a whole command uses (the
environments of its steps, what the peers do in them, the bits on the bus). -/

namespace Sys2Proof.Machine

/-! ### Runs of one command -/

/-- The environments of a command's first `n` steps. -/
def steps (envs : Nat → Env) (n : Nat) : List Env := (List.range n).map envs

/-- `n` steps of the block, stopping at the first fault or refusal. -/
def blockRun : Nat → State → Host.Outcome State Fault Refusal
  | 0, s => .next s
  | n + 1, s =>
    match step s with
    | .next t => blockRun n t
    | .fault f => .fault f
    | .refused r => .refused r

/-- The command `i` was latched and `NEED_RECOV` does not stand in its way (spec/41_bus_composite.md R190). -/
def Accepted (i : Instr) (s : State) : Prop := s.be.pos = .latched (encode i) ∧ s.be.needRecov = false

/-- In the first `n` steps no peer holds SCL low (spec/40_bus_primitives.md R168). -/
def Unstretched (envs : Nat → Env) (n : Nat) : Prop := ∀ k, k < n → (envs k).scl = true

/-- In the first `n` steps the peers leave SCL high and hold SDA at the level `sda` gives for each step. -/
def PeersHold (sda : Nat → Bool) (envs : Nat → Env) (n : Nat) : Prop :=
  ∀ k, k < n → (envs k).scl = true ∧ (envs k).sda = sda k

/-- Steps of the start that a composite command begins with (R151): a repeated start when a transaction is open. -/
def BusEngine.startSteps (b : BusEngine) : Nat := if b.opened then 7 else 4

/-- A peer's SDA while `n` bytes that begin at step `o` are written to it: low at their acknowledge samples, step 51 of
the 54 of each byte, and released otherwise (R162, R168). -/
def ackPeer (o n : Nat) (k : Nat) : Bool := !(o ≤ k && (k - o) % 54 == 51 && (k - o) / 54 < n)

/-- A peer's SDA while REG_READ, whose first address byte begins at step `o`, reads `n` bytes `d` from it: it
acknowledges the three bytes written, then sends each byte, most significant bit first, at the samples of READ_BIT, and
releases SDA otherwise (spec/41_bus_composite.md R203). -/
def regReadPeer (o n : Nat) (d : Nat → Byte) (k : Nat) : Bool :=
  if k < o + 115 then ackPeer o 2 k
  else if k < o + 169 then ackPeer (o + 115) 1 k
  else
    let m := k - (o + 169)
    if m / 54 < n ∧ m % 54 < 48 ∧ m % 6 = 3 then (d (m / 54)).getLsbD (7 - m % 54 / 6) else true

/-- The level the master leaves SDA at, at each release of SCL in a trace: the bits it clocks onto the bus. The first
argument is the level before the trace. -/
def clockedBits : Bool → List Token → List Bool
  | _, [] => []
  | sda, .read _ _ :: r => clockedBits sda r
  | _, .low .sda :: r => clockedBits false r
  | sda, .low .scl :: r => clockedBits sda r
  | _, .high .sda :: r => clockedBits true r
  | sda, .high .scl :: r => sda :: clockedBits sda r

/-- The bits the master clocks for a byte it writes: eight data bits, most significant first, and the released SDA of the
acknowledge clock (R162). -/
def writtenBits (d : Byte) : List Bool :=
  [d.getLsbD 7, d.getLsbD 6, d.getLsbD 5, d.getLsbD 4, d.getLsbD 3, d.getLsbD 2, d.getLsbD 1, d.getLsbD 0, true]

/-- A start that is certain to fail its arbitration check: no transaction is open and the master itself holds SDA low
(R150). -/
def BusEngine.startLost (b : BusEngine) : Bool := !b.opened && !b.sdaOut

/-- The completion fields of each Bus Engine command (spec/41_bus_composite.md R191); a framer command and a packet type
have none of them. -/
def publishOf : Instr → Publish
  | .init => .pulses
  | .start | .stop | .writeBit _ => .nothing
  | .readBit | .writeByte _ => .bit
  | .readByte _ => .byte
  | .regWrite _ _ _ | .regRead _ _ _ => .xcnt
  | .readPacket | .writePacket
  | .pktAck _ _ | .pktNak _ _ | .pktReset _ _ | .pktId _ _ | .pktWriteReg _ _ | .pktReadReg _ _
  | .pktEcho _ _ | .pktSsn _ _ | .pktUid _ _ | .pktOpt _ _ | .pktIsn _ _ | .pktDiag _ _ => .nothing

/-- The Bus Engine after command `i` goes on with the operations `r`: the internal ones at their head are done, up to the
next line operation or the command's end (spec/40_bus_primitives.md R141). -/
def BusEngine.goesOn (i : Instr) (r : List BusOp) (b : BusEngine) : BusEngine := settle (publishOf i) r b

/-- The commands whose `XCNT` an abort publishes with the count reached (spec/41_bus_composite.md R191); INIT, which
publishes it too, has no abort (R193). -/
def countsBytes : Instr → Bool
  | .regWrite _ _ _ | .regRead _ _ _ => true
  | .init | .start | .stop | .writeBit _ | .readBit | .writeByte _ | .readByte _ | .readPacket | .writePacket
  | .pktAck _ _ | .pktNak _ _ | .pktReset _ _ | .pktId _ _ | .pktWriteReg _ _ | .pktReadReg _ _
  | .pktEcho _ _ | .pktSsn _ _ | .pktUid _ _ | .pktOpt _ _ | .pktIsn _ _ | .pktDiag _ _ => false

/-- The Bus Engine `b` after `abort(c)` of command `i` (spec/40_bus_primitives.md R148, R191): both lines released, the
transaction closed, a recovery required, the byte count reached published by REG_WRITE and REG_READ, every other field but
the private copies as before. -/
def AbortedWith (i : Instr) (c : BusCode) (b b' : BusEngine) : Prop :=
  ∃ pv : BusPrivate, b' = { b with
    opened := false, needRecov := true, sclOut := true, sdaOut := true, code := c, pos := .idle, priv := pv
    xcnt := if countsBytes i then b.priv.xcnt else b.xcnt }

/-- The status code of a byte of REG_WRITE that is not acknowledged, by its place (R207). -/
def nakCode : Nat → BusCode
  | 0 => .addrNak
  | 1 => .regNak
  | _ => .writeFail

/-! ### Packets -/

/-- A packet of a legal length whose length byte says so (spec/30_encoding.md R115, R116). -/
def LegalPacket (p : List Byte) : Prop :=
  Config.hdrBytes ≤ p.length ∧ p.length ≤ Config.maxLen ∧ p[0]? = some (BitVec.ofNat 8 p.length)

/-- The packet with its checksum field taken as zero (spec/42_framer.md R245). -/
def withoutChecksum (p : List Byte) : List Byte := (p.set 2 0).set 3 0

/-- The packet with its checksum field holding `c` (R245). -/
def withChecksum (p : List Byte) (c : Half) : List Byte := (p.set 2 (lowByte c)).set 3 (highByte c)

/-- The packet `p` stands in a buffer from byte 0 up; in strict mode its checksum field may hold anything, or nothing,
since it is not read (R245). -/
def PacketIn (m : Memory) (strict : Bool) (p : List Byte) : Prop :=
  ∀ a, a < p.length → (strict = true → a ≠ 2 ∧ a ≠ 3) → m.read a = p[a]?

/-- The Packet Framer `f` after READ_PACKET has the whole packet `p` (R239, R244): in strict mode `CALC` is its checksum,
and the result tells whether bytes 2 and 3 hold it. -/
def Framer.afterPacket (f : Framer) (fn : ChecksumFn) (strict : Bool) (p : List Byte) : Framer :=
  let c := checksumOf fn (withoutChecksum p)
  let good := !strict || withChecksum p c == p
  { f with
    result := if good then .ok else .checksumError
    count := if good then BitVec.ofNat 8 p.length else 0
    checksum := if strict then c else f.checksum
    pos := .idle }

/-- What WRITE_PACKET sends for the packet `p` (R249): in strict mode with its checksum. -/
def packetSent (fn : ChecksumFn) (strict : Bool) (p : List Byte) : List Byte :=
  if strict then withChecksum p (checksumOf fn (withoutChecksum p)) else p

/-- The Packet Framer `f` after WRITE_PACKET's checksum over the packet `p` (R249): in strict mode bytes 2 and 3 of the
buffer hold it. -/
def Framer.stamped (f : Framer) (fn : ChecksumFn) (strict : Bool) (p : List Byte) : Framer :=
  let c := checksumOf fn (withoutChecksum p)
  if strict then { f with buf := f.buf.putBytes Config.pfBufBytes 2 [lowByte c, highByte c] } else f

/-- A buffer as the responder's `reply(t, p)` leaves it, byte by byte, after a payload of `p` bytes was written from
byte 4 up (spec/43_responder.md R282): length `4 + p`, type `t`, the payload, and every other byte as before. -/
def replyBytes (m : Memory) (t : Byte) (payload : List Byte) (a : Nat) : Option Byte :=
  if a = 0 then some (BitVec.ofNat 8 (4 + payload.length))
  else if a = 1 then some t
  else if 4 ≤ a ∧ a < 4 + payload.length then payload[a - 4]?
  else m.read a

/-- The dispatch step answers a next state that differs from `s` in the responder's position and in `PFBUF`, whose bytes
are then those given. -/
def RepliesWith (i : Instr) (s : State) (bytes : Nat → Option Byte) : Prop :=
  ∃ m : Memory, exec i s = .next { s with pf := { s.pf with buf := m }, cr := .cycle .clearCsum } ∧
    ∀ a, m.read a = bytes a

/-- A command of the framer latched with what it latched. -/
def FramerLatched (i : Instr) (l : Latch) (s : State) : Prop := s.pf.pos = .latched (encode i) l

/-- A framer command taken from `s` to the step `t` that ends it, and no further. -/
def FramerRun (i : Instr) (es : List Env) (s t : State) : Prop :=
  runCommand i es s = .next t ∧ t.pf.pos = .idle ∧
    ∀ k, k < es.length → ∃ u, runCommand i (es.take k) s = .next u ∧ u.pf.busy = true

/-! ### Invariants -/

/-- Both buffers are in canonical form. -/
def BuffersCanonical (s : State) : Prop :=
  s.be.buf.wf Config.beBufBytes = true ∧ s.pf.buf.wf Config.pfBufBytes = true

/-- How many bytes a pending operation may still count in `XCNT` (spec/41_bus_composite.md R196). -/
def BusOp.counts : BusOp → Nat
  | .ackTest _ | .storeByte _ => 1
  | .sendLoop i n | .readLoop i n => n - i
  | .release _ | .sample _ | .driveLow _ | .waitScl _ | .startCheck | .arbCheck | .readBit | .initScl _ | .initSda _ _
  | .startTest | .shiftIn | .setOpen _ | .finish _ | .reject _ | .abortEnd _ => 0

/-- The same for the operations still to do. -/
def pendingCount (todo : List BusOp) : Nat := (todo.map BusOp.counts).sum

/-- A pending operation's own counter is within its bound (spec/60_exceptions.md R332). -/
def BusOp.counterOk (b : BusEngine) : BusOp → Bool
  | .waitScl lows => !b.stretchBound || lows < b.stretchMax
  | .initScl p | .initSda p _ => p ≤ Config.recoveryMaxPulses
  | .release _ | .sample _ | .driveLow _ | .startCheck | .arbCheck | .readBit | .sendLoop _ _ | .startTest | .shiftIn
  | .setOpen _ | .ackTest _ | .storeByte _ | .readLoop _ _ | .finish _ | .reject _ | .abortEnd _ => true

/-- The Bus Engine's counters keep the bounds of R332: `XCNT` at most 258, `PULSES` at most 9, the clock-stretch counter
below its limit. -/
def BusCountersBounded (b : BusEngine) : Prop :=
  b.xcnt.toNat ≤ 258 ∧ b.pulses.toNat ≤ Config.recoveryMaxPulses ∧ b.priv.pulses.toNat ≤ Config.recoveryMaxPulses ∧
    match b.pos with
    | .idle | .latched _ => True
    | .running _ todo => b.priv.xcnt.toNat + pendingCount todo ≤ 258 ∧ todo.all (BusOp.counterOk b) = true

/-- The Packet Framer's counters keep the bounds of R332: `got` and `sent` never exceed the packet's length. -/
def FramerCountersBounded (f : Framer) : Prop :=
  f.count.toNat ≤ Config.maxLen ∧
    match f.pos with
    | .idle | .latched _ _ => True
    | .running _ _ (.header got) => got ≤ Config.hdrBytes
    | .running _ _ (.payload len got) => got ≤ len ∧ len ≤ Config.maxLen
    | .running _ _ (.sending len sent _) => sent ≤ len ∧ len ≤ Config.maxLen

/-- The counters of both units keep their bounds (R332). -/
def CountersBounded (s : State) : Prop := BusCountersBounded s.be ∧ FramerCountersBounded s.pf

/-- INIT's samples after its lines are released (spec/41_bus_composite.md R192). -/
def BusOp.isInitSample : BusOp → Bool
  | .initScl _ | .initSda _ _ => true
  | .release _ | .sample _ | .driveLow _ | .waitScl _ | .startCheck | .arbCheck | .readBit | .sendLoop _ _ | .startTest
  | .shiftIn | .setOpen _ | .ackTest _ | .storeByte _ | .readLoop _ _ | .finish _ | .reject _ | .abortEnd _ => false

/-- The operations INIT is made of. -/
def BusOp.isRecovery : BusOp → Bool
  | .release _ | .sample _ | .driveLow _ | .initScl _ | .initSda _ _ => true
  | .setOpen v => !v
  | .waitScl _ | .startCheck | .arbCheck | .readBit | .sendLoop _ _ | .startTest | .shiftIn | .ackTest _ | .storeByte _
  | .readLoop _ _ | .finish _ | .reject _ | .abortEnd _ => false

/-- While a recovery is required no transaction is open, and only INIT is in progress (spec/10_state.md R21, R22). -/
def RecoveryClosed (b : BusEngine) : Prop :=
  match b.pos with
  | .idle | .latched _ => b.needRecov = true → b.opened = false
  | .running _ todo =>
    (b.needRecov = true ∨ todo.any BusOp.isInitSample = true) → b.opened = false ∧ todo.all BusOp.isRecovery = true

/-- An operation that stores a received byte in `BEBUF`, or leads to one. -/
def BusOp.stores : BusOp → Bool
  | .storeByte _ | .readLoop _ _ => true
  | .release _ | .sample _ | .driveLow _ | .waitScl _ | .startCheck | .arbCheck | .readBit | .initScl _ | .initSda _ _
  | .sendLoop _ _ | .startTest | .shiftIn | .setOpen _ | .ackTest _ | .finish _ | .reject _ | .abortEnd _ => false

/-- Only REG_READ has a store into `BEBUF` still to do (spec/10_state.md R20, spec/41_bus_composite.md R203). -/
def StoresOnlyInRegRead (b : BusEngine) : Prop :=
  match b.pos with
  | .idle | .latched _ => True
  | .running w todo => todo.any BusOp.stores = true → ∃ dev reg n, decode .busCmd w = .ok (.regRead dev reg n)

/-- `BEBUF[a]` is not an index that a pending operation stores to. -/
def NotStoredTo (b : BusEngine) (a : Nat) : Prop :=
  match b.pos with
  | .idle | .latched _ => True
  | .running _ todo => BusOp.storeByte a ∉ todo

/-- REG_WRITE's next data byte, if it is about to send one, holds a value (spec/10_state.md R42). -/
def DataReady (b : BusEngine) : Prop :=
  match b.pos with
  | .running _ (.sendLoop i n :: _) => i < n → b.buf.read i ≠ none
  | _ => True

end Sys2Proof.Machine
end

