-- ==== Sys2Proof/Certificates/Slice0/Obligations.lean ====
section
/-! DEFINITION. The statements for the provers. Each docstring says which statement of spec/ it formalises, and which
entries of the assumption log it rests on. `∃ pv` leaves the private result copies of a command that has ended open: no
rule gives them a value then. -/

section
open Sys2Proof Sys2Proof.Machine

/-! ## Encodings -/

/-- Decode and encode agree both ways: every instruction decodes from its own encoding, with every operand at every
value, and whatever word decodes is the encoding of what it decodes to, so no bit of a word is dropped
(spec/30_encoding.md R103, R113, R115, R117).
That a packet's length field is not judged by the decoder is the model's reading, assumption log 22. -/
def Obligations.DecodeEncodeAgree : Prop :=
  (∀ i : Instr, decode i.port (encode i) = .ok i) ∧
  ∀ (p : Port) (w : Word) (i : Instr), decode p w = .ok i → encode i = w ∧ i.port = p

/-- The match and mask pairs of R103, with the operands of R104; every word that matches none is illegal, and no other is
(R102, R107, R109). -/
def Obligations.BusDecodeByMask : Prop :=
  ∀ w : Word,
    (decode .busCmd w = .ok .init ↔ w &&& 0xFFFFFFFF = 0x00000001) ∧
    (decode .busCmd w = .ok .start ↔ w &&& 0xFFFFFFFF = 0x00000002) ∧
    (decode .busCmd w = .ok .stop ↔ w &&& 0xFFFFFFFF = 0x00000003) ∧
    (∀ b, decode .busCmd w = .ok (.writeBit b) ↔ w &&& 0xFFFFFFEF = 0x00000004 ∧ b = w.getLsbD 4) ∧
    (decode .busCmd w = .ok .readBit ↔ w &&& 0xFFFFFFFF = 0x00000005) ∧
    (∀ d, decode .busCmd w = .ok (.writeByte d) ↔ w &&& 0xFFFF00FF = 0x00000006 ∧ d = w.extractLsb' 8 8) ∧
    (∀ k, decode .busCmd w = .ok (.readByte k) ↔ w &&& 0xFFFFFFEF = 0x00000007 ∧ k = w.getLsbD 4) ∧
    (∀ dev reg n, decode .busCmd w = .ok (.regWrite dev reg n) ↔
      w &&& 0x008000FF = 0x00000008 ∧ dev = w.extractLsb' 16 7 ∧ reg = w.extractLsb' 8 8 ∧ n = w.extractLsb' 24 8) ∧
    (∀ dev reg n, decode .busCmd w = .ok (.regRead dev reg n) ↔
      w &&& 0x008000FF = 0x00000009 ∧ dev = w.extractLsb' 16 7 ∧ reg = w.extractLsb' 8 8 ∧ n = w.extractLsb' 24 8) ∧
    ((∃ e, decode .busCmd w = .error e) ↔
      w ≠ 0x00000001 ∧ w ≠ 0x00000002 ∧ w ≠ 0x00000003 ∧ w &&& 0xFFFFFFEF ≠ 0x00000004 ∧ w ≠ 0x00000005 ∧
        w &&& 0xFFFF00FF ≠ 0x00000006 ∧ w &&& 0xFFFFFFEF ≠ 0x00000007 ∧ w &&& 0x008000FF ≠ 0x00000008 ∧
        w &&& 0x008000FF ≠ 0x00000009)

/-- A `PF_CMD` word is READ_PACKET, WRITE_PACKET or illegal (R113, R114); the header bytes of a packet, in the order they
travel, decode by the type codes of R117, and 12 to 255 are undefined (R115, R117).
That the length is not judged here is the model's reading, assumption log 22. -/
def Obligations.FramerWordAndPacketTypeDecoding : Prop :=
  (∀ w : Word,
    (decode .framerCmd w = .ok .readPacket ↔ w = 0x00000001) ∧
    (decode .framerCmd w = .ok .writePacket ↔ w = 0x00000002) ∧
    (decode .framerCmd w = .error .illegalFramerWord ↔ w ≠ 0x00000001 ∧ w ≠ 0x00000002)) ∧
  ∀ len c0 c1 : Byte,
    decode .packet (leWord [len, 0, c0, c1]) = .ok (.pktAck len (c1 ++ c0)) ∧
    decode .packet (leWord [len, 1, c0, c1]) = .ok (.pktNak len (c1 ++ c0)) ∧
    decode .packet (leWord [len, 2, c0, c1]) = .ok (.pktReset len (c1 ++ c0)) ∧
    decode .packet (leWord [len, 3, c0, c1]) = .ok (.pktId len (c1 ++ c0)) ∧
    decode .packet (leWord [len, 4, c0, c1]) = .ok (.pktWriteReg len (c1 ++ c0)) ∧
    decode .packet (leWord [len, 5, c0, c1]) = .ok (.pktReadReg len (c1 ++ c0)) ∧
    decode .packet (leWord [len, 6, c0, c1]) = .ok (.pktEcho len (c1 ++ c0)) ∧
    decode .packet (leWord [len, 7, c0, c1]) = .ok (.pktSsn len (c1 ++ c0)) ∧
    decode .packet (leWord [len, 8, c0, c1]) = .ok (.pktUid len (c1 ++ c0)) ∧
    decode .packet (leWord [len, 9, c0, c1]) = .ok (.pktOpt len (c1 ++ c0)) ∧
    decode .packet (leWord [len, 10, c0, c1]) = .ok (.pktIsn len (c1 ++ c0)) ∧
    decode .packet (leWord [len, 11, c0, c1]) = .ok (.pktDiag len (c1 ++ c0)) ∧
    ∀ t : Byte, 12 ≤ t.toNat → decode .packet (leWord [len, t, c0, c1]) = .error .undefinedType

/-- The worked encodings of R108, read and written. -/
def Obligations.WorkedEncodings : Prop :=
  ∀ p ∈ ([(0x00000001, .init), (0x00000002, .start), (0x00000003, .stop), (0x00000014, .writeBit true),
      (0x00000004, .writeBit false), (0x00000005, .readBit), (0x0000A006, .writeByte 0xA0), (0x00000007, .readByte false),
      (0x00000017, .readByte true), (0x01501008, .regWrite 0x50 0x10 1), (0x02501009, .regRead 0x50 0x10 2)] :
      List (Word × Instr)),
    decode .busCmd p.1 = .ok p.2 ∧ encode p.2 = p.1

/-! ## One step -/

/-- What a step is. With acceptable parameters, the turn of the Bus Engine or of the Packet Framer runs the instruction its
latched word decodes to, and the turn of the Command Responder at its dispatch line runs the one the received header
decodes to, on the state the turn finds (spec/41_bus_composite.md R190, spec/42_framer.md R237, spec/43_responder.md R282);
the turn of a unit that is idle changes nothing (spec/60_exceptions.md R320); the Host CPU's turn is its access
(spec/20_memory.md R73); and where no turn is given, a free one is taken. Parameters are acceptable exactly when they keep
the constraints of spec/00_scope.md R8 and R289, and a step refuses all others (spec/93_implementation_defined.md rows 21
and 22). That a turn comes from the script, that the turn of an idle unit passes, that the dispatch decodes four header
bytes, and that it is the step that refuses parameters, are the model's choices, assumption log 1, 2, 23 and 24. -/
def Obligations.StepRunsDecodedInstruction : Prop :=
  (∀ (s : State) (e : Env) (rest : List Turn) (w : Word) (i : Instr), paramsOk s.par = true →
    let s1 : State := { s with script := rest, env := e }
    (s.script = ⟨.busEngine, e⟩ :: rest → s.be.word? = some w → decode .busCmd w = .ok i → step s = exec i s1) ∧
    (s.script = ⟨.framer, e⟩ :: rest → s.pf.word? = some w → decode .framerCmd w = .ok i → step s = exec i s1) ∧
    (s.script = ⟨.responder, e⟩ :: rest → s.par.responderPresent = true → s.cr = .cycle .gotRead →
      s.pf.pos = .idle → s.pf.result = .ok → s.pf.header? = some w → decode .packet w = .ok i → step s = exec i s1) ∧
    (s.script = ⟨.busEngine, e⟩ :: rest → s.be.pos = .idle → step s = .next s1) ∧
    (s.script = ⟨.framer, e⟩ :: rest → s.pf.pos = .idle → step s = .next s1) ∧
    (∀ a n : Nat, s.script = ⟨.host (.read a n), e⟩ :: rest → step s = hostRead a n s1) ∧
    (∀ (a n : Nat) (v : Word), s.script = ⟨.host (.write a n v), e⟩ :: rest → step s = hostWrite a n v s1)) ∧
  (∀ s : State, s.script = [] →
    step s = step { s with script := [Config.freeTurn s.turns], turns := s.turns + 1 }) ∧
  ∀ s : State,
    let p := s.par
    let acceptable := p.blkBase % 0x400 = 0 ∧ 0 < p.tHalf ∧ 1 ≤ p.uidWords ∧ p.uidWords ≤ 4 ∧
      p.ident.buildHash.length = 8 ∧ p.ident.buildHash.getLast? = some 0 ∧
      1 ≤ p.ident.buildInfo.length ∧ p.ident.buildInfo.length ≤ 220 ∧ p.ident.buildInfo.getLast? = some 0
    (paramsOk p = true ↔ acceptable) ∧ (¬acceptable → step s = .refused .badParameters)

/-- An illegal command word ends its command at once, in one step. On `BE_CMD`: ILLEGAL_CMD, also while a recovery is
required, and nothing else changes (spec/30_encoding.md R111). On `PF_CMD`: RESULT = ILLEGAL_CMD, with `PFBUF`, `COUNT`
and `CALC` unchanged and no transport call (R114). -/
def Obligations.IllegalWordsEndAtOnce : Prop :=
  ∀ (s : State) (e : Env) (rest : List Turn) (w : Word), paramsOk s.par = true →
    (∀ err : DecodeError, s.script = ⟨.busEngine, e⟩ :: rest → s.be.pos = .latched w → decode .busCmd w = .error err →
      ∃ pv : BusPrivate, step s = .next { s with
        script := rest
        env := e
        be := { s.be with code := .illegalCmd, pos := .idle, priv := pv } }) ∧
    (∀ l : Latch, s.script = ⟨.framer, e⟩ :: rest → s.pf.pos = .latched w l → w ≠ 0x00000001 → w ≠ 0x00000002 →
      step s = .next { s with
        script := rest
        env := e
        pf := { s.pf with result := .illegalCmd, pos := .idle } })

/-! ## Bus Engine primitives -/

/-- Each step of each of the nine Bus Engine commands answers a next state and changes the Bus Engine alone, and of it
never the configuration, provided a data byte REG_WRITE is about to send holds a value (spec/40_bus_primitives.md R141,
spec/10_state.md R20, R42). No byte of `BEBUF` changes but the one a pending operation stores to, and none in a command
other than REG_READ (spec/41_bus_composite.md R203). What happens from a position that is not in the command's procedure
is the model's choice, assumption log 11. -/
def Obligations.BusStepCompletes : Prop :=
  ∀ (i : Instr) (s : State), i.port = .busCmd → DataReady s.be →
    ∃ b : BusEngine, exec i s = .next { s with be := b } ∧
      b.arbAbort = s.be.arbAbort ∧ b.stretchBound = s.be.stretchBound ∧ b.stretchLimit = s.be.stretchLimit ∧
      (∀ a, NotStoredTo s.be a → b.buf.read a = s.be.buf.read a) ∧
      (∀ w, StoresOnlyInRegRead s.be → s.be.word? = some w → decode .busCmd w = .ok i →
        (∀ dev reg n, i ≠ .regRead dev reg n) → b.buf = s.be.buf)

/-- The completion fields keep the previous command's values while a Bus Engine command is in progress
(spec/10_state.md R37).
What happens from a position that is not in the command's procedure is the model's choice, assumption log 11. -/
def Obligations.BusResultsHeldWhileBusy : Prop :=
  ∀ (i : Instr) (s t : State), i.port = .busCmd → exec i s = .next t → t.be.busy = true →
    t.be.code = s.be.code ∧ t.be.rxBit = s.be.rxBit ∧ t.be.rxByte = s.be.rxByte ∧ t.be.pulses = s.be.pulses ∧
      t.be.xcnt = s.be.xcnt

/-- START with no clock stretching: 4 steps, or 7 for a repeated start; a low level where SDA is checked is recorded in
`ARB` (spec/40_bus_primitives.md R150, R168). -/
def Obligations.StartOpensTransaction : Prop :=
  ∀ (s : State) (envs : Nat → Env),
    let o := s.be.startSteps
    let level := (s.be.opened || s.be.sdaOut) && (envs (o - 4)).sda
    Accepted .start s → Unstretched envs o → (s.be.arbAbort = false ∨ level = true) →
    ∃ pv : BusPrivate, runCommand .start (steps envs o) s = .next { s with
      env := envs (o - 1)
      be := { s.be with
        opened := true, sclOut := false, sdaOut := false, arb := s.be.arb || !level
        code := .ok, pos := .idle, priv := pv } }

/-- The traces of START (R150, R151): 7 micro-operations as a repeated start, 4 otherwise, and no fewer. -/
def Obligations.StartTraces : Prop :=
  ∀ (s : State) (envs : Nat → Env), Accepted .start s →
    (s.be.opened = true → Unstretched envs 7 → (envs 3).sda = true →
      traceCommand .start (steps envs 7) s =
        [.high .sda, .high .scl, .read .scl true, .read .sda true, .low .sda, .read .scl true, .low .scl] ∧
      (∃ t, runCommand .start (steps envs 7) s = .next t ∧ t.be.busy = false) ∧
      (∃ t, runCommand .start (steps envs 6) s = .next t ∧ t.be.busy = true)) ∧
    (s.be.opened = false → s.be.sdaOut = true → (envs 0).sda = true →
      traceCommand .start (steps envs 4) s =
        [.read .sda true, .low .sda, .read .scl (s.be.sclOut && (envs 2).scl), .low .scl] ∧
      (∃ t, runCommand .start (steps envs 4) s = .next t ∧ t.be.busy = false) ∧
      (∃ t, runCommand .start (steps envs 3) s = .next t ∧ t.be.busy = true))

/-- STOP with no clock stretching: 6 steps, after which `OPEN` is 0 and both lines are released (R153, R168). -/
def Obligations.StopClosesTransaction : Prop :=
  ∀ (s : State) (envs : Nat → Env), Accepted .stop s → Unstretched envs 6 →
    (s.be.arbAbort = false ∨ (envs 5).sda = true) →
    ∃ pv : BusPrivate, runCommand .stop (steps envs 6) s = .next { s with
      env := envs 5
      be := { s.be with
        opened := false, sclOut := true, sdaOut := true, arb := s.be.arb || !(envs 5).sda
        code := .ok, pos := .idle, priv := pv } }

/-- WRITE_BIT with no clock stretching: 6 steps; a 1 is written by releasing SDA and checked, a 0 by driving it low and
not checked (R156, R168). -/
def Obligations.WriteBitDrivesSda : Prop :=
  ∀ (v : Bool) (s : State) (envs : Nat → Env), Accepted (.writeBit v) s → Unstretched envs 6 →
    (s.be.arbAbort = false ∨ v = false ∨ (envs 3).sda = true) →
    ∃ pv : BusPrivate, runCommand (.writeBit v) (steps envs 6) s = .next { s with
      env := envs 5
      be := { s.be with
        sclOut := false, sdaOut := v, arb := s.be.arb || (v && !(envs 3).sda)
        code := .ok, pos := .idle, priv := pv } }

/-- READ_BIT whose clock the peers stretch for `m` samples, fewer than a bound allows: `6 + m` steps, and `RXBIT` is the
level of SDA while SCL is high (R146, R159, R168). The same wait inside any Bus Engine command, however it got there: `m`
low samples more, within the bound, and then a high one take `m + 1` steps, and the command goes on with what it has still
to do, nothing else changed. -/
def Obligations.ReadBitSamplesSda : Prop :=
  (∀ (m : Nat) (s : State) (envs : Nat → Env), Accepted .readBit s →
     (∀ k, k < m → (envs (2 + k)).scl = false) → (envs (2 + m)).scl = true →
     (s.be.stretchBound = true → m < max s.be.stretchLimit.toNat 1) →
     ∃ pv : BusPrivate, runCommand .readBit (steps envs (6 + m)) s = .next { s with
       env := envs (5 + m)
       be := { s.be with
         sclOut := false, sdaOut := true, rxBit := (envs (3 + m)).sda
         code := .ok, pos := .idle, priv := pv } }) ∧
  ∀ (i : Instr) (s : State) (w : Word) (lows m : Nat) (r : List BusOp) (envs : Nat → Env), i.port = .busCmd →
    s.be.pos = .running w (.waitScl lows :: r) →
    (∀ k, k < m → (s.be.sclOut && (envs k).scl) = false) → (s.be.sclOut && (envs m).scl) = true →
    (s.be.stretchBound = true → m = 0 ∨ lows + m < max s.be.stretchLimit.toNat 1) →
    runCommand i (steps envs (m + 1)) s = .next { s with env := envs m, be := s.be.goesOn i r }

/-- WRITE_BYTE with no clock stretching: 54 steps, `RXBIT` the acknowledge bit, CODE = OK whatever it is; the checks of
its 1 bits are recorded in `ARB`; the bits clocked onto the bus are the byte's, most significant first, and then SDA
released for the acknowledge bit (R162, R168, spec/20_memory.md R78). -/
def Obligations.WriteByteSendsMsbFirst : Prop :=
  ∀ (d : Byte) (s : State) (envs : Nat → Env),
    let lost := (List.range 8).any fun j => d.getLsbD (7 - j) && !(envs (6 * j + 3)).sda
    Accepted (.writeByte d) s → Unstretched envs 54 → (s.be.arbAbort = false ∨ lost = false) →
    ∃ pv : BusPrivate, runCommand (.writeByte d) (steps envs 54) s = .next { s with
      env := envs 53
      be := { s.be with
        sclOut := false, sdaOut := true, arb := s.be.arb || lost, rxBit := (envs 51).sda
        code := .ok, pos := .idle, priv := pv } } ∧
    clockedBits s.be.sdaOut (traceCommand (.writeByte d) (steps envs 54) s) =
      [d.getLsbD 7, d.getLsbD 6, d.getLsbD 5, d.getLsbD 4, d.getLsbD 3, d.getLsbD 2, d.getLsbD 1, d.getLsbD 0, true]

/-- READ_BYTE with no clock stretching: 54 steps, `RXBYTE` the byte whose bits the peer sent most significant first,
`RXBIT` unchanged, and the caller's acknowledge bit sent, which is checked when it is a NAK (R165, R168). -/
def Obligations.ReadByteAssemblesMsbFirst : Prop :=
  ∀ (k : Bool) (d : Byte) (s : State) (envs : Nat → Env), Accepted (.readByte k) s → Unstretched envs 54 →
    (∀ j, j < 8 → (envs (6 * j + 3)).sda = d.getLsbD (7 - j)) →
    (s.be.arbAbort = false ∨ k = false ∨ (envs 51).sda = true) →
    ∃ pv : BusPrivate, runCommand (.readByte k) (steps envs 54) s = .next { s with
      env := envs 53
      be := { s.be with
        sclOut := false, sdaOut := k, arb := s.be.arb || (k && !(envs 51).sda), rxByte := d
        code := .ok, pos := .idle, priv := pv } }

/-- With `STRETCH_BOUND = 1` any Bus Engine command in a clock-stretch wait that has seen `m` low samples aborts when the
low samples reach `max(STRETCH_LIMIT, 1)`: both lines are released in two more steps and the command ends with
STRETCH_TIMEOUT, `OPEN = 0` and `NEED_RECOV = 1`; REG_WRITE and REG_READ publish the count they have reached in `XCNT`
(R146, R148, spec/41_bus_composite.md R191). INIT makes no such wait (R193). -/
def Obligations.BoundedStretchAborts : Prop :=
  ∀ (i : Instr) (s : State) (w : Word) (m : Nat) (r : List BusOp) (envs : Nat → Env), i.port = .busCmd → i ≠ .init →
    s.be.pos = .running w (.waitScl m :: r) → s.be.stretchBound = true →
    let left := max s.be.stretchLimit.toNat 1 - m
    0 < left → (∀ k, k < left → (envs k).scl = false) →
    ∃ b : BusEngine,
      runCommand i (steps envs (left + 2)) s = .next { s with env := envs (left + 1), be := b } ∧
      AbortedWith i .stretchTimeout s.be b

/-- With `STRETCH_BOUND = 0` a clock held low forever keeps the command in progress forever: the hang a model must keep
(R146, spec/70_reset_and_hazards.md R364). -/
def Obligations.UnboundedStretchNeverEnds : Prop :=
  ∀ (i : Instr) (s : State) (w : Word) (m : Nat) (r : List BusOp) (envs : Nat → Env), i.port = .busCmd →
    s.be.pos = .running w (.waitScl m :: r) → s.be.stretchBound = false → (∀ k, (envs k).scl = false) →
    ∀ n, ∃ t, runCommand i (steps envs n) s = .next t ∧ t.be.busy = true ∧ t.be.sclOut = s.be.sclOut ∧
      t.be.sdaOut = s.be.sdaOut ∧ t.be.code = s.be.code

/-- With `ARB_ABORT = 1` a low SDA at any of the three arbitration checks ends the command: START before SDA is driven
low, STOP after SDA is released, WRITE_BIT of a 1 while SCL is high. Both lines are released, with no wait, `OPEN` is 0
and `NEED_RECOV` is 1. The same at a check inside any command, where REG_WRITE and REG_READ publish the count they have
reached in `XCNT`. With `ARB_ABORT = 0` a check inside any command only sets `ARB`, and with a high SDA it changes nothing:
the command goes on with what it has still to do (R147, R148, spec/41_bus_composite.md R191, R198). -/
def Obligations.ArbitrationLossAborts : Prop :=
  (∀ (s : State) (envs : Nat → Env), s.be.arbAbort = true →
    let lostBe : BusPrivate → BusEngine := fun pv => { s.be with
      opened := false, needRecov := true, sclOut := true, sdaOut := true, arb := true
      code := .arbLost, pos := .idle, priv := pv }
    let o := s.be.startSteps
    (Accepted .start s → Unstretched envs o → ((s.be.opened || s.be.sdaOut) && (envs (o - 4)).sda) = false →
      ∃ pv, runCommand .start (steps envs (o - 1)) s = .next { s with env := envs (o - 2), be := lostBe pv }) ∧
    (Accepted .stop s → Unstretched envs 6 → (envs 5).sda = false →
      ∃ pv, runCommand .stop (steps envs 8) s = .next { s with env := envs 7, be := lostBe pv }) ∧
    (Accepted (.writeBit true) s → Unstretched envs 6 → (envs 3).sda = false →
      ∃ pv, runCommand (.writeBit true) (steps envs 6) s = .next { s with env := envs 5, be := lostBe pv }) ∧
    (∀ (i : Instr) (w : Word) (r : List BusOp), i.port = .busCmd → i ≠ .init →
      (s.be.pos = .running w (.arbCheck :: r) ∨ s.be.pos = .running w (.startCheck :: r)) →
      (s.be.sdaOut && (envs 0).sda) = false →
      ∃ b : BusEngine, runCommand i (steps envs 3) s = .next { s with env := envs 2, be := b } ∧
        AbortedWith i .arbLost { s.be with arb := true } b)) ∧
  ∀ (i : Instr) (s : State) (w : Word) (r : List BusOp) (e : Env), i.port = .busCmd →
    (s.be.pos = .running w (.arbCheck :: r) ∨ s.be.pos = .running w (.startCheck :: r)) →
    let level := s.be.sdaOut && e.sda
    (s.be.arbAbort = false ∨ level = true) →
    runCommand i [e] s = .next { s with env := e, be := { s.be with arb := s.be.arb || !level }.goesOn i r }

/-- The endings decided before any line operation: while `NEED_RECOV` is 1 every command but INIT ends in one step with
RECOVERY_REQUIRED, and REG_READ of no byte ends in one step with ARG_ERROR; no line is touched and no other field is
written (spec/41_bus_composite.md R190, R191, R203, spec/10_state.md R22, spec/60_exceptions.md R323). -/
def Obligations.EndingsBeforeAnyLineOperation : Prop :=
  (∀ (i : Instr) (s : State), i.port = .busCmd → i ≠ .init → s.be.pos = .latched (encode i) → s.be.needRecov = true →
    ∃ pv : BusPrivate, exec i s = .next { s with
      be := { s.be with code := .recoveryRequired, pos := .idle, priv := pv } }) ∧
  ∀ (dev : BitVec 7) (reg : Byte) (s : State), Accepted (.regRead dev reg 0) s →
    ∃ pv : BusPrivate, exec (.regRead dev reg 0) s = .next { s with
      be := { s.be with code := .argError, pos := .idle, priv := pv } }

/-! ## Recovery and register I/O -/

/-- INIT issues exactly as many pulses as it takes for both lines to read high: `k` pulses, of which `k <= 9`, and
`4 + 5 k` steps. When they never do, it gives up after 9 pulses and 49 steps with RECOVERY_FAIL and `NEED_RECOV = 1`
(spec/41_bus_composite.md R192, R193, R194). -/
def Obligations.InitRecoversOrGivesUp : Prop :=
  ∀ (s : State) (envs : Nat → Env), s.be.pos = .latched (encode .init) →
    (∀ k, k ≤ 9 → (∀ p, p < k → ((envs (2 + 5 * p)).scl && (envs (3 + 5 * p)).sda) = false) →
      (envs (2 + 5 * k)).scl = true → (envs (3 + 5 * k)).sda = true →
      ∃ pv : BusPrivate, runCommand .init (steps envs (4 + 5 * k)) s = .next { s with
        env := envs (3 + 5 * k)
        be := { s.be with
          opened := false, needRecov := false, sclOut := true, sdaOut := true
          pulses := BitVec.ofNat 4 k, xcnt := 0, code := .ok, pos := .idle, priv := pv } } ∧
      (traceCommand .init (steps envs (4 + 5 * k)) s).count (.low .scl) = k) ∧
    ((∀ p, p ≤ 9 → ((envs (2 + 5 * p)).scl && (envs (3 + 5 * p)).sda) = false) →
      ∃ pv : BusPrivate, runCommand .init (steps envs 49) s = .next { s with
        env := envs 48
        be := { s.be with
          opened := false, needRecov := true, sclOut := true, sdaOut := true
          pulses := 9, xcnt := 0, code := .recoveryFail, pos := .idle, priv := pv } })

/-- REG_WRITE of `n` bytes, every byte acknowledged, nothing stretched, every check passing (a START check that fails
because the master holds SDA low is recorded in `ARB`, with `ARB_ABORT = 0`): it ends with OK after
`4 + 54 (n + 2) + 6` steps, three more when a transaction was open, and `XCNT = n + 2` (R196, R198, R208). -/
def Obligations.RegWriteAcknowledged : Prop :=
  ∀ (dev : BitVec 7) (reg n : Byte) (data : List Byte) (s : State) (envs : Nat → Env),
    let o := s.be.startSteps
    let total := o + 54 * (n.toNat + 2) + 6
    Accepted (.regWrite dev reg n) s → (s.be.startLost = false ∨ s.be.arbAbort = false) →
    s.be.buf.readBytes 0 n.toNat = some data → PeersHold (ackPeer o (n.toNat + 2)) envs total →
    ∃ pv : BusPrivate, runCommand (.regWrite dev reg n) (steps envs total) s = .next { s with
      env := envs (total - 1)
      be := { s.be with
        opened := false, sclOut := true, sdaOut := true, arb := s.be.arb || s.be.startLost, xcnt := BitVec.ofNat 16 (n.toNat + 2)
        code := .ok, pos := .idle, priv := pv } }

/-- The bits of that run on the bus: after the released clock of a repeated start, if a transaction was open, the address
byte with the write direction, the register byte, then `BEBUF[0]` to `BEBUF[n-1]` in this order, each most significant bit
first and followed by the released acknowledge bit, and SDA low for the stop (R150, R198, R200, spec/30_encoding.md R105,
spec/20_memory.md R78). -/
def Obligations.RegWriteBytesOnBus : Prop :=
  ∀ (dev : BitVec 7) (reg n : Byte) (data : List Byte) (s : State) (envs : Nat → Env),
    let o := s.be.startSteps
    let total := o + 54 * (n.toNat + 2) + 6
    Accepted (.regWrite dev reg n) s → (s.be.startLost = false ∨ s.be.arbAbort = false) →
    s.be.buf.readBytes 0 n.toNat = some data → PeersHold (ackPeer o (n.toNat + 2)) envs total →
    clockedBits s.be.sdaOut (traceCommand (.regWrite dev reg n) (steps envs total) s) =
      (if s.be.opened then [true] else []) ++ ((dev ++ 0#1) :: reg :: data).flatMap writtenBits ++ [false]

/-- REG_WRITE stops at the first byte that is not acknowledged, byte `j` of the `n + 2`: a stop follows at once, the code
is that of the phase, `XCNT = j`, and nothing after it is sent (R197, R199, R207, R208). -/
def Obligations.RegWriteStopsAtNak : Prop :=
  ∀ (dev : BitVec 7) (reg n : Byte) (j : Nat) (s : State) (envs : Nat → Env),
    let o := s.be.startSteps
    let total := o + 54 * (j + 1) + 6
    Accepted (.regWrite dev reg n) s → (s.be.startLost = false ∨ s.be.arbAbort = false) → j < n.toNat + 2 →
    (∀ a, a + 2 ≤ j → s.be.buf.read a ≠ none) → PeersHold (ackPeer o j) envs total →
    ∃ pv : BusPrivate, runCommand (.regWrite dev reg n) (steps envs total) s = .next { s with
      env := envs (total - 1)
      be := { s.be with
        opened := false, sclOut := true, sdaOut := true, arb := s.be.arb || s.be.startLost, xcnt := BitVec.ofNat 16 j
        code := nakCode j, pos := .idle, priv := pv } }

/-- REG_WRITE faults when it reaches a data byte that holds no value, the bytes before it having been sent and
acknowledged (R198, spec/10_state.md R42).
That the fault falls in the step that begins the byte is the model's reading, assumption log 5. -/
def Obligations.RegWriteFaultsOnUnwrittenByte : Prop :=
  ∀ (dev : BitVec 7) (reg n : Byte) (j : Nat) (s : State) (envs : Nat → Env),
    let o := s.be.startSteps
    let total := o + 54 * (j + 2) + 1
    Accepted (.regWrite dev reg n) s → (s.be.startLost = false ∨ s.be.arbAbort = false) → j < n.toNat →
    (∀ a, a < j → s.be.buf.read a ≠ none) → s.be.buf.read j = none → PeersHold (ackPeer o (j + 2)) envs total →
    runCommand (.regWrite dev reg n) (steps envs total) s = .fault .unwrittenRead

/-- REG_READ of `n >= 1` bytes from a peer that acknowledges and sends the bytes `d`: it ends with OK after
`4 + 108 + 7 + 54 + 54 n + 6` steps, three more when a transaction was open; byte `i` received is in `BEBUF[i]`, bytes at
index `n` and above are unchanged, and `XCNT = n + 3` (R203, R206, R208). The
bits it clocks onto the bus: the released clock of a repeated start, if a transaction was open; the address byte with the
write direction and the register byte; the released clock of the repeated start; the address byte with the read direction;
for each byte received eight released bits and the acknowledge bit, ACK for every byte but the last and NAK for the last;
and SDA low for the stop (R150, R203, spec/30_encoding.md R105). -/
def Obligations.RegReadStoresReceivedBytes : Prop :=
  ∀ (dev : BitVec 7) (reg n : Byte) (d : Nat → Byte) (s : State) (envs : Nat → Env),
    let o := s.be.startSteps
    let total := o + 169 + 54 * n.toNat + 6
    Accepted (.regRead dev reg n) s → (s.be.startLost = false ∨ s.be.arbAbort = false) → n ≠ 0 →
    PeersHold (regReadPeer o n.toNat d) envs total →
    (∃ m : Memory,
      ∃ pv : BusPrivate, runCommand (.regRead dev reg n) (steps envs total) s = .next { s with
        env := envs (total - 1)
        be := { s.be with
          opened := false, sclOut := true, sdaOut := true, arb := s.be.arb || s.be.startLost, xcnt := BitVec.ofNat 16 (n.toNat + 3), buf := m
          code := .ok, pos := .idle, priv := pv } } ∧
      ∀ a, m.read a = if a < n.toNat then some (d a) else s.be.buf.read a) ∧
    clockedBits s.be.sdaOut (traceCommand (.regRead dev reg n) (steps envs total) s) =
      (if s.be.opened then [true] else []) ++ writtenBits (dev ++ 0#1) ++ writtenBits reg ++
        [true] ++ writtenBits (dev ++ 1#1) ++
        (List.range n.toNat).flatMap (fun i => List.replicate 8 true ++ [i + 1 == n.toNat]) ++ [false]

/-- REG_READ stops at an address or register byte that is not acknowledged: the same code for both address bytes, and
`XCNT` tells them apart (R203, R207, R208). -/
def Obligations.RegReadStopsAtNak : Prop :=
  ∀ (dev : BitVec 7) (reg n : Byte) (j : Nat) (s : State) (envs : Nat → Env),
    let o := s.be.startSteps
    let total := o + 54 * (j + 1) + (if j = 2 then 7 else 0) + 6
    Accepted (.regRead dev reg n) s → (s.be.startLost = false ∨ s.be.arbAbort = false) → n ≠ 0 → j ≤ 2 →
    PeersHold (ackPeer o j) envs total →
    ∃ pv : BusPrivate, runCommand (.regRead dev reg n) (steps envs total) s = .next { s with
      env := envs (total - 1)
      be := { s.be with
        opened := false, sclOut := true, sdaOut := true, arb := s.be.arb || s.be.startLost, xcnt := BitVec.ofNat 16 j
        code := if j = 1 then .regNak else .addrNak, pos := .idle, priv := pv } }

/-- An arbitration loss in the stop that follows a NAK supersedes the NAK's code (spec/60_exceptions.md R323), with
`ARB_ABORT = 1` and SDA held low after the stop's release: in REG_WRITE after any byte `j` of its `n + 2`, in REG_READ
after any of the three bytes it writes. `XCNT = j` (R191, R197). -/
def Obligations.AbortSupersedesNak : Prop :=
  ∀ (dev : BitVec 7) (reg n : Byte) (j : Nat) (s : State) (envs : Nat → Env), s.be.arbAbort = true →
    s.be.startLost = false →
    let o := s.be.startSteps
    let lostBe : BusPrivate → BusEngine := fun pv => { s.be with
      opened := false, needRecov := true, sclOut := true, sdaOut := true, arb := true, xcnt := BitVec.ofNat 16 j
      code := .arbLost, pos := .idle, priv := pv }
    let e := o + 54 * (j + 1)
    (Accepted (.regWrite dev reg n) s → j < n.toNat + 2 → (∀ a, a + 2 ≤ j → s.be.buf.read a ≠ none) →
      PeersHold (fun k => ackPeer o j k && k != e + 5) envs (e + 8) →
      ∃ pv, runCommand (.regWrite dev reg n) (steps envs (e + 8)) s =
        .next { s with env := envs (e + 7), be := lostBe pv }) ∧
    (Accepted (.regRead dev reg n) s → n ≠ 0 → j ≤ 2 →
      let e := e + if j = 2 then 7 else 0
      PeersHold (fun k => ackPeer o j k && k != e + 5) envs (e + 8) →
      ∃ pv, runCommand (.regRead dev reg n) (steps envs (e + 8)) s =
        .next { s with env := envs (e + 7), be := lostBe pv })

/-! ## Packet Framer -/

/-- READ_PACKET in compatible mode assembles a legal packet from a transport that delivers at most one byte per call: `L`
calls that deliver one, and any number that deliver none. The bytes after the packet stay in the transport
(spec/42_framer.md R239, R240, R253).
That bytes can reach the transport inside a step is the model's choice, assumption log 19. -/
def Obligations.ReadPacketAssembles : Prop :=
  ∀ (p rest : List Byte) (l : Latch) (s : State) (es : List Env), LegalPacket p →
    FramerLatched .readPacket l s → l.expired s.now = false → l.strict = false → s.tr.rx = p ++ rest →
    (∀ e ∈ es, e.count ≤ 1) → (es.map Env.count).sum = p.length → es.getLast?.map Env.count = some 1 →
    runCommand .readPacket es s = .next { s with
      env := es.getLast?.getD s.env
      tr := { s.tr with rx := rest ++ es.flatMap Env.arriving }
      pf := { s.pf with
        buf := s.pf.buf.putBytes Config.pfBufBytes 0 p
        result := .ok, count := BitVec.ofNat 8 p.length, pos := .idle } }

/-- In strict mode the same run ends with OK when bytes 2 and 3 hold the checksum of the packet with its checksum field
taken as zero, low byte first, and with CHECKSUM_ERROR and `COUNT = 0` otherwise; `CALC` is that checksum
(R239, R244, R245).
Arrivals inside a step: assumption log 19. -/
def Obligations.ReadPacketChecksChecksum : Prop :=
  ∀ (p rest : List Byte) (l : Latch) (s : State) (es : List Env), LegalPacket p →
    FramerLatched .readPacket l s → l.expired s.now = false → l.strict = true → s.tr.rx = p ++ rest →
    (∀ e ∈ es, e.count ≤ 1) → (es.map Env.count).sum = p.length → es.getLast?.map Env.count = some 1 →
    let c := checksumOf s.par.checksumFn (withoutChecksum p)
    runCommand .readPacket es s = .next { s with
      env := es.getLast?.getD s.env
      tr := { s.tr with rx := rest ++ es.flatMap Env.arriving }
      pf := { s.pf with
        buf := s.pf.buf.putBytes Config.pfBufBytes 0 p, checksum := c, pos := .idle
        result := if withChecksum p c = p then .ok else .checksumError
        count := if withChecksum p c = p then BitVec.ofNat 8 p.length else 0 } }

/-- The early endings of READ_PACKET. A malformed header is dropped: in whatever calls its four bytes arrive, the
call that completes it reads nothing more and the command ends with FRAMING_ERROR and `COUNT = 0`. A deadline that has passed before a transport call ends it with
TIMEOUT and `COUNT = 0`, never with a partial packet, in the header phase as in the payload phase, with no transport call
made and the buffer as it was (R233, R239, R241).
Arrivals inside a step, and an expiry that ends its own step, are the model's readings, assumption log 19 and 7. -/
def Obligations.ReadPacketEndsEarly : Prop :=
  (∀ (s : State) (w : Word) (l : Latch) (got : Nat) (h0 : Byte),
    (s.pf.pos = .latched w l ∧ got = 0 ∨ s.pf.pos = .running w l (.header got)) → got < 4 → l.expired s.now = false →
    let stream := s.tr.rx ++ s.env.arriving
    let bs := stream.take (4 - got)
    bs.length = 4 - got → 4 - got ≤ s.env.count → (if got = 0 then bs.head? else s.pf.buf.read 0) = some h0 →
    (h0.toNat < 4 ∨ 254 < h0.toNat) →
    exec .readPacket s = .next { s with
      tr := { s.tr with rx := stream.drop (4 - got) }
      pf := { s.pf with
        buf := s.pf.buf.putBytes Config.pfBufBytes got bs
        result := .framingError, count := 0, pos := .idle } }) ∧
  ∀ (s : State) (w : Word) (l : Latch) (len got : Nat),
    (s.pf.pos = .latched w l ∨ s.pf.pos = .running w l (.header got) ∨ s.pf.pos = .running w l (.payload len got)) →
    l.expired s.now = true →
    exec .readPacket s = .next { s with pf := { s.pf with result := .timeout, count := 0, pos := .idle } }

/-- Starvation: a transport that returns no byte while `ticks >= D` ticks pass makes READ_PACKET end with TIMEOUT and
`COUNT = 0` at the framer's next step, however its steps and the ticks interleave (R230, R232, R254).
An expiry that ends its own step is the model's reading, assumption log 7; that a framer turn after
an early end passes, assumption log 2. -/
def Obligations.ReadPacketStarves : Prop :=
  ∀ (s : State) (l : Latch) (turns rest : List Turn) (last : Env), paramsOk s.par = true →
    FramerLatched .readPacket l s → l.t0 = s.now → l.d ≠ 0 →
    (∀ t ∈ turns, t.agent = .tick ∨ (t.agent = .framer ∧ t.env.count = 0)) →
    let ticks := (turns.filter fun t => t.agent == .tick).length
    l.d.toNat ≤ ticks → ticks < 2 ^ 32 → s.script = turns ++ ⟨.framer, last⟩ :: rest →
    ∃ t, blockRun (turns.length + 1) s = .next t ∧ t.pf.pos = .idle ∧ t.pf.result = .timeout ∧ t.pf.count = 0 ∧
      t.pf.buf = s.pf.buf ∧ t.tr.tx = s.tr.tx

/-- WRITE_PACKET sends the packet in `PFBUF` whatever the transport accepts per call, ending in the call that accepts the
last byte; in strict mode bytes 2 and 3 of the buffer and of what is sent hold the checksum, whatever they held before, and `CALC` is it
(R244, R245, R249).
That the checks before the first call share its step is the model's reading, assumption log 7. -/
def Obligations.WritePacketSends : Prop :=
  ∀ (p : List Byte) (l : Latch) (s : State) (es : List Env), LegalPacket p → FramerLatched .writePacket l s →
    l.expired s.now = false → PacketIn s.pf.buf l.strict p →
    (es.map Env.count).sum = p.length → (∃ e, es.getLast? = some e ∧ 0 < e.count) →
    let c := checksumOf s.par.checksumFn (withoutChecksum p)
    runCommand .writePacket es s = .next { s with
      env := es.getLast?.getD s.env
      tr := { s.tr with tx := s.tr.tx ++ if l.strict then withChecksum p c else p }
      pf := { s.pf with
        buf := if l.strict then s.pf.buf.putBytes Config.pfBufBytes 2 [lowByte c, highByte c] else s.pf.buf
        checksum := if l.strict then c else s.pf.checksum
        result := .ok, count := BitVec.ofNat 8 p.length, pos := .idle } }

/-- The early endings of WRITE_PACKET. A deadline that passes after `sent` bytes ends it with PARTIAL and `COUNT = sent`,
the bytes sent not being withdrawn; `COUNT = 0` when it has passed before the first call. An illegal length byte ends it
in one step with FRAMING_ERROR and `COUNT = 0`, nothing sent, whatever the deadline and the mode (R249, R250, R251,
spec/60_exceptions.md R324). It faults with UnwrittenRead on a byte it reads that holds no value: the length byte, in
strict mode a byte the checksum sums, and before the deadline an accepted byte (R245, spec/10_state.md R42).
That the checks before the first call share its step is the model's reading, assumption log 7. -/
def Obligations.WritePacketEndsEarly : Prop :=
  (∀ (s : State) (w : Word) (l : Latch) (len sent : Nat) (csum : Option Half),
    s.pf.pos = .running w l (.sending len sent csum) → l.expired s.now = true →
    exec .writePacket s = .next { s with
      pf := { s.pf with
        result := .partialWrite, count := BitVec.ofNat 8 sent, checksum := csum.getD s.pf.checksum, pos := .idle } }) ∧
  (∀ (p : List Byte) (s : State) (l : Latch), LegalPacket p → FramerLatched .writePacket l s →
    l.expired s.now = true → s.pf.buf.read 0 = p[0]? → (l.strict = true → PacketIn s.pf.buf true p) →
    let c := checksumOf s.par.checksumFn (withoutChecksum p)
    exec .writePacket s = .next { s with
      pf := { s.pf with
        buf := if l.strict then s.pf.buf.putBytes Config.pfBufBytes 2 [lowByte c, highByte c] else s.pf.buf
        checksum := if l.strict then c else s.pf.checksum
        result := .partialWrite, count := 0, pos := .idle } }) ∧
  (∀ (s : State) (l : Latch) (len : Byte), FramerLatched .writePacket l s → s.pf.buf.read 0 = some len →
    (len.toNat < 4 ∨ 254 < len.toNat) →
    exec .writePacket s = .next { s with pf := { s.pf with result := .framingError, count := 0, pos := .idle } }) ∧
  (∀ (s : State) (l : Latch), FramerLatched .writePacket l s → s.pf.buf.read 0 = none →
    exec .writePacket s = .fault .unwrittenRead) ∧
  (∀ (s : State) (l : Latch) (len : Byte) (a : Nat), FramerLatched .writePacket l s → s.pf.buf.read 0 = some len →
    4 ≤ len.toNat → len.toNat ≤ 254 → s.pf.buf.read a = none →
    (l.strict = true ∧ a < len.toNat ∧ a ≠ 2 ∧ a ≠ 3 ∨
      l.strict = false ∧ l.expired s.now = false ∧ a < min s.env.count len.toNat) →
    exec .writePacket s = .fault .unwrittenRead) ∧
  ∀ (s : State) (w : Word) (l : Latch) (len sent : Nat) (csum : Option Half) (a : Nat),
    s.pf.pos = .running w l (.sending len sent csum) → l.expired s.now = false → s.pf.buf.read a = none →
    sent ≤ a → a < sent + min s.env.count (len - sent) →
    exec .writePacket s = .fault .unwrittenRead

/-- READ_PACKET followed by WRITE_PACKET on the same buffer, both ending with OK, however the transport splits the bytes:
the packet received is what the stream held, and it is sent with its length and type bytes unchanged, in compatible mode
all of it (R252).
Arrivals inside a step: assumption log 19. -/
def Obligations.EchoRoundTrip : Prop :=
  ∀ (l : Latch) (s t u : State) (es1 es2 : List Env), FramerLatched .readPacket l s →
    FramerRun .readPacket es1 s t → t.pf.result = .ok →
    FramerRun .writePacket es2 { t with pf := t.pf.startCommand t.now (encode .writePacket) } u → u.pf.result = .ok →
    let p := (s.tr.rx ++ es1.flatMap Env.arriving).take t.pf.count.toNat
    LegalPacket p ∧ ∃ q : List Byte, u.tr.tx = s.tr.tx ++ q ∧ q.length = p.length ∧ q.take 2 = p.take 2 ∧
      (s.pf.strict = false → q = p)

/-- One step of each framer command, before its deadline. READ_PACKET makes one transport call for what its phase still
needs and stores the bytes behind those it has; then it goes on in its phase, or goes to the payload phase when a legal
header is complete, or ends when the whole packet is in, in strict mode by its checksum. WRITE_PACKET, in its first step as
in the later ones, offers what is left and goes on, or ends with OK when all of it is accepted (R236, R239, R244, R249).
Arrivals inside a step and counts bounded by the call's maximum: assumption log 19. That WRITE_PACKET's checksum shares
the step of its first call is the model's reading, assumption log 7. -/
def Obligations.FramerStepCompletes : Prop :=
  ∀ (s : State) (w : Word) (l : Latch), l.expired s.now = false →
    let stream := s.tr.rx ++ s.env.arriving
    (∀ got : Nat, (s.pf.pos = .latched w l ∧ got = 0 ∨ s.pf.pos = .running w l (.header got)) → got < 4 →
      let bs := stream.take (min s.env.count (4 - got))
      let pf1 : Framer := { s.pf with buf := s.pf.buf.putBytes Config.pfBufBytes got bs }
      let tr1 : Transport := { s.tr with rx := stream.drop bs.length }
      (got + bs.length < 4 →
        exec .readPacket s = .next { s with
          tr := tr1, pf := { pf1 with pos := .running 0x00000001 l (.header (got + bs.length)) } }) ∧
      (∀ len : Byte, got + bs.length = 4 → pf1.buf.read 0 = some len → 4 < len.toNat → len.toNat ≤ 254 →
        exec .readPacket s = .next { s with
          tr := tr1, pf := { pf1 with pos := .running 0x00000001 l (.payload len.toNat 4) } }) ∧
      (∀ p : List Byte, got + bs.length = 4 → pf1.buf.readBytes 0 4 = some p → p[0]? = some 4 →
        exec .readPacket s = .next { s with
          tr := tr1, pf := pf1.afterPacket s.par.checksumFn l.strict p })) ∧
    (∀ len got : Nat, s.pf.pos = .running w l (.payload len got) →
      let bs := stream.take (min s.env.count (len - got))
      let pf1 : Framer := { s.pf with buf := s.pf.buf.putBytes Config.pfBufBytes got bs }
      let tr1 : Transport := { s.tr with rx := stream.drop bs.length }
      (got + bs.length < len →
        exec .readPacket s = .next { s with
          tr := tr1, pf := { pf1 with pos := .running 0x00000001 l (.payload len (got + bs.length)) } }) ∧
      (∀ p : List Byte, got + bs.length = len → 4 ≤ len → pf1.buf.readBytes 0 len = some p →
        exec .readPacket s = .next { s with
          tr := tr1, pf := pf1.afterPacket s.par.checksumFn l.strict p })) ∧
    (∀ p : List Byte, s.pf.pos = .latched w l → LegalPacket p → s.pf.buf.read 0 = p[0]? →
      let k := min s.env.count p.length
      (if l.strict then PacketIn s.pf.buf true p else ∀ a, a < k → s.pf.buf.read a = p[a]?) →
      let c := checksumOf s.par.checksumFn (withoutChecksum p)
      let pf1 := s.pf.stamped s.par.checksumFn l.strict p
      exec .writePacket s = .next { s with
        tr := { s.tr with tx := s.tr.tx ++ (packetSent s.par.checksumFn l.strict p).take k }
        pf :=
          if k < p.length then
            { pf1 with pos := .running 0x00000002 l (.sending p.length k (if l.strict then some c else none)) }
          else { pf1 with
            result := .ok, count := BitVec.ofNat 8 p.length, checksum := if l.strict then c else s.pf.checksum
            pos := .idle } }) ∧
    ∀ (len sent : Nat) (csum : Option Half) (bs : List Byte), s.pf.pos = .running w l (.sending len sent csum) →
      let k := min s.env.count (len - sent)
      s.pf.buf.readBytes sent k = some bs →
      exec .writePacket s = .next { s with
        tr := { s.tr with tx := s.tr.tx ++ bs }
        pf :=
          if sent + k < len then { s.pf with pos := .running 0x00000002 l (.sending len (sent + k) csum) }
          else { s.pf with
            result := .ok, count := BitVec.ofNat 8 len, checksum := csum.getD s.pf.checksum, pos := .idle } }

/-- What a framer step leaves alone: the Bus Engine, `NOW`, the responder, the parameters, the strictness mode and
`PF_DEADLINE`; while the command is in progress also its result fields. READ_PACKET never sends, no call of it takes more
than its phase still needs, at most `4 - got` bytes before the length is known and at most `L - got` after, and `PFBUF`
changes at the indices of the bytes received and nowhere else. WRITE_PACKET never receives, and changes no byte of `PFBUF`
but 2 and 3, and those only in its first step in strict mode (R239, R240, R244, R249, spec/10_state.md R24, R37). What
happens from a position that is not in the command's procedure is the model's choice, assumption log 11; arrivals inside a
step: assumption log 19. -/
def Obligations.FramerStepFrame : Prop :=
  ∀ (s t : State),
    let stream := s.tr.rx ++ s.env.arriving
    let received : Nat → Nat → Prop := fun got want =>
      ∃ k, k ≤ want - got ∧ k ≤ stream.length ∧ t.tr.rx = stream.drop k ∧
        ∀ a, t.pf.buf.read a = if got ≤ a ∧ a < got + k ∧ a < 254 then stream[a - got]? else s.pf.buf.read a
    ((exec .readPacket s = .next t ∨ exec .writePacket s = .next t) →
      t = { s with pf := t.pf, tr := t.tr } ∧ t.pf.strict = s.pf.strict ∧ t.pf.deadline = s.pf.deadline ∧
      (t.pf.busy = true → t.pf.result = s.pf.result ∧ t.pf.count = s.pf.count ∧ t.pf.checksum = s.pf.checksum)) ∧
    (exec .readPacket s = .next t →
      t.tr.tx = s.tr.tx ∧
      ∀ (w : Word) (l : Latch) (len got : Nat),
        (l.expired s.now = true →
          (s.pf.pos = .latched w l ∨ s.pf.pos = .running w l (.header got) ∨
            s.pf.pos = .running w l (.payload len got)) → t.tr.rx = s.tr.rx ∧ t.pf.buf = s.pf.buf) ∧
        (l.expired s.now = false →
          (s.pf.pos = .latched w l → received 0 4) ∧
          (s.pf.pos = .running w l (.header got) → received got 4) ∧
          (s.pf.pos = .running w l (.payload len got) → received got len))) ∧
    (exec .writePacket s = .next t →
      t.tr.rx = s.tr.rx ∧ (∀ a, a ≠ 2 → a ≠ 3 → t.pf.buf.read a = s.pf.buf.read a) ∧
      ∀ (w : Word) (l : Latch),
        (s.pf.pos = .latched w l → l.strict = false → t.pf.buf = s.pf.buf) ∧
        (∀ len sent csum, s.pf.pos = .running w l (.sending len sent csum) → t.pf.buf = s.pf.buf))

/-- Expiry and remaining time are on the difference modulo `2 ^ 32`, and 0 is no deadline (R231, R232). -/
def Obligations.DeadlineIsModular : Prop :=
  ∀ (l : Latch) (now : Word),
    let elapsed := (2 ^ 32 + now.toNat - l.t0.toNat) % 2 ^ 32
    (l.elapsed now).toNat = elapsed ∧ (l.expired now = true ↔ l.d ≠ 0 ∧ l.d.toNat ≤ elapsed) ∧
      (l.remaining now = none ↔ l.d = 0) ∧
      ∀ r, l.remaining now = some r → r.toNat = l.d.toNat - elapsed

/-- The worked checksums and check values of the default checksum function (R243, R246). -/
def Obligations.WorkedChecksums : Prop :=
  fletcher16 [0x61, 0x62, 0x63, 0x64, 0x65] = 0xC8F0 ∧ fletcher16 [0x61, 0x62, 0x63, 0x64, 0x65, 0x66] = 0x2057 ∧
    fletcher16 (withoutChecksum [0x04, 0x00, 0x55, 0x55]) = 0x1004 ∧
    withChecksum [0x04, 0x00, 0x55, 0x55] 0x1004 = [0x04, 0x00, 0x04, 0x10] ∧
    fletcher16 (withoutChecksum [0x04, 0x01, 0x55, 0x55]) = 0x1305 ∧
    fletcher16 (withoutChecksum [0x04, 0x03, 0x55, 0x55]) = 0x1907 ∧
    fletcher16 (withoutChecksum [0x06, 0x06, 0x55, 0x55, 0x41, 0x42]) = 0x078F ∧
    withChecksum [0x06, 0x06, 0x55, 0x55, 0x41, 0x42] 0x078F = [0x06, 0x06, 0x8F, 0x07, 0x41, 0x42]

/-! ## Command Responder -/

/-- The types answered with a packet of length 4: ACK and NAK with ACK, whatever their payload (spec/43_responder.md R284,
R285); RESET with ACK when the instrument reset succeeds and NAK otherwise, nothing of the block being reset (R288); the
defined types that the dispatch table does not list with NAK (R293).
The dispatch meaning is stated for every state, whatever line the responder is at. -/
def Obligations.ShortRepliesByType : Prop :=
  ∀ (len : Byte) (csum : Half) (s : State),
    RepliesWith (.pktAck len csum) s (replyBytes s.pf.buf 0 []) ∧
    RepliesWith (.pktNak len csum) s (replyBytes s.pf.buf 0 []) ∧
    RepliesWith (.pktReset len csum) s (replyBytes s.pf.buf (if s.env.resetOk then 0 else 1) []) ∧
    RepliesWith (.pktWriteReg len csum) s (replyBytes s.pf.buf 1 []) ∧
    RepliesWith (.pktReadReg len csum) s (replyBytes s.pf.buf 1 []) ∧
    RepliesWith (.pktOpt len csum) s (replyBytes s.pf.buf 1 []) ∧
    RepliesWith (.pktIsn len csum) s (replyBytes s.pf.buf 1 []) ∧
    RepliesWith (.pktDiag len csum) s (replyBytes s.pf.buf 1 [])

/-- An ID packet is answered with the identity record, laid out as R119 says, or with NAK when it is not available
(R289, spec/30_encoding.md R119). -/
def Obligations.IdPacketAnswered : Prop :=
  ∀ (len : Byte) (csum : Half) (s : State), identOk s.par.ident = true →
    let x := s.par.ident
    (s.env.identOk = false → RepliesWith (.pktId len csum) s (replyBytes s.pf.buf 1 [])) ∧
    (s.env.identOk = true → RepliesWith (.pktId len csum) s fun a =>
      if a = 0 then some (BitVec.ofNat 8 (20 + x.buildInfo.length))
      else if a = 1 then some 0
      else if a = 4 then some x.productId
      else if a = 5 then some x.protocolVersion
      else if a = 6 then some x.fwMajor
      else if a = 7 then some x.fwMinor
      else if a = 8 then some (x.fwBuild.extractLsb' 0 8)
      else if a = 9 then some (x.fwBuild.extractLsb' 8 8)
      else if a = 10 then some 8
      else if 11 ≤ a ∧ a < 19 then x.buildHash[a - 11]?
      else if a = 19 then some (BitVec.ofNat 8 x.buildInfo.length)
      else if 20 ≤ a ∧ a < 20 + x.buildInfo.length then x.buildInfo[a - 20]?
      else s.pf.buf.read a)

/-- An ECHO packet comes back with type ACK and every other byte as it was received, when the read reported at least one
byte; otherwise the buffer is left as it is (R290). -/
def Obligations.EchoPacketAnswered : Prop :=
  ∀ (len : Byte) (csum : Half) (s : State),
    RepliesWith (.pktEcho len csum) s fun a => if a = 1 ∧ 1 ≤ s.pf.count.toNat then some 0 else s.pf.buf.read a

/-- An SSN packet is answered with the count, three zeros and four little-endian words, unused ones zero, or with NAK
when the unique id cannot be read (R291, spec/30_encoding.md R120). -/
def Obligations.SsnPacketAnswered : Prop :=
  ∀ (len : Byte) (csum : Half) (s : State), 1 ≤ s.par.uidWords → s.par.uidWords ≤ 4 →
    let word : Nat → Word := fun j =>
      if j < s.par.uidWords then ([s.env.uid0, s.env.uid1, s.env.uid2, s.env.uid3][j]?).getD 0 else 0
    (s.env.uidOk = false → RepliesWith (.pktSsn len csum) s (replyBytes s.pf.buf 1 [])) ∧
    (s.env.uidOk = true → RepliesWith (.pktSsn len csum) s fun a =>
      if a = 0 then some 24
      else if a = 1 then some 0
      else if a = 4 then some (BitVec.ofNat 8 s.par.uidWords)
      else if 5 ≤ a ∧ a < 8 then some 0
      else if 8 ≤ a ∧ a < 24 then some ((word ((a - 8) / 4)).extractLsb' (8 * ((a - 8) % 4)) 8)
      else s.pf.buf.read a)

/-- A UID packet is answered with the first six bytes of the digest of the unique id's `4 * UID_WORDS`
bytes, least significant first in each word, or with NAK when the unique
id cannot be read (R292, spec/30_encoding.md R121). -/
def Obligations.UidPacketAnswered : Prop :=
  ∀ (len : Byte) (csum : Half) (s : State), 1 ≤ s.par.uidWords → s.par.uidWords ≤ 4 →
    let word : Nat → Word := fun j => ([s.env.uid0, s.env.uid1, s.env.uid2, s.env.uid3][j]?).getD 0
    let idBytes : List Byte :=
      (List.range (4 * s.par.uidWords)).map fun k => (word (k / 4)).extractLsb' (8 * (k % 4)) 8
    (s.env.uidOk = false → RepliesWith (.pktUid len csum) s (replyBytes s.pf.buf 1 [])) ∧
    (s.env.uidOk = true → RepliesWith (.pktUid len csum) s fun a =>
      if a = 0 then some 10
      else if a = 1 then some 0
      else if h : 4 ≤ a ∧ a < 10 then some (Config.digest idBytes ⟨a - 4, by omega⟩)
      else s.pf.buf.read a)

/-- An undefined type code, and a packet that failed the strict-mode checksum, are answered with NAK, length 4, in the
dispatch step; after a timeout or a malformed header no reply is made and the buffer is zeroed for the next packet
(R282, R287, R293).
That the step after a timeout is the next iteration's (2) is the model's reading, assumption log 9. -/
def Obligations.ResponderRejects : Prop :=
  ∀ (s : State) (e : Env) (rest : List Turn), paramsOk s.par = true → s.script = ⟨.responder, e⟩ :: rest →
    s.par.responderPresent = true → s.cr = .cycle .gotRead → s.pf.pos = .idle →
    ((s.pf.result = .checksumError ∨
        (s.pf.result = .ok ∧ ∃ b0 b1 b2 b3 : Byte, s.pf.buf.readBytes 0 4 = some [b0, b1, b2, b3] ∧ 12 ≤ b1.toNat)) →
      ∃ m : Memory, step s = .next { s with
          script := rest, env := e, pf := { s.pf with buf := m }, cr := .cycle .clearCsum } ∧
        ∀ a, m.read a = replyBytes s.pf.buf 1 [] a) ∧
    ((s.pf.result = .timeout ∨ s.pf.result = .framingError) →
      ∃ m : Memory, step s = .next { s with
          script := rest, env := e, pf := { s.pf with buf := m }, cr := .cycle .callRead } ∧
        ∀ a, m.read a = if a < 254 then some 0 else none)

/-- The other lines of the responder's loop, one step each: the barrier, zeroing `PFBUF`, the two framer calls with their
deadlines, and writing the checksum field as 0; while the framer is busy, or with no responder present, the
responder's turn changes nothing (R280, R281, R282, R294).
That the call writes `PF_DEADLINE`, and that a turn without an enabled step passes, are the model's readings, assumption
log 8 and 2; that the framer latches `t0` and the strictness in the step of the call is too, assumption log 6. -/
def Obligations.ResponderCycle : Prop :=
  ∀ (s : State) (e : Env) (rest : List Turn), paramsOk s.par = true → s.script = ⟨.responder, e⟩ :: rest →
    let s1 : State := { s with script := rest, env := e }
    (s.par.responderPresent = false → step s = .next s1) ∧
    (s.par.responderPresent = true →
      (s.cr = .waitReady → step s = .next { s1 with cr := if e.ready then .cycle .zero else .waitReady }) ∧
      (∀ c, s.cr = .cycle c → s.pf.busy = true → step s = .next s1) ∧
      (s.cr = .cycle .zero → s.pf.pos = .idle →
        ∃ m : Memory, step s = .next { s1 with pf := { s.pf with buf := m }, cr := .cycle .callRead } ∧
          ∀ a, m.read a = if a < 254 then some 0 else none) ∧
      (s.cr = .cycle .callRead → s.pf.pos = .idle →
        step s = .next { s1 with
          cr := .cycle .gotRead
          pf := { s.pf with
            deadline := s.par.crReadDeadline
            pos := .latched 0x00000001 { t0 := s.now, d := s.par.crReadDeadline, strict := s.pf.strict } } }) ∧
      (s.cr = .cycle .clearCsum → s.pf.pos = .idle →
        ∃ m : Memory, step s = .next { s1 with pf := { s.pf with buf := m }, cr := .cycle .callWrite } ∧
          ∀ a, m.read a = if a = 2 ∨ a = 3 then some 0 else s.pf.buf.read a) ∧
      (s.cr = .cycle .callWrite → s.pf.pos = .idle →
        step s = .next { s1 with
          cr := .cycle .zero
          pf := { s.pf with
            deadline := s.par.crWriteDeadline
            pos := .latched 0x00000002 { t0 := s.now, d := s.par.crWriteDeadline, strict := s.pf.strict } } }))

/-- With the Command Responder present no Host CPU access changes anything of the Packet Framer but the strictness mode
(R280). -/
def Obligations.ResponderOwnsFramer : Prop :=
  ∀ (a : Access) (s t : State), s.par.responderPresent = true → hostAccess a s = .next t →
    t.pf = { s.pf with strict := t.pf.strict } ∧ t.cr = s.cr

/-! ## The register window -/

/-- The accesses the window permits (spec/20_memory.md R72): every other one is the fault BadAccess, and no permitted one
is.
That an address outside the window is `BadAccess` is the model's reading, assumption log 17. -/
def Obligations.BadAccessExactlyWhenNotPermitted : Prop :=
  ∀ (s : State) (a n : Nat) (v : Word),
    let ok := s.par.blkBase ≤ a ∧ a < s.par.blkBase + 0x400 ∧ (n = 1 ∨ n = 2 ∨ n = 4) ∧ (a - s.par.blkBase) % n = 0 ∧
      ((a - s.par.blkBase < 0x010 ∨ (0x200 ≤ a - s.par.blkBase ∧ a - s.par.blkBase < 0x214)) → n = 4)
    (hostRead a n s = .fault .badAccess ↔ ¬ok) ∧ (hostWrite a n v s = .fault .badAccess ↔ ¬ok)

/-- The BusyWrite cases (spec/60_exceptions.md R331), and that every other permitted write answers a next state. -/
def Obligations.BusyWriteCases : Prop :=
  ∀ (s : State) (o n : Nat) (v : Word), permitted o n = true →
    let beOwned := o < 0x004 ∨ (0x008 ≤ o ∧ o < 0x00C) ∨ (0x100 ≤ o ∧ o < 0x200)
    let pfOwned := (0x200 ≤ o ∧ o < 0x208) ∨ (0x300 ≤ o ∧ o < 0x3FE)
    if (beOwned ∧ s.be.busy = true) ∨ (pfOwned ∧ (s.pf.busy = true ∨ s.par.responderPresent = true)) then
      hostWrite (s.par.blkBase + o) n v s = .fault .busyWrite
    else ∃ t, hostWrite (s.par.blkBase + o) n v s = .next t

/-- A Host CPU read changes no state but the value it returns, and repeating it, with no step of another agent between
and the environment's answers the same, returns the same value (spec/20_memory.md R74). -/
def Obligations.HostReadsChangeNothing : Prop :=
  ∀ (s t : State) (a n : Nat), hostRead a n s = .next t →
    t = { s with rdata := t.rdata } ∧ hostRead a n t = .next t

/-- The buffers in the window, little-endian, at every permitted width (R71, R72, spec/10_state.md R34, R35). The word at
0x3FC keeps its two low bytes, and its two high bytes read 0 (R72, R75). While the buffer is not in use by its unit, a
write stores the low bytes of its value, in order, and changes nothing else; the same read then returns the value; and a
read returns the bytes the buffer holds, or is the fault UnwrittenRead when one of them holds no value (R42). While it is
in use, or for `PF_BUF` with the responder present, a read completes with any value of the access width (R76). That a
narrow value is in the low bytes of a word, and that the any value at 0x3FC covers all four bytes, are the model's
choices, assumption log 18 and 25. -/
def Obligations.BuffersReadBackLittleEndian : Prop :=
  ∀ (s : State) (o n : Nat) (v : Word), permitted o n = true →
    let freely := ∃ w : Word, w.toNat = s.env.anyValue.toNat % 2 ^ (8 * n) ∧
      hostRead (s.par.blkBase + o) n s = .next { s with rdata := w }
    let stored : Memory → Memory → Nat → Nat → Prop := fun m m' i k =>
      ∀ a, m'.read a = if i ≤ a ∧ a < i + k then some (v.extractLsb' (8 * (a - i)) 8) else m.read a
    let readBack : State → Nat → Prop := fun t k =>
      ∃ w : Word, w.toNat = v.toNat % 2 ^ (8 * k) ∧ hostRead (s.par.blkBase + o) n t = .next { t with rdata := w }
    let reads : Memory → Nat → Nat → Prop := fun m i k =>
      (∀ d : Nat → Byte, (∀ j, j < k → m.read (i + j) = some (d j)) →
        ∃ w : Word, (∀ j, j < 4 → w.extractLsb' (8 * j) 8 = if j < k then d j else 0) ∧
          hostRead (s.par.blkBase + o) n s = .next { s with rdata := w }) ∧
      ((∃ j, j < k ∧ m.read (i + j) = none) → hostRead (s.par.blkBase + o) n s = .fault .unwrittenRead)
    (0x100 ≤ o → o < 0x200 → s.be.busy = false →
      reads s.be.buf (o - 0x100) n ∧
      ∃ t, hostWrite (s.par.blkBase + o) n v s = .next t ∧ t = { s with be := { s.be with buf := t.be.buf } } ∧
        stored s.be.buf t.be.buf (o - 0x100) n ∧ readBack t n) ∧
    (0x100 ≤ o → o < 0x200 → s.be.busy = true → freely) ∧
    (0x300 ≤ o → o < 0x3FE → s.pf.busy = false → s.par.responderPresent = false →
      let k := min n (0x3FE - o)
      reads s.pf.buf (o - 0x300) k ∧
      ∃ t, hostWrite (s.par.blkBase + o) n v s = .next t ∧ t = { s with pf := { s.pf with buf := t.pf.buf } } ∧
        stored s.pf.buf t.pf.buf (o - 0x300) k ∧ readBack t k) ∧
    (0x300 ≤ o → o < 0x3FE → (s.pf.busy = true ∨ s.par.responderPresent = true) → freely)

/-- The registers that are written: a `BE_CMD` or `PF_CMD` write latches its word and sets the busy bit; `BE_CONFIG`,
`PF_DEADLINE` and `PF_CONFIG` take the fields named; bit 3 of a `BE_STATUS` write clears `ARB`; nothing else changes
(spec/20_memory.md R75, spec/10_state.md R30, R31, R32, R35). That a framer command latches
`t0`, `D` and `S` in the step of the write is the model's reading of spec/42_framer.md R238, assumption log 6. -/
def Obligations.RegisterWrites : Prop :=
  ∀ (s : State) (v : Word),
    let b := s.par.blkBase
    (s.be.busy = false → hostWrite b 4 v s = .next { s with be := { s.be with pos := .latched v } }) ∧
    hostWrite (b + 0x004) 4 v s = .next { s with be := { s.be with arb := s.be.arb && !v.getLsbD 3 } } ∧
    (s.be.busy = false → hostWrite (b + 0x008) 4 v s = .next { s with be := { s.be with
      arbAbort := v.getLsbD 0, stretchBound := v.getLsbD 1, stretchLimit := v.extractLsb' 16 16 } }) ∧
    hostWrite (b + 0x00C) 4 v s = .next s ∧
    (s.pf.busy = false → s.par.responderPresent = false →
      hostWrite (b + 0x200) 4 v s = .next { s with pf := { s.pf with
        pos := .latched v { t0 := s.now, d := s.pf.deadline, strict := s.pf.strict } } } ∧
      hostWrite (b + 0x204) 4 v s = .next { s with pf := { s.pf with deadline := v } }) ∧
    hostWrite (b + 0x208) 4 v s = .next s ∧
    hostWrite (b + 0x20C) 4 v s = .next { s with pf := { s.pf with strict := v.getLsbD 0 } } ∧
    hostWrite (b + 0x210) 4 v s = .next s

/-- The registers as they read: every field of `BE_STATUS` at its bits, the other registers whole
with the numbers of `CODE` and `RESULT`
(spec/10_state.md R29 to R33, R35, spec/60_exceptions.md R321, R322). -/
def Obligations.RegisterReads : Prop :=
  ∀ (s : State),
    let b := s.par.blkBase
    (∃ w : Word, hostRead (b + 0x004) 4 s = .next { s with rdata := w } ∧
      w.getLsbD 0 = s.be.busy ∧ w.getLsbD 1 = s.be.opened ∧ w.getLsbD 2 = s.be.rxBit ∧ w.getLsbD 3 = s.be.arb ∧
      (∀ c ∈ [(BusCode.ok, 0), (.addrNak, 1), (.regNak, 2), (.writeFail, 3), (.stretchTimeout, 4), (.arbLost, 5),
          (.recoveryFail, 6), (.argError, 7), (.illegalCmd, 8), (.recoveryRequired, 9)],
        s.be.code = c.1 → w.extractLsb' 4 4 = c.2) ∧ w.extractLsb' 8 8 = s.be.rxByte ∧
      w.getLsbD 16 = (s.be.sclOut && s.env.scl) ∧ w.getLsbD 17 = (s.be.sdaOut && s.env.sda) ∧
      w.getLsbD 18 = s.be.sclOut ∧ w.getLsbD 19 = s.be.sdaOut ∧ w.getLsbD 20 = s.be.needRecov ∧
      w.extractLsb' 21 3 = 0 ∧ w.extractLsb' 24 4 = s.be.pulses ∧ w.extractLsb' 28 4 = 0) ∧
    (∃ w : Word, hostRead (b + 0x008) 4 s = .next { s with rdata := w } ∧
      w.getLsbD 0 = s.be.arbAbort ∧ w.getLsbD 1 = s.be.stretchBound ∧ w.extractLsb' 2 14 = 0 ∧
      w.extractLsb' 16 16 = s.be.stretchLimit) ∧
    (∃ w : Word, hostRead (b + 0x208) 4 s = .next { s with rdata := w } ∧
      w.getLsbD 0 = s.pf.busy ∧ w.extractLsb' 1 3 = 0 ∧ (∀ c ∈ [(FramerResult.ok, 0), (.timeout, 1), (.framingError, 2), (.checksumError, 3), (.partialWrite, 4),
          (.illegalCmd, 5)],
        s.pf.result = c.1 → w.extractLsb' 4 4 = c.2) ∧
      w.extractLsb' 8 8 = s.pf.count ∧ w.extractLsb' 16 16 = s.pf.checksum) ∧
    hostRead b 4 s = .next { s with rdata := 0 } ∧
    hostRead (b + 0x00C) 4 s = .next { s with rdata := s.be.xcnt.setWidth 32 } ∧
    hostRead (b + 0x200) 4 s = .next { s with rdata := 0 } ∧
    hostRead (b + 0x204) 4 s = .next { s with rdata := s.pf.deadline } ∧
    hostRead (b + 0x20C) 4 s = .next { s with rdata := if s.pf.strict then 1 else 0 } ∧
    hostRead (b + 0x210) 4 s = .next { s with rdata := s.now }

/-- The reserved offsets read 0 and ignore writes, at every permitted width (R36). -/
def Obligations.ReservedOffsets : Prop :=
  ∀ (s : State) (o n : Nat) (v : Word), permitted o n = true →
    ((0x010 ≤ o ∧ o < 0x100) ∨ (0x214 ≤ o ∧ o < 0x300) ∨ (0x3FE ≤ o ∧ o < 0x400)) →
    hostRead (s.par.blkBase + o) n s = .next { s with rdata := 0 } ∧
    hostWrite (s.par.blkBase + o) n v s = .next s

/-! ## Reset -/

/-- The reset input sets every element of block state to its reset value in one step, from any state, and changes nothing
else (spec/70_reset_and_hazards.md R360, spec/10_state.md R38 to R42).
That the state outside the block stays is the model's reading, assumption log 21. -/
def Obligations.ResetInput : Prop :=
  ∀ (s : State) (e : Env) (rest : List Turn), paramsOk s.par = true → s.script = ⟨.reset, e⟩ :: rest →
    ∃ pv : BusPrivate, step s = .next { s with
      script := rest
      env := e
      now := 0
      cr := .waitReady
      be :=
        { opened := false, needRecov := false, sclOut := true, sdaOut := true, arb := false, code := .ok, rxBit := false
          rxByte := 0, pulses := 0, xcnt := 0, arbAbort := false, stretchBound := false, stretchLimit := 0xFFFF
          buf := [], pos := .idle, priv := pv }
      pf :=
        { buf := [], result := .ok, count := 0, checksum := 0, strict := false, deadline := 0, pos := .idle } }

/-- The register values a program reads right after reset, for every parameter record and whatever levels the peers hold
(R361); the buffers hold no value, and reading one faults where the read is not an any-value read (R42, R76). -/
def Obligations.RegistersAfterReset : Prop :=
  ∀ (p : Params) (e : Env),
    let s : State := { State.resetOf p with env := e }
    hostRead (p.blkBase + 0x004) 4 s =
      .next { s with rdata := 0x000C0000 ||| (if e.scl then 0x00010000 else 0) ||| (if e.sda then 0x00020000 else 0) } ∧
    hostRead (p.blkBase + 0x008) 4 s = .next { s with rdata := 0xFFFF0000 } ∧
    hostRead (p.blkBase + 0x00C) 4 s = .next { s with rdata := 0 } ∧
    hostRead p.blkBase 4 s = .next { s with rdata := 0 } ∧
    hostRead (p.blkBase + 0x200) 4 s = .next { s with rdata := 0 } ∧
    hostRead (p.blkBase + 0x204) 4 s = .next { s with rdata := 0 } ∧
    hostRead (p.blkBase + 0x208) 4 s = .next { s with rdata := 0 } ∧
    hostRead (p.blkBase + 0x20C) 4 s = .next { s with rdata := 0 } ∧
    hostRead (p.blkBase + 0x210) 4 s = .next { s with rdata := 0 } ∧
    ∀ o n, permitted o n = true →
      (0x100 ≤ o → o < 0x200 → hostRead (p.blkBase + o) n s = .fault .unwrittenRead) ∧
      (0x300 ≤ o → o < 0x3FE → p.responderPresent = false → hostRead (p.blkBase + o) n s = .fault .unwrittenRead)

/-! ## The whole machine -/

/-- Every step keeps the buffers in canonical form, and keeps REG_READ the only command with a store into `BEBUF` still to
do (spec/10_state.md R20, R42, spec/41_bus_composite.md R203). -/
def Obligations.BuffersStayCanonical : Prop :=
  ∀ s t : State, step s = .next t →
    (BuffersCanonical s → BuffersCanonical t) ∧ (StoresOnlyInRegRead s.be → StoresOnlyInRegRead t.be)

/-- Every step keeps the counters within the bounds of spec/60_exceptions.md R332. -/
def Obligations.CountersStayBounded : Prop :=
  ∀ s t : State, CountersBounded s → step s = .next t → CountersBounded t

/-- Every step keeps the transaction-open flag clear while a recovery is required, with only INIT in progress
(spec/10_state.md R21, R22). -/
def Obligations.RecoveryStaysClosed : Prop :=
  ∀ s t : State, RecoveryClosed s.be → step s = .next t → RecoveryClosed t.be

/-- The reset state meets the four invariants, for every parameter record. -/
def Obligations.ResetMeetsInvariants : Prop :=
  ∀ p : Params, BuffersCanonical (State.resetOf p) ∧ CountersBounded (State.resetOf p) ∧
    RecoveryClosed (State.resetOf p).be ∧ StoresOnlyInRegRead (State.resetOf p).be

/-- Who writes what (spec/10_state.md R20 to R26, spec/00_scope.md R6, R8, spec/42_framer.md R230). No step changes a
parameter. The tick source adds one to `NOW`, modulo `2 ^ 32`, and changes nothing else, and no other step but the reset
input's changes `NOW`. A step of the Bus Engine changes the Bus Engine alone; one of the Packet Framer changes the framer
and the transport; one of the Command Responder changes its position and, of the framer, the buffer, the deadline and the
command in progress; an access of the Host CPU changes the two units' registers, of which no result of the framer, and the
value read. A step that is not the Bus Engine's or the reset input's changes no line output, no transaction state and no
result of the Bus Engine, and can clear `ARB` but not set it. Turns come from the script: assumption log 1. -/
def Obligations.OnlyTheOwnerWrites : Prop :=
  (∀ (s : State) (e : Env) (rest : List Turn), paramsOk s.par = true → s.script = ⟨.tick, e⟩ :: rest →
    step s = .next { s with script := rest, env := e, now := s.now + 1 }) ∧
  ∀ s t : State, step s = .next t →
    let s1 := s.nextTurn.2
    t.par = s.par ∧
    (s.nextTurn.1 = .tick → t = { s1 with now := s.now + 1 } ∧ t.now.toNat = (s.now.toNat + 1) % 2 ^ 32) ∧
    (s.nextTurn.1 ≠ .tick → s.nextTurn.1 ≠ .reset → t.now = s.now) ∧
    (s.nextTurn.1 = .busEngine → t = { s1 with be := t.be }) ∧
    (s.nextTurn.1 = .framer → t = { s1 with pf := t.pf, tr := t.tr }) ∧
    (s.nextTurn.1 = .responder →
      t = { s1 with
        cr := t.cr, pf := { s.pf with buf := t.pf.buf, deadline := t.pf.deadline, pos := t.pf.pos } }) ∧
    (∀ a, s.nextTurn.1 = .host a →
      t = { s1 with be := t.be, pf := t.pf, rdata := t.rdata } ∧ t.pf.result = s.pf.result ∧
        t.pf.count = s.pf.count ∧ t.pf.checksum = s.pf.checksum) ∧
    (s.nextTurn.1 ≠ .busEngine → s.nextTurn.1 ≠ .reset →
      t.be.sclOut = s.be.sclOut ∧ t.be.sdaOut = s.be.sdaOut ∧ t.be.opened = s.be.opened ∧
      t.be.needRecov = s.be.needRecov ∧ t.be.code = s.be.code ∧ t.be.rxBit = s.be.rxBit ∧ t.be.rxByte = s.be.rxByte ∧
      t.be.pulses = s.be.pulses ∧ t.be.xcnt = s.be.xcnt ∧ (t.be.arb = true → s.be.arb = true))

end
end

