-- ==== Sys2Proof/Laws/Memory.lean ====
section
/-! SUPPORT. The laws of the buffers: a read after a write, and that every operation keeps the canonical form. -/

namespace Sys2Proof.Machine

/-! ### Reads after writes -/

@[simp] theorem Memory.read_nil (a : Nat) : Memory.read [] a = none := rfl

theorem Memory.read_write_same (m : Memory) (a : Nat) (v : Byte) : (m.write a v).read a = some v := by
  induction m with
  | nil => simp [Memory.write, Memory.read]
  | cons c m ih =>
    obtain ⟨k, b⟩ := c
    unfold Memory.write
    split
    · simp [Memory.read]
    · split
      · simp [Memory.read]
      · rw [Memory.read, if_neg (by omega), ih]

theorem Memory.read_write_other (m : Memory) {a c : Nat} (v : Byte) (h : c ≠ a) : (m.write a v).read c = m.read c := by
  induction m with
  | nil => simp [Memory.write, Memory.read, Ne.symm h]
  | cons x m ih =>
    obtain ⟨k, b⟩ := x
    unfold Memory.write
    split
    · simp [Memory.read, Ne.symm h]
    · split
      · subst_vars
        simp [Memory.read, Ne.symm h]
      · by_cases hk : k = c <;> simp [Memory.read, hk, ih]

/-- A write changes exactly the byte written. -/
theorem Memory.read_write (m : Memory) (a c : Nat) (v : Byte) :
    (m.write a v).read c = if c = a then some v else m.read c := by
  split
  · next h => rw [h, Memory.read_write_same]
  · next h => exact Memory.read_write_other m v h

/-- A bounded write changes exactly the byte written, and nothing past the end of the buffer. -/
theorem Memory.read_put (size : Nat) (m : Memory) (a c : Nat) (v : Byte) :
    (m.put size a v).read c = if c = a ∧ a < size then some v else m.read c := by
  unfold Memory.put
  split
  · next h => rw [Memory.read_write]; simp [h]
  · next h => simp [h]

/-- A run of bytes from `a` changes exactly the bytes of the run that lie in the buffer. -/
theorem Memory.read_putBytes (size : Nat) (bs : List Byte) (m : Memory) (a c : Nat) :
    (m.putBytes size a bs).read c =
      if a ≤ c ∧ c < a + bs.length ∧ c < size then bs[c - a]? else m.read c := by
  induction bs generalizing m a with
  | nil => simp [Memory.putBytes]; omega
  | cons b rest ih =>
    rw [Memory.putBytes, ih, Memory.read_put]
    by_cases hc : c = a
    · subst hc
      by_cases hs : c < size <;> simp [hs]
    · by_cases h1 : a + 1 ≤ c ∧ c < a + 1 + rest.length ∧ c < size
      · obtain ⟨d, rfl⟩ : ∃ d, c = a + 1 + d := ⟨c - (a + 1), by omega⟩
        have e1 : a + 1 + d - (a + 1) = d := by omega
        have e2 : a + 1 + d - a = d + 1 := by omega
        rw [if_pos h1, if_pos (by simp only [List.length_cons]; omega), e1, e2, List.getElem?_cons_succ]
      · rw [if_neg h1, if_neg (by omega), if_neg (by simp only [List.length_cons]; omega)]

theorem Memory.read_putBytes_outside (size : Nat) (bs : List Byte) (m : Memory) (a c : Nat)
    (h : c < a ∨ a + bs.length ≤ c) : (m.putBytes size a bs).read c = m.read c := by
  rw [Memory.read_putBytes, if_neg (by omega)]

/-- Reading `n` bytes succeeds exactly when each holds a value, and gives them in order. -/
theorem Memory.readBytes_eq_some (m : Memory) (n : Nat) (a : Nat) (bs : List Byte) :
    m.readBytes a n = some bs ↔ bs.length = n ∧ ∀ i, i < n → m.read (a + i) = bs[i]? := by
  induction n generalizing a bs with
  | zero =>
    simp only [Memory.readBytes, Option.some.injEq]
    constructor
    · rintro rfl; simp
    · rintro ⟨h, -⟩; exact (List.length_eq_zero_iff.mp h).symm
  | succ n ih =>
    rw [Memory.readBytes]
    constructor
    · intro h
      split at h
      · next b bs' hb hbs =>
        obtain ⟨hl, hr⟩ := (ih _ _).mp hbs
        cases h
        refine ⟨by simp [hl], fun i hi => ?_⟩
        cases i with
        | zero => simpa using hb
        | succ i =>
          have := hr i (by omega)
          rw [show a + (i + 1) = a + 1 + i by omega, this]
          simp
      · cases h
    · rintro ⟨hl, hr⟩
      cases bs with
      | nil => simp at hl
      | cons b bs' =>
        have hb := hr 0 (by omega)
        have hbs : m.readBytes (a + 1) n = some bs' := by
          refine (ih _ _).mpr ⟨by simpa using hl, fun i hi => ?_⟩
          have := hr (i + 1) (by omega)
          rw [show a + 1 + i = a + (i + 1) by omega, this]
          simp
        simp only [Nat.add_zero] at hb
        rw [hb, hbs]
        simp

/-! ### The canonical form -/

theorem Memory.wfFrom_mono {size lo lo' : Nat} {m : Memory} (h : m.wfFrom size lo = true) (hle : lo' ≤ lo) :
    m.wfFrom size lo' = true := by
  cases m with
  | nil => rfl
  | cons c m =>
    simp only [Memory.wfFrom, Bool.and_eq_true, decide_eq_true_eq] at h ⊢
    exact ⟨⟨by omega, h.1.2⟩, h.2⟩

theorem Memory.wfFrom_write {size lo : Nat} {m : Memory} (a : Nat) (v : Byte) (h : m.wfFrom size lo = true)
    (hlo : lo ≤ a) (ha : a < size) : Memory.wfFrom size lo (m.write a v) = true := by
  induction m generalizing lo with
  | nil => simp [Memory.write, Memory.wfFrom, hlo, ha]
  | cons c m ih =>
    obtain ⟨k, b⟩ := c
    simp only [Memory.wfFrom, Bool.and_eq_true, decide_eq_true_eq] at h
    unfold Memory.write
    split
    · simp only [Memory.wfFrom, Bool.and_eq_true, decide_eq_true_eq]
      exact ⟨⟨hlo, ha⟩, ⟨by omega, h.1.2⟩, h.2⟩
    · split
      · subst_vars
        simp only [Memory.wfFrom, Bool.and_eq_true, decide_eq_true_eq]
        exact ⟨h.1, h.2⟩
      · simp only [Memory.wfFrom, Bool.and_eq_true, decide_eq_true_eq]
        exact ⟨h.1, ih h.2 (by omega)⟩

theorem Memory.wf_put {size : Nat} {m : Memory} (a : Nat) (v : Byte) (h : m.wf size = true) :
    Memory.wf size (m.put size a v) = true := by
  unfold Memory.put
  split
  · next ha => exact Memory.wfFrom_write a v h (Nat.zero_le _) ha
  · exact h

theorem Memory.wf_putBytes {size : Nat} (bs : List Byte) {m : Memory} (a : Nat) (h : m.wf size = true) :
    Memory.wf size (m.putBytes size a bs) = true := by
  induction bs generalizing m a with
  | nil => exact h
  | cons b rest ih => exact ih _ (Memory.wf_put a b h)

theorem Memory.wfFrom_zerosFrom (size lo n : Nat) (h : lo + n ≤ size) :
    Memory.wfFrom size lo ((List.range' lo n).map fun i => (i, (0 : Byte))) = true := by
  induction n generalizing lo with
  | zero => rfl
  | succ n ih =>
    simp only [List.range'_succ, List.map_cons, Memory.wfFrom, Bool.and_eq_true, decide_eq_true_eq]
    exact ⟨⟨Nat.le_refl _, by omega⟩, ih _ (by omega)⟩

theorem Memory.wf_zeros (size : Nat) : Memory.wf size (Memory.zeros size) = true := by
  unfold Memory.wf Memory.zeros
  rw [List.range_eq_range']
  exact Memory.wfFrom_zerosFrom size 0 size (by omega)

theorem Memory.read_zerosFrom (lo n a : Nat) :
    Memory.read ((List.range' lo n).map fun i => (i, (0 : Byte))) a = if lo ≤ a ∧ a < lo + n then some 0 else none := by
  induction n generalizing lo with
  | zero => simp
  | succ n ih =>
    simp only [List.range'_succ, List.map_cons, Memory.read, ih]
    by_cases h : lo = a
    · simp [h]
    · rw [if_neg h]
      congr 1
      simp only [eq_iff_iff]
      omega

/-- Every byte of a zeroed buffer reads 0. -/
theorem Memory.read_zeros (size a : Nat) : (Memory.zeros size).read a = if a < size then some 0 else none := by
  unfold Memory.zeros
  rw [List.range_eq_range', Memory.read_zerosFrom]
  simp

end Sys2Proof.Machine
end

