-- ==== Sys2Proof/Laws/State.lean ====
section
/-! SUPPORT. One lemma per field per named update of the state's records. -/

namespace Sys2Proof.Machine

section BusEngine
variable (b : BusEngine)

@[simp] theorem BusEngine.withTodo_opened (todo : List BusOp) : (b.withTodo todo).opened = b.opened := by
  unfold BusEngine.withTodo; split <;> rfl

@[simp] theorem BusEngine.withTodo_needRecov (todo : List BusOp) : (b.withTodo todo).needRecov = b.needRecov := by
  unfold BusEngine.withTodo; split <;> rfl

@[simp] theorem BusEngine.withTodo_sclOut (todo : List BusOp) : (b.withTodo todo).sclOut = b.sclOut := by
  unfold BusEngine.withTodo; split <;> rfl

@[simp] theorem BusEngine.withTodo_sdaOut (todo : List BusOp) : (b.withTodo todo).sdaOut = b.sdaOut := by
  unfold BusEngine.withTodo; split <;> rfl

@[simp] theorem BusEngine.withTodo_arb (todo : List BusOp) : (b.withTodo todo).arb = b.arb := by
  unfold BusEngine.withTodo; split <;> rfl

@[simp] theorem BusEngine.withTodo_code (todo : List BusOp) : (b.withTodo todo).code = b.code := by
  unfold BusEngine.withTodo; split <;> rfl

@[simp] theorem BusEngine.withTodo_rxBit (todo : List BusOp) : (b.withTodo todo).rxBit = b.rxBit := by
  unfold BusEngine.withTodo; split <;> rfl

@[simp] theorem BusEngine.withTodo_rxByte (todo : List BusOp) : (b.withTodo todo).rxByte = b.rxByte := by
  unfold BusEngine.withTodo; split <;> rfl

@[simp] theorem BusEngine.withTodo_pulses (todo : List BusOp) : (b.withTodo todo).pulses = b.pulses := by
  unfold BusEngine.withTodo; split <;> rfl

@[simp] theorem BusEngine.withTodo_xcnt (todo : List BusOp) : (b.withTodo todo).xcnt = b.xcnt := by
  unfold BusEngine.withTodo; split <;> rfl

@[simp] theorem BusEngine.withTodo_arbAbort (todo : List BusOp) : (b.withTodo todo).arbAbort = b.arbAbort := by
  unfold BusEngine.withTodo; split <;> rfl

@[simp] theorem BusEngine.withTodo_stretchBound (todo : List BusOp) : (b.withTodo todo).stretchBound = b.stretchBound := by
  unfold BusEngine.withTodo; split <;> rfl

@[simp] theorem BusEngine.withTodo_stretchLimit (todo : List BusOp) : (b.withTodo todo).stretchLimit = b.stretchLimit := by
  unfold BusEngine.withTodo; split <;> rfl

@[simp] theorem BusEngine.withTodo_buf (todo : List BusOp) : (b.withTodo todo).buf = b.buf := by
  unfold BusEngine.withTodo; split <;> rfl

@[simp] theorem BusEngine.withTodo_priv (todo : List BusOp) : (b.withTodo todo).priv = b.priv := by
  unfold BusEngine.withTodo; split <;> rfl

@[simp] theorem BusEngine.release_opened (l : Line) : (b.release l).opened = b.opened := by cases l <;> rfl
@[simp] theorem BusEngine.release_needRecov (l : Line) : (b.release l).needRecov = b.needRecov := by cases l <;> rfl
@[simp] theorem BusEngine.release_arb (l : Line) : (b.release l).arb = b.arb := by cases l <;> rfl
@[simp] theorem BusEngine.release_code (l : Line) : (b.release l).code = b.code := by cases l <;> rfl
@[simp] theorem BusEngine.release_rxBit (l : Line) : (b.release l).rxBit = b.rxBit := by cases l <;> rfl
@[simp] theorem BusEngine.release_rxByte (l : Line) : (b.release l).rxByte = b.rxByte := by cases l <;> rfl
@[simp] theorem BusEngine.release_pulses (l : Line) : (b.release l).pulses = b.pulses := by cases l <;> rfl
@[simp] theorem BusEngine.release_xcnt (l : Line) : (b.release l).xcnt = b.xcnt := by cases l <;> rfl
@[simp] theorem BusEngine.release_arbAbort (l : Line) : (b.release l).arbAbort = b.arbAbort := by cases l <;> rfl
@[simp] theorem BusEngine.release_stretchBound (l : Line) : (b.release l).stretchBound = b.stretchBound := by cases l <;> rfl
@[simp] theorem BusEngine.release_stretchLimit (l : Line) : (b.release l).stretchLimit = b.stretchLimit := by cases l <;> rfl
@[simp] theorem BusEngine.release_buf (l : Line) : (b.release l).buf = b.buf := by cases l <;> rfl
@[simp] theorem BusEngine.release_pos (l : Line) : (b.release l).pos = b.pos := by cases l <;> rfl
@[simp] theorem BusEngine.release_priv (l : Line) : (b.release l).priv = b.priv := by cases l <;> rfl
@[simp] theorem BusEngine.driveLow_opened (l : Line) : (b.driveLow l).opened = b.opened := by cases l <;> rfl
@[simp] theorem BusEngine.driveLow_needRecov (l : Line) : (b.driveLow l).needRecov = b.needRecov := by cases l <;> rfl
@[simp] theorem BusEngine.driveLow_arb (l : Line) : (b.driveLow l).arb = b.arb := by cases l <;> rfl
@[simp] theorem BusEngine.driveLow_code (l : Line) : (b.driveLow l).code = b.code := by cases l <;> rfl
@[simp] theorem BusEngine.driveLow_rxBit (l : Line) : (b.driveLow l).rxBit = b.rxBit := by cases l <;> rfl
@[simp] theorem BusEngine.driveLow_rxByte (l : Line) : (b.driveLow l).rxByte = b.rxByte := by cases l <;> rfl
@[simp] theorem BusEngine.driveLow_pulses (l : Line) : (b.driveLow l).pulses = b.pulses := by cases l <;> rfl
@[simp] theorem BusEngine.driveLow_xcnt (l : Line) : (b.driveLow l).xcnt = b.xcnt := by cases l <;> rfl
@[simp] theorem BusEngine.driveLow_arbAbort (l : Line) : (b.driveLow l).arbAbort = b.arbAbort := by cases l <;> rfl
@[simp] theorem BusEngine.driveLow_stretchBound (l : Line) : (b.driveLow l).stretchBound = b.stretchBound := by cases l <;> rfl
@[simp] theorem BusEngine.driveLow_stretchLimit (l : Line) : (b.driveLow l).stretchLimit = b.stretchLimit := by cases l <;> rfl
@[simp] theorem BusEngine.driveLow_buf (l : Line) : (b.driveLow l).buf = b.buf := by cases l <;> rfl
@[simp] theorem BusEngine.driveLow_pos (l : Line) : (b.driveLow l).pos = b.pos := by cases l <;> rfl
@[simp] theorem BusEngine.driveLow_priv (l : Line) : (b.driveLow l).priv = b.priv := by cases l <;> rfl
@[simp] theorem BusEngine.release_scl : b.release .scl = { b with sclOut := true } := rfl
@[simp] theorem BusEngine.driveLow_scl : b.driveLow .scl = { b with sclOut := false } := rfl
@[simp] theorem BusEngine.release_sda : b.release .sda = { b with sdaOut := true } := rfl
@[simp] theorem BusEngine.driveLow_sda : b.driveLow .sda = { b with sdaOut := false } := rfl
@[simp] theorem BusEngine.putByte_opened (i : Nat) (v : Byte) : (b.putByte i v).opened = b.opened := rfl
@[simp] theorem BusEngine.putByte_needRecov (i : Nat) (v : Byte) : (b.putByte i v).needRecov = b.needRecov := rfl
@[simp] theorem BusEngine.putByte_sclOut (i : Nat) (v : Byte) : (b.putByte i v).sclOut = b.sclOut := rfl
@[simp] theorem BusEngine.putByte_sdaOut (i : Nat) (v : Byte) : (b.putByte i v).sdaOut = b.sdaOut := rfl
@[simp] theorem BusEngine.putByte_arb (i : Nat) (v : Byte) : (b.putByte i v).arb = b.arb := rfl
@[simp] theorem BusEngine.putByte_code (i : Nat) (v : Byte) : (b.putByte i v).code = b.code := rfl
@[simp] theorem BusEngine.putByte_rxBit (i : Nat) (v : Byte) : (b.putByte i v).rxBit = b.rxBit := rfl
@[simp] theorem BusEngine.putByte_rxByte (i : Nat) (v : Byte) : (b.putByte i v).rxByte = b.rxByte := rfl
@[simp] theorem BusEngine.putByte_pulses (i : Nat) (v : Byte) : (b.putByte i v).pulses = b.pulses := rfl
@[simp] theorem BusEngine.putByte_xcnt (i : Nat) (v : Byte) : (b.putByte i v).xcnt = b.xcnt := rfl
@[simp] theorem BusEngine.putByte_arbAbort (i : Nat) (v : Byte) : (b.putByte i v).arbAbort = b.arbAbort := rfl
@[simp] theorem BusEngine.putByte_stretchBound (i : Nat) (v : Byte) : (b.putByte i v).stretchBound = b.stretchBound := rfl
@[simp] theorem BusEngine.putByte_stretchLimit (i : Nat) (v : Byte) : (b.putByte i v).stretchLimit = b.stretchLimit := rfl
@[simp] theorem BusEngine.putByte_pos (i : Nat) (v : Byte) : (b.putByte i v).pos = b.pos := rfl
@[simp] theorem BusEngine.putByte_priv (i : Nat) (v : Byte) : (b.putByte i v).priv = b.priv := rfl
@[simp] theorem BusEngine.putBytes_opened (i : Nat) (bs : List Byte) : (b.putBytes i bs).opened = b.opened := rfl
@[simp] theorem BusEngine.putBytes_needRecov (i : Nat) (bs : List Byte) : (b.putBytes i bs).needRecov = b.needRecov := rfl
@[simp] theorem BusEngine.putBytes_sclOut (i : Nat) (bs : List Byte) : (b.putBytes i bs).sclOut = b.sclOut := rfl
@[simp] theorem BusEngine.putBytes_sdaOut (i : Nat) (bs : List Byte) : (b.putBytes i bs).sdaOut = b.sdaOut := rfl
@[simp] theorem BusEngine.putBytes_arb (i : Nat) (bs : List Byte) : (b.putBytes i bs).arb = b.arb := rfl
@[simp] theorem BusEngine.putBytes_code (i : Nat) (bs : List Byte) : (b.putBytes i bs).code = b.code := rfl
@[simp] theorem BusEngine.putBytes_rxBit (i : Nat) (bs : List Byte) : (b.putBytes i bs).rxBit = b.rxBit := rfl
@[simp] theorem BusEngine.putBytes_rxByte (i : Nat) (bs : List Byte) : (b.putBytes i bs).rxByte = b.rxByte := rfl
@[simp] theorem BusEngine.putBytes_pulses (i : Nat) (bs : List Byte) : (b.putBytes i bs).pulses = b.pulses := rfl
@[simp] theorem BusEngine.putBytes_xcnt (i : Nat) (bs : List Byte) : (b.putBytes i bs).xcnt = b.xcnt := rfl
@[simp] theorem BusEngine.putBytes_arbAbort (i : Nat) (bs : List Byte) : (b.putBytes i bs).arbAbort = b.arbAbort := rfl
@[simp] theorem BusEngine.putBytes_stretchBound (i : Nat) (bs : List Byte) : (b.putBytes i bs).stretchBound = b.stretchBound := rfl
@[simp] theorem BusEngine.putBytes_stretchLimit (i : Nat) (bs : List Byte) : (b.putBytes i bs).stretchLimit = b.stretchLimit := rfl
@[simp] theorem BusEngine.putBytes_pos (i : Nat) (bs : List Byte) : (b.putBytes i bs).pos = b.pos := rfl
@[simp] theorem BusEngine.putBytes_priv (i : Nat) (bs : List Byte) : (b.putBytes i bs).priv = b.priv := rfl
@[simp] theorem BusEngine.startCommand_opened (w : Word) : (b.startCommand w).opened = b.opened := rfl
@[simp] theorem BusEngine.startCommand_needRecov (w : Word) : (b.startCommand w).needRecov = b.needRecov := rfl
@[simp] theorem BusEngine.startCommand_sclOut (w : Word) : (b.startCommand w).sclOut = b.sclOut := rfl
@[simp] theorem BusEngine.startCommand_sdaOut (w : Word) : (b.startCommand w).sdaOut = b.sdaOut := rfl
@[simp] theorem BusEngine.startCommand_arb (w : Word) : (b.startCommand w).arb = b.arb := rfl
@[simp] theorem BusEngine.startCommand_code (w : Word) : (b.startCommand w).code = b.code := rfl
@[simp] theorem BusEngine.startCommand_rxBit (w : Word) : (b.startCommand w).rxBit = b.rxBit := rfl
@[simp] theorem BusEngine.startCommand_rxByte (w : Word) : (b.startCommand w).rxByte = b.rxByte := rfl
@[simp] theorem BusEngine.startCommand_pulses (w : Word) : (b.startCommand w).pulses = b.pulses := rfl
@[simp] theorem BusEngine.startCommand_xcnt (w : Word) : (b.startCommand w).xcnt = b.xcnt := rfl
@[simp] theorem BusEngine.startCommand_arbAbort (w : Word) : (b.startCommand w).arbAbort = b.arbAbort := rfl
@[simp] theorem BusEngine.startCommand_stretchBound (w : Word) : (b.startCommand w).stretchBound = b.stretchBound := rfl
@[simp] theorem BusEngine.startCommand_stretchLimit (w : Word) : (b.startCommand w).stretchLimit = b.stretchLimit := rfl
@[simp] theorem BusEngine.startCommand_buf (w : Word) : (b.startCommand w).buf = b.buf := rfl
@[simp] theorem BusEngine.startCommand_pos (w : Word) : (b.startCommand w).pos = .latched w := rfl
@[simp] theorem BusEngine.startCommand_priv (w : Word) : (b.startCommand w).priv = b.priv := rfl
@[simp] theorem BusEngine.writeConfig_opened (v : Word) : (b.writeConfig v).opened = b.opened := rfl
@[simp] theorem BusEngine.writeConfig_needRecov (v : Word) : (b.writeConfig v).needRecov = b.needRecov := rfl
@[simp] theorem BusEngine.writeConfig_sclOut (v : Word) : (b.writeConfig v).sclOut = b.sclOut := rfl
@[simp] theorem BusEngine.writeConfig_sdaOut (v : Word) : (b.writeConfig v).sdaOut = b.sdaOut := rfl
@[simp] theorem BusEngine.writeConfig_arb (v : Word) : (b.writeConfig v).arb = b.arb := rfl
@[simp] theorem BusEngine.writeConfig_code (v : Word) : (b.writeConfig v).code = b.code := rfl
@[simp] theorem BusEngine.writeConfig_rxBit (v : Word) : (b.writeConfig v).rxBit = b.rxBit := rfl
@[simp] theorem BusEngine.writeConfig_rxByte (v : Word) : (b.writeConfig v).rxByte = b.rxByte := rfl
@[simp] theorem BusEngine.writeConfig_pulses (v : Word) : (b.writeConfig v).pulses = b.pulses := rfl
@[simp] theorem BusEngine.writeConfig_xcnt (v : Word) : (b.writeConfig v).xcnt = b.xcnt := rfl
@[simp] theorem BusEngine.writeConfig_arbAbort (v : Word) : (b.writeConfig v).arbAbort = v.getLsbD 0 := rfl
@[simp] theorem BusEngine.writeConfig_stretchBound (v : Word) : (b.writeConfig v).stretchBound = v.getLsbD 1 := rfl
@[simp] theorem BusEngine.writeConfig_stretchLimit (v : Word) : (b.writeConfig v).stretchLimit = v.extractLsb' 16 16 := rfl
@[simp] theorem BusEngine.writeConfig_buf (v : Word) : (b.writeConfig v).buf = b.buf := rfl
@[simp] theorem BusEngine.writeConfig_pos (v : Word) : (b.writeConfig v).pos = b.pos := rfl
@[simp] theorem BusEngine.writeConfig_priv (v : Word) : (b.writeConfig v).priv = b.priv := rfl
@[simp] theorem BusEngine.writeStatus_opened (v : Word) : (b.writeStatus v).opened = b.opened := by
  unfold BusEngine.writeStatus; split <;> rfl

@[simp] theorem BusEngine.writeStatus_needRecov (v : Word) : (b.writeStatus v).needRecov = b.needRecov := by
  unfold BusEngine.writeStatus; split <;> rfl

@[simp] theorem BusEngine.writeStatus_sclOut (v : Word) : (b.writeStatus v).sclOut = b.sclOut := by
  unfold BusEngine.writeStatus; split <;> rfl

@[simp] theorem BusEngine.writeStatus_sdaOut (v : Word) : (b.writeStatus v).sdaOut = b.sdaOut := by
  unfold BusEngine.writeStatus; split <;> rfl

@[simp] theorem BusEngine.writeStatus_code (v : Word) : (b.writeStatus v).code = b.code := by
  unfold BusEngine.writeStatus; split <;> rfl

@[simp] theorem BusEngine.writeStatus_rxBit (v : Word) : (b.writeStatus v).rxBit = b.rxBit := by
  unfold BusEngine.writeStatus; split <;> rfl

@[simp] theorem BusEngine.writeStatus_rxByte (v : Word) : (b.writeStatus v).rxByte = b.rxByte := by
  unfold BusEngine.writeStatus; split <;> rfl

@[simp] theorem BusEngine.writeStatus_pulses (v : Word) : (b.writeStatus v).pulses = b.pulses := by
  unfold BusEngine.writeStatus; split <;> rfl

@[simp] theorem BusEngine.writeStatus_xcnt (v : Word) : (b.writeStatus v).xcnt = b.xcnt := by
  unfold BusEngine.writeStatus; split <;> rfl

@[simp] theorem BusEngine.writeStatus_arbAbort (v : Word) : (b.writeStatus v).arbAbort = b.arbAbort := by
  unfold BusEngine.writeStatus; split <;> rfl

@[simp] theorem BusEngine.writeStatus_stretchBound (v : Word) : (b.writeStatus v).stretchBound = b.stretchBound := by
  unfold BusEngine.writeStatus; split <;> rfl

@[simp] theorem BusEngine.writeStatus_stretchLimit (v : Word) : (b.writeStatus v).stretchLimit = b.stretchLimit := by
  unfold BusEngine.writeStatus; split <;> rfl

@[simp] theorem BusEngine.writeStatus_buf (v : Word) : (b.writeStatus v).buf = b.buf := by
  unfold BusEngine.writeStatus; split <;> rfl

@[simp] theorem BusEngine.writeStatus_pos (v : Word) : (b.writeStatus v).pos = b.pos := by
  unfold BusEngine.writeStatus; split <;> rfl

@[simp] theorem BusEngine.writeStatus_priv (v : Word) : (b.writeStatus v).priv = b.priv := by
  unfold BusEngine.writeStatus; split <;> rfl

@[simp] theorem BusEngine.writeStatus_arb (v : Word) : (b.writeStatus v).arb = (b.arb && !v.getLsbD 3) := by
  unfold BusEngine.writeStatus; cases h : v.getLsbD 3 <;> simp

@[simp] theorem BusEngine.publish_opened (p : Publish) : (b.publish p).opened = b.opened := by cases p <;> rfl
@[simp] theorem BusEngine.publish_needRecov (p : Publish) : (b.publish p).needRecov = b.needRecov := by cases p <;> rfl
@[simp] theorem BusEngine.publish_sclOut (p : Publish) : (b.publish p).sclOut = b.sclOut := by cases p <;> rfl
@[simp] theorem BusEngine.publish_sdaOut (p : Publish) : (b.publish p).sdaOut = b.sdaOut := by cases p <;> rfl
@[simp] theorem BusEngine.publish_arb (p : Publish) : (b.publish p).arb = b.arb := by cases p <;> rfl
@[simp] theorem BusEngine.publish_code (p : Publish) : (b.publish p).code = b.code := by cases p <;> rfl
@[simp] theorem BusEngine.publish_arbAbort (p : Publish) : (b.publish p).arbAbort = b.arbAbort := by cases p <;> rfl
@[simp] theorem BusEngine.publish_stretchBound (p : Publish) : (b.publish p).stretchBound = b.stretchBound := by cases p <;> rfl
@[simp] theorem BusEngine.publish_stretchLimit (p : Publish) : (b.publish p).stretchLimit = b.stretchLimit := by cases p <;> rfl
@[simp] theorem BusEngine.publish_buf (p : Publish) : (b.publish p).buf = b.buf := by cases p <;> rfl
@[simp] theorem BusEngine.publish_pos (p : Publish) : (b.publish p).pos = b.pos := by cases p <;> rfl
@[simp] theorem BusEngine.publish_priv (p : Publish) : (b.publish p).priv = b.priv := by cases p <;> rfl
@[simp] theorem BusEngine.finish_opened (p : Publish) (c : BusCode) : (b.finish p c).opened = b.opened := by cases p <;> rfl
@[simp] theorem BusEngine.finish_needRecov (p : Publish) (c : BusCode) : (b.finish p c).needRecov = b.needRecov := by cases p <;> rfl
@[simp] theorem BusEngine.finish_sclOut (p : Publish) (c : BusCode) : (b.finish p c).sclOut = b.sclOut := by cases p <;> rfl
@[simp] theorem BusEngine.finish_sdaOut (p : Publish) (c : BusCode) : (b.finish p c).sdaOut = b.sdaOut := by cases p <;> rfl
@[simp] theorem BusEngine.finish_arb (p : Publish) (c : BusCode) : (b.finish p c).arb = b.arb := by cases p <;> rfl
@[simp] theorem BusEngine.finish_code (p : Publish) (c : BusCode) : (b.finish p c).code = c := by cases p <;> rfl
@[simp] theorem BusEngine.finish_arbAbort (p : Publish) (c : BusCode) : (b.finish p c).arbAbort = b.arbAbort := by cases p <;> rfl
@[simp] theorem BusEngine.finish_stretchBound (p : Publish) (c : BusCode) : (b.finish p c).stretchBound = b.stretchBound := by cases p <;> rfl
@[simp] theorem BusEngine.finish_stretchLimit (p : Publish) (c : BusCode) : (b.finish p c).stretchLimit = b.stretchLimit := by cases p <;> rfl
@[simp] theorem BusEngine.finish_buf (p : Publish) (c : BusCode) : (b.finish p c).buf = b.buf := by cases p <;> rfl
@[simp] theorem BusEngine.finish_pos (p : Publish) (c : BusCode) : (b.finish p c).pos = .idle := by cases p <;> rfl
@[simp] theorem BusEngine.finish_priv (p : Publish) (c : BusCode) : (b.finish p c).priv = {} := by cases p <;> rfl
@[simp] theorem BusEngine.endAbort_opened (p : Publish) (c : BusCode) : (b.endAbort p c).opened = false := by cases p <;> rfl
@[simp] theorem BusEngine.endAbort_needRecov (p : Publish) (c : BusCode) : (b.endAbort p c).needRecov = true := by cases p <;> rfl
@[simp] theorem BusEngine.endAbort_sclOut (p : Publish) (c : BusCode) : (b.endAbort p c).sclOut = b.sclOut := by cases p <;> rfl
@[simp] theorem BusEngine.endAbort_sdaOut (p : Publish) (c : BusCode) : (b.endAbort p c).sdaOut = b.sdaOut := by cases p <;> rfl
@[simp] theorem BusEngine.endAbort_arb (p : Publish) (c : BusCode) : (b.endAbort p c).arb = b.arb := by cases p <;> rfl
@[simp] theorem BusEngine.endAbort_code (p : Publish) (c : BusCode) : (b.endAbort p c).code = c := by cases p <;> rfl
@[simp] theorem BusEngine.endAbort_arbAbort (p : Publish) (c : BusCode) : (b.endAbort p c).arbAbort = b.arbAbort := by cases p <;> rfl
@[simp] theorem BusEngine.endAbort_stretchBound (p : Publish) (c : BusCode) : (b.endAbort p c).stretchBound = b.stretchBound := by cases p <;> rfl
@[simp] theorem BusEngine.endAbort_stretchLimit (p : Publish) (c : BusCode) : (b.endAbort p c).stretchLimit = b.stretchLimit := by cases p <;> rfl
@[simp] theorem BusEngine.endAbort_buf (p : Publish) (c : BusCode) : (b.endAbort p c).buf = b.buf := by cases p <;> rfl
@[simp] theorem BusEngine.endAbort_pos (p : Publish) (c : BusCode) : (b.endAbort p c).pos = .idle := by cases p <;> rfl
@[simp] theorem BusEngine.endAbort_priv (p : Publish) (c : BusCode) : (b.endAbort p c).priv = {} := by cases p <;> rfl
@[simp] theorem BusEngine.finish_nothing_rxBit (c : BusCode) : (b.finish .nothing c).rxBit = b.rxBit := rfl
@[simp] theorem BusEngine.endAbort_nothing_rxBit (c : BusCode) : (b.endAbort .nothing c).rxBit = b.rxBit := rfl
@[simp] theorem BusEngine.finish_pulses_rxBit (c : BusCode) : (b.finish .pulses c).rxBit = b.rxBit := rfl
@[simp] theorem BusEngine.endAbort_pulses_rxBit (c : BusCode) : (b.endAbort .pulses c).rxBit = b.rxBit := rfl
@[simp] theorem BusEngine.finish_bit_rxBit (c : BusCode) : (b.finish .bit c).rxBit = b.priv.bit := rfl
@[simp] theorem BusEngine.endAbort_bit_rxBit (c : BusCode) : (b.endAbort .bit c).rxBit = b.rxBit := rfl
@[simp] theorem BusEngine.finish_byte_rxBit (c : BusCode) : (b.finish .byte c).rxBit = b.rxBit := rfl
@[simp] theorem BusEngine.endAbort_byte_rxBit (c : BusCode) : (b.endAbort .byte c).rxBit = b.rxBit := rfl
@[simp] theorem BusEngine.finish_xcnt_rxBit (c : BusCode) : (b.finish .xcnt c).rxBit = b.rxBit := rfl
@[simp] theorem BusEngine.endAbort_xcnt_rxBit (c : BusCode) : (b.endAbort .xcnt c).rxBit = b.rxBit := rfl
@[simp] theorem BusEngine.finish_nothing_rxByte (c : BusCode) : (b.finish .nothing c).rxByte = b.rxByte := rfl
@[simp] theorem BusEngine.endAbort_nothing_rxByte (c : BusCode) : (b.endAbort .nothing c).rxByte = b.rxByte := rfl
@[simp] theorem BusEngine.finish_pulses_rxByte (c : BusCode) : (b.finish .pulses c).rxByte = b.rxByte := rfl
@[simp] theorem BusEngine.endAbort_pulses_rxByte (c : BusCode) : (b.endAbort .pulses c).rxByte = b.rxByte := rfl
@[simp] theorem BusEngine.finish_bit_rxByte (c : BusCode) : (b.finish .bit c).rxByte = b.rxByte := rfl
@[simp] theorem BusEngine.endAbort_bit_rxByte (c : BusCode) : (b.endAbort .bit c).rxByte = b.rxByte := rfl
@[simp] theorem BusEngine.finish_byte_rxByte (c : BusCode) : (b.finish .byte c).rxByte = b.priv.byte := rfl
@[simp] theorem BusEngine.endAbort_byte_rxByte (c : BusCode) : (b.endAbort .byte c).rxByte = b.rxByte := rfl
@[simp] theorem BusEngine.finish_xcnt_rxByte (c : BusCode) : (b.finish .xcnt c).rxByte = b.rxByte := rfl
@[simp] theorem BusEngine.endAbort_xcnt_rxByte (c : BusCode) : (b.endAbort .xcnt c).rxByte = b.rxByte := rfl
@[simp] theorem BusEngine.finish_nothing_pulses (c : BusCode) : (b.finish .nothing c).pulses = b.pulses := rfl
@[simp] theorem BusEngine.endAbort_nothing_pulses (c : BusCode) : (b.endAbort .nothing c).pulses = b.pulses := rfl
@[simp] theorem BusEngine.finish_pulses_pulses (c : BusCode) : (b.finish .pulses c).pulses = b.priv.pulses := rfl
@[simp] theorem BusEngine.endAbort_pulses_pulses (c : BusCode) : (b.endAbort .pulses c).pulses = b.priv.pulses := rfl
@[simp] theorem BusEngine.finish_bit_pulses (c : BusCode) : (b.finish .bit c).pulses = b.pulses := rfl
@[simp] theorem BusEngine.endAbort_bit_pulses (c : BusCode) : (b.endAbort .bit c).pulses = b.pulses := rfl
@[simp] theorem BusEngine.finish_byte_pulses (c : BusCode) : (b.finish .byte c).pulses = b.pulses := rfl
@[simp] theorem BusEngine.endAbort_byte_pulses (c : BusCode) : (b.endAbort .byte c).pulses = b.pulses := rfl
@[simp] theorem BusEngine.finish_xcnt_pulses (c : BusCode) : (b.finish .xcnt c).pulses = b.pulses := rfl
@[simp] theorem BusEngine.endAbort_xcnt_pulses (c : BusCode) : (b.endAbort .xcnt c).pulses = b.pulses := rfl
@[simp] theorem BusEngine.finish_nothing_xcnt (c : BusCode) : (b.finish .nothing c).xcnt = b.xcnt := rfl
@[simp] theorem BusEngine.endAbort_nothing_xcnt (c : BusCode) : (b.endAbort .nothing c).xcnt = b.xcnt := rfl
@[simp] theorem BusEngine.finish_pulses_xcnt (c : BusCode) : (b.finish .pulses c).xcnt = 0 := rfl
@[simp] theorem BusEngine.endAbort_pulses_xcnt (c : BusCode) : (b.endAbort .pulses c).xcnt = 0 := rfl
@[simp] theorem BusEngine.finish_bit_xcnt (c : BusCode) : (b.finish .bit c).xcnt = b.xcnt := rfl
@[simp] theorem BusEngine.endAbort_bit_xcnt (c : BusCode) : (b.endAbort .bit c).xcnt = b.xcnt := rfl
@[simp] theorem BusEngine.finish_byte_xcnt (c : BusCode) : (b.finish .byte c).xcnt = b.xcnt := rfl
@[simp] theorem BusEngine.endAbort_byte_xcnt (c : BusCode) : (b.endAbort .byte c).xcnt = b.xcnt := rfl
@[simp] theorem BusEngine.finish_xcnt_xcnt (c : BusCode) : (b.finish .xcnt c).xcnt = b.priv.xcnt := rfl
@[simp] theorem BusEngine.endAbort_xcnt_xcnt (c : BusCode) : (b.endAbort .xcnt c).xcnt = b.priv.xcnt := rfl

end BusEngine

section Framer
variable (f : Framer)

@[simp] theorem Framer.putBytes_result (a : Nat) (bs : List Byte) : (f.putBytes a bs).result = f.result := rfl
@[simp] theorem Framer.putBytes_count (a : Nat) (bs : List Byte) : (f.putBytes a bs).count = f.count := rfl
@[simp] theorem Framer.putBytes_checksum (a : Nat) (bs : List Byte) : (f.putBytes a bs).checksum = f.checksum := rfl
@[simp] theorem Framer.putBytes_strict (a : Nat) (bs : List Byte) : (f.putBytes a bs).strict = f.strict := rfl
@[simp] theorem Framer.putBytes_deadline (a : Nat) (bs : List Byte) : (f.putBytes a bs).deadline = f.deadline := rfl
@[simp] theorem Framer.putBytes_pos (a : Nat) (bs : List Byte) : (f.putBytes a bs).pos = f.pos := rfl
@[simp] theorem Framer.reply_result (t : Byte) (p : Nat) : (f.reply t p).result = f.result := rfl
@[simp] theorem Framer.reply_count (t : Byte) (p : Nat) : (f.reply t p).count = f.count := rfl
@[simp] theorem Framer.reply_checksum (t : Byte) (p : Nat) : (f.reply t p).checksum = f.checksum := rfl
@[simp] theorem Framer.reply_strict (t : Byte) (p : Nat) : (f.reply t p).strict = f.strict := rfl
@[simp] theorem Framer.reply_deadline (t : Byte) (p : Nat) : (f.reply t p).deadline = f.deadline := rfl
@[simp] theorem Framer.reply_pos (t : Byte) (p : Nat) : (f.reply t p).pos = f.pos := rfl
@[simp] theorem Framer.startCommand_buf (now w : Word) : (f.startCommand now w).buf = f.buf := rfl
@[simp] theorem Framer.startCommand_result (now w : Word) : (f.startCommand now w).result = f.result := rfl
@[simp] theorem Framer.startCommand_count (now w : Word) : (f.startCommand now w).count = f.count := rfl
@[simp] theorem Framer.startCommand_checksum (now w : Word) : (f.startCommand now w).checksum = f.checksum := rfl
@[simp] theorem Framer.startCommand_strict (now w : Word) : (f.startCommand now w).strict = f.strict := rfl
@[simp] theorem Framer.startCommand_deadline (now w : Word) : (f.startCommand now w).deadline = f.deadline := rfl
@[simp] theorem Framer.startCommand_pos (now w : Word) : (f.startCommand now w).pos = .latched w (f.latchNow now) := rfl
@[simp] theorem Framer.call_buf (now w d : Word) : (f.call now w d).buf = f.buf := rfl
@[simp] theorem Framer.call_result (now w d : Word) : (f.call now w d).result = f.result := rfl
@[simp] theorem Framer.call_count (now w d : Word) : (f.call now w d).count = f.count := rfl
@[simp] theorem Framer.call_checksum (now w d : Word) : (f.call now w d).checksum = f.checksum := rfl
@[simp] theorem Framer.call_strict (now w d : Word) : (f.call now w d).strict = f.strict := rfl
@[simp] theorem Framer.call_deadline (now w d : Word) : (f.call now w d).deadline = d := rfl
@[simp] theorem Framer.call_pos (now w d : Word) : (f.call now w d).pos = .latched w { t0 := now, d := d, strict := f.strict } := rfl
@[simp] theorem Framer.finish_buf (r : FramerResult) (n : Option Byte) (c : Option Half) : (f.finish r n c).buf = f.buf := rfl
@[simp] theorem Framer.finish_result (r : FramerResult) (n : Option Byte) (c : Option Half) : (f.finish r n c).result = r := rfl
@[simp] theorem Framer.finish_count (r : FramerResult) (n : Option Byte) (c : Option Half) : (f.finish r n c).count = n.getD f.count := rfl
@[simp] theorem Framer.finish_checksum (r : FramerResult) (n : Option Byte) (c : Option Half) : (f.finish r n c).checksum = c.getD f.checksum := rfl
@[simp] theorem Framer.finish_strict (r : FramerResult) (n : Option Byte) (c : Option Half) : (f.finish r n c).strict = f.strict := rfl
@[simp] theorem Framer.finish_deadline (r : FramerResult) (n : Option Byte) (c : Option Half) : (f.finish r n c).deadline = f.deadline := rfl
@[simp] theorem Framer.finish_pos (r : FramerResult) (n : Option Byte) (c : Option Half) : (f.finish r n c).pos = .idle := rfl

end Framer

section Block
variable (s : State)

@[simp] theorem State.applyReset_par : (s.applyReset).par = s.par := rfl
@[simp] theorem State.applyReset_be : (s.applyReset).be = .reset := rfl
@[simp] theorem State.applyReset_pf : (s.applyReset).pf = .reset := rfl
@[simp] theorem State.applyReset_now : (s.applyReset).now = 0 := rfl
@[simp] theorem State.applyReset_cr : (s.applyReset).cr = .waitReady := rfl
@[simp] theorem State.applyReset_tr : (s.applyReset).tr = s.tr := rfl
@[simp] theorem State.applyReset_rdata : (s.applyReset).rdata = s.rdata := rfl
@[simp] theorem State.applyReset_env : (s.applyReset).env = s.env := rfl
@[simp] theorem State.applyReset_script : (s.applyReset).script = s.script := rfl
@[simp] theorem State.applyReset_turns : (s.applyReset).turns = s.turns := rfl
@[simp] theorem State.placeBusWord_par (w : Word) : (s.placeBusWord w).par = s.par := rfl
@[simp] theorem State.placeBusWord_be (w : Word) : (s.placeBusWord w).be = s.be.startCommand w := rfl
@[simp] theorem State.placeBusWord_pf (w : Word) : (s.placeBusWord w).pf = s.pf := rfl
@[simp] theorem State.placeBusWord_now (w : Word) : (s.placeBusWord w).now = s.now := rfl
@[simp] theorem State.placeBusWord_cr (w : Word) : (s.placeBusWord w).cr = s.cr := rfl
@[simp] theorem State.placeBusWord_tr (w : Word) : (s.placeBusWord w).tr = s.tr := rfl
@[simp] theorem State.placeBusWord_rdata (w : Word) : (s.placeBusWord w).rdata = s.rdata := rfl
@[simp] theorem State.placeBusWord_env (w : Word) : (s.placeBusWord w).env = s.env := rfl
@[simp] theorem State.placeBusWord_script (w : Word) : (s.placeBusWord w).script = { agent := .busEngine, env := s.env } :: s.script := rfl
@[simp] theorem State.placeBusWord_turns (w : Word) : (s.placeBusWord w).turns = s.turns := rfl
@[simp] theorem State.placeFramerWord_par (w : Word) : (s.placeFramerWord w).par = s.par := rfl
@[simp] theorem State.placeFramerWord_be (w : Word) : (s.placeFramerWord w).be = s.be := rfl
@[simp] theorem State.placeFramerWord_pf (w : Word) : (s.placeFramerWord w).pf = s.pf.startCommand s.now w := rfl
@[simp] theorem State.placeFramerWord_now (w : Word) : (s.placeFramerWord w).now = s.now := rfl
@[simp] theorem State.placeFramerWord_cr (w : Word) : (s.placeFramerWord w).cr = s.cr := rfl
@[simp] theorem State.placeFramerWord_tr (w : Word) : (s.placeFramerWord w).tr = s.tr := rfl
@[simp] theorem State.placeFramerWord_rdata (w : Word) : (s.placeFramerWord w).rdata = s.rdata := rfl
@[simp] theorem State.placeFramerWord_env (w : Word) : (s.placeFramerWord w).env = s.env := rfl
@[simp] theorem State.placeFramerWord_script (w : Word) : (s.placeFramerWord w).script = { agent := .framer, env := s.env } :: s.script := rfl
@[simp] theorem State.placeFramerWord_turns (w : Word) : (s.placeFramerWord w).turns = s.turns := rfl
@[simp] theorem State.placePacket_par (w : Word) : (s.placePacket w).par = { s.par with responderPresent := true } := rfl
@[simp] theorem State.placePacket_be (w : Word) : (s.placePacket w).be = s.be := rfl
@[simp] theorem State.placePacket_now (w : Word) : (s.placePacket w).now = s.now := rfl
@[simp] theorem State.placePacket_cr (w : Word) : (s.placePacket w).cr = .cycle .gotRead := rfl
@[simp] theorem State.placePacket_tr (w : Word) : (s.placePacket w).tr = s.tr := rfl
@[simp] theorem State.placePacket_rdata (w : Word) : (s.placePacket w).rdata = s.rdata := rfl
@[simp] theorem State.placePacket_env (w : Word) : (s.placePacket w).env = s.env := rfl
@[simp] theorem State.placePacket_script (w : Word) : (s.placePacket w).script = { agent := .responder, env := s.env } :: s.script := rfl
@[simp] theorem State.placePacket_turns (w : Word) : (s.placePacket w).turns = s.turns := rfl
@[simp] theorem State.nextTurn_par : s.nextTurn.2.par = s.par := by
  unfold State.nextTurn; split <;> rfl

@[simp] theorem State.nextTurn_be : s.nextTurn.2.be = s.be := by
  unfold State.nextTurn; split <;> rfl

@[simp] theorem State.nextTurn_pf : s.nextTurn.2.pf = s.pf := by
  unfold State.nextTurn; split <;> rfl

@[simp] theorem State.nextTurn_now : s.nextTurn.2.now = s.now := by
  unfold State.nextTurn; split <;> rfl

@[simp] theorem State.nextTurn_cr : s.nextTurn.2.cr = s.cr := by
  unfold State.nextTurn; split <;> rfl

@[simp] theorem State.nextTurn_tr : s.nextTurn.2.tr = s.tr := by
  unfold State.nextTurn; split <;> rfl

@[simp] theorem State.nextTurn_rdata : s.nextTurn.2.rdata = s.rdata := by
  unfold State.nextTurn; split <;> rfl

@[simp] theorem Transport.accept_rx (t : Transport) (bs : List Byte) : (t.accept bs).rx = t.rx := rfl
@[simp] theorem Transport.accept_tx (t : Transport) (bs : List Byte) : (t.accept bs).tx = t.tx ++ bs := rfl
@[simp] theorem Transport.readCall_tx (t : Transport) (e : Env) (n : Nat) : (t.readCall e n).2.tx = t.tx := rfl

end Block

end Sys2Proof.Machine
end

