-- ==== Sys2Proof/Laws/Sequencer.lean ====
section
/-! SUPPORT. What the Bus Engine's sequencer can do: the frames of `settle`, `lineStep` and `busTurn`, and one inversion
lemma for a Bus Engine step on any command. -/

namespace Sys2Proof.Machine

/-! ### `settle` -/

/-- The pending operations recorded in the position are overwritten: only the command word matters. -/
theorem settle_pos (pub : Publish) (ops : List BusOp) (b : BusEngine) (w : Word) (x y : List BusOp) :
    settle pub ops { b with pos := .running w x } = settle pub ops { b with pos := .running w y } := by
  induction ops generalizing b with
  | nil => rfl
  | cons op r ih =>
    cases op <;> try rfl
    · simp only [settle]
      split
      · rfl
      · exact ih b
    · exact ih { b with priv := { b.priv with byte := shiftBit b.priv.byte b.priv.bit } }
    · exact ih { b with opened := _ }
    · simp only [settle]
      split
      · rfl
      · exact ih { b with priv := { b.priv with xcnt := b.priv.xcnt + 1 } }
    · exact ih { b.putByte _ b.priv.byte with priv := { b.priv with xcnt := b.priv.xcnt + 1 } }
    · simp only [settle]
      split
      · rfl
      · exact ih b
    · next c => simp only [settle, BusEngine.finish]; cases pub <;> rfl
    · next c => simp only [settle, BusEngine.endAbort, BusEngine.finish]; cases pub <;> rfl

/-- What `settle` never changes: the lines, `ARB`, the configuration. -/
theorem settle_frame (pub : Publish) (ops : List BusOp) (b : BusEngine) :
    (settle pub ops b).sclOut = b.sclOut ∧ (settle pub ops b).sdaOut = b.sdaOut ∧
    (settle pub ops b).arb = b.arb ∧ (settle pub ops b).arbAbort = b.arbAbort ∧
    (settle pub ops b).stretchBound = b.stretchBound ∧ (settle pub ops b).stretchLimit = b.stretchLimit := by
  induction ops generalizing b with
  | nil => simp [settle]
  | cons op r ih =>
    cases op <;> simp only [settle] <;> (try split) <;> simp [ih]

/-- While a command is still in progress, `settle` has written no completion field. -/
theorem settle_busy (pub : Publish) (ops : List BusOp) (b : BusEngine)
    (h : (settle pub ops b).pos ≠ .idle) :
    (settle pub ops b).code = b.code ∧ (settle pub ops b).rxBit = b.rxBit ∧
    (settle pub ops b).rxByte = b.rxByte ∧ (settle pub ops b).pulses = b.pulses ∧
    (settle pub ops b).xcnt = b.xcnt ∧ (settle pub ops b).needRecov = b.needRecov := by
  induction ops generalizing b with
  | nil => simp [settle]
  | cons op r ih =>
    cases op <;> simp only [settle] at h ⊢ <;> (try split at h) <;> (try split) <;>
      (try simp_all)

/-- What one step never changes: the configuration; and `ARB` is never cleared. -/
theorem lineStep_frame (pub : Publish) (e : Env) (ops : List BusOp) (b : BusEngine) :
    (lineStep pub e ops b).arbAbort = b.arbAbort ∧ (lineStep pub e ops b).stretchBound = b.stretchBound ∧
    (lineStep pub e ops b).stretchLimit = b.stretchLimit ∧ (b.arb = true → (lineStep pub e ops b).arb = true) := by
  cases ops with
  | nil => simp [lineStep, settle]
  | cons op r =>
    cases op <;> simp only [lineStep, waitStep, arbLost, initTest] <;> (repeat' split) <;>
      simp [settle_frame]

/-! ### The steps of a Bus Engine command -/

/-- The command a meaning runs: from a running position its step is the sequencer's, whatever the operand. -/
def RunsWith (i : Instr) (pub : Publish) : Prop :=
  ∀ (s : State) (w : Word) (todo : List BusOp), s.be.pos = .running w todo → exec i s = sequencerStep pub todo s

theorem busTurn_running {w v : Word} {pub : Publish} {isInit : Bool} {ops todo : List BusOp} {s : State}
    (h : s.be.pos = .running v todo) : busTurn w pub isInit ops s = sequencerStep pub todo s := by
  simp [busTurn, h]

theorem runsWith_init : RunsWith .init .pulses := by
  intro s w todo h
  change execInit s = _
  exact busTurn_running h
theorem runsWith_start : RunsWith .start .nothing := by
  intro s w todo h
  change execStart s = _
  exact busTurn_running h
theorem runsWith_stop : RunsWith .stop .nothing := by
  intro s w todo h
  change execStop s = _
  exact busTurn_running h
theorem runsWith_writeBit (b : Bool) : RunsWith (.writeBit b) .nothing := by
  intro s w todo h
  change execWriteBit b s = _
  exact busTurn_running h
theorem runsWith_readBit : RunsWith .readBit .bit := by
  intro s w todo h
  change execReadBit s = _
  exact busTurn_running h
theorem runsWith_writeByte (d : Byte) : RunsWith (.writeByte d) .bit := by
  intro s w todo h
  change execWriteByte d s = _
  exact busTurn_running h
theorem runsWith_readByte (k : Bool) : RunsWith (.readByte k) .byte := by
  intro s w todo h
  change execReadByte k s = _
  exact busTurn_running h
theorem runsWith_regWrite (dev : BitVec 7) (reg n : Byte) : RunsWith (.regWrite dev reg n) .xcnt := by
  intro s w todo h
  change execRegWrite dev reg n s = _
  exact busTurn_running h
theorem runsWith_regRead (dev : BitVec 7) (reg n : Byte) : RunsWith (.regRead dev reg n) .xcnt := by
  intro s w todo h
  change execRegRead dev reg n s = _
  exact busTurn_running h

/-- Every Bus Engine command, from a running position, publishes the fields of R191. -/
theorem runsWith_publishOf {i : Instr} (h : i.port = .busCmd) : RunsWith i (publishOf i) := by
  cases i with
  | init => exact runsWith_init
  | start => exact runsWith_start
  | stop => exact runsWith_stop
  | writeBit b => exact runsWith_writeBit b
  | readBit => exact runsWith_readBit
  | writeByte d => exact runsWith_writeByte d
  | readByte k => exact runsWith_readByte k
  | regWrite dev reg n => exact runsWith_regWrite dev reg n
  | regRead dev reg n => exact runsWith_regRead dev reg n
  | _ => cases h

/-- Away from REG_WRITE's loop, a sequencer step is one line micro-operation. -/
theorem sequencerStep_plain (pub : Publish) (op : BusOp) (r : List BusOp) (s : State)
    (h : ∀ i n, op ≠ .sendLoop i n) :
    sequencerStep pub (op :: r) s = .next { s with be := lineStep pub s.env (op :: r) s.be } := by
  cases op <;> first | rfl | exact absurd rfl (h _ _)

/-- A sequencer step changes the Bus Engine alone. -/
theorem sequencerStep_next {pub : Publish} {todo : List BusOp} {s t : State}
    (h : sequencerStep pub todo s = .next t) : t = { s with be := t.be } := by
  unfold sequencerStep at h
  split at h
  · split at h
    · split at h
      · cases h
      · cases h; rfl
    · cases h; rfl
  · cases h; rfl

/-- A Bus Engine step changes the Bus Engine alone. -/
theorem busTurn_next {w : Word} {pub : Publish} {isInit : Bool} {ops : List BusOp} {s t : State}
    (h : busTurn w pub isInit ops s = .next t) : t = { s with be := t.be } := by
  unfold busTurn at h
  split at h
  · exact sequencerStep_next h
  · split at h
    · cases h; rfl
    · dsimp only at h
      split at h
      · have := sequencerStep_next h
        rw [this]
      · cases h; rfl

/-- The only way a sequencer step stops is a data byte of REG_WRITE that holds no value. -/
theorem sequencerStep_total (pub : Publish) (todo : List BusOp) (s : State)
    (h : ∀ i n r, todo = .sendLoop i n :: r → i < n → s.be.buf.read i ≠ none) :
    ∃ b, sequencerStep pub todo s = .next { s with be := b } := by
  unfold sequencerStep
  split
  · next i n r =>
    split
    · next hi =>
      split
      · next hn => exact absurd hn (h i n r rfl hi)
      · exact ⟨_, rfl⟩
    · exact ⟨_, rfl⟩
  · exact ⟨_, rfl⟩

end Sys2Proof.Machine
end

