-- ==== Sys2Proof/Laws/Window.lean ====
section
/-! SUPPORT. What a Host CPU access can do: one inversion lemma for reads, one for writes, and the regions by offset. -/

namespace Sys2Proof.Machine

/-! ### Regions (spec/10_state.md R29) -/

theorem regionOf_beBuf {o : Nat} (h : 0x100 ≤ o) (h' : o < 0x200) : regionOf o = .beBuf (o - 0x100) := by
  simp only [regionOf]
  repeat rw [if_neg (show ¬ o < _ by omega)]
  rw [if_pos (by omega)]

theorem regionOf_pfBuf {o : Nat} (h : 0x300 ≤ o) (h' : o < 0x3FE) : regionOf o = .pfBuf (o - 0x300) := by
  simp only [regionOf]
  repeat rw [if_neg (show ¬ o < _ by omega)]
  rw [if_pos (by omega)]

theorem windowOffset_add (p : Params) (o : Nat) (h : o < 0x400) : windowOffset p (p.blkBase + o) = some o := by
  simp [windowOffset, h]

/-! ### Reads -/

/-- A read that completes changes the value read and nothing else (spec/20_memory.md R74). -/
theorem hostRead_next {a n : Nat} {s t : State} (h : hostRead a n s = .next t) : t = { s with rdata := t.rdata } := by
  unfold hostRead at h
  split at h
  · cases h
  · split at h
    · split at h
      · cases h; rfl
      · cases h
    · cases h

/-- The value of a read does not depend on the value read before. -/
theorem windowRead_rdata (s : State) (v : Word) (o n : Nat) : windowRead { s with rdata := v } o n = windowRead s o n :=
  rfl

/-! ### Writes -/

theorem busWrite_next {s t : State} {b : BusEngine} (h : busWrite s b = .next t) :
    s.be.busy = false ∧ t = { s with be := b } := by
  unfold busWrite at h
  split at h
  · cases h
  · next hb => cases h; exact ⟨by simpa using hb, rfl⟩

theorem framerWrite_next {s t : State} {f : Framer} (h : framerWrite s f = .next t) :
    s.par.responderPresent = false ∧ s.pf.busy = false ∧ t = { s with pf := f } := by
  unfold framerWrite at h
  split at h
  · cases h
  · next hb =>
    cases h
    simp only [State.ownedByCr, Bool.or_eq_true, not_or, Bool.not_eq_true] at hb
    exact ⟨hb.1, hb.2, rfl⟩

/-- What a write that completes can do (R75). -/
theorem windowWrite_next {o n : Nat} {v : Word} {s t : State} (h : windowWrite s o n v = .next t) :
    t = s ∨ t = { s with be := s.be.writeStatus v } ∨ t = { s with pf := { s.pf with strict := v.getLsbD 0 } } ∨
    (s.be.busy = false ∧ ∃ b, t = { s with be := b } ∧
      (b = s.be.startCommand v ∨ b = s.be.writeConfig v ∨ ∃ i, b = s.be.putBytes i (leBytes n v))) ∨
    (s.par.responderPresent = false ∧ s.pf.busy = false ∧ ∃ f, t = { s with pf := f } ∧
      (f = s.pf.startCommand s.now v ∨ f = { s.pf with deadline := v } ∨ ∃ i, f = s.pf.putBytes i (leBytes n v))) := by
  unfold windowWrite at h
  split at h
  · obtain ⟨hb, rfl⟩ := busWrite_next h
    exact .inr (.inr (.inr (.inl ⟨hb, _, rfl, .inl rfl⟩)))
  · cases h; exact .inr (.inl rfl)
  · obtain ⟨hb, rfl⟩ := busWrite_next h
    exact .inr (.inr (.inr (.inl ⟨hb, _, rfl, .inr (.inl rfl)⟩)))
  · cases h; exact .inl rfl
  · obtain ⟨hb, rfl⟩ := busWrite_next h
    exact .inr (.inr (.inr (.inl ⟨hb, _, rfl, .inr (.inr ⟨_, rfl⟩)⟩)))
  · obtain ⟨hp, hb, rfl⟩ := framerWrite_next h
    exact .inr (.inr (.inr (.inr ⟨hp, hb, _, rfl, .inl rfl⟩)))
  · obtain ⟨hp, hb, rfl⟩ := framerWrite_next h
    exact .inr (.inr (.inr (.inr ⟨hp, hb, _, rfl, .inr (.inl rfl)⟩)))
  · cases h; exact .inl rfl
  · cases h; exact .inr (.inr (.inl rfl))
  · cases h; exact .inl rfl
  · obtain ⟨hp, hb, rfl⟩ := framerWrite_next h
    exact .inr (.inr (.inr (.inr ⟨hp, hb, _, rfl, .inr (.inr ⟨_, rfl⟩)⟩)))
  · cases h; exact .inl rfl

/-- A write that completes is a permitted write in the window (R72, R75). -/
theorem hostWrite_next {a n : Nat} {v : Word} {s t : State} (h : hostWrite a n v s = .next t) :
    ∃ o, windowOffset s.par a = some o ∧ permitted o n = true ∧ windowWrite s o n v = .next t := by
  unfold hostWrite at h
  split at h
  · cases h
  · next o ho =>
    split at h
    · next hp => exact ⟨o, ho, hp, h⟩
    · cases h

end Sys2Proof.Machine
end

