-- ==== Sys2Proof/Laws/Agents.lean ====
section
/-! SUPPORT. What one step of the block can do, by the agent that takes it. -/

namespace Sys2Proof.Machine

/-- A step that completes is its agent's step on the state the turn finds. -/
theorem step_next {s t : State} (h : step s = .next t) :
    paramsOk s.par = true ∧ agentStep s.nextTurn.1 s.nextTurn.2 = .next t := by
  unfold step blockStep at h
  split at h
  · next hp => exact ⟨hp, h⟩
  · cases h

/-- The instructions written to `BE_CMD`, each as the turn its meaning is. -/
theorem exec_busTurn {i : Instr} (h : i.port = .busCmd) :
    ∃ w pub isInit ops, ∀ s, exec i s = busTurn w pub isInit ops s := by
  cases i with
  | init => exact ⟨encode .init, .pulses, true, initOps, fun _ => rfl⟩
  | start => exact ⟨encode .start, .nothing, false, startProcedure, fun _ => rfl⟩
  | stop => exact ⟨encode .stop, .nothing, false, stopProcedure, fun _ => rfl⟩
  | writeBit b => exact ⟨encode (.writeBit b), .nothing, false, writeBitProcedure b, fun _ => rfl⟩
  | readBit => exact ⟨encode .readBit, .bit, false, readBitProcedure, fun _ => rfl⟩
  | writeByte d => exact ⟨encode (.writeByte d), .bit, false, writeByteProcedure d, fun _ => rfl⟩
  | readByte k => exact ⟨encode (.readByte k), .byte, false, readByteProcedure k, fun _ => rfl⟩
  | regWrite dev reg n => exact ⟨encode (.regWrite dev reg n), .xcnt, false, regWriteOps dev reg n, fun _ => rfl⟩
  | regRead dev reg n => exact ⟨encode (.regRead dev reg n), .xcnt, false, regReadOps dev reg n, fun _ => rfl⟩
  | readPacket | writePacket => cases h
  | pktAck | pktNak | pktReset | pktId | pktWriteReg | pktReadReg | pktEcho | pktSsn | pktUid | pktOpt | pktIsn
  | pktDiag => cases h

/-- A Bus Engine instruction that completes changes the Bus Engine alone. -/
theorem exec_bus_next {i : Instr} {s t : State} (hi : i.port = .busCmd) (h : exec i s = .next t) :
    t = { s with be := t.be } := by
  obtain ⟨w, pub, isInit, ops, hx⟩ := exec_busTurn hi
  rw [hx] at h
  exact busTurn_next h

/-- A word decodes to an instruction of the object it was written to. -/
theorem decode_port {p : Port} {w : Word} {i : Instr} (h : decode p w = .ok i) : i.port = p := by
  cases p
  · simp only [decode, decodeBusCmd, whenMasked] at h
    repeat' split at h
    all_goals first | (cases h; rfl) | cases h
  · simp only [decode, decodeFramerCmd] at h
    repeat' split at h
    all_goals first | (cases h; rfl) | cases h
  · simp only [decode, decodePacket] at h
    repeat' split at h
    all_goals first | (cases h; rfl) | cases h

/-- What the Bus Engine's turn can do (spec/41_bus_composite.md R190). -/
theorem busAgent_next {s t : State} (h : busAgent s = .next t) :
    (s.be.pos = .idle ∧ t = s) ∨
    (∃ w i, s.be.word? = some w ∧ decode .busCmd w = .ok i ∧ exec i s = .next t) ∨
    (∃ w e, s.be.word? = some w ∧ decode .busCmd w = .error e ∧
      t = { s with be := s.be.finish .nothing .illegalCmd }) := by
  unfold busAgent at h
  split at h
  · next hw =>
    left
    cases h
    refine ⟨?_, rfl⟩
    unfold BusEngine.word? at hw
    split at hw
    · assumption
    · cases hw
    · cases hw
  · next w hw =>
    split at h
    · next i hi => exact .inr (.inl ⟨w, i, hw, hi, h⟩)
    · next e he => cases h; exact .inr (.inr ⟨w, e, hw, he, rfl⟩)

/-- What the Packet Framer's turn can do (spec/42_framer.md R237). -/
theorem framerAgent_next {s t : State} (h : framerAgent s = .next t) :
    (s.pf.pos = .idle ∧ t = s) ∨ execReadPacket s = .next t ∨ execWritePacket s = .next t ∨
    t = { s with pf := s.pf.finish .illegalCmd none none } := by
  unfold framerAgent at h
  split at h
  · next hw =>
    left
    cases h
    refine ⟨?_, rfl⟩
    unfold Framer.word? at hw
    split at hw
    · assumption
    · cases hw
    · cases hw
  · next w hw =>
    split at h
    · next i hi =>
      simp only [decode, decodeFramerCmd] at hi
      split at hi
      · cases hi; exact .inr (.inl h)
      · split at hi
        · cases hi; exact .inr (.inr (.inl h))
        · cases hi
    · cases h; exact .inr (.inr (.inr rfl))

/-- The state differs from `s` by bytes written to `PFBUF` and by the responder's position after its dispatch. -/
def WroteReply (s t : State) : Prop :=
  ∃ runs : List (Nat × List Byte),
    t = { s with
      pf := { s.pf with buf := runs.foldl (fun m r => m.putBytes Config.pfBufBytes r.1 r.2) s.pf.buf }
      cr := .cycle .clearCsum }

theorem replyAck_next {s t : State} (h : replyAck s = .next t) : WroteReply s t := by
  cases h
  exact ⟨[(1, [typeAck]), (0, [4])], rfl⟩

theorem replyNak_next {s t : State} (h : replyNak s = .next t) : WroteReply s t := by
  cases h
  exact ⟨[(1, [typeNak]), (0, [4])], rfl⟩

theorem replyPayload_next {s t : State} {p : List Byte} (h : replyPayload s p = .next t) : WroteReply s t := by
  cases h
  exact ⟨[(4, p), (1, [typeAck]), (0, [BitVec.ofNat 8 (4 + p.length)])], rfl⟩

theorem ite_reply_next {s t : State} {c : Bool} {p q : Host.Outcome State Fault Refusal}
    (hp : p = .next t → WroteReply s t) (hq : q = .next t → WroteReply s t) (h : (if c then p else q) = .next t) :
    WroteReply s t := by
  cases c
  · exact hq h
  · exact hp h

/-- A dispatch step that completes writes bytes of `PFBUF` and moves the responder's cycle (spec/43_responder.md R282,
R284 to R293). -/
theorem exec_packet_next {i : Instr} {s t : State} (hi : i.port = .packet) (h : exec i s = .next t) :
    WroteReply s t := by
  cases i with
  | init | start | stop | writeBit | readBit | writeByte | readByte | regWrite | regRead | readPacket | writePacket =>
    cases hi
  | pktAck => exact replyAck_next h
  | pktNak => exact replyAck_next h
  | pktReset => exact ite_reply_next replyAck_next replyNak_next h
  | pktId => exact ite_reply_next replyPayload_next replyNak_next h
  | pktSsn => exact ite_reply_next replyPayload_next replyNak_next h
  | pktUid => exact ite_reply_next replyPayload_next replyNak_next h
  | pktWriteReg => exact replyNak_next h
  | pktReadReg => exact replyNak_next h
  | pktOpt => exact replyNak_next h
  | pktIsn => exact replyNak_next h
  | pktDiag => exact replyNak_next h
  | pktEcho =>
    change replied s _ = _ at h
    cases h
    by_cases hc : 1 ≤ s.pf.count.toNat
    · exact ⟨[(1, [typeAck])], by simp only [hc, if_true]; rfl⟩
    · exact ⟨[], by simp only [hc, if_false]; rfl⟩

/-- What a dispatch can do (R282, R293). -/
theorem dispatchPacket_next {s t : State} (h : dispatchPacket s = .next t) : WroteReply s t := by
  unfold dispatchPacket at h
  split at h
  · cases h
  · split at h
    · next i hi => exact exec_packet_next (decode_port hi) h
    · exact replyNak_next h

/-- What the Command Responder's turn can do (R280 to R282). -/
theorem responderAgent_next {s t : State} (h : responderAgent s = .next t) :
    t = s ∨ t = { s with cr := .cycle .zero } ∨
    (s.pf.pos = .idle ∧
      (WroteReply s t ∨
        t = { s with pf := { s.pf with buf := .zeros Config.pfBufBytes }, cr := .cycle .callRead } ∨
        t = { s with pf := s.pf.call s.now (encode .readPacket) s.par.crReadDeadline, cr := .cycle .gotRead } ∨
        t = { s with pf := s.pf.putBytes 2 [0, 0], cr := .cycle .callWrite } ∨
        t = { s with pf := s.pf.call s.now (encode .writePacket) s.par.crWriteDeadline, cr := .cycle .zero })) := by
  unfold responderAgent at h
  split at h
  · split at h
    · split at h
      · cases h; exact .inr (.inl rfl)
      · cases h; exact .inl rfl
    · next c _ =>
      split at h
      · cases h; exact .inl rfl
      · next hb =>
        have hidle : s.pf.pos = .idle := by
          revert hb
          unfold Framer.busy
          split <;> simp_all
        refine .inr (.inr ⟨hidle, ?_⟩)
        cases c with
        | zero => cases h; exact .inr (.inl rfl)
        | callRead => cases h; exact .inr (.inr (.inl rfl))
        | gotRead =>
          simp only [cycleStep] at h
          split at h
          · exact .inl (replyNak_next h)
          · exact .inl (dispatchPacket_next h)
          all_goals cases h; exact .inr (.inl rfl)
        | clearCsum => cases h; exact .inr (.inr (.inr (.inl rfl)))
        | callWrite => cases h; exact .inr (.inr (.inr (.inr rfl)))
  · cases h; exact .inl rfl

end Sys2Proof.Machine
end

