-- ==== Sys2Proof/Laws/Encoding.lean ====
section
/-! SUPPORT. The bits of an encoded word, by position (spec/30_encoding.md R101, R115). -/

namespace Sys2Proof

/-- Bit `j` of a `BE_CMD` word. -/
theorem busWord_getLsbD (op : BitVec 4) (b : Bool) (data : Byte) (dev : BitVec 7) (len : Byte) (j : Nat) :
    (busWord op b data dev len).getLsbD j =
      if j < 4 then op.getLsbD j else if j = 4 then b else if j < 8 then false
      else if j < 16 then data.getLsbD (j - 8) else if j < 23 then dev.getLsbD (j - 16)
      else if j = 23 then false else len.getLsbD (j - 24) := by
  unfold busWord
  rw [BitVec.getLsbD_append, BitVec.getLsbD_append, BitVec.getLsbD_append, BitVec.getLsbD_append,
    BitVec.getLsbD_append, BitVec.getLsbD_append]
  simp only [Nat.sub_sub, BitVec.getLsbD_zero, BitVec.getLsbD_ofBool]
  grind

/-- Bit `j` of a packet header word. -/
theorem headerWord_getLsbD (len typ : Byte) (csum : Half) (j : Nat) :
    (headerWord len typ csum).getLsbD j =
      if j < 8 then len.getLsbD j else if j < 16 then typ.getLsbD (j - 8) else csum.getLsbD (j - 16) := by
  unfold headerWord
  rw [BitVec.getLsbD_append, BitVec.getLsbD_append]
  grind

end Sys2Proof
end

