-- ==== Sys2Proof/Laws/Framer.lean ====
section
/-! SUPPORT. What one step of a Packet Framer command can do: the transport call, and one inversion lemma for READ_PACKET
and one for WRITE_PACKET. -/

namespace Sys2Proof.Machine

/-! ### Transport calls (spec/42_framer.md R236) -/

/-- A call never returns more bytes than it is asked for. -/
theorem Transport.readCall_length (t : Transport) (e : Env) (n : Nat) : (t.readCall e n).1.length ≤ n := by
  simp only [Transport.readCall, List.length_take]
  omega

/-- The bytes a call returns are the next ones of the stream, and the rest stay. -/
theorem Transport.readCall_append (t : Transport) (e : Env) (n : Nat) :
    (t.readCall e n).1 ++ (t.readCall e n).2.rx = t.rx ++ e.arriving := by
  simp [Transport.readCall]

theorem Transport.readCall_rx (t : Transport) (e : Env) (n : Nat) :
    ∃ k, k ≤ n ∧ (t.readCall e n).2 = { t with rx := (t.rx ++ e.arriving).drop k } :=
  ⟨min e.count n, Nat.min_le_right _ _, rfl⟩

/-! ### READ_PACKET (R239) -/

/-- After the transport call of a READ_PACKET step: the command goes on at a phase, or it ends. `lens` says what the
packet's length can be. -/
inductive ReadEnds (w : Word) (l : Latch) (lens : Nat → Prop) (s t : State) : Prop where
  | goesOn (phase : FramerPhase) (h : t = { s with pf := { s.pf with pos := .running w l phase } })
      (hp : (∃ got, phase = .header got ∧ got < Config.hdrBytes) ∨
        ∃ len got, phase = .payload len got ∧ got < len ∧ lens len)
  | ends (r : FramerResult) (n : Byte) (c : Option Half) (h : t = { s with pf := s.pf.finish r (some n) c })
      (hn : n = 0 ∨ ∃ len, lens len ∧ n = BitVec.ofNat 8 len)

theorem completePacket_next {w : Word} {l : Latch} {len : Nat} {lens : Nat → Prop} {s t : State} (hlen : lens len)
    (h : completePacket l len s = .next t) : ReadEnds w l lens s t := by
  unfold completePacket at h
  split at h
  · split at h
    · split at h
      · cases h; exact .ends _ _ _ rfl (.inr ⟨len, hlen, rfl⟩)
      · cases h; exact .ends _ _ _ rfl (.inl rfl)
    · cases h
  · cases h; exact .ends _ _ _ rfl (.inr ⟨len, hlen, rfl⟩)

theorem payloadTest_next {w : Word} {l : Latch} {len got : Nat} {lens : Nat → Prop} {s t : State} (hlen : lens len)
    (h : payloadTest w l len got s = .next t) : ReadEnds w l lens s t := by
  unfold payloadTest at h
  split at h
  · next hg => cases h; exact .goesOn _ rfl (.inr ⟨_, _, rfl, hg, hlen⟩)
  · exact completePacket_next hlen h

/-- The lengths a header that is not malformed can give (spec/30_encoding.md R116). -/
def HeaderLength (len : Nat) : Prop := Config.hdrBytes ≤ len ∧ len ≤ Config.maxLen

theorem headerTest_next {w : Word} {l : Latch} {got : Nat} {s t : State} (h : headerTest w l got s = .next t) :
    ReadEnds w l HeaderLength s t := by
  unfold headerTest at h
  split at h
  · next hg => cases h; exact .goesOn _ rfl (.inl ⟨_, rfl, hg⟩)
  · split at h
    · cases h
    · split at h
      · cases h; exact .ends _ _ _ rfl (.inl rfl)
      · next hl =>
        simp only [not_or, Nat.not_lt] at hl
        exact payloadTest_next (lens := HeaderLength) hl h

/-- What a READ_PACKET step can do: a timeout, or one transport call for at most what its phase still needs, after which
the command goes on or ends. -/
theorem execReadPacket_next {s t : State} (h : execReadPacket s = .next t) :
    ((s.pf.latch s.now).expired s.now = true ∧ t = { s with pf := s.pf.finish .timeout (some 0) none }) ∨
    ((s.pf.latch s.now).expired s.now = false ∧
      ((∃ got, (∀ w l g, s.pf.pos = .running w l (.header g) → got = g) ∧
          (∀ w l len g, s.pf.pos ≠ .running w l (.payload len g)) ∧
          ReadEnds (encode .readPacket) (s.pf.latch s.now) HeaderLength (receive got Config.hdrBytes s).1 t) ∨
        ∃ w l len got, s.pf.pos = .running w l (.payload len got) ∧
          ReadEnds (encode .readPacket) (s.pf.latch s.now) (· = len) (receive got len s).1 t)) := by
  unfold execReadPacket at h
  dsimp only at h
  split at h
  · next got hpos =>
    unfold headerTurn at h
    split at h
    · next he => cases h; exact .inl ⟨he, rfl⟩
    · next he =>
      refine .inr ⟨by simpa using he, .inl ⟨got, ?_, ?_, headerTest_next h⟩⟩
      · intro w l g hg; rw [hpos] at hg; cases hg; rfl
      · intro w l len g hg; rw [hpos] at hg; cases hg
  · next len got hpos =>
    unfold payloadTurn at h
    split at h
    · next he => cases h; exact .inl ⟨he, rfl⟩
    · next he =>
      exact .inr ⟨by simpa using he, .inr ⟨_, _, len, got, hpos, payloadTest_next (lens := (· = len)) rfl h⟩⟩
  · next h1 h2 =>
    unfold headerTurn at h
    split at h
    · next he => cases h; exact .inl ⟨he, rfl⟩
    · next he =>
      refine .inr ⟨by simpa using he, .inl ⟨0, ?_, ?_, headerTest_next h⟩⟩
      · intro w l g hg; exact absurd hg (h1 _ _ _)
      · intro w l len g hg; exact absurd hg (h2 _ _ _ _)

/-- A READ_PACKET step changes the Packet Framer and the transport, and of them neither the configuration nor what was
sent. -/
theorem execReadPacket_frame {s t : State} (h : execReadPacket s = .next t) :
    t = { s with pf := t.pf, tr := t.tr } ∧ t.pf.strict = s.pf.strict ∧ t.pf.deadline = s.pf.deadline ∧
      t.tr.tx = s.tr.tx := by
  have key : ∀ {lens : Nat → Prop} {got want : Nat},
      ReadEnds (encode .readPacket) (s.pf.latch s.now) lens (receive got want s).1 t →
      t = { s with pf := t.pf, tr := t.tr } ∧ t.pf.strict = s.pf.strict ∧ t.pf.deadline = s.pf.deadline ∧
        t.tr.tx = s.tr.tx := by
    intro lens got want hr
    cases hr with
    | goesOn phase h hp => subst h; exact ⟨rfl, rfl, rfl, rfl⟩
    | ends r n c h hn => subst h; exact ⟨rfl, rfl, rfl, rfl⟩
  rcases execReadPacket_next h with ⟨-, rfl⟩ | ⟨-, ⟨got, -, -, hr⟩ | ⟨w, l, len, got, -, hr⟩⟩
  · exact ⟨rfl, rfl, rfl, rfl⟩
  · exact key hr
  · exact key hr

/-! ### WRITE_PACKET (R249) -/

/-- What one pass of WRITE_PACKET's loop can do. -/
theorem sendTurn_next {w : Word} {l : Latch} {len sent : Nat} {csum : Option Half} {s t : State}
    (h : sendTurn w l len sent csum s = .next t) :
    (l.expired s.now = true ∧ t = { s with pf := s.pf.finish .partialWrite (some (BitVec.ofNat 8 sent)) csum }) ∨
    (l.expired s.now = false ∧ ∃ k bs, k ≤ len - sent ∧ s.pf.buf.readBytes sent k = some bs ∧
      ((sent + k < len ∧ t = { s with
          tr := s.tr.accept bs, pf := { s.pf with pos := .running w l (.sending len (sent + k) csum) } }) ∨
        (len ≤ sent + k ∧ t = { s with
          tr := s.tr.accept bs, pf := s.pf.finish .ok (some (BitVec.ofNat 8 len)) csum }))) := by
  unfold sendTurn at h
  split at h
  · next he => cases h; exact .inl ⟨he, rfl⟩
  · next he =>
    refine .inr ⟨by simpa using he, min s.env.count (len - sent), ?_⟩
    dsimp only at h
    split at h
    · cases h
    · next bs hbs =>
      refine ⟨bs, Nat.min_le_right _ _, hbs, ?_⟩
      split at h
      · next hk => cases h; exact .inl ⟨hk, rfl⟩
      · next hk => cases h; exact .inr ⟨by omega, rfl⟩

/-- What WRITE_PACKET's first step can do. -/
theorem beginWrite_next {w : Word} {l : Latch} {s t : State} (h : beginWrite w l s = .next t) :
    t = { s with pf := s.pf.finish .framingError (some 0) none } ∨
    ∃ len csum bs, 4 ≤ len ∧ len ≤ 254 ∧ (bs = [] ∨ ∃ c, bs = [lowByte c, highByte c]) ∧
      sendTurn w l len 0 csum { s with pf := s.pf.putBytes 2 bs } = .next t := by
  unfold beginWrite at h
  split at h
  · cases h
  · next len hlen =>
    split at h
    · cases h; exact .inl rfl
    · next hl =>
      simp only [not_or, Nat.not_lt] at hl
      split at h
      · split at h
        · cases h
        · next c hc => exact .inr ⟨len.toNat, some c, _, hl.1, hl.2, .inr ⟨c, rfl⟩, h⟩
      · exact .inr ⟨len.toNat, none, [], hl.1, hl.2, .inl rfl, h⟩

/-- What a WRITE_PACKET step can do. -/
theorem execWritePacket_next {s t : State} (h : execWritePacket s = .next t) :
    (∃ w l len sent csum, s.pf.pos = .running w l (.sending len sent csum) ∧
      sendTurn (encode .writePacket) (s.pf.latch s.now) len sent csum s = .next t) ∨
    beginWrite (encode .writePacket) (s.pf.latch s.now) s = .next t := by
  unfold execWritePacket at h
  dsimp only at h
  split at h
  · next w l len sent csum hpos => exact .inl ⟨_, _, _, _, _, hpos, h⟩
  · exact .inr h

/-- A WRITE_PACKET step changes the Packet Framer and the transport, and of them neither the configuration nor what was
received. -/
theorem execWritePacket_frame {s t : State} (h : execWritePacket s = .next t) :
    t = { s with pf := t.pf, tr := t.tr } ∧ t.pf.strict = s.pf.strict ∧ t.pf.deadline = s.pf.deadline ∧
      t.tr.rx = s.tr.rx := by
  have key : ∀ {w : Word} {l : Latch} {len sent : Nat} {csum : Option Half} {m : Memory},
      sendTurn w l len sent csum { s with pf := { s.pf with buf := m } } = .next t →
      t = { s with pf := t.pf, tr := t.tr } ∧ t.pf.strict = s.pf.strict ∧ t.pf.deadline = s.pf.deadline ∧
        t.tr.rx = s.tr.rx := by
    intro w l len sent csum m h
    rcases sendTurn_next h with ⟨-, rfl⟩ | ⟨-, k, bs, -, -, ⟨-, rfl⟩ | ⟨-, rfl⟩⟩ <;> exact ⟨rfl, rfl, rfl, rfl⟩
  rcases execWritePacket_next h with ⟨w, l, len, sent, csum, -, h⟩ | h
  · exact key (m := s.pf.buf) h
  · rcases beginWrite_next h with rfl | ⟨len, csum, bs, -, -, -, h⟩
    · exact ⟨rfl, rfl, rfl, rfl⟩
    · exact key h

end Sys2Proof.Machine
end

