-- ==== Sys2Proof/Laws/Invariants.lean ====
section
/-! SUPPORT. How a property of one unit is shown to be kept by every step: it need only be shown for what changes that
unit. -/

namespace Sys2Proof.Machine

/-- A property of the Bus Engine that its own steps, the window's writes and reset keep is kept by every step. -/
theorem step_keeps_bus (P : BusEngine → Prop)
    (hreset : P .reset)
    (hill : ∀ b, P b → b.pos ≠ .idle → P (b.finish .nothing .illegalCmd))
    (hexec : ∀ (i : Instr) s t, i.port = .busCmd → P s.be → s.be.pos ≠ .idle → exec i s = .next t → P t.be)
    (hstart : ∀ b w, P b → b.busy = false → P (b.startCommand w))
    (hconf : ∀ b w, P b → b.busy = false → P (b.writeConfig w))
    (hstat : ∀ b w, P b → P (b.writeStatus w))
    (hput : ∀ b i bs, P b → b.busy = false → P (b.putBytes i bs))
    {s t : State} (h : step s = .next t) (hs : P s.be) : P t.be := by
  obtain ⟨hp, h⟩ := step_next h
  have hs' : P s.nextTurn.2.be := by simpa using hs
  generalize s.nextTurn.2 = s' at h hs'
  generalize s.nextTurn.1 = a at h
  cases a with
  | host a =>
    cases a with
    | read a n => have := hostRead_next h; rw [this]; exact hs'
    | write a n v =>
      obtain ⟨o, _, _, h⟩ := hostWrite_next h
      rcases windowWrite_next h with rfl | rfl | rfl | ⟨hb, b, rfl, rfl | rfl | ⟨i, rfl⟩⟩ | ⟨hq, _, f, rfl, _⟩
      · exact hs'
      · exact hstat _ _ hs'
      · exact hs'
      · exact hstart _ _ hs' hb
      · exact hconf _ _ hs' hb
      · exact hput _ _ _ hs' hb
      · exact hs'
  | busEngine =>
    rcases busAgent_next h with ⟨_, rfl⟩ | ⟨w, i, hw, hi, h⟩ | ⟨w, e, hw, hi, rfl⟩
    · exact hs'
    · exact hexec i _ _ (decode_port hi) hs' (by intro h0; simp [BusEngine.word?, h0] at hw) h
    · exact hill _ hs' (by intro h0; simp [BusEngine.word?, h0] at hw)
  | framer =>
    rcases framerAgent_next h with ⟨_, rfl⟩ | h | h | rfl
    · exact hs'
    · rw [(execReadPacket_frame h).1]; exact hs'
    · rw [(execWritePacket_frame h).1]; exact hs'
    · exact hs'
  | responder =>
    rcases responderAgent_next h with rfl | rfl | ⟨_, ⟨runs, rfl⟩ | rfl | rfl | rfl | rfl⟩ <;> exact hs'
  | tick => cases h; exact hs'
  | reset => cases h; exact hreset

/-- A property of the Packet Framer that its own steps, the responder's, the window's writes and reset keep is kept by
every step. -/
theorem step_keeps_framer (P : Framer → Prop)
    (hreset : P .reset)
    (hill : ∀ f, P f → P (f.finish .illegalCmd none none))
    (hread : ∀ s t, P s.pf → execReadPacket s = .next t → P t.pf)
    (hwrite : ∀ s t, P s.pf → execWritePacket s = .next t → P t.pf)
    (hstart : ∀ f n w, P f → f.pos = .idle → P (f.startCommand n w))
    (hcall : ∀ f n w d, P f → f.pos = .idle → P (f.call n w d))
    (hdl : ∀ f d, P f → P { f with deadline := d })
    (hst : ∀ f d, P f → P { f with strict := d })
    (hz : ∀ f, P f → P { f with buf := Memory.zeros 254 })
    (hput : ∀ f i bs, P f → P (f.putBytes i bs))
    {s t : State} (h : step s = .next t) (hs : P s.pf) : P t.pf := by
  obtain ⟨hp, h⟩ := step_next h
  have hs' : P s.nextTurn.2.pf := by simpa using hs
  generalize s.nextTurn.2 = s' at h hs'
  generalize s.nextTurn.1 = a at h
  have idle : ∀ f : Framer, f.busy = false → f.pos = .idle := by
    intro f; unfold Framer.busy; split <;> simp_all
  cases a with
  | host a =>
    cases a with
    | read a n => have := hostRead_next h; rw [this]; exact hs'
    | write a n v =>
      obtain ⟨o, _, _, h⟩ := hostWrite_next h
      rcases windowWrite_next h with rfl | rfl | rfl | ⟨hb, b, rfl, rfl | rfl | ⟨i, rfl⟩⟩ | ⟨hq, hb, f, rfl, rfl | rfl | ⟨i, rfl⟩⟩
      · exact hs'
      · exact hs'
      · exact hst _ _ hs'
      · exact hs'
      · exact hs'
      · exact hs'
      · exact hstart _ _ _ hs' (idle _ hb)
      · exact hdl _ _ hs'
      · exact hput _ _ _ hs'
  | busEngine =>
    rcases busAgent_next h with ⟨_, rfl⟩ | ⟨w, i, hw, hi, h⟩ | ⟨w, e, hw, hi, rfl⟩
    · exact hs'
    · rw [exec_bus_next (decode_port hi) h]; exact hs'
    · exact hs'
  | framer =>
    rcases framerAgent_next h with ⟨_, rfl⟩ | h | h | rfl
    · exact hs'
    · exact hread _ _ hs' h
    · exact hwrite _ _ hs' h
    · exact hill _ hs'
  | responder =>
    rcases responderAgent_next h with rfl | rfl | ⟨hidle, ⟨runs, rfl⟩ | rfl | rfl | rfl | rfl⟩
    · exact hs'
    · exact hs'
    · have : ∀ (runs : List (Nat × List Byte)) (f : Framer), P f → P { f with buf := runs.foldl (fun m r => m.putBytes Config.pfBufBytes r.1 r.2) f.buf } := by
        intro runs
        induction runs with
        | nil => intro f hf; exact hf
        | cons r runs ih => intro f hf; exact ih (f.putBytes r.1 r.2) (hput _ _ _ hf)
      exact this runs _ hs'
    · exact hz _ hs'
    · exact hcall _ _ _ _ hs' hidle
    · exact hput _ _ _ hs'
    · exact hcall _ _ _ _ hs' hidle
  | tick => cases h; exact hs'
  | reset => cases h; exact hreset

end Sys2Proof.Machine
end

