-- ==== Sys2Proof/Laws/Packets.lean ====
section
/-! SUPPORT. A packet in a buffer: what is read of it and what its checksum is (spec/42_framer.md R245, R249). -/

namespace Sys2Proof.Machine

/-- The checksum of a packet that stands in the buffer, whatever its checksum field holds (R245). -/
theorem pktChecksum_of_packetIn {fn : ChecksumFn} {m : Memory} {strict : Bool} {p : List Byte} (hp : PacketIn m strict p)
    (hl : 4 ≤ p.length) : pktChecksum fn m p.length = some (checksumOf fn (withoutChecksum p)) := by
  obtain ⟨b0, b1, b2, b3, r, rfl⟩ : ∃ b0 b1 b2 b3 r, p = b0 :: b1 :: b2 :: b3 :: r := by
    match p, hl with
    | b0 :: b1 :: b2 :: b3 :: r, _ => exact ⟨b0, b1, b2, b3, r, rfl⟩
  have h0 : m.readBytes 0 2 = some [b0, b1] := by
    rw [Memory.readBytes_eq_some]
    refine ⟨rfl, fun j hj => ?_⟩
    have := hp j (by simp; omega) (fun _ => by omega)
    interval_cases j <;> simpa using this
  have h4 : m.readBytes 4 ((b0 :: b1 :: b2 :: b3 :: r).length - 4) = some r := by
    rw [Memory.readBytes_eq_some]
    refine ⟨by simp, fun j hj => ?_⟩
    have := hp (4 + j) (by simp at hj ⊢; omega) (fun _ => by omega)
    rw [this, show 4 + j = j + 1 + 1 + 1 + 1 by omega]
    simp
  rw [pktChecksum, h0, h4]
  simp [withoutChecksum]

/-- A packet read whole stands in the buffer. -/
theorem packetIn_of_readBytes {m : Memory} {p : List Byte} (strict : Bool) (h : m.readBytes 0 p.length = some p) :
    PacketIn m strict p := by
  rw [Memory.readBytes_eq_some] at h
  exact fun a ha _ => by simpa using h.2 a ha

end Sys2Proof.Machine
end

