-- ==== Sys2Proof/Laws/PerInstr.lean ====
section
/-! SUPPORT. One lemma per instruction: its word, under the mask of its row of spec/opcode_table.json, is the row's match
value (spec/30_encoding.md R103, R113, R117). -/

namespace Sys2Proof.Laws.TableRow

/-- Mask and match value of an instruction's row of the opcode table. -/
def maskMatch : Instr → Word × Word
  | .init => (0xFFFFFFFF, 0x00000001)
  | .start => (0xFFFFFFFF, 0x00000002)
  | .stop => (0xFFFFFFFF, 0x00000003)
  | .writeBit _ => (0xFFFFFFEF, 0x00000004)
  | .readBit => (0xFFFFFFFF, 0x00000005)
  | .writeByte _ => (0xFFFF00FF, 0x00000006)
  | .readByte _ => (0xFFFFFFEF, 0x00000007)
  | .regWrite _ _ _ => (0x008000FF, 0x00000008)
  | .regRead _ _ _ => (0x008000FF, 0x00000009)
  | .readPacket => (0xFFFFFFFF, 0x00000001)
  | .writePacket => (0xFFFFFFFF, 0x00000002)
  | .pktAck _ _ => (0x0000FF00, 0x00000000)
  | .pktNak _ _ => (0x0000FF00, 0x00000100)
  | .pktReset _ _ => (0x0000FF00, 0x00000200)
  | .pktId _ _ => (0x0000FF00, 0x00000300)
  | .pktWriteReg _ _ => (0x0000FF00, 0x00000400)
  | .pktReadReg _ _ => (0x0000FF00, 0x00000500)
  | .pktEcho _ _ => (0x0000FF00, 0x00000600)
  | .pktSsn _ _ => (0x0000FF00, 0x00000700)
  | .pktUid _ _ => (0x0000FF00, 0x00000800)
  | .pktOpt _ _ => (0x0000FF00, 0x00000900)
  | .pktIsn _ _ => (0x0000FF00, 0x00000A00)
  | .pktDiag _ _ => (0x0000FF00, 0x00000B00)

/-- The instruction's word has the fixed bits of its row. -/
def Statement (i : Instr) : Prop := encode i &&& (maskMatch i).1 = (maskMatch i).2

/-- A header word under the mask of the type byte. -/
theorem header_mask (len typ : Byte) (csum : Half) (m : Word) (h : headerWord 0 typ 0 = m) :
    headerWord len typ csum &&& 0x0000FF00 = m := by
  subst h
  refine BitVec.eq_of_getLsbD_eq fun j hj => ?_
  rw [BitVec.getLsbD_and, headerWord_getLsbD, headerWord_getLsbD]
  interval_cases j <;> simp

theorem init : Statement .init := rfl
theorem start : Statement .start := rfl
theorem stop : Statement .stop := rfl
theorem writeBit (b : Bool) : Statement (.writeBit b) := by
  cases b <;> rfl
theorem readBit : Statement .readBit := rfl
theorem writeByte (d : Byte) : Statement (.writeByte d) := by
  refine BitVec.eq_of_getLsbD_eq fun j hj => ?_
  rw [BitVec.getLsbD_and, encode, busWord_getLsbD, maskMatch]
  interval_cases j <;> simp
theorem readByte (k : Bool) : Statement (.readByte k) := by
  cases k <;> rfl
theorem regWrite (dev : BitVec 7) (reg n : Byte) : Statement (.regWrite dev reg n) := by
  refine BitVec.eq_of_getLsbD_eq fun j hj => ?_
  rw [BitVec.getLsbD_and, encode, busWord_getLsbD, maskMatch]
  interval_cases j <;> simp
theorem regRead (dev : BitVec 7) (reg n : Byte) : Statement (.regRead dev reg n) := by
  refine BitVec.eq_of_getLsbD_eq fun j hj => ?_
  rw [BitVec.getLsbD_and, encode, busWord_getLsbD, maskMatch]
  interval_cases j <;> simp
theorem readPacket : Statement .readPacket := rfl
theorem writePacket : Statement .writePacket := rfl
theorem pktAck (len : Byte) (csum : Half) : Statement (.pktAck len csum) := header_mask _ _ _ _ rfl
theorem pktNak (len : Byte) (csum : Half) : Statement (.pktNak len csum) := header_mask _ _ _ _ rfl
theorem pktReset (len : Byte) (csum : Half) : Statement (.pktReset len csum) := header_mask _ _ _ _ rfl
theorem pktId (len : Byte) (csum : Half) : Statement (.pktId len csum) := header_mask _ _ _ _ rfl
theorem pktWriteReg (len : Byte) (csum : Half) : Statement (.pktWriteReg len csum) := header_mask _ _ _ _ rfl
theorem pktReadReg (len : Byte) (csum : Half) : Statement (.pktReadReg len csum) := header_mask _ _ _ _ rfl
theorem pktEcho (len : Byte) (csum : Half) : Statement (.pktEcho len csum) := header_mask _ _ _ _ rfl
theorem pktSsn (len : Byte) (csum : Half) : Statement (.pktSsn len csum) := header_mask _ _ _ _ rfl
theorem pktUid (len : Byte) (csum : Half) : Statement (.pktUid len csum) := header_mask _ _ _ _ rfl
theorem pktOpt (len : Byte) (csum : Half) : Statement (.pktOpt len csum) := header_mask _ _ _ _ rfl
theorem pktIsn (len : Byte) (csum : Half) : Statement (.pktIsn len csum) := header_mask _ _ _ _ rfl
theorem pktDiag (len : Byte) (csum : Half) : Statement (.pktDiag len csum) := header_mask _ _ _ _ rfl

end Sys2Proof.Laws.TableRow
end

