-- ==== Sys2Proof/Laws/Responder.lean ====
section
/-! SUPPORT. What the responder's replies leave in `PFBUF`, byte by byte (spec/43_responder.md R282). -/

namespace Sys2Proof.Machine

/-- `reply(t, p)` writes bytes 0 and 1 only. -/
theorem Framer.read_reply (f : Framer) (t : Byte) (p a : Nat) :
    (f.reply t p).buf.read a =
      if a = 0 then some (BitVec.ofNat 8 (4 + p)) else if a = 1 then some t else f.buf.read a := by
  simp only [Framer.reply, Framer.putBytes, Memory.putBytes, Memory.read_put]
  split_ifs <;> simp_all

/-- A payload of at most 250 bytes written from byte 4 up. -/
theorem Framer.read_payload (f : Framer) (p : List Byte) (a : Nat) (hp : p.length ≤ Config.maxPayload) :
    (f.putBytes 4 p).buf.read a = if 4 ≤ a ∧ a < 4 + p.length then p[a - 4]? else f.buf.read a := by
  simp only [Framer.putBytes, Memory.read_putBytes, Config.pfBufBytes]
  simp only [Config.maxPayload] at hp
  split_ifs <;> first | rfl | omega

end Sys2Proof.Machine
end

