-- ==== Sys2Proof/Laws/Runs.lean ====
section
/-! SUPPORT. Runs of the Bus Engine's bit and byte primitives with no clock stretching: the state after a whole bit, a
whole byte, a start and a stop. -/

namespace Sys2Proof.Machine

/-- The environments of `n` successive steps, from step `o`. -/
def envsFrom (envs : Nat → Env) (o n : Nat) : List Env := (List.range' o n).map envs

theorem envsFrom_add (envs : Nat → Env) (o m n : Nat) :
    envsFrom envs o (m + n) = envsFrom envs o m ++ envsFrom envs (o + m) n := by
  simp [envsFrom, ← List.range'_append_1]

theorem envsFrom_range (envs : Nat → Env) (n : Nat) : envsFrom envs 0 n = (List.range n).map envs := by
  simp [envsFrom, List.range_eq_range']

theorem envsFrom_six (envs : Nat → Env) (o : Nat) :
    envsFrom envs o 6 = [envs o, envs (o + 1), envs (o + 2), envs (o + 3), envs (o + 4), envs (o + 5)] := rfl

/-- One step of a command at a line operation. -/
theorem runCommand_line {i : Instr} {pub : Publish} (hi : RunsWith i pub) {s : State} {w : Word} {op : BusOp}
    {r : List BusOp} (e : Env) (es : List Env) (hpos : s.be.pos = .running w (op :: r)) (hop : ∀ i n, op ≠ .sendLoop i n) :
    runCommand i (e :: es) s = runCommand i es { s with env := e, be := lineStep pub e (op :: r) s.be } := by
  have h := hi { s with env := e } w (op :: r) hpos
  rw [sequencerStep_plain pub op r _ hop] at h
  simp only [runCommand, h]

/-- The same step, read off the fields of the state, as a rewriting rule. -/
theorem runCommand_fields {i : Instr} {pub : Publish} (hi : RunsWith i pub) {op : BusOp} (hop : ∀ i n, op ≠ .sendLoop i n)
    {r : List BusOp} {w : Word} {e env : Env} {es : List Env} {par pf now cr tr rdata script turns}
    {opened needRecov sclOut sdaOut arb code rxBit rxByte pulses xcnt arbAbort stretchBound stretchLimit buf priv} :
    runCommand i (e :: es)
        ⟨par, ⟨opened, needRecov, sclOut, sdaOut, arb, code, rxBit, rxByte, pulses, xcnt, arbAbort, stretchBound,
          stretchLimit, buf, .running w (op :: r), priv⟩, pf, now, cr, tr, rdata, env, script, turns⟩ =
      runCommand i es
        ⟨par, lineStep pub e (op :: r) ⟨opened, needRecov, sclOut, sdaOut, arb, code, rxBit, rxByte, pulses, xcnt,
          arbAbort, stretchBound, stretchLimit, buf, .running w (op :: r), priv⟩, pf, now, cr, tr, rdata, e, script,
          turns⟩ :=
  runCommand_line hi e es rfl hop

/-- The operations recorded in the position do not matter to `settle`, as a rewriting rule. -/
theorem settle_pos_fields (pub : Publish) (r : List BusOp) {op : BusOp} {x : List BusOp} {w : Word}
    {opened needRecov sclOut sdaOut arb code rxBit rxByte pulses xcnt arbAbort stretchBound stretchLimit buf priv} :
    settle pub r ⟨opened, needRecov, sclOut, sdaOut, arb, code, rxBit, rxByte, pulses, xcnt, arbAbort, stretchBound,
        stretchLimit, buf, .running w (op :: x), priv⟩ =
      settle pub r ⟨opened, needRecov, sclOut, sdaOut, arb, code, rxBit, rxByte, pulses, xcnt, arbAbort, stretchBound,
        stretchLimit, buf, .running w [], priv⟩ :=
  settle_pos pub r ⟨opened, needRecov, sclOut, sdaOut, arb, code, rxBit, rxByte, pulses, xcnt, arbAbort, stretchBound,
    stretchLimit, buf, .idle, priv⟩ w (op :: x) []

/-- The state after a whole written bit (spec/40_bus_primitives.md R156). -/
theorem run_writeBit {i : Instr} {pub : Publish} (hi : RunsWith i pub) {s : State} {w : Word} {r : List BusOp} (v : Bool)
    (envs : Nat → Env) (o : Nat) (es : List Env) (hpos : s.be.pos = .running w (writeBitOps v ++ r))
    (hscl : ∀ k, o ≤ k → k < o + 6 → (envs k).scl = true)
    (harb : s.be.arbAbort = false ∨ v = false ∨ (envs (o + 3)).sda = true) :
    runCommand i (envsFrom envs o 6 ++ es) s =
      runCommand i es
        { s with
          env := envs (o + 5)
          be := settle pub r
            { s.be with
              pos := .running w [], sdaOut := v, sclOut := false
              arb := s.be.arb || (v && !(envs (o + 3)).sda) } } := by
  have h2 := hscl (o + 2) (by omega) (by omega)
  have h3 := hscl (o + 3) (by omega) (by omega)
  obtain ⟨par, be, pf, now, cr, tr, rdata, env, script, turns⟩ := s
  obtain ⟨opened, needRecov, sclOut, sdaOut, arb, code, rxBit, rxByte, pulses, xcnt, arbAbort, stretchBound,
    stretchLimit, buf, pos, priv⟩ := be
  simp only at hpos harb
  subst hpos
  cases v
  · simp [envsFrom_six, writeBitOps, loOps, raiseScl, runCommand_fields hi, lineStep, settle, settle_pos_fields pub r,
      BusEngine.withTodo, waitStep, BusEngine.sample, BusEngine.release, BusEngine.driveLow, h3]
  · cases hs : (envs (o + 3)).sda
    · obtain rfl : arbAbort = false := by simpa [hs] using harb
      simp [envsFrom_six, writeBitOps, loOps, raiseScl, runCommand_fields hi, lineStep, settle, arbLost,
        settle_pos_fields pub r, BusEngine.withTodo, waitStep, BusEngine.sample, BusEngine.release,
        BusEngine.driveLow, h2, hs]
    · simp [envsFrom_six, writeBitOps, loOps, raiseScl, runCommand_fields hi, lineStep, settle,
        settle_pos_fields pub r, BusEngine.withTodo, waitStep, BusEngine.sample, BusEngine.release,
        BusEngine.driveLow, h2, hs]

/-- The state after a whole read bit (R159). -/
theorem run_readBit {i : Instr} {pub : Publish} (hi : RunsWith i pub) {s : State} {w : Word} {r : List BusOp}
    (envs : Nat → Env) (o : Nat) (es : List Env) (hpos : s.be.pos = .running w (readBitOps ++ r))
    (hscl : ∀ k, o ≤ k → k < o + 6 → (envs k).scl = true) :
    runCommand i (envsFrom envs o 6 ++ es) s =
      runCommand i es
        { s with
          env := envs (o + 5)
          be := settle pub r
            { s.be with
              pos := .running w [], sdaOut := true, sclOut := false
              priv := { s.be.priv with bit := (envs (o + 3)).sda } } } := by
  have h2 := hscl (o + 2) (by omega) (by omega)
  obtain ⟨par, be, pf, now, cr, tr, rdata, env, script, turns⟩ := s
  obtain ⟨opened, needRecov, sclOut, sdaOut, arb, code, rxBit, rxByte, pulses, xcnt, arbAbort, stretchBound,
    stretchLimit, buf, pos, priv⟩ := be
  simp only at hpos
  subst hpos
  simp [envsFrom_six, readBitOps, loOps, raiseScl, runCommand_fields hi, lineStep, settle, settle_pos_fields pub r,
    BusEngine.withTodo, waitStep, BusEngine.sample, BusEngine.release, BusEngine.driveLow, h2]

/-- An operation that takes a step of its own stops `settle`. -/
def BusOp.takesStep : BusOp → Bool
  | .release _ | .sample _ | .driveLow _ | .waitScl _ | .startCheck | .arbCheck | .readBit | .initScl _ | .initSda _ _ => true
  | .sendLoop _ _ | .startTest | .shiftIn | .setOpen _ | .ackTest _ | .storeByte _ | .readLoop _ _
  | .finish _ | .reject _ | .abortEnd _ => false

theorem settle_line (pub : Publish) {op : BusOp} (r : List BusOp) (b : BusEngine) (h : op.takesStep = true) :
    settle pub (op :: r) b = b.withTodo (op :: r) := by
  cases op <;> first | rfl | simp [BusOp.takesStep] at h

theorem settle_writeBit (pub : Publish) (v : Bool) (r : List BusOp) (b : BusEngine) :
    settle pub (writeBitOps v ++ r) b = b.withTodo (writeBitOps v ++ r) := by
  cases v <;> exact settle_line pub _ b rfl

theorem settle_readBit (pub : Publish) (r : List BusOp) (b : BusEngine) :
    settle pub (readBitOps ++ r) b = b.withTodo (readBitOps ++ r) := settle_line pub _ b rfl

/-- Whether an arbitration check of the written bits finds SDA low, the first bit's steps beginning at step `o`. -/
def bitsLost (envs : Nat → Env) : Nat → List Bool → Bool
  | _, [] => false
  | o, v :: vs => (v && !(envs (o + 3)).sda) || bitsLost envs (o + 6) vs

/-- The state after a run of written bits, followed by a read bit: a whole byte with its acknowledge bit. -/
theorem run_bits {i : Instr} {pub : Publish} (hi : RunsWith i pub) (vs : List Bool) {s : State} {w : Word}
    {r : List BusOp} (envs : Nat → Env) (o : Nat) (es : List Env)
    (hpos : s.be.pos = .running w (vs.flatMap writeBitOps ++ readBitOps ++ r))
    (hscl : ∀ k, o ≤ k → k < o + 6 * vs.length + 6 → (envs k).scl = true)
    (harb : s.be.arbAbort = false ∨ bitsLost envs o vs = false) :
    runCommand i (envsFrom envs o (6 * vs.length + 6) ++ es) s =
      runCommand i es
        { s with
          env := envs (o + 6 * vs.length + 5)
          be := settle pub r
            { s.be with
              pos := .running w [], sdaOut := true, sclOut := false
              arb := s.be.arb || bitsLost envs o vs
              priv := { s.be.priv with bit := (envs (o + 6 * vs.length + 3)).sda } } } := by
  induction vs generalizing s o with
  | nil =>
    simp only [List.flatMap_nil, List.nil_append] at hpos
    simpa [bitsLost] using run_readBit hi envs o es hpos (by simpa using hscl)
  | cons v vs ih =>
    simp only [List.length_cons] at hscl
    rw [show 6 * (v :: vs).length + 6 = 6 + (6 * vs.length + 6) by simp only [List.length_cons]; omega, envsFrom_add,
      List.append_assoc]
    rw [run_writeBit hi v envs o _ (by rw [hpos, List.flatMap_cons, List.append_assoc, List.append_assoc])
      (fun k h1 h2 => hscl k h1 (by omega))
      (by
        rcases harb with h | h
        · exact .inl h
        · cases v <;> simp_all [bitsLost])]
    have hset : ∀ b : BusEngine, settle pub (vs.flatMap writeBitOps ++ (readBitOps ++ r)) b
        = b.withTodo (vs.flatMap writeBitOps ++ readBitOps ++ r) := by
      intro b
      cases vs with
      | nil => exact settle_readBit pub r b
      | cons v' vs' => rw [List.flatMap_cons, List.append_assoc, settle_writeBit]; simp
    rw [hset]
    rw [ih (o + 6) (by rfl) (fun k h1 h2 => hscl k (by omega) (by omega))
      (by
        rcases harb with h | h
        · exact .inl h
        · simp only [bitsLost, Bool.or_eq_false_iff] at h; exact .inr h.2)]
    rw [show o + 6 + 6 * vs.length + 5 = o + 6 * (v :: vs).length + 5 by simp only [List.length_cons]; omega,
      show o + 6 + 6 * vs.length + 3 = o + 6 * (v :: vs).length + 3 by simp only [List.length_cons]; omega]
    simp [BusEngine.withTodo, bitsLost, Bool.or_assoc]

/-- The state after a whole written byte (R162). -/
theorem run_writeByte {i : Instr} {pub : Publish} (hi : RunsWith i pub) (d : Byte) {s : State} {w : Word}
    {r : List BusOp} (envs : Nat → Env) (o : Nat) (es : List Env)
    (hpos : s.be.pos = .running w (writeByteOps d ++ r))
    (hscl : ∀ k, o ≤ k → k < o + 54 → (envs k).scl = true)
    (harb : s.be.arbAbort = false ∨ bitsLost envs o (bitsMsbFirst d) = false) :
    runCommand i (envsFrom envs o 54 ++ es) s =
      runCommand i es
        { s with
          env := envs (o + 53)
          be := settle pub r
            { s.be with
              pos := .running w [], sdaOut := true, sclOut := false
              arb := s.be.arb || bitsLost envs o (bitsMsbFirst d)
              priv := { s.be.priv with bit := (envs (o + 51)).sda } } } :=
  run_bits hi (bitsMsbFirst d) envs o es hpos hscl harb

/-- The private byte after `m` bits received from step `o` on. -/
def receivedFrom (envs : Nat → Env) : Nat → Nat → Byte → Byte
  | _, 0, v => v
  | o, m + 1, v => receivedFrom envs (o + 6) m (shiftBit v (envs (o + 3)).sda)

/-- The private bit after `m` bits received from step `o` on. -/
def lastReceived (envs : Nat → Env) : Nat → Nat → Bool → Bool
  | _, 0, v => v
  | o, m + 1, _ => lastReceived envs (o + 6) m (envs (o + 3)).sda

/-- The state after `m` received bits and the acknowledge bit `k` sent after them (R165). -/
theorem run_received {i : Instr} {pub : Publish} (hi : RunsWith i pub) (m : Nat) (k : Bool) {s : State} {w : Word}
    {r : List BusOp} (envs : Nat → Env) (o : Nat) (es : List Env)
    (hpos : s.be.pos = .running w ((List.replicate m (readBitOps ++ [.shiftIn])).flatten ++ writeBitOps k ++ r))
    (hscl : ∀ j, o ≤ j → j < o + 6 * m + 6 → (envs j).scl = true)
    (harb : s.be.arbAbort = false ∨ k = false ∨ (envs (o + 6 * m + 3)).sda = true) :
    runCommand i (envsFrom envs o (6 * m + 6) ++ es) s =
      runCommand i es
        { s with
          env := envs (o + 6 * m + 5)
          be := settle pub r
            { s.be with
              pos := .running w [], sdaOut := k, sclOut := false
              arb := s.be.arb || (k && !(envs (o + 6 * m + 3)).sda)
              priv := { s.be.priv with
                byte := receivedFrom envs o m s.be.priv.byte
                bit := lastReceived envs o m s.be.priv.bit } } } := by
  induction m generalizing s o with
  | zero =>
    simp only [List.replicate_zero, List.flatten_nil, List.nil_append] at hpos
    simpa [receivedFrom, lastReceived] using run_writeBit hi k envs o es hpos (by simpa using hscl) (by simpa using harb)
  | succ m ih =>
    rw [show 6 * (m + 1) + 6 = 6 + (6 * m + 6) by omega, envsFrom_add, List.append_assoc]
    rw [run_readBit hi envs o _ (by
        rw [hpos, List.replicate_succ, List.flatten_cons, List.append_assoc, List.append_assoc, List.append_assoc])
      (fun k h1 h2 => hscl k h1 (by omega))]
    have hset : ∀ b : BusEngine,
        settle pub ([.shiftIn] ++ ((List.replicate m (readBitOps ++ [BusOp.shiftIn])).flatten ++ (writeBitOps k ++ r))) b
        = { b with priv := { b.priv with byte := shiftBit b.priv.byte b.priv.bit } }.withTodo
            ((List.replicate m (readBitOps ++ [BusOp.shiftIn])).flatten ++ writeBitOps k ++ r) := by
      intro b
      simp only [List.singleton_append, settle]
      cases m with
      | zero => simpa using settle_writeBit pub k r _
      | succ m =>
        rw [List.replicate_succ, List.flatten_cons, List.append_assoc, List.append_assoc, settle_readBit]
        simp
    rw [hset]
    rw [ih (o + 6) (by rfl) (fun k h1 h2 => hscl k (by omega) (by omega))
      (by
        rw [show o + 6 + 6 * m + 3 = o + 6 * (m + 1) + 3 by omega]
        exact harb)]
    rw [show o + 6 + 6 * m + 5 = o + 6 * (m + 1) + 5 by omega, show o + 6 + 6 * m + 3 = o + 6 * (m + 1) + 3 by omega]
    simp [BusEngine.withTodo, receivedFrom, lastReceived]

/-- The state after a whole received byte (R165). -/
theorem run_readByte {i : Instr} {pub : Publish} (hi : RunsWith i pub) (k : Bool) {s : State} {w : Word}
    {r : List BusOp} (envs : Nat → Env) (o : Nat) (es : List Env)
    (hpos : s.be.pos = .running w (readByteOps k ++ r))
    (hscl : ∀ j, o ≤ j → j < o + 54 → (envs j).scl = true)
    (harb : s.be.arbAbort = false ∨ k = false ∨ (envs (o + 51)).sda = true) :
    runCommand i (envsFrom envs o 54 ++ es) s =
      runCommand i es
        { s with
          env := envs (o + 53)
          be := settle pub r
            { s.be with
              pos := .running w [], sdaOut := k, sclOut := false
              arb := s.be.arb || (k && !(envs (o + 51)).sda)
              priv := { s.be.priv with
                byte := receivedFrom envs o 8 s.be.priv.byte
                bit := lastReceived envs o 8 s.be.priv.bit } } } :=
  run_received hi 8 k envs o es hpos hscl harb

/-- Where every sample of SDA reads high, no written bit is lost. -/
theorem bitsLost_eq_false {envs : Nat → Env} {o : Nat} {vs : List Bool}
    (h : ∀ b, b < vs.length → (envs (o + 6 * b + 3)).sda = true) : bitsLost envs o vs = false := by
  induction vs generalizing o with
  | nil => rfl
  | cons v vs ih =>
    have h0 := h 0 (by simp)
    simp only [Nat.mul_zero, Nat.add_zero] at h0
    simp only [bitsLost, h0, Bool.not_true, Bool.and_false, Bool.false_or]
    exact ih fun b hb => by
      have := h (b + 1) (by simpa using hb)
      rwa [show o + 6 * (b + 1) + 3 = o + 6 + 6 * b + 3 by omega] at this

/-! ### Start and stop -/

/-- The state after a start (R150): 4 steps, or 7 for a repeated start. -/
theorem run_start {i : Instr} {pub : Publish} (hi : RunsWith i pub) (rep : Bool) {s : State} {w : Word} {r : List BusOp}
    (envs : Nat → Env) (o : Nat) (es : List Env) (hpos : s.be.pos = .running w (startOps rep ++ r))
    (hscl : rep = true → (envs (o + 2)).scl = true)
    (harb : s.be.arbAbort = false ∨
      ((rep || s.be.sdaOut) && (envs (if rep then o + 3 else o)).sda) = true) :
    runCommand i (envsFrom envs o (if rep then 7 else 4) ++ es) s =
      runCommand i es
        { s with
          env := envs (if rep then o + 6 else o + 3)
          be := settle pub r
            { s.be with
              pos := .running w [], opened := true, sdaOut := false, sclOut := false
              arb := s.be.arb || !((rep || s.be.sdaOut) && (envs (if rep then o + 3 else o)).sda) } } := by
  obtain ⟨par, be, pf, now, cr, tr, rdata, env, script, turns⟩ := s
  obtain ⟨opened, needRecov, sclOut, sdaOut, arb, code, rxBit, rxByte, pulses, xcnt, arbAbort, stretchBound,
    stretchLimit, buf, pos, priv⟩ := be
  simp only at hpos harb
  subst hpos
  cases rep
  · have e4 : envsFrom envs o 4 = [envs o, envs (o + 1), envs (o + 2), envs (o + 3)] := rfl
    cases hs : (sdaOut && (envs o).sda)
    · obtain rfl : arbAbort = false := by simpa [hs] using harb
      simp [e4, startOps, loOps, runCommand_fields hi, lineStep, settle, settle_pos_fields pub r, arbLost,
        BusEngine.withTodo, BusEngine.sample, BusEngine.driveLow, hs]
    · simp [e4, startOps, loOps, runCommand_fields hi, lineStep, settle, settle_pos_fields pub r,
        BusEngine.withTodo, BusEngine.sample, BusEngine.driveLow, hs]
  · have e7 : envsFrom envs o 7 =
      [envs o, envs (o + 1), envs (o + 2), envs (o + 3), envs (o + 4), envs (o + 5), envs (o + 6)] := rfl
    have h2 := hscl rfl
    cases hs : (envs (o + 3)).sda
    · obtain rfl : arbAbort = false := by simpa [hs] using harb
      simp [e7, startOps, raiseScl, loOps, runCommand_fields hi, lineStep, settle, settle_pos_fields pub r, arbLost,
        waitStep, BusEngine.withTodo, BusEngine.sample, BusEngine.driveLow, BusEngine.release, hs, h2]
    · simp [e7, startOps, raiseScl, loOps, runCommand_fields hi, lineStep, settle, settle_pos_fields pub r,
        waitStep, BusEngine.withTodo, BusEngine.sample, BusEngine.driveLow, BusEngine.release, hs, h2]

/-- The state after a stop (R153). -/
theorem run_stop {i : Instr} {pub : Publish} (hi : RunsWith i pub) {s : State} {w : Word} {r : List BusOp}
    (envs : Nat → Env) (o : Nat) (es : List Env) (hpos : s.be.pos = .running w (stopOps ++ r))
    (hscl : (envs (o + 3)).scl = true) (harb : s.be.arbAbort = false ∨ (envs (o + 5)).sda = true) :
    runCommand i (envsFrom envs o 6 ++ es) s =
      runCommand i es
        { s with
          env := envs (o + 5)
          be := settle pub r
            { s.be with
              pos := .running w [], opened := false, sdaOut := true, sclOut := true
              arb := s.be.arb || !(envs (o + 5)).sda } } := by
  obtain ⟨par, be, pf, now, cr, tr, rdata, env, script, turns⟩ := s
  obtain ⟨opened, needRecov, sclOut, sdaOut, arb, code, rxBit, rxByte, pulses, xcnt, arbAbort, stretchBound,
    stretchLimit, buf, pos, priv⟩ := be
  simp only at hpos harb
  subst hpos
  cases hs : (envs (o + 5)).sda
  · obtain rfl : arbAbort = false := by simpa [hs] using harb
    simp [envsFrom_six, stopOps, raiseScl, loOps, runCommand_fields hi, lineStep, settle, settle_pos_fields pub r,
      arbLost, waitStep, BusEngine.withTodo, BusEngine.sample, BusEngine.driveLow, BusEngine.release, hs, hscl]
  · simp [envsFrom_six, stopOps, raiseScl, loOps, runCommand_fields hi, lineStep, settle, settle_pos_fields pub r,
      waitStep, BusEngine.withTodo, BusEngine.sample, BusEngine.driveLow, BusEngine.release, hs, hscl]

/-! ### Bytes of a composite command -/

/-- `settle` on an addressing or data byte: its first bit waits. -/
theorem settle_send (pub : Publish) (d : Byte) (err : BusCode) (r : List BusOp) (b : BusEngine) :
    settle pub (sendOps d err ++ r) b = b.withTodo (sendOps d err ++ r) := by
  have h : sendOps d err ++ r = writeBitOps (d.getLsbD 7) ++
      (([6, 5, 4, 3, 2, 1, 0].map d.getLsbD).flatMap writeBitOps ++ readBitOps ++ [.ackTest err] ++ r) := by
    simp [sendOps, writeByteOps, bitsMsbFirst]
  rw [h]
  exact settle_writeBit pub _ _ b

/-- The state after an acknowledged byte of an addressing or data phase (spec/41_bus_composite.md R197). -/
theorem run_send_ack {i : Instr} {pub : Publish} (hi : RunsWith i pub) (d : Byte) (err : BusCode) {s : State} {w : Word}
    {r : List BusOp} (envs : Nat → Env) (o : Nat) (es : List Env) (hpos : s.be.pos = .running w (sendOps d err ++ r))
    (hscl : ∀ k, o ≤ k → k < o + 54 → (envs k).scl = true)
    (harb : s.be.arbAbort = false ∨ bitsLost envs o (bitsMsbFirst d) = false) (hack : (envs (o + 51)).sda = false) :
    runCommand i (envsFrom envs o 54 ++ es) s =
      runCommand i es
        { s with
          env := envs (o + 53)
          be := settle pub r
            { s.be with
              pos := .running w [], sdaOut := true, sclOut := false
              arb := s.be.arb || bitsLost envs o (bitsMsbFirst d)
              priv := { s.be.priv with bit := false, xcnt := s.be.priv.xcnt + 1 } } } := by
  rw [run_writeByte hi d (w := w) envs o es (r := .ackTest err :: r) (by rw [hpos]; simp [sendOps]) hscl harb]
  simp [settle, hack]

/-- The state after a byte that is not acknowledged: the stop is next (R197). -/
theorem run_send_nak {i : Instr} {pub : Publish} (hi : RunsWith i pub) (d : Byte) (err : BusCode) {s : State} {w : Word}
    {r : List BusOp} (envs : Nat → Env) (o : Nat) (es : List Env) (hpos : s.be.pos = .running w (sendOps d err ++ r))
    (hscl : ∀ k, o ≤ k → k < o + 54 → (envs k).scl = true)
    (harb : s.be.arbAbort = false ∨ bitsLost envs o (bitsMsbFirst d) = false) (hack : (envs (o + 51)).sda = true) :
    runCommand i (envsFrom envs o 54 ++ es) s =
      runCommand i es
        { s with
          env := envs (o + 53)
          be :=
            { s.be with
              pos := .running w (stopOps ++ [.finish err]), sdaOut := true, sclOut := false
              arb := s.be.arb || bitsLost envs o (bitsMsbFirst d)
              priv := { s.be.priv with bit := true } } } := by
  rw [run_writeByte hi d (w := w) envs o es (r := .ackTest err :: r) (by rw [hpos]; simp [sendOps]) hscl harb]
  simp [settle, hack, BusEngine.withTodo]

/-- A line operation's effect does not depend on the operations recorded in the position. -/
theorem lineStep_pos (pub : Publish) (e : Env) (ops : List BusOp) (b : BusEngine) (w : Word) (x y : List BusOp) :
    lineStep pub e ops { b with pos := .running w x } = lineStep pub e ops { b with pos := .running w y } := by
  cases ops with
  | nil => exact settle_pos pub [] b w x y
  | cons op r =>
    cases op <;> first | exact settle_pos pub _ _ w x y | skip
    · next l => cases l <;> [exact settle_pos pub _ (b.release .scl) w x y; exact settle_pos pub _ (b.release .sda) w x y]
    · next l => cases l <;> [exact settle_pos pub _ (b.driveLow .scl) w x y; exact settle_pos pub _ (b.driveLow .sda) w x y]
    · next n =>
      have h := settle_pos pub r b w x y
      simp only [lineStep, waitStep, BusEngine.sample, BusEngine.stretchMax, BusEngine.withTodo, h]
      rfl
    · have h := settle_pos pub r b w x y
      have h' := settle_pos pub r { b with arb := true } w x y
      simp only [lineStep, arbLost, BusEngine.sample, BusEngine.withTodo, h] at h' ⊢
      rw [h']
      rfl
    · have h := settle_pos pub r b w x y
      have h' := settle_pos pub r { b with arb := true } w x y
      simp only [lineStep, arbLost, BusEngine.sample, BusEngine.withTodo, h] at h' ⊢
      rw [h']
      rfl
    · exact settle_pos pub _ { b with priv := { b.priv with bit := b.sample e .sda } } w x y
    · rfl
    · cases pub <;> simp only [lineStep, initTest, BusEngine.sample, BusEngine.withTodo, BusEngine.finish, BusEngine.publish] <;>
        rfl

/-- A byte to send begins with a line operation. -/
theorem sendOps_head (d : Byte) (err : BusCode) :
    ∃ op rest, sendOps d err = op :: rest ∧ ∀ i n, op ≠ BusOp.sendLoop i n := by
  have h : sendOps d err = writeBitOps (d.getLsbD 7) ++
      (([6, 5, 4, 3, 2, 1, 0].map d.getLsbD).flatMap writeBitOps ++ readBitOps ++ [.ackTest err]) := by
    simp [sendOps, writeByteOps, bitsMsbFirst]
  rw [h]
  cases d.getLsbD 7
  · exact ⟨_, _, rfl, fun i n => by simp⟩
  · exact ⟨_, _, rfl, fun i n => by simp⟩

/-- REG_WRITE's loop with a byte to send runs as that byte followed by the rest of the loop (R198). -/
theorem run_sendLoop_enter {i : Instr} {pub : Publish} (hi : RunsWith i pub) {s : State} {w : Word} {j n : Nat}
    {d : Byte} {r : List BusOp} (e : Env) (es : List Env) (hpos : s.be.pos = .running w (.sendLoop j n :: r))
    (hj : j < n) (hd : s.be.buf.read j = some d) :
    runCommand i (e :: es) s =
      runCommand i (e :: es)
        { s with be := { s.be with pos := .running w (sendOps d .writeFail ++ .sendLoop (j + 1) n :: r) } } := by
  obtain ⟨op, rest, hop, hne⟩ := sendOps_head d .writeFail
  have h1 := hi { s with env := e } w _ hpos
  have h3 : sequencerStep pub (.sendLoop j n :: r) { s with env := e } =
      .next { s with
        env := e
        be := lineStep pub e (sendOps d .writeFail ++ .sendLoop (j + 1) n :: r) s.be } := by
    simp [sequencerStep, hj, hd]
  rw [h3, hop, List.cons_append] at h1
  rw [hop, List.cons_append, runCommand_line hi (s := { s with be := { s.be with pos := .running w (op :: (rest ++ .sendLoop (j + 1) n :: r)) } })
      (w := w) e es rfl hne]
  simp only [runCommand, h1]
  congr 2
  obtain ⟨par, be, pf, now, cr, tr, rdata, env, script, turns⟩ := s
  obtain ⟨opened, needRecov, sclOut, sdaOut, arb, code, rxBit, rxByte, pulses, xcnt, arbAbort, stretchBound,
    stretchLimit, buf, pos, priv⟩ := be
  simp only at hpos
  subst hpos
  exact lineStep_pos pub e _ ⟨opened, needRecov, sclOut, sdaOut, arb, code, rxBit, rxByte, pulses, xcnt, arbAbort,
    stretchBound, stretchLimit, buf, .idle, priv⟩ w _ _

/-- REG_WRITE's loop over `m` acknowledged bytes (R198, R200). -/
theorem run_sendLoop {i : Instr} {pub : Publish} (hi : RunsWith i pub) (m : Nat) {s : State} {b : BusEngine} {w : Word}
    {j : Nat} {r : List BusOp} (data : Nat → Byte) (envs : Nat → Env) (o : Nat) (es : List Env)
    (hbe : s.be = settle pub (.sendLoop j (j + m) :: r) b) (hb : b.pos = .running w []) (hsda : b.sdaOut = true)
    (hscl : b.sclOut = false) (hbit : b.priv.bit = false) (henv : s.env = envs (o - 1)) (ho : 0 < o)
    (hdata : ∀ k, k < m → b.buf.read (j + k) = some (data k))
    (hfree : ∀ k, o ≤ k → k < o + 54 * m → (envs k).scl = true)
    (hpeer : ∀ k, k < m → ∀ t, t < 51 → (envs (o + 54 * k + t)).sda = true)
    (hack : ∀ k, k < m → (envs (o + 54 * k + 51)).sda = false) :
    runCommand i (envsFrom envs o (54 * m) ++ es) s =
      runCommand i es
        { s with
          env := envs (o + 54 * m - 1)
          be := settle pub r { b with priv := { b.priv with xcnt := b.priv.xcnt + BitVec.ofNat 16 m } } } := by
  induction m generalizing s b j o data with
  | zero =>
    obtain ⟨par, be, pf, now, cr, tr, rdata, env, script, turns⟩ := s
    simp only at hbe henv
    subst hbe henv
    simp [envsFrom, settle]
  | succ m ih =>
    have hlt : j < j + (m + 1) := by omega
    have hbe' : s.be = { b with pos := .running w (.sendLoop j (j + (m + 1)) :: r) } := by
      rw [hbe]
      simp only [settle, if_pos hlt, BusEngine.withTodo, hb]
    have hd : s.be.buf.read j = some (data 0) := by rw [hbe']; exact hdata 0 (by omega)
    rw [show 54 * (m + 1) = 54 + 54 * m by omega, envsFrom_add, List.append_assoc]
    rw [show envsFrom envs o 54 = envs o :: envsFrom envs (o + 1) 53 from rfl, List.cons_append,
      run_sendLoop_enter hi (d := data 0) (envs o) _ (by rw [hbe']) hlt hd, ← List.cons_append,
      show envs o :: envsFrom envs (o + 1) 53 = envsFrom envs o 54 from rfl]
    have hlost : bitsLost envs o (bitsMsbFirst (data 0)) = false := by
      refine bitsLost_eq_false fun t ht => ?_
      have := hpeer 0 (by omega) (6 * t + 3) (by simp only [bitsMsbFirst, List.length_map, List.length_cons, List.length_nil] at ht; omega)
      rwa [show o + 54 * 0 + (6 * t + 3) = o + 6 * t + 3 by omega] at this
    rw [run_send_ack hi (data 0) .writeFail (w := w) envs o _ rfl (fun k h1 h2 => hfree k h1 (by omega)) (.inr hlost)
      (by simpa using hack 0 (by omega))]
    have hnext := ih (s := { s with
        env := envs (o + 53)
        be := settle pub (.sendLoop (j + 1) (j + 1 + m) :: r) { b with priv := { b.priv with xcnt := b.priv.xcnt + 1 } } })
      (b := { b with priv := { b.priv with xcnt := b.priv.xcnt + 1 } }) (j := j + 1) (fun k => data (k + 1)) (o + 54)
      rfl hb hsda hscl hbit (by simp) (by omega)
      (fun k hk => by have := hdata (k + 1) (by omega); rwa [show j + (k + 1) = j + 1 + k by omega] at this)
      (fun k h1 h2 => hfree k (by omega) (by omega))
      (fun k hk t ht => by
        have := hpeer (k + 1) (by omega) t ht
        rwa [show o + 54 * (k + 1) + t = o + 54 + 54 * k + t by omega] at this)
      (fun k hk => by
        have := hack (k + 1) (by omega)
        rwa [show o + 54 * (k + 1) + 51 = o + 54 + 54 * k + 51 by omega] at this)
    rw [show o + 54 + 54 * m - 1 = o + (54 + 54 * m) - 1 by omega] at hnext
    have e1 : (1 : Half) + BitVec.ofNat 16 m = BitVec.ofNat 16 (m + 1) := by
      rw [BitVec.ofNat_add]; exact BitVec.add_comm _ _
    simp only [hbe', hlost, Bool.or_false]
    rw [show j + (m + 1) = j + 1 + m by omega]
    simp only [BitVec.add_assoc, e1] at hnext
    rw [← hnext]
    congr 2
    simp [hb, hsda, hscl, hbit]

/-- Eight bits taken from the wire in the order of a byte's bits, most significant first, are that byte (R165). -/
theorem receivedFrom_eq {envs : Nat → Env} {o : Nat} (d v : Byte)
    (h : ∀ b, b < 8 → (envs (o + 6 * b + 3)).sda = d.getLsbD (7 - b)) : receivedFrom envs o 8 v = d := by
  have h0 := h 0 (by omega)
  have h1 := h 1 (by omega)
  have h2 := h 2 (by omega)
  have h3 := h 3 (by omega)
  have h4 := h 4 (by omega)
  have h5 := h 5 (by omega)
  have h6 := h 6 (by omega)
  have h7 := h 7 (by omega)
  simp only [receivedFrom]
  simp only [Nat.mul_zero, Nat.mul_one, Nat.reduceMul, Nat.add_zero, Nat.add_assoc, Nat.reduceAdd, Nat.reduceSub,
    Nat.sub_zero] at *
  rw [h0, h1, h2, h3, h4, h5, h6, h7]
  apply BitVec.eq_of_getLsbD_eq
  intro i hi
  have : i = 0 ∨ i = 1 ∨ i = 2 ∨ i = 3 ∨ i = 4 ∨ i = 5 ∨ i = 6 ∨ i = 7 := by omega
  rcases this with rfl | rfl | rfl | rfl | rfl | rfl | rfl | rfl <;> simp [shiftBit]

theorem settle_readByte (pub : Publish) (k : Bool) (r : List BusOp) (b : BusEngine) :
    settle pub (readByteOps k ++ r) b = b.withTodo (readByteOps k ++ r) := by
  have h : readByteOps k ++ r = readBitOps ++
      (.shiftIn :: (List.replicate 7 (readBitOps ++ [.shiftIn])).flatten ++ writeBitOps k ++ r) := by
    simp [readByteOps, List.replicate_succ]
  rw [h]
  exact settle_readBit pub _ b

/-- REG_READ's loop over `m` bytes (spec/41_bus_composite.md R203, R206): they land in `BEBUF` in order. The private bit
and byte left behind do not matter. -/
theorem run_readLoop {i : Instr} {pub : Publish} (hi : RunsWith i pub) (m : Nat) {s : State} {b : BusEngine} {w : Word}
    {j : Nat} {r : List BusOp} (data : Nat → Byte) (envs : Nat → Env) (o : Nat) (es : List Env)
    (hbe : s.be = settle pub (.readLoop j (j + (m + 1)) :: r) b) (hb : b.pos = .running w [])
    (hscl : b.sclOut = false) (ho : 0 < o)
    (hfree : ∀ k, o ≤ k → k < o + 54 * (m + 1) → (envs k).scl = true)
    (hpeer : ∀ k, k < m + 1 → ∀ t, t < 8 → (envs (o + 54 * k + 6 * t + 3)).sda = (data k).getLsbD (7 - t))
    (hlast : (envs (o + 54 * m + 51)).sda = true) :
    ∃ bit byte, runCommand i (envsFrom envs o (54 * (m + 1)) ++ es) s =
      runCommand i es
        { s with
          env := envs (o + 54 * (m + 1) - 1)
          be := settle pub r
            { b with
              sdaOut := true
              buf := b.buf.putBytes Config.beBufBytes j ((List.range (m + 1)).map data)
              priv := { b.priv with bit := bit, byte := byte, xcnt := b.priv.xcnt + BitVec.ofNat 16 (m + 1) } } } := by
  induction m generalizing s b j o data with
  | zero =>
    have hbe' : s.be = { b with
        pos := .running w (readByteOps true ++ ([.storeByte j, .readLoop (j + 1) (j + 1)] ++ r))
        priv := { b.priv with byte := 0 } } := by
      rw [hbe]
      simp [settle, BusEngine.withTodo, hb]
    refine ⟨lastReceived envs o 8 b.priv.bit, data 0, ?_⟩
    have hr := run_readByte hi true (s := s) (w := w) (r := [.storeByte j, .readLoop (j + 1) (j + 1)] ++ r) envs o es
      (by rw [hbe']) (fun k h1 h2 => hfree k h1 (by omega)) (.inr (.inr (by simpa using hlast)))
    rw [show 54 * (0 + 1) = 54 from rfl, hr, hbe']
    rw [receivedFrom_eq (data 0) _ (fun t ht => by simpa using hpeer 0 (by omega) t ht)]
    have hl : (envs (o + 51)).sda = true := by simpa using hlast
    rw [show o + 54 - 1 = o + 53 by omega]
    simp [settle, hl, BusEngine.putByte, Memory.putBytes, hb, hscl, Config.beBufBytes]
  | succ m ih =>
    have hbe' : s.be = { b with
        pos := .running w (readByteOps false ++ ([.storeByte j, .readLoop (j + 1) (j + 1 + (m + 1))] ++ r))
        priv := { b.priv with byte := 0 } } := by
      rw [hbe]
      have hk : (j + 1 == j + (m + 1 + 1)) = false := by simp
      rw [show j + 1 + (m + 1) = j + (m + 1 + 1) by omega]
      simp only [settle, hk, BusEngine.withTodo, hb, List.append_assoc]
      rw [if_pos (by omega)]
    rw [show 54 * (m + 1 + 1) = 54 + 54 * (m + 1) by omega, envsFrom_add, List.append_assoc]
    rw [run_readByte hi false (s := s) (w := w) (r := [.storeByte j, .readLoop (j + 1) (j + 1 + (m + 1))] ++ r) envs o _
      (by rw [hbe']) (fun k h1 h2 => hfree k h1 (by omega)) (.inr (.inl rfl))]
    obtain ⟨bit, byte, h⟩ := ih
      (s := { s with
        env := envs (o + 53)
        be := settle pub (.readLoop (j + 1) (j + 1 + (m + 1)) :: r)
          { b with
            sdaOut := false
            buf := b.buf.put Config.beBufBytes j (data 0)
            priv := { b.priv with bit := lastReceived envs o 8 b.priv.bit, byte := data 0, xcnt := b.priv.xcnt + 1 } } })
      (b := { b with
            sdaOut := false
            buf := b.buf.put Config.beBufBytes j (data 0)
            priv := { b.priv with bit := lastReceived envs o 8 b.priv.bit, byte := data 0, xcnt := b.priv.xcnt + 1 } })
      (j := j + 1) (fun k => data (k + 1)) (o + 54) rfl hb hscl (by omega)
      (fun k h1 h2 => hfree k (by omega) (by omega))
      (fun k hk t ht => by
        have := hpeer (k + 1) (by omega) t ht
        rwa [show o + 54 * (k + 1) + 6 * t + 3 = o + 54 + 54 * k + 6 * t + 3 by omega] at this)
      (by rwa [show o + 54 * (m + 1) + 51 = o + 54 + 54 * m + 51 by omega] at hlast)
    refine ⟨bit, byte, ?_⟩
    rw [show o + 54 + 54 * (m + 1) - 1 = o + (54 + 54 * (m + 1)) - 1 by omega] at h
    have e1 : (1 : Half) + BitVec.ofNat 16 (m + 1) = BitVec.ofNat 16 (m + 1 + 1) := by
      rw [BitVec.ofNat_add (m + 1)]; exact BitVec.add_comm _ _
    have e2 : (List.range (m + 1 + 1)).map data = data 0 :: (List.range (m + 1)).map fun k => data (k + 1) := by
      rw [List.range_succ_eq_map, List.map_cons, List.map_map]; rfl
    rw [e2, Memory.putBytes]
    simp only [BitVec.add_assoc, e1] at h
    rw [← h, hbe', receivedFrom_eq (data 0) _ (fun t ht => by simpa using hpeer 0 (by omega) t ht)]
    congr 2
    simp [hb, hscl, settle, BusEngine.putByte]

/-! ### The beginning of a command -/

/-- A command that was just latched begins and takes its first line operation in one step (R190). -/
theorem runCommand_begin {i : Instr} {pub : Publish} {isInit : Bool} {ops todo : List BusOp} {w v : Word}
    (hi : RunsWith i pub) (hx : ∀ s, exec i s = busTurn w pub isInit ops s) {s : State} (e : Env) (es : List Env)
    (hpos : s.be.pos = .latched v) (hn : (s.be.needRecov && !isInit) = false)
    (hb : (s.be.begin w pub ops).pos = .running w todo) :
    runCommand i (e :: es) s = runCommand i (e :: es) { s with be := s.be.begin w pub ops } := by
  have h1 : exec i { s with env := e } = sequencerStep pub todo { s with env := e, be := s.be.begin w pub ops } := by
    rw [hx]
    simp [busTurn, hpos, hn, hb]
  have h2 := hi { s with env := e, be := s.be.begin w pub ops } w todo hb
  simp only [runCommand, h1, h2]

end Sys2Proof.Machine
end

