-- ==== Sys2Proof/WellFormed.lean ====
section
/-! DEFINITION. Well-formed instructions. Every value of every free field of a command word is legal
(spec/30_encoding.md R110), so the command words need no check; a packet's length must be legal (R116). -/

namespace Sys2Proof

/-- The length field of a packet; a command word has none. -/
def Instr.packetLength? : Instr → Option Byte
  | .init | .start | .stop | .writeBit _ | .readBit | .writeByte _ | .readByte _
  | .regWrite _ _ _ | .regRead _ _ _ | .readPacket | .writePacket => none
  | .pktAck len _ | .pktNak len _ | .pktReset len _ | .pktId len _ | .pktWriteReg len _
  | .pktReadReg len _ | .pktEcho len _ | .pktSsn len _ | .pktUid len _ | .pktOpt len _
  | .pktIsn len _ | .pktDiag len _ => some len

/-- "A length is legal when 4 <= length <= 254" (R116). -/
def legalLength (len : Byte) : Bool :=
  Config.hdrBytes ≤ len.toNat && len.toNat ≤ Config.maxLen

/-- Well-formedness: a packet's length field is legal. -/
def Instr.wellFormed (i : Instr) : Bool :=
  match i.packetLength? with
  | some len => legalLength len
  | none => true

end Sys2Proof
end

