-- ==== Sys2Proof/Tests/Slice0.lean ====
section
/-! SUPPORT. Tests of the model: words of the spec's encodings, well-formedness, single steps, and for every statement with
hypotheses a named state and operands that meet them. Expected results are the spec's (the rule is named at each). -/

namespace Sys2Proof.Tests
open Sys2Proof.Machine

/-! ### Decoding: words written from the fields of R101, R113 and R115 -/

theorem test_decode_init : decode .busCmd 0b00000000000000000000000000000001 = .ok (.init) := by rfl
theorem test_decode_start : decode .busCmd 0b00000000000000000000000000000010 = .ok (.start) := by rfl
theorem test_decode_stop : decode .busCmd 0b00000000000000000000000000000011 = .ok (.stop) := by rfl
theorem test_decode_writeBit_1 : decode .busCmd 0b00000000000000000000000000010100 = .ok (.writeBit true) := by rfl
theorem test_decode_writeBit_0 : decode .busCmd 0b00000000000000000000000000000100 = .ok (.writeBit false) := by rfl
theorem test_decode_readBit : decode .busCmd 0b00000000000000000000000000000101 = .ok (.readBit) := by rfl
theorem test_decode_writeByte : decode .busCmd 0b00000000000000001010000000000110 = .ok (.writeByte 0xA0) := by rfl
theorem test_decode_readByte_nak : decode .busCmd 0b00000000000000000000000000010111 = .ok (.readByte true) := by rfl
theorem test_decode_readByte_ack : decode .busCmd 0b00000000000000000000000000000111 = .ok (.readByte false) := by rfl
theorem test_decode_regWrite : decode .busCmd 0b00000001010100000001000000001000 = .ok (.regWrite 0x50 0x10 1) := by rfl
theorem test_decode_regRead : decode .busCmd 0b00000010010100000001000000001001 = .ok (.regRead 0x50 0x10 2) := by rfl
theorem test_decode_readPacket : decode .framerCmd 0b00000000000000000000000000000001 = .ok (.readPacket) := by rfl
theorem test_decode_writePacket : decode .framerCmd 0b00000000000000000000000000000010 = .ok (.writePacket) := by rfl
theorem test_decode_pktAck : decode .packet 0b00000111100011110000000000000100 = .ok (.pktAck 4 0x078F) := by rfl
theorem test_decode_pktNak : decode .packet 0b00000111100011110000000100000101 = .ok (.pktNak 5 0x078F) := by rfl
theorem test_decode_pktReset : decode .packet 0b00000111100011110000001000000100 = .ok (.pktReset 4 0x078F) := by rfl
theorem test_decode_pktId : decode .packet 0b00000111100011110000001100000100 = .ok (.pktId 4 0x078F) := by rfl
theorem test_decode_pktWriteReg : decode .packet 0b00000111100011110000010000001000 = .ok (.pktWriteReg 8 0x078F) := by rfl
theorem test_decode_pktReadReg : decode .packet 0b00000111100011110000010100000100 = .ok (.pktReadReg 4 0x078F) := by rfl
theorem test_decode_pktEcho : decode .packet 0b00000111100011110000011000000110 = .ok (.pktEcho 6 0x078F) := by rfl
theorem test_decode_pktSsn : decode .packet 0b00000111100011110000011100000100 = .ok (.pktSsn 4 0x078F) := by rfl
theorem test_decode_pktUid : decode .packet 0b00000111100011110000100000000100 = .ok (.pktUid 4 0x078F) := by rfl
theorem test_decode_pktOpt : decode .packet 0b00000111100011110000100111111110 = .ok (.pktOpt 254 0x078F) := by rfl
theorem test_decode_pktIsn : decode .packet 0b00000111100011110000101000000100 = .ok (.pktIsn 4 0x078F) := by rfl
theorem test_decode_pktDiag : decode .packet 0b00000111100011110000101100001100 = .ok (.pktDiag 12 0x078F) := by rfl

/-! Words refused by name: operation 0 and 10 (R102), a reserved bit (R103), `PF_CMD` 0 and 3 (R114), type 12 (R117). -/

theorem test_refuse_op_0 : decode .busCmd 0x00000000 = .error .reservedOp := by rfl
theorem test_refuse_op_10 : decode .busCmd 0x0000000A = .error .reservedOp := by rfl
theorem test_refuse_reserved_bit_23 : decode .busCmd 0x00800008 = .error .reservedBits := by rfl
theorem test_refuse_start_with_data : decode .busCmd 0x00000102 = .error .reservedBits := by rfl
theorem test_refuse_framer_0 : decode .framerCmd 0x00000000 = .error .illegalFramerWord := by rfl
theorem test_refuse_framer_3 : decode .framerCmd 0x00000003 = .error .illegalFramerWord := by rfl
theorem test_refuse_type_12 : decode .packet 0x00000C04 = .error .undefinedType := by rfl

/-- Every row of the table reached through a bare number (assumption log 10). -/
theorem test_tableWord : decodeTableWord 32 0x02501009 = some (.regRead 0x50 0x10 2) ∧
    decodeTableWord 32 0x00000304 = some (.pktId 4 0) ∧ decodeTableWord 32 0xFFFFFFFF = none := by decide

/-! ### Well-formedness (R116): the only check is a packet's length -/

theorem test_illFormed_length_3 : (Instr.pktEcho 3 0).wellFormed = false := by rfl
theorem test_illFormed_length_0 : (Instr.pktId 0 0).wellFormed = false := by rfl
theorem test_illFormed_length_255 : (Instr.pktEcho 255 0).wellFormed = false := by rfl
theorem test_wellFormed_length_4 : (Instr.pktEcho 4 0).wellFormed = true := by rfl
theorem test_wellFormed_length_254 : (Instr.pktEcho 254 0).wellFormed = true := by rfl
theorem test_wellFormed_command : (Instr.regRead 0x7F 0xFF 0).wellFormed = true := by rfl

/-! ### Small states -/

/-- Peers that hold nothing low, and no other answer. -/
def quiet : Env := idleEnv
/-- Peers that hold both lines low. -/
def held : Env := { idleEnv with scl := false, sda := false }
/-- Peers that hold SDA low. -/
def sdaLow : Env := { idleEnv with sda := false }
/-- A state with acceptable parameters. -/
def base : State := State.resetOf Config.defaultParams
/-- The Bus Engine with command `i` latched. -/
def onBus (i : Instr) : State := { base with be := base.be.startCommand (encode i) }
/-- The same with a transaction open and both lines driven low. -/
def inside (i : Instr) : State :=
  { base with be := { base.be with
      opened := true, sclOut := false, sdaOut := false, arbAbort := true, pos := .latched (encode i) } }
/-- The Bus Engine on command `i` with the operations `todo` to do. -/
def midBus (i : Instr) (todo : List BusOp) : State :=
  { base with be := { base.be with pos := .running (encode i) todo } }
/-- No deadline, compatible mode. -/
def open_ : Latch := { t0 := 0, d := 0, strict := false }
/-- A deadline of one tick, latched one tick before `NOW = 1`, strict mode. -/
def late : Latch := { t0 := 0, d := 1, strict := true }
/-- The Packet Framer with command `i` latched, `rx` in the transport and `p` in the buffer. -/
def onFramer (i : Instr) (l : Latch) (rx p : List Byte) : State :=
  { base with
    pf := { base.pf.putBytes 0 p with pos := .latched (encode i) l }
    tr := { base.tr with rx := rx } }
/-- The responder present, `p` received and about to be dispatched. -/
def received (p : List Byte) : State :=
  { base with
    par := { base.par with responderPresent := true }
    pf := { base.pf.putBytes 0 p with count := BitVec.ofNat 8 p.length }
    cr := .cycle .gotRead }
/-- What a next state holds. -/
def after {α : Type} (o : Host.Outcome State Fault Refusal) (f : State → α) : Option α :=
  match o with
  | .next t => some (f t)
  | .fault _ | .refused _ => none

/-! ### One step of each instruction -/

/-- R192: INIT closes the transaction and releases SDA first. -/
theorem test_init_first : after (exec .init (inside .init)) (fun t => (t.be.opened, t.be.sdaOut, t.be.sclOut)) =
    some (false, true, false) := by rfl
/-- R192: both lines high at the sample after pulse 4 end it with OK and `PULSES = 4`. -/
theorem test_init_ends : after (exec .init (midBus .init [.initSda 4 true])) (fun t => (t.be.code, t.be.pulses)) =
    some (.ok, 4) := by rfl
/-- R150: a low SDA at START's check is recorded, and with `ARB_ABORT = 0` the start goes on. -/
theorem test_start_contention : after (exec .start { onBus .start with env := sdaLow }) (fun t => (t.be.arb, t.be.busy)) =
    some (true, true) := by rfl
/-- R150: START's last step drives SCL low and opens the transaction. -/
theorem test_start_ends : after (exec .start (midBus .start [.driveLow .scl, .setOpen true, .finish .ok]))
    (fun t => (t.be.opened, t.be.sclOut, t.be.busy)) = some (true, false, false) := by rfl
/-- R153: STOP's last step is its check, after which `OPEN = 0`. -/
theorem test_stop_ends : after (exec .stop (midBus .stop [.arbCheck, .setOpen false, .finish .ok]))
    (fun t => (t.be.opened, t.be.code, t.be.arb)) = some (false, .ok, false) := by rfl
/-- R153: STOP's first step reads SDA and changes no line. -/
theorem test_stop_first : after (exec .stop (inside .stop)) (fun t => (t.be.sclOut, t.be.sdaOut)) =
    some (false, false) := by rfl
/-- R156: a 1 is written by releasing SDA. -/
theorem test_writeBit_1 : after (exec (.writeBit true) (inside (.writeBit true))) (fun t => t.be.sdaOut) = some true := by
  rfl
/-- R156: a 0 is written by driving SDA low. -/
theorem test_writeBit_0 : after (exec (.writeBit false)
    (midBus (.writeBit false) ([.driveLow .sda] ++ raiseScl ++ loOps .scl ++ [.finish .ok]))) (fun t => t.be.sdaOut) =
    some false := by rfl
/-- R159: `RXBIT` is published in the last step. -/
theorem test_readBit_ends : after (exec .readBit { midBus .readBit [.driveLow .scl, .finish .ok] with
      be := { (midBus .readBit [.driveLow .scl, .finish .ok]).be with priv := { bit := true } } })
    (fun t => (t.be.rxBit, t.be.sclOut)) = some (true, false) := by rfl
/-- R146: with a bound of 2 the second low sample of SCL starts the abort. -/
theorem test_readBit_stretch : after (exec .readBit { midBus .readBit [.waitScl 1, .readBit] with
      env := held, be := { (midBus .readBit [.waitScl 1, .readBit]).be with stretchBound := true, stretchLimit := 2 } })
    (fun t => t.be.pos) = some (.running 5 (abortOps .stretchTimeout)) := by rfl
/-- R162: bit 7 of 0xA0 is 1, so SDA is released first. -/
theorem test_writeByte_first : after (exec (.writeByte 0xA0) (inside (.writeByte 0xA0))) (fun t => t.be.sdaOut) =
    some true := by rfl
/-- R162: bit 7 of 0x50 is 0, so SDA is read before it is driven low. -/
theorem test_writeByte_first_0 : after (exec (.writeByte 0x50) { inside (.writeByte 0x50) with env := quiet })
    (fun t => t.be.sdaOut) = some false := by rfl
/-- R165: the first bit received goes to bit 7: after it the byte is still to be shifted seven times. -/
theorem test_readByte_shift : after (exec (.readByte true) { midBus (.readByte true) [.driveLow .scl, .shiftIn, .release .sda]
      with be := { (midBus (.readByte true) [.driveLow .scl, .shiftIn, .release .sda]).be with
        priv := { bit := true, byte := 0x2D } } })
    (fun t => t.be.priv.byte) = some 0x5B := by rfl
/-- R165: `RXBYTE` is published in the last step, `RXBIT` not. -/
theorem test_readByte_ends : after (exec (.readByte true) { midBus (.readByte true) [.driveLow .scl, .finish .ok] with
      be := { (midBus (.readByte true) [.driveLow .scl, .finish .ok]).be with priv := { bit := true, byte := 0x5A } } })
    (fun t => (t.be.rxByte, t.be.rxBit)) = some (0x5A, false) := by rfl
/-- R197: a NAK of the address byte leads to the stop and no further phase. -/
theorem test_regWrite_nak : after (exec (.regWrite 0x50 0x10 1) { midBus (.regWrite 0x50 0x10 1)
      [.driveLow .scl, .ackTest .addrNak, .release .sda] with
        be := { (midBus (.regWrite 0x50 0x10 1) [.driveLow .scl, .ackTest .addrNak, .release .sda]).be with
          priv := { bit := true } } })
    (fun t => t.be.pos) = some (.running 0x01501008 (stopOps ++ [.finish .addrNak])) := by rfl
/-- R42: the data byte it reaches holds no value. -/
theorem test_regWrite_unwritten :
    exec (.regWrite 0x50 0x10 1) (midBus (.regWrite 0x50 0x10 1) [.sendLoop 0 1]) = .fault .unwrittenRead := by rfl
/-- R203: no byte to read is ARG_ERROR, in one step. -/
theorem test_regRead_none : after (exec (.regRead 0x50 0x10 0) (onBus (.regRead 0x50 0x10 0)))
    (fun t => (t.be.code, t.be.busy)) = some (.argError, false) := by rfl
/-- R203: the first byte received is stored in `BEBUF[0]` and counted. -/
theorem test_regRead_store : after (exec (.regRead 0x50 0x10 1) { midBus (.regRead 0x50 0x10 1)
      [.driveLow .scl, .storeByte 0, .sample .sda] with
        be := { (midBus (.regRead 0x50 0x10 1) [.driveLow .scl, .storeByte 0, .sample .sda]).be with
          priv := { byte := 0x5A, xcnt := 3 } } })
    (fun t => (t.be.buf, t.be.priv.xcnt)) = some ([(0, 0x5A)], 4) := by rfl
/-- spec/95_test_vectors.md RP12: the next packet is not consumed. -/
theorem test_readPacket_RP12 : after (exec .readPacket
      { onFramer .readPacket open_ [0x04, 0, 0, 0, 0x06, 0x06, 0, 0, 0x41, 0x42] [] with env := { quiet with count := 4 } })
    (fun t => (t.pf.result, t.pf.count, t.tr.rx)) = some (.ok, 4, [0x06, 0x06, 0, 0, 0x41, 0x42]) := by rfl
/-- RP11: strict mode, `04 00 04 10`, `CALC = 0x1004`. -/
theorem test_readPacket_RP11 : after (exec .readPacket
      { onFramer .readPacket { open_ with strict := true } [0x04, 0, 0x04, 0x10] [] with env := { quiet with count := 4 } })
    (fun t => (t.pf.result, t.pf.count, t.pf.checksum)) = some (.ok, 4, 0x1004) := by decide +kernel
/-- WP1: strict mode, `06 00 00 00 41 42` goes out as `06 00 89 E8 41 42`. -/
theorem test_writePacket_WP1 : after (exec .writePacket
      { onFramer .writePacket { open_ with strict := true } [] [0x06, 0, 0, 0, 0x41, 0x42] with
        env := { quiet with count := 6 } })
    (fun t => (t.pf.result, t.pf.checksum, t.tr.tx)) = some (.ok, 0xE889, [0x06, 0, 0x89, 0xE8, 0x41, 0x42]) := by
  decide +kernel
/-- WP4's end: the deadline has passed after three bytes. -/
theorem test_writePacket_partial : after (exec .writePacket { onFramer .writePacket open_ [] [] with
      now := 10, pf := { base.pf with pos := .running 2 { open_ with d := 10 } (.sending 6 3 none) } })
    (fun t => (t.pf.result, t.pf.count)) = some (.partialWrite, 3) := by rfl

/-- The length and type bytes of the reply to a packet. -/
def replyTo (i : Instr) (p : List Byte) (e : Env) : Option (Option Byte × Option Byte) :=
  after (exec i { received p with env := e }) fun t => (t.pf.buf.read 0, t.pf.buf.read 1)

/-! The examples of R284 to R293. -/

theorem test_pktAck : replyTo (.pktAck 4 0) [0x04, 0, 0, 0] quiet = some (some 4, some 0) := by rfl
theorem test_pktNak : replyTo (.pktNak 5 0) [0x05, 1, 0, 0, 0x99] quiet = some (some 4, some 0) := by rfl
theorem test_pktReset_done : replyTo (.pktReset 4 0) [0x04, 2, 0, 0] { quiet with resetOk := true } =
    some (some 4, some 0) := by rfl
theorem test_pktReset_failed : replyTo (.pktReset 4 0) [0x04, 2, 0, 0] quiet = some (some 4, some 1) := by rfl
theorem test_pktId : replyTo (.pktId 4 0) [0x04, 3, 0, 0] { quiet with identOk := true } = some (some 22, some 0) := by rfl
theorem test_pktId_none : replyTo (.pktId 4 0) [0x04, 3, 0, 0] quiet = some (some 4, some 1) := by rfl
theorem test_pktWriteReg : replyTo (.pktWriteReg 4 0) [0x04, 4, 0, 0] quiet = some (some 4, some 1) := by rfl
theorem test_pktReadReg : replyTo (.pktReadReg 4 0) [0x04, 5, 0, 0] quiet = some (some 4, some 1) := by rfl
theorem test_pktEcho : replyTo (.pktEcho 6 0) [0x06, 6, 0, 0, 0x41, 0x42] quiet = some (some 6, some 0) := by rfl
theorem test_pktSsn : after (exec (.pktSsn 4 0) { received [0x04, 7, 0, 0] with
      env := { quiet with uidOk := true, uid0 := 0x11223344, uid1 := 0x55667788, uid2 := 0x99AABBCC } })
    (fun t => t.pf.buf.readBytes 4 20) = some (some [0x03, 0, 0, 0, 0x44, 0x33, 0x22, 0x11, 0x88, 0x77, 0x66, 0x55, 0xCC,
      0xBB, 0xAA, 0x99, 0, 0, 0, 0]) := by decide +kernel
theorem test_pktUid : replyTo (.pktUid 4 0) [0x04, 8, 0, 0] { quiet with uidOk := true } = some (some 10, some 0) := by rfl
theorem test_pktOpt : replyTo (.pktOpt 4 0) [0x04, 9, 0, 0] quiet = some (some 4, some 1) := by rfl
theorem test_pktIsn : replyTo (.pktIsn 4 0) [0x04, 10, 0, 0] quiet = some (some 4, some 1) := by rfl
theorem test_pktDiag : replyTo (.pktDiag 4 0) [0x04, 11, 0, 0] quiet = some (some 4, some 1) := by rfl

/-- A word placed with `withFetchWord` is run by the next step: REG_READ of no byte ends at once (R203). -/
theorem test_withFetchWord : after (step (State.reset.withFetchWord 32 0x00501009)) (fun t => t.be.code) =
    some .argError := by rfl
/-- The same for a packet: ID, with no identity available, is answered with NAK (R289). -/
theorem test_withFetchWord_packet : after (step (State.reset.withFetchWord 32 0x00000304)) (fun t => t.pf.buf.read 1) =
    some (some 1) := by rfl

/-! ### Witnesses: for each statement with hypotheses, inputs that meet them all -/

/-- The transaction-open state that a repeated start needs, its checks passing. -/
def reopened (i : Instr) : State := { onBus i with be := { (onBus i).be with opened := true, arbAbort := true } }
/-- Data in `BEBUF[0]`. -/
def withData (s : State) : State := { s with be := s.be.putByte 0 0xAA }
/-- Peers that answer a fixed SDA level per step and leave SCL high. -/
def peers (sda : Nat → Bool) (k : Nat) : Env := { idleEnv with sda := sda k }
/-- Peers that hold SCL low for `n` samples. -/
def stretchers (n k : Nat) : Env := { idleEnv with scl := decide (n ≤ k) }
/-- A turn of agent `a` with quiet surroundings. -/
def turn (a : Agent) : Turn := ⟨a, quiet⟩

theorem witness_DecodeEncodeAgree : decode .packet 0x55550004 = .ok (.pktAck 4 0x5555) := by rfl
theorem witness_FramerWordAndPacketTypeDecoding : 12 ≤ (12 : Byte).toNat ∧ 12 ≤ (255 : Byte).toNat := by decide

theorem witness_StepRunsDecodedInstruction_bus :
    let s := { onBus (.writeByte 0xA0) with script := [turn .busEngine] }
    paramsOk s.par = true ∧ s.be.word? = some 0x0000A006 ∧ decode .busCmd 0x0000A006 = .ok (.writeByte 0xA0) :=
  ⟨rfl, rfl, rfl⟩
theorem witness_StepRunsDecodedInstruction_framer :
    let s := { onFramer .readPacket open_ [] [] with script := [turn .framer] }
    paramsOk s.par = true ∧ s.pf.word? = some 1 ∧ decode .framerCmd 1 = .ok .readPacket := ⟨rfl, rfl, rfl⟩
theorem witness_StepRunsDecodedInstruction_responder :
    let s := { received [0x04, 3, 0x55, 0x55] with script := [turn .responder] }
    paramsOk s.par = true ∧ s.par.responderPresent = true ∧ s.cr = .cycle .gotRead ∧ s.pf.pos = .idle ∧
      s.pf.result = .ok ∧ s.pf.header? = some 0x55550304 ∧ decode .packet 0x55550304 = .ok (.pktId 4 0x5555) :=
  ⟨rfl, rfl, rfl, rfl, rfl, rfl, rfl⟩

theorem witness_StepRunsDecodedInstruction_idle : base.be.pos = .idle ∧ base.pf.pos = .idle ∧
    paramsOk base.par = true ∧ base.script = [] ∧
    ({ base.par with uidWords := 5 } : Params).uidWords > 4 ∧ ¬({ base.par with blkBase := 8 } : Params).blkBase % 0x400 = 0 := by
  decide
theorem witness_IllegalWordsEndAtOnce_bus :
    let s : State := { base with be := { base.be with needRecov := true, pos := .latched 0x0A }, script := [turn .busEngine] }
    paramsOk s.par = true ∧ s.be.pos = .latched 0x0A ∧ decode .busCmd 0x0A = .error .reservedOp := ⟨rfl, rfl, rfl⟩
theorem witness_IllegalWordsEndAtOnce_framer :
    let s : State := { base with pf := { base.pf with pos := .latched 3 open_ }, script := [turn .framer] }
    paramsOk s.par = true ∧ s.pf.pos = .latched 3 open_ ∧ (3 : Word) ≠ 1 ∧ (3 : Word) ≠ 2 := ⟨rfl, rfl, by decide, by decide⟩

theorem witness_BusStepCompletes : (Instr.regWrite 0x50 0x10 1).port = .busCmd ∧
    DataReady (withData (midBus (.regWrite 0x50 0x10 1) [.sendLoop 0 1])).be := ⟨rfl, fun _ => by decide⟩
theorem witness_BusStepCompletes_buffer :
    NotStoredTo (midBus (.regRead 0x50 0x10 9) [.driveLow .scl, .storeByte 7, .readLoop 8 9]).be 8 ∧
      StoresOnlyInRegRead (midBus (.writeByte 0xA0) [.driveLow .scl, .finish .ok]).be ∧
      (midBus (.writeByte 0xA0) [.driveLow .scl, .finish .ok]).be.word? = some 0x0000A006 ∧
      decode .busCmd 0x0000A006 = .ok (.writeByte 0xA0) ∧
      ∀ dev reg n, Instr.writeByte 0xA0 ≠ .regRead dev reg n := by
  refine ⟨?_, fun h => absurd h (by decide), rfl, rfl, fun _ _ _ h => Instr.noConfusion h⟩
  show BusOp.storeByte 8 ∉ [BusOp.driveLow .scl, .storeByte 7, .readLoop 8 9]
  decide
theorem witness_BusResultsHeldWhileBusy : ∃ t, exec .start (onBus .start) = .next t ∧ t.be.busy = true := ⟨_, rfl, rfl⟩

theorem witness_StartOpensTransaction : Accepted .start (onBus .start) ∧ Unstretched (peers fun _ => false) 4 ∧
    (onBus .start).be.arbAbort = false := ⟨⟨rfl, rfl⟩, fun _ _ => rfl, rfl⟩
theorem witness_StartOpensTransaction_repeated : Accepted .start (reopened .start) ∧
    Unstretched (peers fun _ => true) (reopened .start).be.startSteps ∧ (peers (fun _ => true) 3).sda = true :=
  ⟨⟨rfl, rfl⟩, fun _ _ => rfl, rfl⟩
theorem witness_StartTraces : Accepted .start (reopened .start) ∧ (reopened .start).be.opened = true ∧
    Accepted .start (onBus .start) ∧ (onBus .start).be.opened = false ∧ (onBus .start).be.sdaOut = true ∧
    (peers (fun _ => true) 0).sda = true := ⟨⟨rfl, rfl⟩, rfl, ⟨rfl, rfl⟩, rfl, rfl, rfl⟩
theorem witness_StopClosesTransaction : Accepted .stop (inside .stop) ∧ Unstretched (peers (· == 5)) 6 ∧
    (peers (· == 5) 5).sda = true := ⟨⟨rfl, rfl⟩, fun _ _ => rfl, rfl⟩
theorem witness_WriteBitDrivesSda : Accepted (.writeBit true) (inside (.writeBit true)) ∧
    Unstretched (peers (· == 3)) 6 ∧ (peers (· == 3) 3).sda = true := ⟨⟨rfl, rfl⟩, fun _ _ => rfl, rfl⟩
theorem witness_ReadBitSamplesSda : Accepted .readBit (inside .readBit) ∧
    (∀ k, k < 3 → (stretchers 5 (2 + k)).scl = false) ∧ (stretchers 5 (2 + 3)).scl = true := by
  exact ⟨⟨rfl, rfl⟩, by decide, rfl⟩
theorem witness_ReadBitSamplesSda_inside :
    let i := Instr.regRead 0x50 0x10 1
    let s := { midBus i [.waitScl 1, .arbCheck] with
      be := { (midBus i [.waitScl 1, .arbCheck]).be with stretchBound := true, stretchLimit := 4 } }
    i.port = .busCmd ∧ s.be.pos = .running 0x01501009 [.waitScl 1, .arbCheck] ∧
      (∀ k, k < 2 → (s.be.sclOut && (stretchers 2 k).scl) = false) ∧ (s.be.sclOut && (stretchers 2 2).scl) = true ∧
      1 + 2 < max s.be.stretchLimit.toNat 1 := by
  exact ⟨rfl, rfl, by decide, rfl, by decide⟩
theorem witness_ReadBitSamplesSda_bound :
    let b := { (inside .readBit).be with stretchBound := true, stretchLimit := 0 }
    b.stretchBound = true ∧ 0 < max b.stretchLimit.toNat 1 := by decide
theorem witness_WriteByteSendsMsbFirst : Accepted (.writeByte 0xA0) (inside (.writeByte 0xA0)) ∧
    Unstretched (peers fun _ => true) 54 ∧
    ((List.range 8).any fun j => (0xA0 : Byte).getLsbD (7 - j) && !(peers (fun _ => true) (6 * j + 3)).sda) = false :=
  ⟨⟨rfl, rfl⟩, fun _ _ => rfl, by decide⟩
theorem witness_ReadByteAssemblesMsbFirst :
    let envs := peers fun k => decide (k = 51) || (0x5A : Byte).getLsbD (7 - k / 6)
    Accepted (.readByte true) (inside (.readByte true)) ∧ Unstretched envs 54 ∧
      (∀ j, j < 8 → (envs (6 * j + 3)).sda = (0x5A : Byte).getLsbD (7 - j)) ∧ (envs 51).sda = true :=
  ⟨⟨rfl, rfl⟩, fun _ _ => rfl, by decide, rfl⟩
theorem witness_BoundedStretchAborts :
    let b := { (midBus .readBit [.waitScl 1, .readBit]).be with stretchBound := true, stretchLimit := 3 }
    Instr.readBit.port = .busCmd ∧ Instr.readBit ≠ .init ∧ b.pos = .running 5 [.waitScl 1, .readBit] ∧ b.stretchBound = true ∧
      0 < max b.stretchLimit.toNat 1 - 1 ∧
      ∀ k, k < max b.stretchLimit.toNat 1 - 1 → (stretchers 2 k).scl = false := by
  exact ⟨rfl, by decide, rfl, rfl, by decide, by decide⟩
/-- A limit of 0 counts as 1: the wait of REG_WRITE's first clock aborts at its first low sample. -/
theorem witness_BoundedStretchAborts_limit_0 :
    let i := Instr.regWrite 0x50 0x10 1
    let b := { (midBus i [.waitScl 0, .arbCheck]).be with stretchBound := true, stretchLimit := 0 }
    i.port = .busCmd ∧ i ≠ .init ∧ b.pos = .running 0x01501008 [.waitScl 0, .arbCheck] ∧
      0 < max b.stretchLimit.toNat 1 - 0 ∧ ∀ k, k < max b.stretchLimit.toNat 1 - 0 → (stretchers 1 k).scl = false := by
  exact ⟨rfl, by decide, rfl, by decide, by decide⟩
theorem witness_UnboundedStretchNeverEnds : Instr.stop.port = .busCmd ∧
    (midBus .stop [.waitScl 7, .release .sda]).be.pos = .running 3 [.waitScl 7, .release .sda] ∧
    (midBus .stop [.waitScl 7, .release .sda]).be.stretchBound = false ∧ ∀ k : Nat, ((fun _ => held) k).scl = false :=
  ⟨rfl, rfl, rfl, fun _ => rfl⟩
theorem witness_ArbitrationLossAborts : (inside .stop).be.arbAbort = true ∧ Accepted .start (inside .start) ∧
    Accepted .stop (inside .stop) ∧ Accepted (.writeBit true) (inside (.writeBit true)) ∧
    Unstretched (peers fun _ => false) 7 ∧ (peers (fun _ => false) 3).sda = false :=
  ⟨rfl, ⟨rfl, rfl⟩, ⟨rfl, rfl⟩, ⟨rfl, rfl⟩, fun _ _ => rfl, rfl⟩
theorem witness_ArbitrationLossAborts_inside :
    let i := Instr.regRead 0x50 0x10 1
    let s : State := { midBus i [.arbCheck, .sample .scl] with be := { (midBus i [.arbCheck, .sample .scl]).be with
      arbAbort := true, priv := { xcnt := 3 } } }
    s.be.arbAbort = true ∧ i.port = .busCmd ∧ i ≠ .init ∧ s.be.pos = .running 0x01501009 [.arbCheck, .sample .scl] ∧
      (s.be.sdaOut && (peers (fun _ => false) 0).sda) = false := by
  exact ⟨rfl, rfl, by decide, rfl, rfl⟩
theorem witness_ArbitrationLossAborts_goes_on :
    let s := midBus (.regWrite 0x50 0x10 1) [.startCheck, .driveLow .sda]
    let t := midBus (.regWrite 0x50 0x10 1) [.arbCheck, .sample .scl]
    (Instr.regWrite 0x50 0x10 1).port = .busCmd ∧ s.be.pos = .running 0x01501008 [.startCheck, .driveLow .sda] ∧
      t.be.pos = .running 0x01501008 [.arbCheck, .sample .scl] ∧ s.be.arbAbort = false ∧
      (s.be.sdaOut && sdaLow.sda) = false ∧ (t.be.sdaOut && quiet.sda) = true := ⟨rfl, rfl, rfl, rfl, rfl, rfl⟩
theorem witness_EndingsBeforeAnyLineOperation :
    let s : State := { onBus .stop with be := { (onBus .stop).be with needRecov := true } }
    Instr.stop.port = .busCmd ∧ Instr.stop ≠ .init ∧ s.be.pos = .latched (encode .stop) ∧ s.be.needRecov = true ∧
      Accepted (.regRead 0x50 0x10 0) (onBus (.regRead 0x50 0x10 0)) :=
  ⟨rfl, by decide, rfl, rfl, ⟨rfl, rfl⟩⟩

/-- Peers that hold both lines low at the samples of INIT's first `n` tests. -/
def stuck (n k : Nat) : Env := { idleEnv with scl := decide (5 * n ≤ k), sda := decide (5 * n ≤ k) }

theorem witness_InitRecoversOrGivesUp : ∀ n ∈ [0, 4, 9], n ≤ 9 ∧
    (inside .init).be.pos = .latched (encode .init) ∧
    (∀ p, p < n → ((stuck n (2 + 5 * p)).scl && (stuck n (3 + 5 * p)).sda) = false) ∧
    (stuck n (2 + 5 * n)).scl = true ∧ (stuck n (3 + 5 * n)).sda = true := by decide
theorem witness_InitRecoversOrGivesUp_never :
    ∀ p, p ≤ 9 → ((stuck 10 (2 + 5 * p)).scl && (stuck 10 (3 + 5 * p)).sda) = false := by decide

theorem witness_RegWriteAcknowledged :
    let s := withData (onBus (.regWrite 0x50 0x10 1))
    Accepted (.regWrite 0x50 0x10 1) s ∧ s.be.startLost = false ∧ s.be.buf.readBytes 0 1 = some [0xAA] ∧
      PeersHold (ackPeer 4 3) (peers (ackPeer 4 3)) 172 := ⟨⟨rfl, rfl⟩, rfl, rfl, fun _ _ => ⟨rfl, rfl⟩⟩
theorem witness_RegWriteAcknowledged_no_byte :
    let s := reopened (.regWrite 0x50 0x10 0)
    Accepted (.regWrite 0x50 0x10 0) s ∧ s.be.startLost = false ∧ s.be.buf.readBytes 0 0 = some [] ∧
      PeersHold (ackPeer 7 2) (peers (ackPeer 7 2)) 121 := ⟨⟨rfl, rfl⟩, rfl, rfl, fun _ _ => ⟨rfl, rfl⟩⟩
theorem witness_RegWriteAcknowledged_sda_low :
    let s := { onBus (.regWrite 0x50 0x10 0) with be := { (onBus (.regWrite 0x50 0x10 0)).be with sdaOut := false } }
    Accepted (.regWrite 0x50 0x10 0) s ∧ s.be.startLost = true ∧ s.be.arbAbort = false ∧
      PeersHold (ackPeer 4 2) (peers (ackPeer 4 2)) 118 := ⟨⟨rfl, rfl⟩, rfl, rfl, fun _ _ => ⟨rfl, rfl⟩⟩
theorem witness_RegWriteBytesOnBus :
    let s := withData (reopened (.regWrite 0x50 0x10 1))
    Accepted (.regWrite 0x50 0x10 1) s ∧ s.be.startLost = false ∧ s.be.startSteps = 7 ∧
      s.be.buf.readBytes 0 1 = some [0xAA] ∧ PeersHold (ackPeer 7 3) (peers (ackPeer 7 3)) 175 :=
  ⟨⟨rfl, rfl⟩, rfl, rfl, rfl, fun _ _ => ⟨rfl, rfl⟩⟩
theorem witness_RegWriteStopsAtNak :
    let s := withData (onBus (.regWrite 0x50 0x10 1))
    Accepted (.regWrite 0x50 0x10 1) s ∧ s.be.startLost = false ∧ 2 < (1 : Byte).toNat + 2 ∧
      (∀ a, a + 2 ≤ 2 → s.be.buf.read a ≠ none) ∧ PeersHold (ackPeer 4 2) (peers (ackPeer 4 2)) 172 := by
  refine ⟨⟨rfl, rfl⟩, rfl, by decide, fun a ha => ?_, fun _ _ => ⟨rfl, rfl⟩⟩
  obtain rfl : a = 0 := by omega
  decide
theorem witness_RegWriteStopsAtNak_first :
    let s := onBus (.regWrite 0x50 0x10 0)
    Accepted (.regWrite 0x50 0x10 0) s ∧ s.be.startLost = false ∧ 0 < (0 : Byte).toNat + 2 ∧
      (∀ a, a + 2 ≤ 0 → s.be.buf.read a ≠ none) ∧ PeersHold (ackPeer 4 0) (peers (ackPeer 4 0)) 64 :=
  ⟨⟨rfl, rfl⟩, rfl, by decide, fun a ha => by omega, fun _ _ => ⟨rfl, rfl⟩⟩
theorem witness_RegWriteFaultsOnUnwrittenByte :
    let s := withData (onBus (.regWrite 0x50 0x10 2))
    Accepted (.regWrite 0x50 0x10 2) s ∧ s.be.startLost = false ∧ 1 < (2 : Byte).toNat ∧
      (∀ a, a < 1 → s.be.buf.read a ≠ none) ∧ s.be.buf.read 1 = none ∧
      PeersHold (ackPeer 4 3) (peers (ackPeer 4 3)) 167 :=
  ⟨⟨rfl, rfl⟩, rfl, by decide, by decide, rfl, fun _ _ => ⟨rfl, rfl⟩⟩
theorem witness_RegReadStoresReceivedBytes :
    let s := onBus (.regRead 0x50 0x10 1)
    let d : Nat → Byte := fun _ => 0x5A
    Accepted (.regRead 0x50 0x10 1) s ∧ s.be.startLost = false ∧ (1 : Byte) ≠ 0 ∧
      PeersHold (regReadPeer 4 1 d) (peers (regReadPeer 4 1 d)) 233 :=
  ⟨⟨rfl, rfl⟩, rfl, by decide, fun _ _ => ⟨rfl, rfl⟩⟩
theorem witness_RegReadStoresReceivedBytes_restarted :
    let s := reopened (.regRead 0x50 0x10 2)
    let d : Nat → Byte := fun _ => 0x5A
    Accepted (.regRead 0x50 0x10 2) s ∧ s.be.opened = true ∧ s.be.startLost = false ∧ (2 : Byte) ≠ 0 ∧
      PeersHold (regReadPeer 7 2 d) (peers (regReadPeer 7 2 d)) 290 :=
  ⟨⟨rfl, rfl⟩, rfl, rfl, by decide, fun _ _ => ⟨rfl, rfl⟩⟩
theorem witness_RegReadStopsAtNak :
    let s := onBus (.regRead 0x50 0x10 255)
    Accepted (.regRead 0x50 0x10 255) s ∧ s.be.startLost = false ∧ (255 : Byte) ≠ 0 ∧
      PeersHold (ackPeer 4 0) (peers (ackPeer 4 0)) 64 ∧ PeersHold (ackPeer 4 1) (peers (ackPeer 4 1)) 118 ∧
      PeersHold (ackPeer 4 2) (peers (ackPeer 4 2)) 179 :=
  ⟨⟨rfl, rfl⟩, rfl, by decide, fun _ _ => ⟨rfl, rfl⟩, fun _ _ => ⟨rfl, rfl⟩, fun _ _ => ⟨rfl, rfl⟩⟩
theorem witness_AbortSupersedesNak_write :
    let s := withData (reopened (.regWrite 0x50 0x10 1))
    let sda := fun k => ackPeer 7 2 k && k != 7 + 54 * 3 + 5
    s.be.arbAbort = true ∧ s.be.startLost = false ∧ Accepted (.regWrite 0x50 0x10 1) s ∧ 2 < (1 : Byte).toNat + 2 ∧
      (∀ a, a + 2 ≤ 2 → s.be.buf.read a ≠ none) ∧ PeersHold sda (peers sda) (7 + 54 * 3 + 8) := by
  refine ⟨rfl, rfl, ⟨rfl, rfl⟩, by decide, fun a ha => ?_, fun _ _ => ⟨rfl, rfl⟩⟩
  obtain rfl : a = 0 := by omega
  decide
theorem witness_AbortSupersedesNak_read :
    let s := reopened (.regRead 0x50 0x10 1)
    let sda := fun k => ackPeer 7 2 k && k != 7 + 54 * 3 + 7 + 5
    s.be.arbAbort = true ∧ s.be.startLost = false ∧ Accepted (.regRead 0x50 0x10 1) s ∧ (1 : Byte) ≠ 0 ∧
      PeersHold sda (peers sda) (7 + 54 * 3 + 7 + 8) :=
  ⟨rfl, rfl, ⟨rfl, rfl⟩, by decide, fun _ _ => ⟨rfl, rfl⟩⟩

/-! Packets. -/

/-- `n` calls that each deliver one byte, the first after a call that delivers none. -/
def oneByOne (n : Nat) : List Env := quiet :: List.replicate n { quiet with count := 1 }

/-- The Packet Framer inside command `i`, its next transport call answering `k`. -/
def inPhase (i : Instr) (l : Latch) (ph : FramerPhase) (rx p : List Byte) (k : Nat) : State :=
  { onFramer i l rx p with
    pf := { (onFramer i l rx p).pf with pos := .running (encode i) l ph }
    env := { quiet with count := k } }

theorem witness_LegalPacket_bounds : LegalPacket [4, 0, 0, 0] ∧ LegalPacket (254 :: List.replicate 253 0) := by
  have hl : (254 :: List.replicate 253 (0 : Byte)).length = 254 := by
    rw [List.length_cons, List.length_replicate]
  refine ⟨⟨by decide, by decide, rfl⟩, ?_, ?_, ?_⟩
  · rw [hl]; decide
  · rw [hl]
  · rw [hl]; rfl
theorem witness_ReadPacketAssembles :
    let s := onFramer .readPacket open_ [5, 6, 0, 0, 0x41, 0x99] []
    LegalPacket [5, 6, 0, 0, 0x41] ∧ FramerLatched .readPacket open_ s ∧ open_.expired s.now = false ∧
      open_.strict = false ∧ s.tr.rx = [5, 6, 0, 0, 0x41] ++ [0x99] ∧ (∀ e ∈ oneByOne 5, e.count ≤ 1) ∧
      ((oneByOne 5).map Env.count).sum = 5 ∧ (oneByOne 5).getLast?.map Env.count = some 1 :=
  ⟨⟨by decide, by decide, rfl⟩, rfl, rfl, rfl, rfl, by decide, rfl, rfl⟩
theorem witness_ReadPacketChecksChecksum :
    let l : Latch := { open_ with strict := true }
    let s := onFramer .readPacket l [4, 0, 4, 0x10] []
    LegalPacket [4, 0, 4, 0x10] ∧ FramerLatched .readPacket l s ∧ l.expired s.now = false ∧ l.strict = true ∧
      s.tr.rx = [4, 0, 4, 0x10] ++ [] ∧ (∀ e ∈ oneByOne 4, e.count ≤ 1) ∧ ((oneByOne 4).map Env.count).sum = 4 ∧
      (oneByOne 4).getLast?.map Env.count = some 1 :=
  ⟨⟨by decide, by decide, rfl⟩, rfl, rfl, rfl, rfl, by decide, rfl, rfl⟩
theorem witness_ReadPacketEndsEarly :
    let s : State := { onFramer .readPacket open_ [3, 0, 0, 0, 9] [] with env := { quiet with count := 4 } }
    let bs := (s.tr.rx ++ s.env.arriving).take (4 - 0)
    s.pf.pos = .latched 1 open_ ∧ open_.expired s.now = false ∧ bs.length = 4 - 0 ∧ 4 - 0 ≤ s.env.count ∧
      bs.head? = some 3 ∧ (3 : Byte).toNat < 4 := ⟨rfl, rfl, rfl, by decide, rfl, by decide⟩
/-- spec/95_test_vectors.md RP9: the header of length 255 completes in a second call. -/
theorem witness_ReadPacketEndsEarly_RP9 :
    let s := inPhase .readPacket open_ (.header 2) [0, 0] [255, 0] 2
    s.pf.pos = .running 1 open_ (.header 2) ∧ open_.expired s.now = false ∧
      ((s.tr.rx ++ s.env.arriving).take (4 - 2)).length = 4 - 2 ∧ 4 - 2 ≤ s.env.count ∧
      s.pf.buf.read 0 = some 255 ∧ 254 < (255 : Byte).toNat := ⟨rfl, rfl, rfl, by decide, rfl, by decide⟩
theorem witness_ReadPacketEndsEarly_expired : late.expired 1 = true ∧
    (onFramer .readPacket late [] []).pf.pos = .latched 1 late ∧
    (inPhase .readPacket late (.header 3) [] [] 0).pf.pos = .running 1 late (.header 3) ∧
    (inPhase .readPacket late (.payload 254 253) [] [] 0).pf.pos = .running 1 late (.payload 254 253) :=
  ⟨rfl, rfl, rfl, rfl⟩
theorem witness_DeadlineIsModular : ({ open_ with t0 := 0xFFFFFFFE, d := 5 } : Latch).remaining 1 = some 2 := by decide
theorem witness_ReadPacketStarves :
    let l : Latch := { open_ with d := 1 }
    let turns := [turn .framer, turn .tick]
    let s := { onFramer .readPacket l [9] [] with script := turns ++ ⟨.framer, quiet⟩ :: [] }
    paramsOk s.par = true ∧ FramerLatched .readPacket l s ∧ l.t0 = s.now ∧ l.d ≠ 0 ∧
      (∀ t ∈ turns, t.agent = .tick ∨ (t.agent = .framer ∧ t.env.count = 0)) ∧
      l.d.toNat ≤ (turns.filter fun t => t.agent == .tick).length ∧
      (turns.filter fun t => t.agent == .tick).length < 2 ^ 32 :=
  ⟨rfl, rfl, rfl, by decide, by decide, by decide, by decide⟩
theorem witness_WritePacketSends :
    let s := onFramer .writePacket open_ [] [5, 6, 0, 0, 0x41]
    LegalPacket [5, 6, 0, 0, 0x41] ∧ FramerLatched .writePacket open_ s ∧ open_.expired s.now = false ∧
      PacketIn s.pf.buf open_.strict [5, 6, 0, 0, 0x41] ∧ ((oneByOne 5).map Env.count).sum = 5 ∧
      ∃ e, (oneByOne 5).getLast? = some e ∧ 0 < e.count :=
  ⟨⟨by decide, by decide, rfl⟩, rfl, rfl, by intro a ha; revert a; decide, rfl, _, rfl, by decide⟩
/-- Strict mode, bytes 2 and 3 of the buffer never written (R245 does not read them). -/
theorem witness_WritePacketSends_strict :
    let l : Latch := { open_ with strict := true }
    let s := { onFramer .writePacket l [] [5, 6] with
      pf := { (onFramer .writePacket l [] [5, 6]).pf.putBytes 4 [0x41] with pos := .latched 2 l } }
    LegalPacket [5, 6, 0, 0, 0x41] ∧ FramerLatched .writePacket l s ∧ s.pf.buf.read 2 = none ∧
      PacketIn s.pf.buf l.strict [5, 6, 0, 0, 0x41] :=
  ⟨⟨by decide, by decide, rfl⟩, rfl, rfl, by intro a ha; revert a; decide⟩
theorem witness_WritePacketEndsEarly :
    let s := { onFramer .writePacket late [] [4, 0, 0, 0] with now := 1 }
    LegalPacket [4, 0, 0, 0] ∧ FramerLatched .writePacket late s ∧ late.expired s.now = true ∧
      s.pf.buf.read 0 = [(4 : Byte), 0, 0, 0][0]? ∧ PacketIn s.pf.buf true [4, 0, 0, 0] :=
  ⟨⟨by decide, by decide, rfl⟩, rfl, rfl, rfl, by intro a ha; revert a; decide⟩
theorem witness_WritePacketEndsEarly_no_length :
    FramerLatched .writePacket open_ (onFramer .writePacket open_ [] []) ∧
      (onFramer .writePacket open_ [] []).pf.buf.read 0 = none := ⟨rfl, rfl⟩
/-- spec/95_test_vectors.md WP9: strict mode, `06 00`, the payload never written. -/
theorem witness_WritePacketEndsEarly_WP9 :
    let l : Latch := { open_ with strict := true }
    let s := onFramer .writePacket l [] [6, 0]
    FramerLatched .writePacket l s ∧ s.pf.buf.read 0 = some 6 ∧ s.pf.buf.read 4 = none ∧ l.strict = true ∧
      exec .writePacket s = .fault .unwrittenRead := ⟨rfl, rfl, rfl, rfl, rfl⟩
theorem witness_WritePacketEndsEarly_unwritten :
    let s := { onFramer .writePacket open_ [] [6, 0] with env := { quiet with count := 3 } }
    let t := inPhase .writePacket open_ (.sending 6 1 none) [] [6, 0] 9
    FramerLatched .writePacket open_ s ∧ s.pf.buf.read 0 = some 6 ∧ s.pf.buf.read 2 = none ∧ open_.expired s.now = false ∧
      2 < min s.env.count 6 ∧ t.pf.pos = .running 2 open_ (.sending 6 1 none) ∧ t.pf.buf.read 2 = none ∧
      2 < 1 + min t.env.count (6 - 1) := ⟨rfl, rfl, rfl, rfl, by decide, rfl, rfl, by decide⟩
theorem witness_WritePacketEndsEarly_sending :
    let s : State := { base with now := 1, pf := { base.pf with pos := .running 2 late (.sending 6 3 none) } }
    s.pf.pos = .running 2 late (.sending 6 3 none) ∧ late.expired s.now = true := ⟨rfl, rfl⟩
theorem witness_WritePacketEndsEarly_length :
    (onFramer .writePacket late [] [3]).pf.buf.read 0 = some 3 ∧ (3 : Byte).toNat < 4 ∧
      (onFramer .writePacket late [] [255]).pf.buf.read 0 = some 255 ∧ 254 < (255 : Byte).toNat := by decide
theorem witness_EchoRoundTrip :
    let e4 : Env := { quiet with count := 4 }
    ∃ t u, FramerRun .readPacket [e4] (onFramer .readPacket open_ [4, 6, 0x12, 0x34] []) t ∧ t.pf.result = .ok ∧
      FramerRun .writePacket [e4] { t with pf := t.pf.startCommand t.now (encode .writePacket) } u ∧ u.pf.result = .ok := by
  refine ⟨_, _, ⟨rfl, rfl, fun k hk => ?_⟩, rfl, ⟨rfl, rfl, fun k hk => ?_⟩, rfl⟩ <;>
  · obtain rfl : k = 0 := by simpa using hk
    exact ⟨_, rfl, rfl⟩
theorem witness_FramerStepCompletes_header :
    let s := inPhase .readPacket open_ (.header 1) [6, 0] [] 2
    open_.expired s.now = false ∧ s.pf.pos = .running 1 open_ (.header 1) ∧
      1 + ((s.tr.rx ++ s.env.arriving).take (min s.env.count (4 - 1))).length < 4 := ⟨rfl, rfl, by decide⟩
theorem witness_FramerStepCompletes_payload :
    let s := inPhase .readPacket open_ (.payload 6 4) [0x41] [] 9
    let t := inPhase .readPacket open_ (.payload 6 4) [0x41, 0x42] [] 2
    open_.expired s.now = false ∧ s.pf.pos = .running 1 open_ (.payload 6 4) ∧ t.pf.pos = s.pf.pos ∧
      4 + ((s.tr.rx ++ s.env.arriving).take (min s.env.count (6 - 4))).length < 6 ∧
      4 + ((t.tr.rx ++ t.env.arriving).take (min t.env.count (6 - 4))).length = 6 ∧ open_.strict = false :=
  ⟨rfl, rfl, rfl, by decide, by decide, rfl⟩
/-- A header that completes in a second call, of a packet of 6 bytes and of one of 4. -/
theorem witness_FramerStepCompletes_header_done :
    let s := inPhase .readPacket open_ (.header 2) [0, 0, 0x41] [6, 6] 2
    let t := inPhase .readPacket { open_ with strict := true } (.header 2) [4, 0x10] [4, 0] 9
    s.pf.pos = .running 1 open_ (.header 2) ∧
      2 + ((s.tr.rx ++ s.env.arriving).take (min s.env.count (4 - 2))).length = 4 ∧
      (s.pf.buf.putBytes 254 2 [0, 0]).read 0 = some 6 ∧
      2 + ((t.tr.rx ++ t.env.arriving).take (min t.env.count (4 - 2))).length = 4 ∧
      (t.pf.buf.putBytes 254 2 [4, 0x10]).readBytes 0 4 = some [4, 0, 4, 0x10] :=
  ⟨rfl, by decide, by decide, by decide, by decide⟩
/-- The last call of a packet, in strict mode. -/
theorem witness_FramerStepCompletes_strict :
    let l : Latch := { open_ with strict := true }
    let s := inPhase .readPacket l (.payload 6 4) [0x41, 0x42] [6, 6, 0x8F, 7] 2
    l.expired s.now = false ∧ s.pf.pos = .running 1 l (.payload 6 4) ∧
      4 + ((s.tr.rx ++ s.env.arriving).take (min s.env.count (6 - 4))).length = 6 ∧
      (s.pf.buf.putBytes 254 4 [0x41, 0x42]).readBytes 0 6 = some [6, 6, 0x8F, 7, 0x41, 0x42] :=
  ⟨rfl, rfl, by decide, by decide⟩
theorem witness_FramerStepCompletes_first_write :
    let s := onFramer .writePacket open_ [] [4, 0, 0, 0]
    open_.expired s.now = false ∧ s.pf.pos = .latched 2 open_ ∧ LegalPacket [4, 0, 0, 0] ∧
      s.pf.buf.read 0 = [(4 : Byte), 0, 0, 0][0]? ∧ ∀ a, a < 4 → s.pf.buf.read a = [(4 : Byte), 0, 0, 0][a]? :=
  ⟨rfl, rfl, ⟨by decide, by decide, rfl⟩, rfl, by decide⟩
theorem witness_FramerStepCompletes_first_write_strict :
    let l : Latch := { open_ with strict := true }
    let s := onFramer .writePacket l [] [4, 0, 0, 0]
    l.expired s.now = false ∧ s.pf.pos = .latched 2 l ∧ s.pf.buf.read 0 = [(4 : Byte), 0, 0, 0][0]? ∧
      PacketIn s.pf.buf true [4, 0, 0, 0] := ⟨rfl, rfl, rfl, by intro a ha; revert a; decide⟩
theorem witness_FramerStepCompletes_sending :
    let s := inPhase .writePacket open_ (.sending 6 0 none) [] [6, 6, 0, 0, 0x41, 0x42] 6
    open_.expired s.now = false ∧ s.pf.pos = .running 2 open_ (.sending 6 0 none) ∧
      s.pf.buf.readBytes 0 (min s.env.count (6 - 0)) = some [6, 6, 0, 0, 0x41, 0x42] := ⟨rfl, rfl, rfl⟩
theorem witness_FramerStepFrame : ∃ t u, exec .readPacket (onFramer .readPacket open_ [] []) = .next t ∧
    t.pf.busy = true ∧ exec .writePacket (onFramer .writePacket open_ [] [4, 0, 0, 0]) = .next u ∧ u.pf.busy = true :=
  ⟨_, _, rfl, rfl, rfl, rfl⟩
theorem witness_FramerStepFrame_phases :
    (∃ t, exec .readPacket (inPhase .readPacket open_ (.header 1) [6, 0] [] 2) = .next t) ∧
      (∃ t, exec .readPacket (inPhase .readPacket open_ (.payload 6 4) [0x41, 0x42] [] 9) = .next t) ∧
      open_.expired 0 = false := ⟨⟨_, rfl⟩, ⟨_, rfl⟩, rfl⟩

/-! The responder, the window, reset and the invariants. -/

theorem witness_IdPacketAnswered : identOk base.par.ident = true ∧ quiet.identOk = false ∧
    ({ quiet with identOk := true } : Env).identOk = true := by decide
theorem witness_SsnPacketAnswered : 1 ≤ base.par.uidWords ∧ base.par.uidWords ≤ 4 ∧ quiet.uidOk = false ∧
    ({ base with env := { quiet with uidOk := true }, par := { base.par with uidWords := 4 } } : State).env.uidOk = true := by
  decide
theorem witness_UidPacketAnswered : 1 ≤ base.par.uidWords ∧ base.par.uidWords ≤ 4 ∧ base.env.uidOk = false ∧
    ({ base with env := { quiet with uidOk := true } } : State).env.uidOk = true := by decide
theorem witness_ResponderRejects :
    let s := { received [4, 12, 0, 0] with script := [turn .responder] }
    paramsOk s.par = true ∧ s.par.responderPresent = true ∧ s.cr = .cycle .gotRead ∧ s.pf.pos = .idle ∧
      s.pf.result = .ok ∧ s.pf.buf.readBytes 0 4 = some [4, 12, 0, 0] ∧ 12 ≤ (12 : Byte).toNat :=
  ⟨rfl, rfl, rfl, rfl, rfl, rfl, by decide⟩
theorem witness_ResponderRejects_results : ∀ r ∈ [FramerResult.checksumError, .timeout, .framingError],
    let s : State := { received [4, 0, 0, 0] with
      pf := { (received [4, 0, 0, 0]).pf with result := r }, script := [turn .responder] }
    paramsOk s.par = true ∧ s.par.responderPresent = true ∧ s.cr = .cycle .gotRead ∧ s.pf.pos = .idle ∧
      s.pf.result = r := by decide
theorem witness_ResponderCycle :
    ∀ c ∈ [CrState.waitReady, .cycle .zero, .cycle .callRead, .cycle .clearCsum, .cycle .callWrite],
      let s : State := { received [4, 0, 0, 0] with script := [turn .responder], cr := c }
      paramsOk s.par = true ∧ s.par.responderPresent = true ∧ s.cr = c ∧ s.pf.pos = .idle := by decide
theorem witness_ResponderCycle_absent : paramsOk base.par = true ∧ base.par.responderPresent = false := by decide
theorem witness_ResponderCycle_busy :
    let s : State := { onFramer .readPacket open_ [] [] with
      par := { base.par with responderPresent := true }, cr := .cycle .gotRead, script := [turn .responder] }
    paramsOk s.par = true ∧ s.cr = .cycle .gotRead ∧ s.pf.busy = true := ⟨rfl, rfl, rfl⟩
theorem witness_ResponderOwnsFramer : ∃ t, hostAccess (.write 0x20C 4 1) (received []) = .next t ∧ t.pf.strict = true :=
  ⟨_, rfl, rfl⟩
theorem witness_BusyWriteCases : permitted 0x000 4 = true ∧ (onBus .stop).be.busy = true ∧ permitted 0x3FC 4 = true ∧
    permitted 0x1FF 1 = true ∧ permitted 0x20C 4 = true := by decide
theorem witness_HostReadsChangeNothing : ∃ t, hostRead 0x004 4 (onBus .stop) = .next t := ⟨_, rfl⟩
theorem witness_BuffersReadBackLittleEndian : permitted 0x100 1 = true ∧ permitted 0x1FC 4 = true ∧
    permitted 0x1FE 2 = true ∧ permitted 0x3FC 4 = true ∧ permitted 0x3FD 1 = true ∧ base.be.busy = false ∧
    base.pf.busy = false ∧ base.par.responderPresent = false ∧ (onBus .stop).be.busy = true ∧
    (onFramer .readPacket open_ [] []).pf.busy = true ∧ (received []).par.responderPresent = true := by decide
theorem witness_BuffersReadBackLittleEndian_reads :
    let m := (onFramer .readPacket open_ [] (List.replicate 254 7)).pf.buf
    (∀ j, j < 2 → m.read (252 + j) = some ((fun _ => 7 : Nat → Byte) j)) ∧ base.be.buf.read 0 = none := by
  decide +kernel
theorem witness_RegisterWrites : base.be.busy = false ∧ base.pf.busy = false ∧ base.par.responderPresent = false := by
  decide
theorem witness_ReservedOffsets : permitted 0x010 1 = true ∧ permitted 0x0FE 2 = true ∧ permitted 0x214 4 = true ∧
    permitted 0x3FE 2 = true := by decide
theorem witness_ResetInput : paramsOk (inside .stop).par = true ∧
    ({ inside .stop with script := [turn .reset] } : State).script = ⟨.reset, quiet⟩ :: [] := ⟨rfl, rfl⟩
theorem witness_RegistersAfterReset : permitted 0x100 1 = true ∧ permitted 0x1FC 4 = true ∧ permitted 0x3FC 4 = true ∧
    Config.defaultParams.responderPresent = false := by decide
theorem witness_BuffersStayCanonical : BuffersCanonical (withData (onBus .stop)) ∧
    StoresOnlyInRegRead (withData (onBus .stop)).be ∧
    ∃ t, step { withData (onBus .stop) with script := [turn .busEngine] } = .next t := ⟨⟨rfl, rfl⟩, trivial, _, rfl⟩
theorem witness_CountersStayBounded : CountersBounded (midBus .init [.initScl 9]) ∧
    ∃ t, step { midBus .init [.initScl 9] with script := [turn .busEngine] } = .next t :=
  ⟨⟨⟨by decide, by decide, by decide, by decide, by decide⟩, by decide, trivial⟩, _, rfl⟩
theorem witness_RecoveryStaysClosed :
    let s := midBus .init [.release .sda, .initScl 9]
    let b := { s.be with needRecov := true }
    RecoveryClosed b ∧ b.needRecov = true ∧
      ∃ t, step { s with be := b, script := [turn .busEngine] } = .next t := ⟨fun _ => ⟨rfl, rfl⟩, rfl, _, rfl⟩
theorem witness_OnlyTheOwnerWrites : paramsOk base.par = true ∧
    step { base with script := [turn .tick] } = .next { base with script := [], env := (turn .tick).env, now := 1 } :=
  ⟨rfl, rfl⟩
theorem witness_OnlyTheOwnerWrites_agents :
    ∀ a ∈ [Agent.busEngine, .framer, .responder, .host (.read 0 4)],
      ∃ t, step { base with script := [turn a] } = .next t ∧ ({ base with script := [turn a] } : State).nextTurn.1 = a := by
  intro a h
  simp only [List.mem_cons, List.not_mem_nil, or_false] at h
  rcases h with rfl | rfl | rfl | rfl <;> exact ⟨_, rfl, rfl⟩

end Sys2Proof.Tests
end

/-! PROOFS. What a step of the block is, and what the step of each agent may change (spec/00_scope.md R6, R8). -/

namespace Sys2Proof.Machine

/-! ### A step, by the turn it takes -/

/-- With acceptable parameters a step is the step of the agent at the head of the script. -/
theorem step_of_script {s : State} {a : Agent} {e : Env} {rest : List Turn} (hp : paramsOk s.par = true)
    (h : s.script = ⟨a, e⟩ :: rest) : step s = agentStep a { s with script := rest, env := e } := by
  simp only [step, blockStep, State.nextTurn, hp, h, if_true]

/-- The turn found in an empty script is the free turn, as if the script held it. -/
theorem nextTurn_of_empty {s : State} (h : s.script = []) :
    s.nextTurn = ({ s with script := [Config.freeTurn s.turns], turns := s.turns + 1 } : State).nextTurn := by
  simp only [State.nextTurn, h]

/-- Parameters that break a constraint are refused (spec/93_implementation_defined.md rows 21 and 22). -/
theorem step_refuses {s : State} (h : ¬ paramsOk s.par = true) : step s = .refused .badParameters :=
  if_neg h

/-- The constraints of spec/00_scope.md R8 and spec/43_responder.md R289, spelt out. -/
theorem paramsOk_iff (p : Params) :
    paramsOk p = true ↔
      p.blkBase % 0x400 = 0 ∧ 0 < p.tHalf ∧ 1 ≤ p.uidWords ∧ p.uidWords ≤ 4 ∧
        p.ident.buildHash.length = 8 ∧ p.ident.buildHash.getLast? = some 0 ∧
        1 ≤ p.ident.buildInfo.length ∧ p.ident.buildInfo.length ≤ 220 ∧ p.ident.buildInfo.getLast? = some 0 := by
  simp only [paramsOk, identOk, nullTerminated, Bool.and_eq_true, beq_iff_eq, decide_eq_true_eq, and_assoc]

/-! ### An agent's step, by what it finds -/

theorem busAgent_of_idle {s : State} (h : s.be.pos = .idle) : busAgent s = .next s := by
  simp only [busAgent, BusEngine.word?, h]

theorem framerAgent_of_idle {s : State} (h : s.pf.pos = .idle) : framerAgent s = .next s := by
  simp only [framerAgent, Framer.word?, h]

theorem busAgent_of_decode {s : State} {w : Word} {i : Instr} (hw : s.be.word? = some w)
    (hi : decode .busCmd w = .ok i) : busAgent s = exec i s := by
  simp only [busAgent, hw, hi]

theorem framerAgent_of_decode {s : State} {w : Word} {i : Instr} (hw : s.pf.word? = some w)
    (hi : decode .framerCmd w = .ok i) : framerAgent s = exec i s := by
  simp only [framerAgent, hw, hi]

theorem dispatchPacket_of_decode {s : State} {w : Word} {i : Instr} (hw : s.pf.header? = some w)
    (hi : decode .packet w = .ok i) : dispatchPacket s = exec i s := by
  simp only [dispatchPacket, hw, hi]

/-- The responder acts on a packet that READ_PACKET received: line (4) of the cycle (spec/43_responder.md R282). -/
theorem responderAgent_of_received {s : State} (hpresent : s.par.responderPresent = true)
    (hcr : s.cr = .cycle .gotRead) (hidle : s.pf.pos = .idle) (hok : s.pf.result = .ok) :
    responderAgent s = dispatchPacket s := by
  have hbusy : s.pf.busy = false := by simp only [Framer.busy, hidle]
  simp only [responderAgent, hpresent, hcr, hbusy, cycleStep, hok, if_true, Bool.false_eq_true, if_false]

/-- Settles O5: each clause is the turn's agent found by `step_of_script`, and that agent's step by what it finds. -/
theorem stepRunsDecodedInstruction : Obligations.StepRunsDecodedInstruction := by
  refine ⟨fun s e rest w i hp => ⟨?bus, ?framer, ?dispatch, ?busIdle, ?framerIdle, ?read, ?write⟩, ?free, ?params⟩
  case bus => exact fun h hw hi => (step_of_script hp h).trans (busAgent_of_decode hw hi)
  case framer => exact fun h hw hi => (step_of_script hp h).trans (framerAgent_of_decode hw hi)
  case dispatch =>
    intro h hpresent hcr hidle hok hw hi
    calc step s = responderAgent { s with script := rest, env := e } := step_of_script hp h
      _ = dispatchPacket { s with script := rest, env := e } := responderAgent_of_received hpresent hcr hidle hok
      _ = exec i { s with script := rest, env := e } := dispatchPacket_of_decode hw hi
  case busIdle => exact fun h hidle => (step_of_script hp h).trans (busAgent_of_idle hidle)
  case framerIdle => exact fun h hidle => (step_of_script hp h).trans (framerAgent_of_idle hidle)
  case read => exact fun a n h => step_of_script hp h
  case write => exact fun a n v h => step_of_script hp h
  case free =>
    intro s h
    simp only [step, blockStep, nextTurn_of_empty h]
  case params =>
    intro s
    exact ⟨paramsOk_iff s.par, fun hbad => step_refuses (mt (paramsOk_iff s.par).mp hbad)⟩

/-! ### What each agent's step may change (spec/10_state.md R20 to R26) -/

/-- The Bus Engine's turn changes the Bus Engine alone. -/
theorem busAgent_frame {s t : State} (h : busAgent s = .next t) : t = { s with be := t.be } := by
  rcases busAgent_next h with ⟨-, rfl⟩ | ⟨w, i, -, hi, h⟩ | ⟨w, e, -, -, rfl⟩
  · rfl
  · exact exec_bus_next (decode_port hi) h
  · rfl

/-- The Packet Framer's turn changes the framer and the transport alone. -/
theorem framerAgent_frame {s t : State} (h : framerAgent s = .next t) : t = { s with pf := t.pf, tr := t.tr } := by
  rcases framerAgent_next h with ⟨-, rfl⟩ | h | h | rfl
  · rfl
  · exact (execReadPacket_frame h).1
  · exact (execWritePacket_frame h).1
  · rfl

/-- The Command Responder's turn changes its position and, of the framer, the buffer, the deadline and the command in
progress. -/
theorem responderAgent_frame {s t : State} (h : responderAgent s = .next t) :
    t = { s with
      cr := t.cr, pf := { s.pf with buf := t.pf.buf, deadline := t.pf.deadline, pos := t.pf.pos } } := by
  rcases responderAgent_next h with rfl | rfl | ⟨-, ⟨runs, rfl⟩ | rfl | rfl | rfl | rfl⟩ <;> rfl

/-- What only the Bus Engine and reset write is the same in `b'` as in `b`: line outputs, transaction state, results; and
`ARB` is not newly set (spec/10_state.md R20 to R23, R31). -/
def BusEngine.OutputsKept (b b' : BusEngine) : Prop :=
  b'.sclOut = b.sclOut ∧ b'.sdaOut = b.sdaOut ∧ b'.opened = b.opened ∧ b'.needRecov = b.needRecov ∧
    b'.code = b.code ∧ b'.rxBit = b.rxBit ∧ b'.rxByte = b.rxByte ∧ b'.pulses = b.pulses ∧ b'.xcnt = b.xcnt ∧
    (b'.arb = true → b.arb = true)

theorem BusEngine.OutputsKept.refl (b : BusEngine) : b.OutputsKept b :=
  ⟨rfl, rfl, rfl, rfl, rfl, rfl, rfl, rfl, rfl, id⟩

/-- A write to `BE_STATUS` may clear `ARB`, and does nothing else (R31). -/
theorem BusEngine.outputsKept_writeStatus (b : BusEngine) (v : Word) : b.OutputsKept (b.writeStatus v) := by
  simp +contextual [BusEngine.OutputsKept]

/-- What a Host CPU access may change: the two units' registers and the value read, and of the units neither a result of
the framer nor an output of the Bus Engine (spec/20_memory.md R74, R75). -/
structure HostFrame (s t : State) : Prop where
  frame : t = { s with be := t.be, pf := t.pf, rdata := t.rdata }
  results : t.pf.result = s.pf.result ∧ t.pf.count = s.pf.count ∧ t.pf.checksum = s.pf.checksum
  outputs : s.be.OutputsKept t.be

theorem windowWrite_frame {o n : Nat} {v : Word} {s t : State} (h : windowWrite s o n v = .next t) :
    HostFrame s t := by
  rcases windowWrite_next h with rfl | rfl | rfl | ⟨-, b, rfl, hb⟩ | ⟨-, -, f, rfl, hf⟩
  · exact ⟨rfl, ⟨rfl, rfl, rfl⟩, .refl _⟩
  · exact ⟨rfl, ⟨rfl, rfl, rfl⟩, BusEngine.outputsKept_writeStatus _ _⟩
  · exact ⟨rfl, ⟨rfl, rfl, rfl⟩, .refl _⟩
  · refine ⟨rfl, ⟨rfl, rfl, rfl⟩, ?_⟩
    rcases hb with rfl | rfl | ⟨i, rfl⟩ <;> exact .refl s.be
  · refine ⟨rfl, ?_, .refl _⟩
    rcases hf with rfl | rfl | ⟨i, rfl⟩ <;> exact ⟨rfl, rfl, rfl⟩

theorem hostAccess_frame {x : Access} {s t : State} (h : hostAccess x s = .next t) : HostFrame s t := by
  cases x with
  | read a n =>
    have ht : t = { s with rdata := t.rdata } := hostRead_next h
    rw [ht]
    exact ⟨rfl, ⟨rfl, rfl, rfl⟩, .refl _⟩
  | write a n v =>
    obtain ⟨o, -, -, hw⟩ := hostWrite_next h
    exact windowWrite_frame hw

/-! ### What every agent's step keeps -/

/-- No step changes a parameter (spec/00_scope.md R8). -/
theorem agentStep_par {a : Agent} {s t : State} (h : agentStep a s = .next t) : t.par = s.par := by
  cases a with
  | host x => rw [(hostAccess_frame h).frame]
  | busEngine => rw [busAgent_frame h]
  | framer => rw [framerAgent_frame h]
  | responder => rw [responderAgent_frame h]
  | tick | reset => cases h; rfl

/-- Only the tick source and the reset input write `NOW` (spec/10_state.md R25). -/
theorem agentStep_now {a : Agent} {s t : State} (h : agentStep a s = .next t) (htick : a ≠ .tick)
    (hreset : a ≠ .reset) : t.now = s.now := by
  cases a with
  | host x => rw [(hostAccess_frame h).frame]
  | busEngine => rw [busAgent_frame h]
  | framer => rw [framerAgent_frame h]
  | responder => rw [responderAgent_frame h]
  | tick => exact absurd rfl htick
  | reset => exact absurd rfl hreset

/-- Only the Bus Engine and the reset input write its outputs (spec/10_state.md R20 to R23). -/
theorem agentStep_outputsKept {a : Agent} {s t : State} (h : agentStep a s = .next t) (hbus : a ≠ .busEngine)
    (hreset : a ≠ .reset) : s.be.OutputsKept t.be := by
  cases a with
  | host x => exact (hostAccess_frame h).outputs
  | busEngine => exact absurd rfl hbus
  | framer => rw [framerAgent_frame h]; exact .refl _
  | responder => rw [responderAgent_frame h]; exact .refl _
  | tick => cases h; exact .refl _
  | reset => exact absurd rfl hreset

/-- Settles O60: each clause is the frame of the turn's agent, on the state the turn finds. -/
theorem onlyTheOwnerWrites : Obligations.OnlyTheOwnerWrites := by
  refine ⟨fun s e rest hp h => step_of_script hp h, fun s t hstep => ?_⟩
  obtain ⟨-, h⟩ := step_next hstep
  refine ⟨?par, ?tick, ?now, ?bus, ?framer, ?responder, ?host, ?outputs⟩
  case par => exact (agentStep_par h).trans s.nextTurn_par
  case tick =>
    intro ha
    rw [ha] at h
    cases h
    rw [State.nextTurn_now]
    exact ⟨rfl, BitVec.toNat_add _ _⟩
  case now => exact fun htick hreset => (agentStep_now h htick hreset).trans s.nextTurn_now
  case bus =>
    intro ha
    rw [ha] at h
    exact busAgent_frame h
  case framer =>
    intro ha
    rw [ha] at h
    exact framerAgent_frame h
  case responder =>
    intro ha
    rw [ha] at h
    have hframe := responderAgent_frame h
    rwa [State.nextTurn_pf] at hframe
  case host =>
    intro x ha
    rw [ha] at h
    have hx := hostAccess_frame h
    have hresults := hx.results
    rw [State.nextTurn_pf] at hresults
    exact ⟨hx.frame, hresults⟩
  case outputs =>
    intro hbus hreset
    have hkept := agentStep_outputsKept h hbus hreset
    rwa [State.nextTurn_be] at hkept

end Sys2Proof.Machine

/-! PROOFS. What one step of the Bus Engine can do: the operations left to do, `BEBUF`, and where a command begins; and
the statements about the Bus Engine's state that follow (spec/10_state.md R20 to R22, R37, R42). -/

namespace Sys2Proof.Machine

/-! ### Operations by kind -/

/-- An operation found in every command's procedure: no store into `BEBUF`, which REG_READ alone has, and no sample of
INIT. -/
def BusOp.isPlain (op : BusOp) : Bool := !op.stores && !op.isInitSample

theorem startOps_plain (v : Bool) : (startOps v).all BusOp.isPlain = true := by cases v <;> rfl

theorem stopOps_plain : stopOps.all BusOp.isPlain = true := rfl

theorem writeBitOps_plain (v : Bool) : (writeBitOps v).all BusOp.isPlain = true := by cases v <;> rfl

theorem readBitOps_plain : readBitOps.all BusOp.isPlain = true := rfl

theorem writeByteOps_plain (d : Byte) : (writeByteOps d).all BusOp.isPlain = true := by
  simp only [writeByteOps, List.all_append, List.all_flatMap, writeBitOps_plain, readBitOps_plain, List.all_eq_true,
    Bool.and_true, implies_true]

theorem readByteOps_plain (k : Bool) : (readByteOps k).all BusOp.isPlain = true := by cases k <;> rfl

theorem sendOps_plain (d : Byte) (c : BusCode) : (sendOps d c).all BusOp.isPlain = true := by
  rw [sendOps, List.all_append, writeByteOps_plain]
  rfl

theorem abortOps_plain (c : BusCode) : (abortOps c).all BusOp.isPlain = true := rfl

/-- A property that passes from the pending operations to those that a step puts in their place: plain operations have
it, REG_READ's loop passes it to the store and the loop it unfolds to, and INIT's samples to the next ones. -/
structure SpawnClosed (Q : BusOp → Prop) : Prop where
  plain : ∀ op, op.isPlain = true → Q op
  store : ∀ i n, Q (.readLoop i n) → Q (.storeByte i)
  loop : ∀ i n, Q (.readLoop i n) → Q (.readLoop (i + 1) n)
  initSda : ∀ p v, Q (.initScl p) → Q (.initSda p v)
  initScl : ∀ p v, Q (.initSda p v) → Q (.initScl (p + 1))

theorem SpawnClosed.of_plain {Q : BusOp → Prop} (hQ : SpawnClosed Q) {ops : List BusOp}
    (h : ops.all BusOp.isPlain = true) : ∀ op ∈ ops, Q op :=
  fun op hop => hQ.plain op (List.all_eq_true.mp h op hop)

/-- To have a store still to do only if `C` holds. -/
theorem spawnClosed_stores (C : Prop) : SpawnClosed fun op => op.stores = true → C where
  plain op h hs := by simp [BusOp.isPlain, hs] at h
  store _ _ h := h
  loop _ _ h := h
  initSda _ _ _ h := by cases h
  initScl _ _ _ h := by cases h

/-- To be no sample of INIT. -/
theorem spawnClosed_noInitSample : SpawnClosed fun op => op.isInitSample = false where
  plain op h := by simp_all [BusOp.isPlain]
  store _ _ _ := rfl
  loop _ _ _ := rfl
  initSda _ _ h := by cases h
  initScl _ _ h := by cases h

/-! ### `settle` -/

/-- The command of word `w` has ended, or is in progress with operations of property `Q` still to do. -/
def BusEngine.TodoAll (Q : BusOp → Prop) (w : Word) (b : BusEngine) : Prop :=
  b.pos = .idle ∨ ∃ todo, b.pos = .running w todo ∧ ∀ op ∈ todo, Q op

theorem BusEngine.withTodo_pos {b : BusEngine} {w : Word} (hw : b.word? = some w) (todo : List BusOp) :
    (b.withTodo todo).pos = .running w todo := by
  cases hpos : b.pos with
  | idle =>
    simp only [BusEngine.word?, hpos] at hw
    cases hw
  | latched v | running v _ =>
    simp only [BusEngine.word?, hpos, Option.some.injEq] at hw
    simp only [BusEngine.withTodo, hpos, hw]

theorem BusEngine.todoAll_withTodo {Q : BusOp → Prop} {w : Word} {b : BusEngine} (hw : b.word? = some w)
    {todo : List BusOp} (h : ∀ op ∈ todo, Q op) : (b.withTodo todo).TodoAll Q w :=
  .inr ⟨todo, BusEngine.withTodo_pos hw todo, h⟩

/-- What `settle` leaves to do keeps a property that passes to spawned operations. -/
theorem settle_todoAll {Q : BusOp → Prop} (hQ : SpawnClosed Q) (pub : Publish) {ops : List BusOp} {b : BusEngine}
    {w : Word} (hw : b.word? = some w) (h : ∀ op ∈ ops, Q op) : (settle pub ops b).TodoAll Q w := by
  induction ops generalizing b with
  | nil => exact BusEngine.todoAll_withTodo hw h
  | cons op r ih =>
    obtain ⟨hop, hr⟩ := List.forall_mem_cons.mp h
    cases op with
    | startTest =>
      exact BusEngine.todoAll_withTodo hw (List.forall_mem_append.mpr ⟨hQ.of_plain (startOps_plain _), hr⟩)
    | shiftIn | setOpen | storeByte => exact ih hw hr
    | ackTest c =>
      simp only [settle]
      split
      · exact BusEngine.todoAll_withTodo hw
          (List.forall_mem_append.mpr ⟨hQ.of_plain stopOps_plain, by simpa using hQ.plain _ rfl⟩)
      · exact ih hw hr
    | sendLoop i n =>
      simp only [settle]
      split
      · exact BusEngine.todoAll_withTodo hw h
      · exact ih hw hr
    | readLoop i n =>
      simp only [settle]
      split
      · refine BusEngine.todoAll_withTodo (b := { b with priv := { b.priv with byte := 0 } }) hw ?_
        simp only [List.forall_mem_append, List.forall_mem_cons]
        exact ⟨⟨hQ.of_plain (readByteOps_plain _), hQ.store i n hop, hQ.loop i n hop, by simp⟩, hr⟩
      · exact ih hw hr
    | finish | reject => exact .inl (BusEngine.finish_pos _ _ _)
    | abortEnd => exact .inl (BusEngine.endAbort_pos _ _ _)
    | release | sample | driveLow | waitScl | startCheck | arbCheck | readBit | initScl | initSda =>
      exact BusEngine.todoAll_withTodo hw h

/-- `settle` writes `BEBUF` only where a pending operation stores. -/
theorem settle_buf (P : Memory → Prop) (pub : Publish) {ops : List BusOp} {b : BusEngine}
    (hP : ∀ m i v, BusOp.storeByte i ∈ ops → P m → P (m.put Config.beBufBytes i v)) (h : P b.buf) :
    P (settle pub ops b).buf := by
  induction ops generalizing b with
  | nil => simpa [settle] using h
  | cons op r ih =>
    have hr : ∀ m i v, BusOp.storeByte i ∈ r → P m → P (m.put Config.beBufBytes i v) :=
      fun m i v hi => hP m i v (List.mem_cons_of_mem _ hi)
    cases op with
    | shiftIn | setOpen => exact ih hr h
    | storeByte i => exact ih hr (hP _ i _ List.mem_cons_self h)
    | ackTest | sendLoop | readLoop =>
      simp only [settle]
      split
      · simpa using h
      · exact ih hr h
    | finish | reject | abortEnd | startTest => simpa [settle] using h
    | release | sample | driveLow | waitScl | startCheck | arbCheck | readBit | initScl | initSda =>
      simpa [settle] using h

/-! ### One line operation -/

/-- `b1` is `b` with other line outputs, another `ARB` or another sampled bit. -/
def BusEngine.LinesChanged (b b1 : BusEngine) : Prop :=
  b1 = { b with sclOut := b1.sclOut, sdaOut := b1.sdaOut, arb := b1.arb, priv := { b.priv with bit := b1.priv.bit } }

/-- What a step at the operations `todo` makes of the Bus Engine `b` (spec/40_bus_primitives.md R141 to R148,
spec/41_bus_composite.md R192). -/
inductive LineResult (pub : Publish) (b : BusEngine) : List BusOp → BusEngine → Prop where
  /-- The operation is done and the internal ones after it are run. -/
  | goesOn {op : BusOp} {r : List BusOp} {b1 : BusEngine} (hb : b.LinesChanged b1) :
      LineResult pub b (op :: r) (settle pub r b1)
  /-- There was no line operation at the head. -/
  | settles {todo : List BusOp} : LineResult pub b todo (settle pub todo b)
  /-- A lost arbitration or a clock stretched too long; INIT has neither. -/
  | aborts {op : BusOp} {r : List BusOp} {b1 : BusEngine} {c : BusCode} (hb : b.LinesChanged b1)
      (hop : op.isRecovery = false) : LineResult pub b (op :: r) (b1.withTodo (abortOps c))
  /-- SCL is still low. -/
  | waits {lows : Nat} {r : List BusOp} :
      LineResult pub b (.waitScl lows :: r) (b.withTodo (.waitScl (lows + 1) :: r))
  /-- INIT sampled SCL. -/
  | sampled {p : Nat} {r : List BusOp} {v : Bool} : LineResult pub b (.initScl p :: r) (b.withTodo [.initSda p v])
  /-- INIT gives one more pulse. -/
  | pulses {p : Nat} {v : Bool} {r : List BusOp} :
      LineResult pub b (.initSda p v :: r) (b.withTodo (pulseOps (p + 1)))
  /-- INIT ends. -/
  | initEnds {p : Nat} {v : Bool} {r : List BusOp} {needRecov : Bool} {pulses : BitVec 4} {c : BusCode} :
      LineResult pub b (.initSda p v :: r)
        ({ b with needRecov := needRecov, priv := { b.priv with pulses := pulses } }.finish pub c)

theorem arbLost_result {pub : Publish} {op : BusOp} {r : List BusOp} {b : BusEngine} (hop : op.isRecovery = false) :
    LineResult pub b (op :: r) (arbLost pub r b) := by
  unfold arbLost
  split
  · exact .aborts rfl hop
  · exact .goesOn rfl

theorem waitStep_result (pub : Publish) (e : Env) (lows : Nat) (r : List BusOp) (b : BusEngine) :
    LineResult pub b (.waitScl lows :: r) (waitStep pub e lows r b) := by
  unfold waitStep
  split
  · exact .goesOn rfl
  · split
    · exact .aborts rfl rfl
    · exact .waits

theorem initTest_result (pub : Publish) (p : Nat) (v sda : Bool) (r : List BusOp) (b : BusEngine) :
    LineResult pub b (.initSda p v :: r) (initTest pub p v sda b) := by
  unfold initTest
  split
  · exact .initEnds
  · split
    · exact .pulses
    · exact .initEnds

theorem lineStep_result (pub : Publish) (e : Env) (todo : List BusOp) (b : BusEngine) :
    LineResult pub b todo (lineStep pub e todo b) := by
  cases todo with
  | nil => exact .settles
  | cons op r =>
    cases op with
    | release l => exact .goesOn (by cases l <;> rfl)
    | driveLow l => exact .goesOn (by cases l <;> rfl)
    | sample | readBit => exact .goesOn rfl
    | waitScl lows => exact waitStep_result pub e lows r b
    | startCheck | arbCheck =>
      simp only [lineStep]
      split
      · exact .goesOn rfl
      · exact arbLost_result rfl
    | initScl p => exact .sampled
    | initSda p v => exact initTest_result pub p v _ r b
    | startTest | shiftIn | setOpen | ackTest | storeByte | sendLoop | readLoop | finish | reject | abortEnd =>
      exact .settles

theorem BusEngine.LinesChanged.word? {b b1 : BusEngine} (h : b.LinesChanged b1) : b1.word? = b.word? := by rw [h]; rfl
theorem BusEngine.LinesChanged.buf {b b1 : BusEngine} (h : b.LinesChanged b1) : b1.buf = b.buf := by rw [h]
theorem BusEngine.LinesChanged.opened {b b1 : BusEngine} (h : b.LinesChanged b1) : b1.opened = b.opened := by rw [h]
theorem BusEngine.LinesChanged.needRecov {b b1 : BusEngine} (h : b.LinesChanged b1) : b1.needRecov = b.needRecov := by
  rw [h]

/-- What a step leaves to do keeps a property that passes to spawned operations. -/
theorem LineResult.todoAll {Q : BusOp → Prop} (hQ : SpawnClosed Q) {pub : Publish} {todo : List BusOp}
    {b b' : BusEngine} {w : Word} (hb' : LineResult pub b todo b') (hw : b.word? = some w) (h : ∀ op ∈ todo, Q op) :
    b'.TodoAll Q w := by
  cases hb' with
  | goesOn hb => exact settle_todoAll hQ pub (hb.word?.trans hw) (List.forall_mem_cons.mp h).2
  | settles => exact settle_todoAll hQ pub hw h
  | aborts hb => exact BusEngine.todoAll_withTodo (hb.word?.trans hw) (hQ.of_plain (abortOps_plain _))
  | waits =>
    exact BusEngine.todoAll_withTodo hw
      (List.forall_mem_cons.mpr ⟨hQ.plain _ rfl, (List.forall_mem_cons.mp h).2⟩)
  | sampled =>
    exact BusEngine.todoAll_withTodo hw (by simpa using hQ.initSda _ _ (List.forall_mem_cons.mp h).1)
  | pulses =>
    refine BusEngine.todoAll_withTodo hw (List.forall_mem_append.mpr ⟨hQ.of_plain rfl, ?_⟩)
    simpa using ⟨hQ.plain (.release .scl) rfl, hQ.initScl _ _ (List.forall_mem_cons.mp h).1⟩
  | initEnds => exact .inl (BusEngine.finish_pos _ _ _)

/-- A step writes `BEBUF` only where a pending operation stores. -/
theorem LineResult.buf (P : Memory → Prop) {pub : Publish} {todo : List BusOp} {b b' : BusEngine}
    (hb' : LineResult pub b todo b')
    (hP : ∀ m i v, BusOp.storeByte i ∈ todo → P m → P (m.put Config.beBufBytes i v)) (h : P b.buf) : P b'.buf := by
  cases hb' with
  | goesOn hb =>
    exact settle_buf P pub (fun m i v hi => hP m i v (List.mem_cons_of_mem _ hi)) (by rwa [hb.buf])
  | settles => exact settle_buf P pub hP h
  | aborts hb => rwa [BusEngine.withTodo_buf, hb.buf]
  | waits | sampled | pulses => rwa [BusEngine.withTodo_buf]
  | initEnds => rwa [BusEngine.finish_buf]

/-- While the command is still in progress, a step has written no completion field and not asked for a recovery. -/
theorem LineResult.busy {pub : Publish} {todo : List BusOp} {b b' : BusEngine} (hb' : LineResult pub b todo b')
    (h : b'.pos ≠ .idle) : b'.code = b.code ∧ b'.rxBit = b.rxBit ∧ b'.rxByte = b.rxByte ∧ b'.pulses = b.pulses ∧
      b'.xcnt = b.xcnt ∧ b'.needRecov = b.needRecov := by
  cases hb' with
  | goesOn hb =>
    have hkept := settle_busy _ _ _ h
    rw [hb] at hkept ⊢
    exact hkept
  | settles => exact settle_busy _ _ _ h
  | aborts hb => rw [hb]; simp
  | waits | sampled | pulses => simp
  | initEnds => exact absurd (BusEngine.finish_pos _ _ _) h

/-! ### A step of the sequencer -/

/-- The operations a step starts from: those pending, REG_WRITE's loop having read the byte it begins to send
(spec/41_bus_composite.md R198). -/
def Fetched (todo ops : List BusOp) : Prop :=
  ops = todo ∨ ∃ i n r d, todo = .sendLoop i n :: r ∧ ops = sendOps d .writeFail ++ .sendLoop (i + 1) n :: r

theorem sequencerStep_line {pub : Publish} {todo : List BusOp} {s t : State} (h : sequencerStep pub todo s = .next t) :
    ∃ ops, Fetched todo ops ∧ t.be = lineStep pub s.env ops s.be := by
  unfold sequencerStep at h
  split at h
  · next i n r =>
    split at h
    · split at h
      · cases h
      · next d _ => cases h; exact ⟨_, .inr ⟨i, n, r, d, rfl, rfl⟩, rfl⟩
    · cases h; exact ⟨_, .inl rfl, rfl⟩
  · cases h; exact ⟨_, .inl rfl, rfl⟩

theorem Fetched.all {Q : BusOp → Prop} (hQ : SpawnClosed Q) {todo ops : List BusOp} (hf : Fetched todo ops)
    (h : ∀ op ∈ todo, Q op) : ∀ op ∈ ops, Q op := by
  rcases hf with rfl | ⟨i, n, r, d, rfl, rfl⟩
  · exact h
  · exact List.forall_mem_append.mpr ⟨hQ.of_plain (sendOps_plain _ _),
      List.forall_mem_cons.mpr ⟨hQ.plain _ rfl, (List.forall_mem_cons.mp h).2⟩⟩

theorem Fetched.storeByte_mem {todo ops : List BusOp} (hf : Fetched todo ops) {a : Nat}
    (h : BusOp.storeByte a ∈ ops) : BusOp.storeByte a ∈ todo := by
  rcases hf with rfl | ⟨i, n, r, d, rfl, rfl⟩
  · exact h
  · rcases List.mem_append.mp h with h | h
    · cases List.all_eq_true.mp (sendOps_plain d .writeFail) _ h
    · simpa using h

theorem sequencerStep_todoAll {Q : BusOp → Prop} (hQ : SpawnClosed Q) {pub : Publish} {todo : List BusOp}
    {s t : State} {w : Word} (h : sequencerStep pub todo s = .next t) (hw : s.be.word? = some w)
    (hall : ∀ op ∈ todo, Q op) : t.be.TodoAll Q w := by
  obtain ⟨ops, hf, hbe⟩ := sequencerStep_line h
  rw [hbe]
  exact (lineStep_result _ _ _ _).todoAll hQ hw (hf.all hQ hall)

theorem sequencerStep_buf (P : Memory → Prop) {pub : Publish} {todo : List BusOp} {s t : State}
    (h : sequencerStep pub todo s = .next t)
    (hP : ∀ m i v, BusOp.storeByte i ∈ todo → P m → P (m.put Config.beBufBytes i v)) (hs : P s.be.buf) :
    P t.be.buf := by
  obtain ⟨ops, hf, hbe⟩ := sequencerStep_line h
  rw [hbe]
  exact (lineStep_result _ _ _ _).buf P (fun m i v hi => hP m i v (hf.storeByte_mem hi)) hs

/-! ### Where a command begins -/

/-- The operations begin with one that takes a step. -/
def startsWithLine : List BusOp → Bool
  | [] => false
  | op :: _ => op.takesStep

theorem startsWithLine_append {xs : List BusOp} (ys : List BusOp) (h : startsWithLine xs = true) :
    startsWithLine (xs ++ ys) = true := by
  cases xs with
  | nil => cases h
  | cons op r => exact h

theorem writeBitOps_line (v : Bool) : startsWithLine (writeBitOps v) = true := by cases v <;> rfl

theorem startOps_line (v : Bool) : startsWithLine (startOps v) = true := by cases v <;> rfl

theorem writeByteOps_line (d : Byte) : startsWithLine (writeByteOps d) = true :=
  startsWithLine_append _ (startsWithLine_append _ (writeBitOps_line (d.getLsbD 7)))

/-- The Bus Engine with the command of word `w` in progress from its first line operation on. -/
def BusEngine.begun (b : BusEngine) (w : Word) (ops : List BusOp) (opened : Bool) : BusEngine :=
  { b with pos := .running w ops, priv := {}, opened := opened }

theorem begin_of_line {b : BusEngine} {w : Word} {pub : Publish} {ops : List BusOp} (h : startsWithLine ops = true) :
    b.begin w pub ops = b.begun w ops b.opened := by
  cases ops with
  | nil => cases h
  | cons op r => exact settle_line pub r _ h

/-- What command `i` has to do once its first internal operations are run, with `OPEN` as they leave it. -/
structure FirstOps (i : Instr) (ops : List BusOp) (opened : Bool) : Prop where
  line : startsWithLine ops = true
  /-- INIT closes the transaction; no other command has a sample of INIT to do. -/
  recovery : (opened = false ∧ ops.all BusOp.isRecovery = true) ∨ (i ≠ .init ∧ ops.any BusOp.isInitSample = false)
  stores : ops.any BusOp.stores = true → ∃ dev reg n, i = .regRead dev reg n
  noStoreYet : ∀ a, BusOp.storeByte a ∉ ops

/-- Every command but INIT has plain operations to do, and REG_READ its loop. -/
theorem firstOps_of_kinds {i : Instr} {ops : List BusOp} (opened : Bool) (hi : i ≠ .init)
    (hline : startsWithLine ops = true)
    (hkind : ∀ op ∈ ops, op.isPlain = true ∨ (∃ k, op = .readLoop 0 k) ∧ ∃ dev reg n, i = .regRead dev reg n) :
    FirstOps i ops opened := by
  refine ⟨hline, .inr ⟨hi, List.any_eq_false.mpr fun op hop => ?_⟩, fun h => ?_, fun a ha => ?_⟩
  · rcases hkind op hop with hp | ⟨⟨k, rfl⟩, -⟩
    · simp_all [BusOp.isPlain]
    · exact Bool.false_ne_true
  · obtain ⟨op, hop, hs⟩ := List.any_eq_true.mp h
    rcases hkind op hop with hp | ⟨-, hi⟩
    · simp [BusOp.isPlain, hs] at hp
    · exact hi
  · rcases hkind _ ha with hp | ⟨⟨k, hk⟩, -⟩
    · cases hp
    · cases hk

theorem firstOps_of_plain {i : Instr} {ops : List BusOp} (opened : Bool) (hi : i ≠ .init)
    (hline : startsWithLine ops = true) (hplain : ops.all BusOp.isPlain = true) : FirstOps i ops opened :=
  firstOps_of_kinds opened hi hline fun op hop => .inl (List.all_eq_true.mp hplain op hop)

theorem firstOps_regRead (dev : BitVec 7) (reg n : Byte) (v : Bool) (k : Nat) (opened : Bool) :
    FirstOps (.regRead dev reg n)
      (startOps v ++ (sendOps (addrWrite dev) .addrNak ++ sendOps reg .regNak ++ .startTest ::
        sendOps (addrRead dev) .addrNak ++ .readLoop 0 k :: stopOps ++ [.finish .ok])) opened := by
  have hplain : ∀ xs : List BusOp, xs.all BusOp.isPlain = true → ∀ op ∈ xs, op.isPlain = true ∨
      (∃ k, op = .readLoop 0 k) ∧ ∃ dev' reg' n', Instr.regRead dev reg n = .regRead dev' reg' n' :=
    fun xs h op hop => .inl (List.all_eq_true.mp h op hop)
  refine firstOps_of_kinds opened (by simp) (startsWithLine_append _ (startOps_line v)) ?_
  simp only [List.append_assoc, List.cons_append, List.forall_mem_append, List.forall_mem_cons]
  exact ⟨hplain _ (startOps_plain v), hplain _ (sendOps_plain _ _), hplain _ (sendOps_plain _ _), .inl rfl,
    hplain _ (sendOps_plain _ _), .inr ⟨⟨k, rfl⟩, dev, reg, n, rfl⟩, hplain _ stopOps_plain, .inl rfl, by simp⟩

/-- Where a command stands once it has begun: at its first line operation, or ended because its arguments are refused
(spec/41_bus_composite.md R190, R191). -/
theorem begin_procedureOf {i : Instr} (hi : i.port = .busCmd) (b : BusEngine) (w : Word) (pub : Publish) :
    (∃ ops opened, FirstOps i ops opened ∧ b.begin w pub (procedureOf i) = b.begun w ops opened) ∨
      b.begin w pub (procedureOf i) = b.finish .nothing .argError := by
  cases i with
  | init =>
    exact .inl ⟨[.release .sda, .release .scl, .initScl 0], false,
      ⟨rfl, .inl ⟨rfl, rfl⟩, nofun, fun a => by simp⟩, rfl⟩
  | start =>
    refine .inl ⟨startOps b.opened ++ [.finish .ok], b.opened, firstOps_of_plain _ (by simp) ?_ ?_, rfl⟩
    · exact startsWithLine_append _ (startOps_line _)
    · simp only [List.all_append, startOps_plain]; rfl
  | stop => exact .inl ⟨_, _, firstOps_of_plain _ (by simp) rfl rfl, begin_of_line rfl⟩
  | writeBit v =>
    have hline : startsWithLine (writeBitProcedure v) = true := startsWithLine_append _ (writeBitOps_line v)
    refine .inl ⟨_, _, firstOps_of_plain _ (by simp) hline ?_, begin_of_line hline⟩
    simp only [writeBitProcedure, List.all_append, writeBitOps_plain]; rfl
  | readBit => exact .inl ⟨_, _, firstOps_of_plain _ (by simp) rfl rfl, begin_of_line rfl⟩
  | writeByte d =>
    have hline : startsWithLine (writeByteProcedure d) = true := startsWithLine_append _ (writeByteOps_line d)
    refine .inl ⟨_, _, firstOps_of_plain _ (by simp) hline ?_, begin_of_line hline⟩
    simp only [writeByteProcedure, List.all_append, writeByteOps_plain]; rfl
  | readByte k =>
    refine .inl ⟨readByteProcedure k, _, firstOps_of_plain _ (by simp) rfl ?_, begin_of_line rfl⟩
    simp only [readByteProcedure, List.all_append, readByteOps_plain]; rfl
  | regWrite dev reg n =>
    refine .inl ⟨startOps b.opened ++ (sendOps (addrWrite dev) .addrNak ++ sendOps reg .regNak ++
      .sendLoop 0 n.toNat :: stopOps ++ [.finish .ok]), b.opened, firstOps_of_plain _ (by simp) ?_ ?_, rfl⟩
    · exact startsWithLine_append _ (startOps_line _)
    · simp only [List.all_append, List.all_cons, startOps_plain, sendOps_plain, stopOps_plain]; rfl
  | regRead dev reg n =>
    by_cases hn : n = 0
    · exact .inr (by rw [procedureOf, regReadOps, if_pos hn]; rfl)
    · exact .inl ⟨_, _, firstOps_regRead dev reg n b.opened n.toNat b.opened,
        by rw [procedureOf, regReadOps, if_neg hn]; rfl⟩
  | readPacket | writePacket | pktAck | pktNak | pktReset | pktId | pktWriteReg | pktReadReg | pktEcho | pktSsn | pktUid
  | pktOpt | pktIsn | pktDiag => cases hi

/-! ### A step of a Bus Engine command -/

/-- Each meaning is the turn on its procedure, with the completion fields it publishes. -/
theorem exec_eq_busTurn {i : Instr} (hi : i.port = .busCmd) (s : State) :
    exec i s = busTurn (encode i) (publishOf i) (decide (i = .init)) (procedureOf i) s := by
  cases i with
  | init | start | stop | writeBit | readBit | writeByte | readByte | regWrite | regRead => rfl
  | readPacket | writePacket | pktAck | pktNak | pktReset | pktId | pktWriteReg | pktReadReg | pktEcho | pktSsn | pktUid
  | pktOpt | pktIsn | pktDiag => cases hi

/-- What a step on Bus Engine command `i` is, by the position it finds (spec/41_bus_composite.md R190). -/
inductive BusExec (i : Instr) (s : State) : Prop where
  | running (w : Word) (todo : List BusOp) (hpos : s.be.pos = .running w todo)
      (h : exec i s = sequencerStep (publishOf i) todo s)
  /-- The command is refused, for `NEED_RECOV` or for its arguments. -/
  | refused (c : BusCode) (hpos : ∀ w todo, s.be.pos ≠ .running w todo)
      (h : exec i s = .next { s with be := s.be.finish .nothing c })
  | begins (ops : List BusOp) (opened : Bool) (hpos : ∀ w todo, s.be.pos ≠ .running w todo)
      (hrecov : s.be.needRecov = true → i = .init) (hops : FirstOps i ops opened)
      (h : exec i s = sequencerStep (publishOf i) ops { s with be := s.be.begun (encode i) ops opened })

theorem exec_busExec {i : Instr} (hi : i.port = .busCmd) (s : State) : BusExec i s := by
  have hexec := exec_eq_busTurn hi s
  unfold busTurn at hexec
  split at hexec
  · next w todo hpos => exact .running w todo hpos hexec
  · next hpos =>
    split at hexec
    · exact .refused _ hpos hexec
    · next hrecov =>
      have hinit : s.be.needRecov = true → i = .init := by simpa using hrecov
      rcases begin_procedureOf hi s.be (encode i) (publishOf i) with ⟨ops, opened, hops, hb⟩ | hb
      · rw [hb] at hexec
        exact .begins ops opened hpos hinit hops hexec
      · rw [hb] at hexec
        simp only [BusEngine.finish_pos] at hexec
        exact .refused _ hpos hexec

theorem BusEngine.busy_eq_true {b : BusEngine} : b.busy = true ↔ b.pos ≠ .idle := by
  unfold BusEngine.busy
  split <;> simp_all

/-- Settles O8: neither what begins a command nor a step that leaves it in progress writes a completion field. -/
theorem busResultsHeldWhileBusy : Obligations.BusResultsHeldWhileBusy := by
  intro i s t hi ht hbusy
  have hpos : t.be.pos ≠ .idle := BusEngine.busy_eq_true.mp hbusy
  have hline : ∀ {pub todo} {s1 : State}, sequencerStep pub todo s1 = .next t →
      t.be.code = s1.be.code ∧ t.be.rxBit = s1.be.rxBit ∧ t.be.rxByte = s1.be.rxByte ∧
        t.be.pulses = s1.be.pulses ∧ t.be.xcnt = s1.be.xcnt := by
    intro pub todo s1 hstep
    obtain ⟨ops, -, hbe⟩ := sequencerStep_line hstep
    rw [hbe] at hpos ⊢
    obtain ⟨hcode, hbit, hbyte, hpulses, hxcnt, -⟩ := (lineStep_result _ _ _ _).busy hpos
    exact ⟨hcode, hbit, hbyte, hpulses, hxcnt⟩
  cases exec_busExec hi s with
  | running w todo _ h => exact hline (h.symm.trans ht)
  | refused c _ h =>
    cases h.symm.trans ht
    exact absurd (BusEngine.finish_pos _ _ _) hpos
  | begins ops opened _ _ _ h =>
    exact hline (s1 := { s with be := s.be.begun (encode i) ops opened }) (h.symm.trans ht)

/-! ### A step completes, and what it changes -/

/-- From a running position whose data byte is ready a step answers a next state that differs in the Bus Engine alone,
its configuration kept, and of `BEBUF` only what a pending operation stores to (spec/10_state.md R20, R42). -/
theorem sequencerStep_completes {pub : Publish} {todo : List BusOp} {s : State}
    (hready : ∀ i n r, todo = .sendLoop i n :: r → i < n → s.be.buf.read i ≠ none) :
    ∃ b, sequencerStep pub todo s = .next { s with be := b } ∧
      b.arbAbort = s.be.arbAbort ∧ b.stretchBound = s.be.stretchBound ∧ b.stretchLimit = s.be.stretchLimit ∧
      (∀ a, BusOp.storeByte a ∉ todo → b.buf.read a = s.be.buf.read a) ∧
      ((∀ a, BusOp.storeByte a ∉ todo) → b.buf = s.be.buf) := by
  obtain ⟨b, hb⟩ := sequencerStep_total pub todo s hready
  obtain ⟨ops, -, hbe⟩ := sequencerStep_line hb
  obtain ⟨habort, hbound, hlimit, -⟩ := lineStep_frame pub s.env ops s.be
  rw [← hbe] at habort hbound hlimit
  refine ⟨b, hb, habort, hbound, hlimit, fun a ha => ?_, fun hno => ?_⟩
  · refine sequencerStep_buf (fun m => m.read a = s.be.buf.read a) hb (fun m i v hi hm => ?_) rfl
    have hne : a ≠ i := fun hai => ha (hai ▸ hi)
    rw [Memory.read_put, if_neg (fun h => hne h.1), hm]
  · exact sequencerStep_buf (· = s.be.buf) hb (fun m i v hi => absurd hi (hno i)) rfl

theorem notStoredTo_iff {b : BusEngine} {w : Word} {todo : List BusOp} (hpos : b.pos = .running w todo) (a : Nat) :
    NotStoredTo b a ↔ BusOp.storeByte a ∉ todo := by
  simp only [NotStoredTo, hpos]

theorem storesOnlyInRegRead_iff {b : BusEngine} {w : Word} {todo : List BusOp} (hpos : b.pos = .running w todo) :
    StoresOnlyInRegRead b ↔
      (todo.any BusOp.stores = true → ∃ dev reg n, decode .busCmd w = .ok (.regRead dev reg n)) := by
  simp only [StoresOnlyInRegRead, hpos]

theorem dataReady_of_running {b : BusEngine} {w : Word} {todo : List BusOp} (hpos : b.pos = .running w todo)
    (h : DataReady b) : ∀ i n r, todo = .sendLoop i n :: r → i < n → b.buf.read i ≠ none := by
  rintro i n r rfl
  simpa only [DataReady, hpos] using h

theorem FirstOps.no_sendLoop {i : Instr} {ops : List BusOp} {opened : Bool} (h : FirstOps i ops opened) :
    ∀ j n r, ops ≠ .sendLoop j n :: r := by
  rintro j n r rfl
  cases h.line

/-- Settles O7: by the position the step finds; where a command begins there is neither a byte to read nor a store. -/
theorem busStepCompletes : Obligations.BusStepCompletes := by
  intro i s hi hready
  cases exec_busExec hi s with
  | running w todo hpos h =>
    obtain ⟨b, hb, habort, hbound, hlimit, hread, hbuf⟩ :=
      sequencerStep_completes (pub := publishOf i) (dataReady_of_running hpos hready)
    refine ⟨b, h.trans hb, habort, hbound, hlimit, fun a ha => hread a ((notStoredTo_iff hpos a).mp ha), ?_⟩
    intro v honly hv hdec hne
    obtain rfl : w = v := by simpa [BusEngine.word?, hpos] using hv
    refine hbuf fun a ha => ?_
    obtain ⟨dev, reg, n, hreg⟩ :=
      (storesOnlyInRegRead_iff hpos).mp honly (List.any_eq_true.mpr ⟨_, ha, rfl⟩)
    rw [hdec] at hreg
    exact hne dev reg n (by simpa using hreg)
  | refused c _ h => exact ⟨_, h, by simp⟩
  | begins ops opened _ _ hops h =>
    obtain ⟨b, hb, habort, hbound, hlimit, -, hbuf⟩ :=
      sequencerStep_completes (pub := publishOf i) (todo := ops)
        (s := { s with be := s.be.begun (encode i) ops opened })
        (fun j n r hr => absurd hr (hops.no_sendLoop j n r))
    have hsame : b.buf = s.be.buf := hbuf hops.noStoreYet
    exact ⟨b, h.trans hb, habort, hbound, hlimit, fun a _ => by rw [hsame], fun _ _ _ _ _ => hsame⟩

/-! ### The buffers stay canonical -/

theorem exec_bus_keeps_wf {i : Instr} {s t : State} (hi : i.port = .busCmd) (h : exec i s = .next t)
    (hs : s.be.buf.wf Config.beBufBytes = true) : t.be.buf.wf Config.beBufBytes = true := by
  have hput : ∀ (m : Memory) (j : Nat) (v : Byte), m.wf Config.beBufBytes = true →
      (m.put Config.beBufBytes j v).wf Config.beBufBytes = true := fun _ j v hm => Memory.wf_put j v hm
  cases exec_busExec hi s with
  | running w todo _ hx =>
    exact sequencerStep_buf (·.wf Config.beBufBytes = true) (hx.symm.trans h) (fun m j v _ => hput m j v) hs
  | refused c _ hx =>
    cases hx.symm.trans h
    simpa using hs
  | begins ops opened _ _ _ hx =>
    exact sequencerStep_buf (·.wf Config.beBufBytes = true) (hx.symm.trans h) (fun m j v _ => hput m j v) hs

/-- Every step keeps `BEBUF` canonical (spec/10_state.md R42). -/
theorem step_keeps_beBuf_wf {s t : State} (h : step s = .next t) (hs : s.be.buf.wf Config.beBufBytes = true) :
    t.be.buf.wf Config.beBufBytes = true := by
  refine step_keeps_bus (fun b => b.buf.wf Config.beBufBytes = true) (hreset := rfl) (hill := ?ill)
    (hexec := fun i s t hi hb _ hx => exec_bus_keeps_wf hi hx hb) (hstart := fun b w hb _ => hb)
    (hconf := fun b w hb _ => hb) (hstat := ?stat) (hput := fun b i bs hb _ => Memory.wf_putBytes bs i hb) h hs
  case ill => exact fun b hb _ => by simpa using hb
  case stat => exact fun b w hb => by simpa using hb

theorem execReadPacket_keeps_wf {s t : State} (h : execReadPacket s = .next t)
    (hs : s.pf.buf.wf Config.pfBufBytes = true) : t.pf.buf.wf Config.pfBufBytes = true := by
  have hreceived : ∀ {got want : Nat} {l : Latch} {lens : Nat → Prop},
      ReadEnds (encode .readPacket) l lens (receive got want s).1 t → t.pf.buf.wf Config.pfBufBytes = true := by
    intro got want l lens hr
    have hbuf : (receive got want s).1.pf.buf.wf Config.pfBufBytes = true := Memory.wf_putBytes _ _ hs
    cases hr with
    | goesOn phase ht _ => rw [ht]; exact hbuf
    | ends r n c ht _ => rw [ht]; exact hbuf
  rcases execReadPacket_next h with ⟨-, rfl⟩ | ⟨-, ⟨got, -, -, hr⟩ | ⟨w, l, len, got, -, hr⟩⟩
  · exact hs
  · exact hreceived hr
  · exact hreceived hr

theorem sendTurn_buf {w : Word} {l : Latch} {len sent : Nat} {csum : Option Half} {s t : State}
    (h : sendTurn w l len sent csum s = .next t) : t.pf.buf = s.pf.buf := by
  rcases sendTurn_next h with ⟨-, rfl⟩ | ⟨-, k, bs, -, -, ⟨-, rfl⟩ | ⟨-, rfl⟩⟩ <;> rfl

theorem execWritePacket_keeps_wf {s t : State} (h : execWritePacket s = .next t)
    (hs : s.pf.buf.wf Config.pfBufBytes = true) : t.pf.buf.wf Config.pfBufBytes = true := by
  rcases execWritePacket_next h with ⟨w, l, len, sent, csum, -, hsend⟩ | hbegin
  · rwa [sendTurn_buf hsend]
  · rcases beginWrite_next hbegin with rfl | ⟨len, csum, bs, -, -, -, hsend⟩
    · exact hs
    · rw [sendTurn_buf hsend]
      exact Memory.wf_putBytes bs 2 hs

/-- Every step keeps `PFBUF` canonical (spec/10_state.md R42). -/
theorem step_keeps_pfBuf_wf {s t : State} (h : step s = .next t) (hs : s.pf.buf.wf Config.pfBufBytes = true) :
    t.pf.buf.wf Config.pfBufBytes = true :=
  step_keeps_framer (fun f => f.buf.wf Config.pfBufBytes = true) (hreset := rfl) (hill := fun _ hf => hf)
    (hread := fun _ _ hf hx => execReadPacket_keeps_wf hx hf)
    (hwrite := fun _ _ hf hx => execWritePacket_keeps_wf hx hf) (hstart := fun _ _ _ hf _ => hf)
    (hcall := fun _ _ _ _ hf _ => hf) (hdl := fun _ _ hf => hf) (hst := fun _ _ hf => hf)
    (hz := fun _ _ => Memory.wf_zeros Config.pfBufBytes) (hput := fun _ i bs hf => Memory.wf_putBytes bs i hf) h hs

/-! ### Only REG_READ stores -/

/-- REG_READ's word decodes to it (spec/30_encoding.md R101, R107). -/
theorem decode_encode_regRead (dev : BitVec 7) (reg n : Byte) :
    decode .busCmd (encode (.regRead dev reg n)) = .ok (.regRead dev reg n) := by
  have hmask : encode (.regRead dev reg n) &&& 0x008000FF = 0x9 := Laws.TableRow.regRead dev reg n
  have hbit := busWord_getLsbD 0x9 false reg dev n
  change ∀ j, (encode (.regRead dev reg n)).getLsbD j = _ at hbit
  generalize encode (.regRead dev reg n) = w at hmask hbit
  have hop : fieldOp w = 0x9 := by
    refine BitVec.eq_of_getLsbD_eq fun j hj => ?_
    rw [fieldOp, BitVec.getLsbD_extractLsb', hbit]
    simp [hj]
  have hdev : fieldDev w = dev := by
    refine BitVec.eq_of_getLsbD_eq fun j hj => ?_
    rw [fieldDev, BitVec.getLsbD_extractLsb', hbit]
    interval_cases j <;> simp
  have hreg : fieldData w = reg := by
    refine BitVec.eq_of_getLsbD_eq fun j hj => ?_
    rw [fieldData, BitVec.getLsbD_extractLsb', hbit]
    interval_cases j <;> simp
  have hlen : fieldLen w = n := by
    refine BitVec.eq_of_getLsbD_eq fun j hj => ?_
    rw [fieldLen, BitVec.getLsbD_extractLsb', hbit]
    interval_cases j <;> simp
  simp only [decode, decodeBusCmd, hop, whenMasked, hdev, hreg, hlen]
  exact if_pos hmask

/-- A Bus Engine whose stores still to do are a REG_READ's has that REG_READ in progress. -/
theorem storesOnlyInRegRead_of_todoAll {b : BusEngine} {w : Word}
    (h : b.TodoAll (fun op => op.stores = true → ∃ dev reg n, decode .busCmd w = .ok (.regRead dev reg n)) w) :
    StoresOnlyInRegRead b := by
  rcases h with hidle | ⟨todo, hpos, hall⟩
  · simp only [StoresOnlyInRegRead, hidle]
  · rw [storesOnlyInRegRead_iff hpos, List.any_eq_true]
    rintro ⟨op, hop, hs⟩
    exact hall op hop hs

theorem exec_keeps_storesOnly {i : Instr} {s t : State} (hi : i.port = .busCmd) (h : exec i s = .next t)
    (hs : StoresOnlyInRegRead s.be) : StoresOnlyInRegRead t.be := by
  cases exec_busExec hi s with
  | running w todo hpos hx =>
    refine storesOnlyInRegRead_of_todoAll
      (sequencerStep_todoAll (spawnClosed_stores _) (hx.symm.trans h) (w := w) (by simp [BusEngine.word?, hpos]) ?_)
    exact fun op hop hst => (storesOnlyInRegRead_iff hpos).mp hs (List.any_eq_true.mpr ⟨op, hop, hst⟩)
  | refused c _ hx =>
    cases hx.symm.trans h
    simp [StoresOnlyInRegRead]
  | begins ops opened _ _ hops hx =>
    refine storesOnlyInRegRead_of_todoAll
      (sequencerStep_todoAll (spawnClosed_stores _) (hx.symm.trans h) (w := encode i) rfl ?_)
    intro op hop hst
    obtain ⟨dev, reg, n, rfl⟩ := hops.stores (List.any_eq_true.mpr ⟨op, hop, hst⟩)
    exact ⟨dev, reg, n, decode_encode_regRead dev reg n⟩

/-- Every step keeps REG_READ the only command with a store still to do (spec/41_bus_composite.md R203). -/
theorem step_keeps_storesOnly {s t : State} (h : step s = .next t) (hs : StoresOnlyInRegRead s.be) :
    StoresOnlyInRegRead t.be := by
  refine step_keeps_bus StoresOnlyInRegRead (hreset := trivial) (hill := ?ill)
    (hexec := fun i s t hi hb _ hx => exec_keeps_storesOnly hi hx hb) (hstart := fun b w _ _ => trivial)
    (hconf := fun b w hb _ => hb) (hstat := ?stat) (hput := fun b i bs hb _ => hb) h hs
  case ill => exact fun b _ _ => by simp [StoresOnlyInRegRead]
  case stat => exact fun b w hb => by simpa only [StoresOnlyInRegRead, BusEngine.writeStatus_pos] using hb

/-- Settles O56: each part of the invariant is kept by every step. -/
theorem buffersStayCanonical : Obligations.BuffersStayCanonical :=
  fun _ _ h => ⟨fun ⟨hbe, hpf⟩ => ⟨step_keeps_beBuf_wf h hbe, step_keeps_pfBuf_wf h hpf⟩, step_keeps_storesOnly h⟩

/-! ### A recovery required keeps the transaction closed -/

/-- `RecoveryClosed` of a Bus Engine that is about to do the operations `todo`. -/
def ClosedFor (b : BusEngine) (todo : List BusOp) : Prop :=
  (b.needRecov = true ∨ todo.any BusOp.isInitSample = true) → b.opened = false ∧ todo.all BusOp.isRecovery = true

theorem recoveryClosed_running {b : BusEngine} {w : Word} {todo : List BusOp} (hpos : b.pos = .running w todo) :
    RecoveryClosed b ↔ ClosedFor b todo := by
  simp only [RecoveryClosed, hpos, ClosedFor]

theorem recoveryClosed_not_running {b : BusEngine} (hpos : ∀ w todo, b.pos ≠ .running w todo) :
    RecoveryClosed b ↔ (b.needRecov = true → b.opened = false) := by
  unfold RecoveryClosed
  split
  · rfl
  · rfl
  · next w todo h => exact absurd h (hpos w todo)

theorem recoveryClosed_idle {b : BusEngine} (hpos : b.pos = .idle) :
    RecoveryClosed b ↔ (b.needRecov = true → b.opened = false) :=
  recoveryClosed_not_running fun w todo h => by rw [hpos] at h; cases h

/-- Whatever the position, a recovery required has the transaction closed. -/
theorem RecoveryClosed.opened {b : BusEngine} (h : RecoveryClosed b) (hrecov : b.needRecov = true) :
    b.opened = false := by
  unfold RecoveryClosed at h
  split at h
  · exact h hrecov
  · exact h hrecov
  · exact (h (.inl hrecov)).1

theorem recoveryClosed_withTodo {b : BusEngine} {w : Word} {todo : List BusOp} (hw : b.word? = some w)
    (hopen : b.opened = false) (hall : todo.all BusOp.isRecovery = true) : RecoveryClosed (b.withTodo todo) :=
  (recoveryClosed_running (BusEngine.withTodo_pos hw todo)).mpr fun _ => ⟨by simpa using hopen, hall⟩

/-- INIT's operations leave the transaction closed and more of INIT to do. -/
theorem settle_recovery {pub : Publish} {ops : List BusOp} {b : BusEngine} {w : Word} (hw : b.word? = some w)
    (hopen : b.opened = false) (hall : ops.all BusOp.isRecovery = true) : RecoveryClosed (settle pub ops b) := by
  induction ops generalizing b with
  | nil => exact recoveryClosed_withTodo hw hopen hall
  | cons op r ih =>
    obtain ⟨hop, hr⟩ : op.isRecovery = true ∧ r.all BusOp.isRecovery = true := by simpa using hall
    cases op with
    | setOpen v => exact ih hw (by simpa [BusOp.isRecovery] using hop) hr
    | release | sample | driveLow | initScl | initSda => exact recoveryClosed_withTodo hw hopen hall
    | waitScl | startCheck | arbCheck | readBit | sendLoop | startTest | shiftIn | ackTest | storeByte | readLoop
    | finish | reject | abortEnd => cases hop

/-- `settle` asks for a recovery only where an abort ends, which closes the transaction (R148). -/
theorem settle_asksRecovery {pub : Publish} {ops : List BusOp} {b : BusEngine} (hno : b.needRecov = false)
    (h : (settle pub ops b).needRecov = true) : (settle pub ops b).pos = .idle ∧ (settle pub ops b).opened = false := by
  induction ops generalizing b with
  | nil => simp [settle, hno] at h
  | cons op r ih =>
    cases op with
    | shiftIn | setOpen | storeByte => exact ih hno h
    | ackTest | sendLoop | readLoop =>
      simp only [settle] at h ⊢
      split at h
      · simp [hno] at h
      · next hc =>
        rw [if_neg hc]
        exact ih hno h
    | abortEnd => exact ⟨BusEngine.endAbort_pos _ _ _, BusEngine.endAbort_opened _ _ _⟩
    | finish | reject | startTest => simp [settle, hno] at h
    | release | sample | driveLow | waitScl | startCheck | arbCheck | readBit | initScl | initSda =>
      simp [settle, hno] at h

/-- With no sample of INIT to do, a step asks for a recovery only where an abort ends. -/
theorem LineResult.asksRecovery {pub : Publish} {todo : List BusOp} {b b' : BusEngine}
    (hb' : LineResult pub b todo b') (hno : b.needRecov = false) (hinit : ∀ op ∈ todo, op.isInitSample = false)
    (h : b'.needRecov = true) : b'.pos = .idle ∧ b'.opened = false := by
  cases hb' with
  | goesOn hb => exact settle_asksRecovery (hb.needRecov.trans hno) h
  | settles => exact settle_asksRecovery hno h
  | aborts hb => simp [hb.needRecov, hno] at h
  | waits => simp [hno] at h
  | sampled | pulses | initEnds => cases (List.forall_mem_cons.mp hinit).1

/-- A step of INIT leaves the transaction closed and more of INIT to do, or ends. -/
theorem LineResult.recovery {pub : Publish} {todo : List BusOp} {b b' : BusEngine} {w : Word}
    (hb' : LineResult pub b todo b') (hw : b.word? = some w) (hopen : b.opened = false)
    (hall : todo.all BusOp.isRecovery = true) : RecoveryClosed b' := by
  cases hb' with
  | goesOn hb =>
    exact settle_recovery (hb.word?.trans hw) (hb.opened.trans hopen) (Bool.and_eq_true_iff.mp hall).2
  | settles => exact settle_recovery hw hopen hall
  | aborts _ hop => simp [hop] at hall
  | waits => cases hall
  | sampled | pulses => exact recoveryClosed_withTodo hw hopen rfl
  | initEnds => exact (recoveryClosed_idle (BusEngine.finish_pos _ _ _)).mpr fun _ => by simpa using hopen

theorem any_isInitSample_eq_false {todo : List BusOp} :
    todo.any BusOp.isInitSample = false ↔ ∀ op ∈ todo, op.isInitSample = false := by
  simp

/-- A step keeps the transaction closed while a recovery is required. -/
theorem sequencerStep_recoveryClosed {pub : Publish} {todo : List BusOp} {s t : State} {w : Word}
    (h : sequencerStep pub todo s = .next t) (hw : s.be.word? = some w) (hs : ClosedFor s.be todo) :
    RecoveryClosed t.be := by
  obtain ⟨ops, hf, hbe⟩ := sequencerStep_line h
  have hline : LineResult pub s.be ops t.be := hbe ▸ lineStep_result _ _ _ _
  by_cases hrecov : s.be.needRecov = true ∨ todo.any BusOp.isInitSample = true
  · obtain ⟨hopen, hall⟩ := hs hrecov
    rcases hf with rfl | ⟨i, n, r, d, rfl, -⟩
    · exact hline.recovery hw hopen hall
    · cases hall
  · obtain ⟨hno, hinit⟩ : s.be.needRecov = false ∧ todo.any BusOp.isInitSample = false := by simpa using hrecov
    have hops := hf.all spawnClosed_noInitSample (any_isInitSample_eq_false.mp hinit)
    rcases hline.todoAll spawnClosed_noInitSample hw hops with hidle | ⟨todo', hpos, hall⟩
    · exact (recoveryClosed_idle hidle).mpr fun hrec => (hline.asksRecovery hno hops hrec).2
    · refine (recoveryClosed_running hpos).mpr fun hc => ?_
      rcases hc with hrec | hany
      · cases hpos.symm.trans (hline.asksRecovery hno hops hrec).1
      · rw [any_isInitSample_eq_false.mpr hall] at hany
        cases hany

theorem exec_keeps_recoveryClosed {i : Instr} {s t : State} (hi : i.port = .busCmd) (h : exec i s = .next t)
    (hs : RecoveryClosed s.be) : RecoveryClosed t.be := by
  cases exec_busExec hi s with
  | running w todo hpos hx =>
    exact sequencerStep_recoveryClosed (hx.symm.trans h) (w := w) (by simp [BusEngine.word?, hpos])
      ((recoveryClosed_running hpos).mp hs)
  | refused c _ hx =>
    cases hx.symm.trans h
    exact (recoveryClosed_idle (BusEngine.finish_pos _ _ _)).mpr (by simpa using hs.opened)
  | begins ops opened _ hrecov hops hx =>
    refine sequencerStep_recoveryClosed (hx.symm.trans h) (w := encode i) rfl fun hc => ?_
    rcases hops.recovery with hinit | ⟨hi, hno⟩
    · exact hinit
    · rcases hc with hc | hc
      · exact absurd (hrecov hc) hi
      · rw [hno] at hc
        cases hc

/-- Settles O58: reset, the window's writes and every command's step keep the transaction closed. -/
theorem recoveryStaysClosed : Obligations.RecoveryStaysClosed := by
  intro s t hs h
  refine step_keeps_bus RecoveryClosed (hreset := ?reset) (hill := ?ill)
    (hexec := fun i s t hi hb _ hx => exec_keeps_recoveryClosed hi hx hb) (hstart := fun b w hb _ => hb.opened)
    (hconf := fun b w hb _ => hb) (hstat := ?stat) (hput := fun b i bs hb _ => hb) h hs
  case reset => exact fun hrecov => by cases hrecov
  case ill =>
    exact fun b hb _ => (recoveryClosed_idle (BusEngine.finish_pos _ _ _)).mpr (by simpa using hb.opened)
  case stat =>
    exact fun b w hb => by
      simpa only [RecoveryClosed, BusEngine.writeStatus_pos, BusEngine.writeStatus_needRecov,
        BusEngine.writeStatus_opened] using hb

end Sys2Proof.Machine

/-! PROOFS. The register window: where an access goes, what the registers read and take, the reserved offsets, and the
buffers (spec/20_memory.md R71 to R76, spec/10_state.md R29 to R36). -/

namespace Sys2Proof.Machine

/-! ### A permitted access -/

theorem permitted_lt {o n : Nat} (h : permitted o n = true) : o < 0x400 := by
  simp only [permitted, Bool.and_eq_true, decide_eq_true_eq] at h
  exact h.1.1.1

/-- A permitted access is 1, 2 or 4 bytes wide and aligned to its width (spec/20_memory.md R72). -/
theorem permitted_width {o n : Nat} (h : permitted o n = true) : (n = 1 ∨ n = 2 ∨ n = 4) ∧ o % n = 0 := by
  simp only [permitted, Bool.and_eq_true, Bool.or_eq_true, beq_iff_eq] at h
  obtain ⟨⟨⟨-, hn⟩, hmod⟩, -⟩ := h
  exact ⟨by omega, hmod⟩

theorem hostRead_ok {s : State} {o n : Nat} {w : Word} (hp : permitted o n = true) (h : windowRead s o n = .ok w) :
    hostRead (s.par.blkBase + o) n s = .next { s with rdata := w } := by
  simp only [hostRead, windowOffset_add s.par o (permitted_lt hp), hp, if_true, h]

theorem hostRead_fault {s : State} {o n : Nat} {f : Fault} (hp : permitted o n = true)
    (h : windowRead s o n = .error f) : hostRead (s.par.blkBase + o) n s = .fault f := by
  simp only [hostRead, windowOffset_add s.par o (permitted_lt hp), hp, if_true, h]

theorem hostWrite_permitted {o n : Nat} (hp : permitted o n = true) (s : State) (v : Word) :
    hostWrite (s.par.blkBase + o) n v s = windowWrite s o n v := by
  simp only [hostWrite, windowOffset_add s.par o (permitted_lt hp), hp, if_true]

theorem busWrite_of_idle {s : State} (h : s.be.busy = false) (b : BusEngine) :
    busWrite s b = .next { s with be := b } := by
  simp only [busWrite, h, Bool.false_eq_true, if_false]

theorem framerWrite_of_free {s : State} (hbusy : s.pf.busy = false) (hfree : s.par.responderPresent = false)
    (f : Framer) : framerWrite s f = .next { s with pf := f } := by
  simp only [framerWrite, State.ownedByCr, hbusy, hfree, Bool.or_self, Bool.false_eq_true, if_false]

/-! ### Registers -/

theorem writeStatus_eq (b : BusEngine) (v : Word) : b.writeStatus v = { b with arb := b.arb && !v.getLsbD 3 } := by
  unfold BusEngine.writeStatus
  split
  · next h => simp only [h, Bool.not_true, Bool.and_false]
  · next h => simp only [h, Bool.not_false, Bool.and_true]

/-- Settles O51: each register's write by its region, refused neither for a busy unit nor for its owner. -/
theorem registerWrites : Obligations.RegisterWrites := by
  intro s v
  refine ⟨fun hidle => ?cmd, ?status, fun hidle => ?config, ?xcnt, fun hidle hfree => ⟨?pfCmd, ?deadline⟩, ?pfStatus,
    ?pfConfig, ?time⟩
  case cmd => exact (hostWrite_permitted (o := 0) rfl s v).trans (busWrite_of_idle hidle _)
  case status =>
    rw [← writeStatus_eq]
    exact hostWrite_permitted rfl s v
  case config => exact (hostWrite_permitted rfl s v).trans (busWrite_of_idle hidle _)
  case pfCmd => exact (hostWrite_permitted rfl s v).trans (framerWrite_of_free hidle hfree _)
  case deadline => exact (hostWrite_permitted rfl s v).trans (framerWrite_of_free hidle hfree _)
  case xcnt | pfStatus | pfConfig | time => exact hostWrite_permitted rfl s v

/-- A field of a word, from its bits. -/
theorem extractLsb'_eq_of_bits {k n : Nat} {w : Word} {x : BitVec n}
    (h : ∀ j, j < n → w.getLsbD (k + j) = x.getLsbD j) : w.extractLsb' k n = x := by
  refine BitVec.eq_of_getLsbD_eq fun j hj => ?_
  rw [BitVec.getLsbD_extractLsb', h j hj]
  simp only [hj, decide_true, Bool.true_and]

/-- Bit `j` of `BE_STATUS` (spec/10_state.md R31). -/
theorem statusWord_getLsbD (b : BusEngine) (e : Env) (j : Nat) :
    (b.statusWord e).getLsbD j =
      if j = 0 then b.busy else if j = 1 then b.opened else if j = 2 then b.rxBit else if j = 3 then b.arb
      else if j < 8 then b.code.bits.getLsbD (j - 4) else if j < 16 then b.rxByte.getLsbD (j - 8)
      else if j = 16 then b.sclOut && e.scl else if j = 17 then b.sdaOut && e.sda
      else if j = 18 then b.sclOut else if j = 19 then b.sdaOut else if j = 20 then b.needRecov
      else if j < 24 then false else if j < 28 then b.pulses.getLsbD (j - 24) else false := by
  unfold BusEngine.statusWord
  iterate 13 rw [BitVec.getLsbD_append]
  simp only [Nat.sub_sub, BitVec.getLsbD_zero, BitVec.getLsbD_ofBool, BusEngine.sample, Nat.lt_one_iff,
    Nat.sub_eq_zero_iff_le]
  rcases Nat.lt_or_ge j 28 with h | h
  · interval_cases j <;> rfl
  · grind

/-- Bit `j` of `BE_CONFIG` (R32). -/
theorem busConfigWord_getLsbD (b : BusEngine) (j : Nat) :
    b.configWord.getLsbD j =
      if j = 0 then b.arbAbort else if j = 1 then b.stretchBound else if j < 16 then false
      else b.stretchLimit.getLsbD (j - 16) := by
  unfold BusEngine.configWord
  iterate 3 rw [BitVec.getLsbD_append]
  simp only [Nat.sub_sub, BitVec.getLsbD_zero, BitVec.getLsbD_ofBool]
  grind

/-- Bit `j` of `PF_STATUS` (R35). -/
theorem framerStatusWord_getLsbD (f : Framer) (j : Nat) :
    f.statusWord.getLsbD j =
      if j = 0 then f.busy else if j < 4 then false else if j < 8 then f.result.bits.getLsbD (j - 4)
      else if j < 16 then f.count.getLsbD (j - 8) else f.checksum.getLsbD (j - 16) := by
  unfold Framer.statusWord
  iterate 4 rw [BitVec.getLsbD_append]
  simp only [Nat.sub_sub, BitVec.getLsbD_zero, BitVec.getLsbD_ofBool]
  grind

theorem statusWord_code (b : BusEngine) (e : Env) : (b.statusWord e).extractLsb' 4 4 = b.code.bits :=
  extractLsb'_eq_of_bits fun j hj => by rw [statusWord_getLsbD]; interval_cases j <;> rfl

theorem statusWord_rxByte (b : BusEngine) (e : Env) : (b.statusWord e).extractLsb' 8 8 = b.rxByte :=
  extractLsb'_eq_of_bits fun j hj => by rw [statusWord_getLsbD]; interval_cases j <;> rfl

theorem statusWord_pulses (b : BusEngine) (e : Env) : (b.statusWord e).extractLsb' 24 4 = b.pulses :=
  extractLsb'_eq_of_bits fun j hj => by rw [statusWord_getLsbD]; interval_cases j <;> rfl

/-- The reserved bits of `BE_STATUS` read 0 (R31). -/
theorem statusWord_reserved (b : BusEngine) (e : Env) :
    (b.statusWord e).extractLsb' 21 3 = 0 ∧ (b.statusWord e).extractLsb' 28 4 = 0 := by
  constructor <;>
    exact extractLsb'_eq_of_bits fun j hj => by rw [statusWord_getLsbD]; interval_cases j <;> rfl

theorem busConfigWord_stretchLimit (b : BusEngine) : b.configWord.extractLsb' 16 16 = b.stretchLimit :=
  extractLsb'_eq_of_bits fun j hj => by rw [busConfigWord_getLsbD]; interval_cases j <;> rfl

theorem busConfigWord_reserved (b : BusEngine) : b.configWord.extractLsb' 2 14 = 0 :=
  extractLsb'_eq_of_bits fun j hj => by rw [busConfigWord_getLsbD]; interval_cases j <;> rfl

theorem framerStatusWord_reserved (f : Framer) : f.statusWord.extractLsb' 1 3 = 0 :=
  extractLsb'_eq_of_bits fun j hj => by rw [framerStatusWord_getLsbD]; interval_cases j <;> rfl

theorem framerStatusWord_result (f : Framer) : f.statusWord.extractLsb' 4 4 = f.result.bits :=
  extractLsb'_eq_of_bits fun j hj => by rw [framerStatusWord_getLsbD]; interval_cases j <;> rfl

theorem framerStatusWord_count (f : Framer) : f.statusWord.extractLsb' 8 8 = f.count :=
  extractLsb'_eq_of_bits fun j hj => by rw [framerStatusWord_getLsbD]; interval_cases j <;> rfl

theorem framerStatusWord_checksum (f : Framer) : f.statusWord.extractLsb' 16 16 = f.checksum :=
  extractLsb'_eq_of_bits fun j hj => by rw [framerStatusWord_getLsbD]; interval_cases j <;> rfl

theorem xcntWord_eq (b : BusEngine) : b.xcntWord = b.xcnt.setWidth 32 := by
  refine BitVec.eq_of_getLsbD_eq fun j hj => ?_
  rw [BusEngine.xcntWord, BitVec.getLsbD_append, BitVec.getLsbD_setWidth, decide_eq_true hj, Bool.true_and]
  split
  · rfl
  · next h => rw [BitVec.getLsbD_zero, BitVec.getLsbD_of_ge _ _ (Nat.le_of_not_lt h)]

theorem framerConfigWord_eq (f : Framer) : f.configWord = if f.strict then 1 else 0 := by
  unfold Framer.configWord
  cases f.strict <;> rfl

/-- Settles O52: each register's read by its region, and its fields by the bits of its word. -/
theorem registerReads : Obligations.RegisterReads := by
  intro s
  refine ⟨⟨_, hostRead_ok rfl rfl, ?status⟩, ⟨_, hostRead_ok rfl rfl, ?config⟩, ⟨_, hostRead_ok rfl rfl, ?pfStatus⟩,
    hostRead_ok (o := 0) rfl rfl, ?xcnt, hostRead_ok rfl rfl, hostRead_ok rfl rfl, ?pfConfig, hostRead_ok rfl rfl⟩
  case status =>
    have hbit := statusWord_getLsbD s.be s.env
    refine ⟨hbit 0, hbit 1, hbit 2, hbit 3, fun c hc hcode => ?_, statusWord_rxByte _ _, hbit 16, hbit 17, hbit 18,
      hbit 19, hbit 20, (statusWord_reserved _ _).1, statusWord_pulses _ _, (statusWord_reserved _ _).2⟩
    rw [statusWord_code, hcode]
    clear hcode
    revert c
    decide
  case config =>
    have hbit := busConfigWord_getLsbD s.be
    exact ⟨hbit 0, hbit 1, busConfigWord_reserved _, busConfigWord_stretchLimit _⟩
  case pfStatus =>
    refine ⟨framerStatusWord_getLsbD s.pf 0, framerStatusWord_reserved _, fun c hc hresult => ?_,
      framerStatusWord_count _, framerStatusWord_checksum _⟩
    rw [framerStatusWord_result, hresult]
    clear hresult
    revert c
    decide
  case xcnt =>
    rw [← xcntWord_eq]
    exact hostRead_ok rfl rfl
  case pfConfig =>
    rw [← framerConfigWord_eq]
    exact hostRead_ok rfl rfl

/-! ### Reserved offsets -/

theorem regionOf_reserved {o : Nat}
    (h : (0x010 ≤ o ∧ o < 0x100) ∨ (0x214 ≤ o ∧ o < 0x300) ∨ (0x3FE ≤ o ∧ o < 0x400)) : regionOf o = .reserved := by
  rcases h with h | h | h
  all_goals
    simp only [regionOf]
    repeat rw [if_neg (show ¬ o < _ by omega)]
  all_goals rw [if_pos (by omega)]

/-- Settles O53: every offset of the three ranges is in the reserved region. -/
theorem reservedOffsets : Obligations.ReservedOffsets := by
  intro s o n v hp ho
  have hregion := regionOf_reserved ho
  constructor
  · exact hostRead_ok hp (by simp only [windowRead, hregion])
  · rw [hostWrite_permitted hp]
    simp only [windowWrite, hregion]

/-! ### Words and their bytes (spec/20_memory.md R71) -/

/-- Bit `m` of a word assembled from bytes is bit `m % 8` of byte `m / 8`. -/
theorem leWord_getLsbD (bs : List Byte) (m : Nat) :
    (leWord bs).getLsbD m = (decide (m < 32) && ((bs[m / 8]?).getD 0).getLsbD (m % 8)) := by
  induction bs generalizing m with
  | nil => simp [leWord]
  | cons b rest ih =>
    rw [leWord, BitVec.getLsbD_or, BitVec.getLsbD_shiftLeft, BitVec.getLsbD_setWidth]
    rcases Nat.lt_or_ge m 8 with h | h
    · simp [h, Nat.div_eq_of_lt h, Nat.mod_eq_of_lt h]
    · obtain ⟨k, rfl⟩ := Nat.exists_eq_add_of_le h
      rw [Nat.add_sub_cancel_left, ih, Nat.add_mod_left, Nat.add_div_left k (by decide), List.getElem?_cons_succ,
        BitVec.getLsbD_of_ge b (8 + k) h]
      by_cases hk : 8 + k < 32
      · simp [hk]
        omega
      · simp [hk]

/-- Byte `j` of a word assembled from bytes is the `j`-th of them, or 0 past their end. -/
theorem leWord_byte (bs : List Byte) {j : Nat} (hj : j < 4) :
    (leWord bs).extractLsb' (8 * j) 8 = (bs[j]?).getD 0 := by
  refine extractLsb'_eq_of_bits fun k hk => ?_
  have hdiv : (8 * j + k) / 8 = j := by omega
  have hmod : (8 * j + k) % 8 = k := by omega
  rw [leWord_getLsbD, hdiv, hmod, decide_eq_true (by omega), Bool.true_and]

/-- The low bytes of a word, assembled again, are its low bits. -/
theorem leWord_leBytes (n : Nat) (v : Word) : leWord (leBytes n v) = (v.setWidth (8 * n)).setWidth 32 := by
  refine BitVec.eq_of_getLsbD_eq fun m hm => ?_
  rw [leWord_getLsbD, BitVec.getLsbD_setWidth, BitVec.getLsbD_setWidth]
  by_cases h : m / 8 < n
  · have hm' : m < 8 * n := by omega
    have hsplit : 8 * (m / 8) + m % 8 = m := by omega
    have hmod : m % 8 < 8 := Nat.mod_lt _ (by decide)
    simp [leBytes, wordByte, h, hm', hsplit, hmod]
  · have hm' : ¬ m < 8 * n := by omega
    simp [leBytes, h, hm']

theorem leWord_leBytes_toNat (n : Nat) (v : Word) : (leWord (leBytes n v)).toNat = v.toNat % 2 ^ (8 * n) := by
  rw [leWord_leBytes, BitVec.toNat_setWidth, BitVec.toNat_setWidth]
  exact Nat.mod_eq_of_lt (Nat.lt_of_le_of_lt (Nat.mod_le _ _) v.isLt)

/-! ### Reads and writes of a buffer -/

/-- Reading bytes that hold values assembles them (R71). -/
theorem readBuffer_ok {size i n k : Nat} {m : Memory} {d : Nat → Byte} (hk : k = min n (size - i))
    (h : ∀ j, j < k → m.read (i + j) = some (d j)) : readBuffer size m i n = .ok (leWord ((List.range k).map d)) := by
  have hbytes : m.readBytes i k = some ((List.range k).map d) := by
    refine (Memory.readBytes_eq_some _ _ _ _).mpr ⟨by simp, fun j hj => ?_⟩
    rw [h j hj]
    simp [hj]
  rw [readBuffer, ← hk, hbytes]

/-- Reading a byte that holds no value is the fault UnwrittenRead (spec/10_state.md R42). -/
theorem readBuffer_fault {size i n k : Nat} {m : Memory} (hk : k = min n (size - i))
    (h : ∃ j, j < k ∧ m.read (i + j) = none) : readBuffer size m i n = .error .unwrittenRead := by
  obtain ⟨j, hj, hnone⟩ := h
  have hbytes : m.readBytes i k = none := by
    refine Option.eq_none_iff_forall_ne_some.mpr fun bs hbs => ?_
    obtain ⟨hlen, hread⟩ := (Memory.readBytes_eq_some _ _ _ _).mp hbs
    have hsome := hread j hj
    rw [hnone, List.getElem?_eq_getElem (hlen ▸ hj)] at hsome
    cases hsome
  rw [readBuffer, ← hk, hbytes]

/-- A write of `n` bytes stores the low bytes of its value that lie in the buffer, and nothing else. -/
theorem read_putBytes_leBytes {size i n k : Nat} (m : Memory) (v : Word) (hk : k = min n (size - i)) (a : Nat) :
    (m.putBytes size i (leBytes n v)).read a =
      if i ≤ a ∧ a < i + k then some (v.extractLsb' (8 * (a - i)) 8) else m.read a := by
  have hlen : (leBytes n v).length = n := by simp [leBytes]
  rw [Memory.read_putBytes, hlen]
  by_cases h : i ≤ a ∧ a < i + k
  · have hn : a - i < n := by omega
    rw [if_pos h, if_pos (by omega)]
    simp [leBytes, wordByte, hn]
  · rw [if_neg h, if_neg (by omega)]

/-- The bytes just written read back as the low bytes of the value. -/
theorem readBuffer_putBytes {size i n k : Nat} (m : Memory) (v : Word) (hk : k = min n (size - i)) :
    readBuffer size (m.putBytes size i (leBytes n v)) i n = .ok (leWord (leBytes k v)) := by
  refine readBuffer_ok hk fun j hj => ?_
  rw [read_putBytes_leBytes m v hk, if_pos ⟨by omega, by omega⟩, Nat.add_sub_cancel_left]
  rfl

theorem windowRead_beBuf {s : State} {o : Nat} (n : Nat) (hlo : 0x100 ≤ o) (hhi : o < 0x200) :
    windowRead s o n =
      if s.be.busy then .ok (truncateTo n s.env.anyValue)
      else readBuffer Config.beBufBytes s.be.buf (o - 0x100) n := by
  simp only [windowRead, regionOf_beBuf hlo hhi]

theorem windowRead_pfBuf {s : State} {o : Nat} (n : Nat) (hlo : 0x300 ≤ o) (hhi : o < 0x3FE) :
    windowRead s o n =
      if s.pf.busy || s.par.responderPresent then .ok (truncateTo n s.env.anyValue)
      else readBuffer Config.pfBufBytes s.pf.buf (o - 0x300) n := by
  simp only [windowRead, regionOf_pfBuf hlo hhi]
  rfl

theorem windowWrite_beBuf {s : State} {o : Nat} (n : Nat) (v : Word) (hlo : 0x100 ≤ o) (hhi : o < 0x200)
    (hidle : s.be.busy = false) :
    windowWrite s o n v = .next { s with be := s.be.putBytes (o - 0x100) (leBytes n v) } := by
  simp only [windowWrite, regionOf_beBuf hlo hhi, busWrite_of_idle hidle]

theorem windowWrite_pfBuf {s : State} {o : Nat} (n : Nat) (v : Word) (hlo : 0x300 ≤ o) (hhi : o < 0x3FE)
    (hidle : s.pf.busy = false) (hfree : s.par.responderPresent = false) :
    windowWrite s o n v = .next { s with pf := s.pf.putBytes (o - 0x300) (leBytes n v) } := by
  simp only [windowWrite, regionOf_pfBuf hlo hhi, framerWrite_of_free hidle hfree]

/-- A permitted read that the window answers with any value of its width (R76). -/
theorem hostRead_anyValue {s : State} {o n : Nat} (hp : permitted o n = true)
    (h : windowRead s o n = .ok (truncateTo n s.env.anyValue)) :
    ∃ w : Word, w.toNat = s.env.anyValue.toNat % 2 ^ (8 * n) ∧
      hostRead (s.par.blkBase + o) n s = .next { s with rdata := w } := by
  refine ⟨_, ?_, hostRead_ok hp h⟩
  have hn : min n 4 = n := by
    have := (permitted_width hp).1
    omega
  rw [truncateTo, hn, leWord_leBytes_toNat]

/-- A permitted read of a buffer gives the bytes it holds, least significant first, or faults (R71, R42). -/
theorem hostRead_buffer {s : State} {o n size i k : Nat} {m : Memory} (hp : permitted o n = true)
    (hw : windowRead s o n = readBuffer size m i n) (hk : k = min n (size - i)) :
    (∀ d : Nat → Byte, (∀ j, j < k → m.read (i + j) = some (d j)) →
      ∃ w : Word, (∀ j, j < 4 → w.extractLsb' (8 * j) 8 = if j < k then d j else 0) ∧
        hostRead (s.par.blkBase + o) n s = .next { s with rdata := w }) ∧
    ((∃ j, j < k ∧ m.read (i + j) = none) → hostRead (s.par.blkBase + o) n s = .fault .unwrittenRead) := by
  refine ⟨fun d hd => ⟨_, fun j hj => ?_, hostRead_ok hp (hw.trans (readBuffer_ok hk hd))⟩,
    fun hnone => hostRead_fault hp (hw.trans (readBuffer_fault hk hnone))⟩
  rw [leWord_byte _ hj]
  by_cases h : j < k <;> simp [h]

/-- Settles O50: each buffer by its region of the window, a write read back byte by byte. -/
theorem buffersReadBackLittleEndian : Obligations.BuffersReadBackLittleEndian := by
  intro s o n v hp freely stored readBack reads
  refine ⟨fun hlo hhi hidle => ?be, fun hlo hhi hbusy => ?beBusy, fun hlo hhi hidle hfree => ?pf,
    fun hlo hhi hused => ?pfUsed⟩
  case be =>
    have hk : n = min n (Config.beBufBytes - (o - 0x100)) := by
      obtain ⟨rfl | rfl | rfl, hmod⟩ := permitted_width hp <;> simp only [Config.beBufBytes] <;> omega
    have hread : ∀ t : State, t.be.busy = false →
        windowRead t o n = readBuffer Config.beBufBytes t.be.buf (o - 0x100) n := fun t ht => by
      rw [windowRead_beBuf n hlo hhi, ht, if_neg Bool.false_ne_true]
    refine ⟨hostRead_buffer hp (hread s hidle) hk, _,
      (hostWrite_permitted hp s v).trans (windowWrite_beBuf n v hlo hhi hidle), rfl,
      read_putBytes_leBytes s.be.buf v hk, leWord (leBytes n v), leWord_leBytes_toNat n v, ?_⟩
    let t : State := { s with be := s.be.putBytes (o - 0x100) (leBytes n v) }
    exact hostRead_ok (s := t) hp ((hread t hidle).trans (readBuffer_putBytes s.be.buf v hk))
  case beBusy =>
    exact hostRead_anyValue hp (by rw [windowRead_beBuf n hlo hhi, if_pos hbusy])
  case pf =>
    intro k
    have hk : k = min n (Config.pfBufBytes - (o - 0x300)) := by
      simp only [k, Config.pfBufBytes]
      omega
    have hread : ∀ t : State, t.pf.busy = false → t.par.responderPresent = false →
        windowRead t o n = readBuffer Config.pfBufBytes t.pf.buf (o - 0x300) n := fun t ht hr => by
      rw [windowRead_pfBuf n hlo hhi, ht, hr, Bool.or_self, if_neg Bool.false_ne_true]
    refine ⟨hostRead_buffer hp (hread s hidle hfree) hk, _,
      (hostWrite_permitted hp s v).trans (windowWrite_pfBuf n v hlo hhi hidle hfree), rfl,
      read_putBytes_leBytes s.pf.buf v hk, leWord (leBytes k v), leWord_leBytes_toNat k v, ?_⟩
    let t : State := { s with pf := s.pf.putBytes (o - 0x300) (leBytes n v) }
    exact hostRead_ok (s := t) hp ((hread t hidle hfree).trans (readBuffer_putBytes s.pf.buf v hk))
  case pfUsed =>
    refine hostRead_anyValue hp ?_
    rw [windowRead_pfBuf n hlo hhi, if_pos (by simpa using hused)]

end Sys2Proof.Machine

/-! PROOFS. The accesses the register window takes, the faults of the others, and what a read leaves unchanged
(spec/20_memory.md R72, R74, spec/60_exceptions.md R330, R331). -/

namespace Sys2Proof.Machine

/-! ### The accesses the window takes (spec/20_memory.md R72) -/

/-- The registers are the two ranges of spec/20_memory.md R72. -/
theorem regionOf_isRegister_iff (o : Nat) :
    (regionOf o).isRegister = true ↔ o < 0x010 ∨ (0x200 ≤ o ∧ o < 0x214) := by
  simp only [regionOf, apply_ite Region.isRegister]
  simp only [Region.isRegister, Bool.if_true_left, Bool.if_false_left, ite_self, Bool.or_eq_true, Bool.and_eq_true,
    Bool.not_eq_true', decide_eq_true_eq, decide_eq_false_iff_not, Bool.false_eq_true, or_false]
  omega

theorem permitted_iff (o n : Nat) :
    permitted o n = true ↔
      o < 0x400 ∧ (n = 1 ∨ n = 2 ∨ n = 4) ∧ o % n = 0 ∧ ((o < 0x010 ∨ (0x200 ≤ o ∧ o < 0x214)) → n = 4) := by
  rw [← regionOf_isRegister_iff]
  simp only [permitted, Bool.and_eq_true, Bool.or_eq_true, Bool.not_eq_true', decide_eq_true_eq, beq_iff_eq,
    ← Bool.not_eq_true, or_assoc, and_assoc, imp_iff_or_not]

theorem windowOffset_eq_some_iff {p : Params} {a o : Nat} :
    windowOffset p a = some o ↔ a = p.blkBase + o ∧ o < 0x400 := by
  simp only [windowOffset, Option.ite_none_right_eq_some, Option.some.injEq]
  omega

/-- A permitted access by its address: in the window, of a permitted width, aligned, and 32 bits wide at a register. -/
theorem exists_permitted_iff (p : Params) (a n : Nat) :
    (∃ o, a = p.blkBase + o ∧ permitted o n = true) ↔
      p.blkBase ≤ a ∧ a < p.blkBase + 0x400 ∧ (n = 1 ∨ n = 2 ∨ n = 4) ∧ (a - p.blkBase) % n = 0 ∧
        ((a - p.blkBase < 0x010 ∨ (0x200 ≤ a - p.blkBase ∧ a - p.blkBase < 0x214)) → n = 4) := by
  constructor
  · rintro ⟨o, rfl, hp⟩
    obtain ⟨hlt, haccess⟩ := (permitted_iff o n).mp hp
    rw [Nat.add_sub_cancel_left]
    exact ⟨by omega, by omega, haccess⟩
  · rintro ⟨hlo, hhi, haccess⟩
    exact ⟨a - p.blkBase, by omega, (permitted_iff _ _).mpr ⟨by omega, haccess⟩⟩

/-! ### The faults of an access (spec/60_exceptions.md R330, R331) -/

theorem readBuffer_error {size i n : Nat} {m : Memory} {f : Fault} (h : readBuffer size m i n = .error f) :
    f = .unwrittenRead := by
  unfold readBuffer at h
  split at h <;> cases h
  rfl

/-- The only fault of a permitted read is UnwrittenRead, at a buffer (spec/10_state.md R42). -/
theorem windowRead_error {s : State} {o n : Nat} {f : Fault} (h : windowRead s o n = .error f) :
    f = .unwrittenRead := by
  cases hregion : regionOf o <;> simp only [windowRead, hregion, reduceCtorEq] at h
  case beBuf | pfBuf =>
    split at h
    · cases h
    · exact readBuffer_error h

theorem busWrite_fault {s : State} {b : BusEngine} {f : Fault} (h : busWrite s b = .fault f) : f = .busyWrite := by
  unfold busWrite at h
  split at h <;> cases h
  rfl

theorem framerWrite_fault {s : State} {g : Framer} {f : Fault} (h : framerWrite s g = .fault f) : f = .busyWrite := by
  unfold framerWrite at h
  split at h <;> cases h
  rfl

/-- The only fault of a permitted write is BusyWrite, where its unit takes no write (spec/60_exceptions.md R331). -/
theorem windowWrite_fault {s : State} {o n : Nat} {v : Word} {f : Fault} (h : windowWrite s o n v = .fault f) :
    f = .busyWrite := by
  cases hregion : regionOf o <;> simp only [windowWrite, hregion, reduceCtorEq] at h
  case beCmd | beConfig | beBuf => exact busWrite_fault h
  case pfCmd | pfDeadline | pfBuf => exact framerWrite_fault h

theorem hostRead_badAccess_iff (a n : Nat) (s : State) :
    hostRead a n s = .fault .badAccess ↔ ¬ ∃ o, a = s.par.blkBase + o ∧ permitted o n = true := by
  constructor
  · rintro h ⟨o, rfl, hp⟩
    cases hw : windowRead s o n with
    | ok w =>
      rw [hostRead_ok hp hw] at h
      cases h
    | error f =>
      rw [hostRead_fault hp hw, windowRead_error hw] at h
      cases h
  · intro h
    unfold hostRead
    split
    · rfl
    · next o ho => exact if_neg fun hp => h ⟨o, (windowOffset_eq_some_iff.mp ho).1, hp⟩

theorem hostWrite_badAccess_iff (a n : Nat) (v : Word) (s : State) :
    hostWrite a n v s = .fault .badAccess ↔ ¬ ∃ o, a = s.par.blkBase + o ∧ permitted o n = true := by
  constructor
  · rintro h ⟨o, rfl, hp⟩
    rw [hostWrite_permitted hp] at h
    cases windowWrite_fault h
  · intro h
    unfold hostWrite
    split
    · rfl
    · next o ho => exact if_neg fun hp => h ⟨o, (windowOffset_eq_some_iff.mp ho).1, hp⟩

/-- Settles O47: an access that is not permitted is BadAccess, and a permitted one has no other fault than UnwrittenRead
for a read and BusyWrite for a write. -/
theorem badAccessExactlyWhenNotPermitted : Obligations.BadAccessExactlyWhenNotPermitted := by
  intro s a n v ok
  have hok : (∃ o, a = s.par.blkBase + o ∧ permitted o n = true) ↔ ok := exists_permitted_iff s.par a n
  rw [hostRead_badAccess_iff, hostWrite_badAccess_iff, hok]
  exact ⟨Iff.rfl, Iff.rfl⟩

/-! ### Reads (spec/20_memory.md R74) -/

/-- The reads that complete, and the state they answer. -/
theorem hostRead_next_iff {a n : Nat} {s t : State} :
    hostRead a n s = .next t ↔
      ∃ o w, a = s.par.blkBase + o ∧ permitted o n = true ∧ windowRead s o n = .ok w ∧ t = { s with rdata := w } := by
  constructor
  · intro h
    obtain ⟨o, rfl, hp⟩ : ∃ o, a = s.par.blkBase + o ∧ permitted o n = true := by
      by_contra hno
      rw [(hostRead_badAccess_iff a n s).mpr hno] at h
      cases h
    cases hw : windowRead s o n with
    | ok w =>
      rw [hostRead_ok hp hw] at h
      cases h
      exact ⟨o, w, rfl, hp, hw, rfl⟩
    | error f =>
      rw [hostRead_fault hp hw] at h
      cases h
  · rintro ⟨o, w, rfl, hp, hw, rfl⟩
    exact hostRead_ok hp hw

/-- Settles O49: the value of a read does not depend on the value read before, which is all that a read changes. -/
theorem hostReadsChangeNothing : Obligations.HostReadsChangeNothing := by
  intro s t a n h
  refine ⟨hostRead_next h, ?_⟩
  obtain ⟨o, w, ha, hp, hw, rfl⟩ := hostRead_next_iff.mp h
  exact hostRead_next_iff.mpr ⟨o, w, ha, hp, (windowRead_rdata s w o n).trans hw, rfl⟩

end Sys2Proof.Machine

/-! PROOFS. Decoding and encoding: the fields of an encoded word, which words are the encoding of an instruction, and
the statements about the decoders (spec/30_encoding.md R101 to R117). -/

namespace Sys2Proof

/-! ### The fields of an encoded word (R101, R115) -/

section Fields
open Sys2Proof.Machine (extractLsb'_eq_of_bits)

@[simp] theorem fieldOp_busWord (op : BitVec 4) (b : Bool) (data : Byte) (dev : BitVec 7) (len : Byte) :
    fieldOp (busWord op b data dev len) = op :=
  extractLsb'_eq_of_bits fun j hj => by rw [busWord_getLsbD, Nat.zero_add, if_pos hj]

@[simp] theorem fieldB_busWord (op : BitVec 4) (b : Bool) (data : Byte) (dev : BitVec 7) (len : Byte) :
    fieldB (busWord op b data dev len) = b := busWord_getLsbD op b data dev len 4

@[simp] theorem fieldData_busWord (op : BitVec 4) (b : Bool) (data : Byte) (dev : BitVec 7) (len : Byte) :
    fieldData (busWord op b data dev len) = data :=
  extractLsb'_eq_of_bits fun j hj => by rw [busWord_getLsbD]; interval_cases j <;> rfl

@[simp] theorem fieldDev_busWord (op : BitVec 4) (b : Bool) (data : Byte) (dev : BitVec 7) (len : Byte) :
    fieldDev (busWord op b data dev len) = dev :=
  extractLsb'_eq_of_bits fun j hj => by rw [busWord_getLsbD]; interval_cases j <;> rfl

@[simp] theorem fieldLen_busWord (op : BitVec 4) (b : Bool) (data : Byte) (dev : BitVec 7) (len : Byte) :
    fieldLen (busWord op b data dev len) = len :=
  extractLsb'_eq_of_bits fun j hj => by rw [busWord_getLsbD]; interval_cases j <;> rfl

@[simp] theorem fieldPktLength_headerWord (len typ : Byte) (csum : Half) :
    fieldPktLength (headerWord len typ csum) = len :=
  extractLsb'_eq_of_bits fun j hj => by rw [headerWord_getLsbD, Nat.zero_add, if_pos hj]

@[simp] theorem fieldPktType_headerWord (len typ : Byte) (csum : Half) :
    fieldPktType (headerWord len typ csum) = typ :=
  extractLsb'_eq_of_bits fun j hj => by rw [headerWord_getLsbD]; interval_cases j <;> rfl

@[simp] theorem fieldPktChecksum_headerWord (len typ : Byte) (csum : Half) :
    fieldPktChecksum (headerWord len typ csum) = csum :=
  extractLsb'_eq_of_bits fun j hj => by rw [headerWord_getLsbD]; interval_cases j <;> rfl

end Fields

/-- A header word is put together again from its fields, which cover every bit (R115). -/
theorem headerWord_fields (w : Word) :
    headerWord (fieldPktLength w) (fieldPktType w) (fieldPktChecksum w) = w := by
  refine BitVec.eq_of_getLsbD_eq fun j hj => ?_
  rw [headerWord_getLsbD, fieldPktLength, fieldPktType, fieldPktChecksum]
  interval_cases j <;> simp

/-! ### The words that encode a `BE_CMD` instruction (R103, R104) -/

/-- Words are equal when they agree under a mask and at each bit outside it. -/
theorem eq_of_masked {x w m : Word} (h : x &&& m = w &&& m)
    (hfree : ∀ j, j < 32 → m.getLsbD j = false → x.getLsbD j = w.getLsbD j) : x = w := by
  refine BitVec.eq_of_getLsbD_eq fun j hj => ?_
  cases hm : m.getLsbD j with
  | false => exact hfree j hj hm
  | true => simpa [hm] using congrArg (·.getLsbD j) h

/-- A word with the fixed bits of an instruction's row, and the instruction's bits where the row leaves them free, is
its encoding. -/
theorem encode_eq_of_row {i : Instr} {w m p : Word} (hrow : encode i &&& m = p) (h : w &&& m = p)
    (hfree : ∀ j, j < 32 → m.getLsbD j = false → (encode i).getLsbD j = w.getLsbD j) : encode i = w :=
  eq_of_masked (hrow.trans h.symm) hfree

/-- An instruction with no operand fixes every bit of its word. -/
theorem encode_fixed_iff {i : Instr} {p : Word} (hrow : encode i &&& 0xFFFFFFFF = p) (w : Word) :
    encode i = w ↔ w &&& 0xFFFFFFFF = p := by
  have hall : ∀ j, j < 32 → (0xFFFFFFFF : Word).getLsbD j ≠ false := by decide
  exact ⟨fun h => h ▸ hrow, fun h => encode_eq_of_row hrow h fun j hj hfree => absurd hfree (hall j hj)⟩

theorem freeBits_bit : ∀ j, j < 32 → (0xFFFFFFEF : Word).getLsbD j = false → j = 4 := by decide

theorem freeBits_byte : ∀ j, j < 32 → (0xFFFF00FF : Word).getLsbD j = false → 8 ≤ j ∧ j < 16 := by decide

theorem freeBits_register : ∀ j, j < 32 → (0x008000FF : Word).getLsbD j = false → 8 ≤ j ∧ j ≠ 23 := by decide

/-- The words of an instruction whose operand is bit 4. -/
theorem encode_bit_iff {i : Instr} {op : BitVec 4} {b : Bool} {p : Word} (hi : encode i = busWord op b 0 0 0)
    (hrow : encode i &&& 0xFFFFFFEF = p) (w : Word) : encode i = w ↔ w &&& 0xFFFFFFEF = p ∧ b = fieldB w := by
  refine ⟨?_, fun ⟨h, hb⟩ => encode_eq_of_row hrow h fun j hj hfree => ?_⟩
  · rintro rfl
    exact ⟨hrow, by rw [hi, fieldB_busWord]⟩
  · obtain rfl := freeBits_bit j hj hfree
    rw [hi]
    exact (fieldB_busWord ..).trans hb

theorem encode_writeBit_iff (b : Bool) (w : Word) :
    encode (.writeBit b) = w ↔ w &&& 0xFFFFFFEF = 0x4 ∧ b = fieldB w :=
  encode_bit_iff rfl (Laws.TableRow.writeBit b) w

theorem encode_readByte_iff (k : Bool) (w : Word) :
    encode (.readByte k) = w ↔ w &&& 0xFFFFFFEF = 0x7 ∧ k = fieldB w :=
  encode_bit_iff rfl (Laws.TableRow.readByte k) w

theorem encode_writeByte_iff (d : Byte) (w : Word) :
    encode (.writeByte d) = w ↔ w &&& 0xFFFF00FF = 0x6 ∧ d = fieldData w := by
  refine ⟨?_, fun ⟨h, hd⟩ => encode_eq_of_row (Laws.TableRow.writeByte d) h fun j hj hfree => ?_⟩
  · rintro rfl
    exact ⟨Laws.TableRow.writeByte d, (fieldData_busWord ..).symm⟩
  · obtain ⟨h8, h16⟩ := freeBits_byte j hj hfree
    rw [hd, encode, busWord_getLsbD, fieldData]
    interval_cases j <;> simp

/-- The free bits of a register command are its three operands. -/
theorem busWord_register_bits {op : BitVec 4} {w : Word} {j : Nat} (h : 8 ≤ j ∧ j ≠ 23) (hj : j < 32) :
    (busWord op false (fieldData w) (fieldDev w) (fieldLen w)).getLsbD j = w.getLsbD j := by
  obtain ⟨h8, h23⟩ := h
  rw [busWord_getLsbD, fieldData, fieldDev, fieldLen]
  interval_cases j <;> simp at h23 ⊢

/-- The words of a register command. -/
theorem encode_register_iff {i : Instr} {op : BitVec 4} {dev : BitVec 7} {reg n : Byte} {p : Word}
    (hi : encode i = busWord op false reg dev n) (hrow : encode i &&& 0x008000FF = p) (w : Word) :
    encode i = w ↔ w &&& 0x008000FF = p ∧ dev = fieldDev w ∧ reg = fieldData w ∧ n = fieldLen w := by
  constructor
  · rintro rfl
    exact ⟨hrow, by simp [hi]⟩
  · rintro ⟨h, rfl, rfl, rfl⟩
    refine encode_eq_of_row hrow h fun j hj hfree => ?_
    rw [hi]
    exact busWord_register_bits (freeBits_register j hj hfree) hj

theorem encode_regWrite_iff (dev : BitVec 7) (reg n : Byte) (w : Word) : encode (.regWrite dev reg n) = w ↔
    w &&& 0x008000FF = 0x8 ∧ dev = fieldDev w ∧ reg = fieldData w ∧ n = fieldLen w :=
  encode_register_iff rfl (Laws.TableRow.regWrite dev reg n) w

theorem encode_regRead_iff (dev : BitVec 7) (reg n : Byte) (w : Word) : encode (.regRead dev reg n) = w ↔
    w &&& 0x008000FF = 0x9 ∧ dev = fieldDev w ∧ reg = fieldData w ∧ n = fieldLen w :=
  encode_register_iff rfl (Laws.TableRow.regRead dev reg n) w

/-! ### The decoder of `BE_CMD` words (R107) -/

theorem whenMasked_eq_ok_iff {w m p : Word} {i i' : Instr} : whenMasked w m p i = .ok i' ↔ w &&& m = p ∧ i = i' := by
  unfold whenMasked
  split <;> simp_all

/-- Where a word's operation selects a row whose fixed bits it has, it decodes to that row. -/
theorem whenMasked_of_row {w m p : Word} (h : w &&& m = p) (i : Instr) : whenMasked w m p i = .ok i :=
  if_pos h

open Laws.TableRow (maskMatch) in
theorem decodeBusCmd_encode {i : Instr} (hi : i.port = .busCmd) : decode .busCmd (encode i) = .ok i := by
  cases i with
  | init | start | stop | readBit => rfl
  | writeBit b => simpa [decode, decodeBusCmd, encode, maskMatch] using whenMasked_of_row (Laws.TableRow.writeBit b) _
  | writeByte d => simpa [decode, decodeBusCmd, encode, maskMatch] using whenMasked_of_row (Laws.TableRow.writeByte d) _
  | readByte k => simpa [decode, decodeBusCmd, encode, maskMatch] using whenMasked_of_row (Laws.TableRow.readByte k) _
  | regWrite dev reg n =>
    have hrow := Laws.TableRow.regWrite dev reg n
    simpa [decode, decodeBusCmd, encode, maskMatch] using whenMasked_of_row hrow _
  | regRead dev reg n =>
    have hrow := Laws.TableRow.regRead dev reg n
    simpa [decode, decodeBusCmd, encode, maskMatch] using whenMasked_of_row hrow _
  | readPacket | writePacket | pktAck | pktNak | pktReset | pktId | pktWriteReg | pktReadReg | pktEcho | pktSsn | pktUid
  | pktOpt | pktIsn | pktDiag => cases hi

theorem encode_of_decodeBusCmd {w : Word} {i : Instr} (h : decode .busCmd w = .ok i) : encode i = w := by
  simp only [decode, decodeBusCmd] at h
  split at h
  case h_10 => cases h
  all_goals obtain ⟨hrow, rfl⟩ := whenMasked_eq_ok_iff.mp h
  case h_1 => exact (encode_fixed_iff Laws.TableRow.init w).mpr hrow
  case h_2 => exact (encode_fixed_iff Laws.TableRow.start w).mpr hrow
  case h_3 => exact (encode_fixed_iff Laws.TableRow.stop w).mpr hrow
  case h_4 => exact (encode_writeBit_iff ..).mpr ⟨hrow, rfl⟩
  case h_5 => exact (encode_fixed_iff Laws.TableRow.readBit w).mpr hrow
  case h_6 => exact (encode_writeByte_iff ..).mpr ⟨hrow, rfl⟩
  case h_7 => exact (encode_readByte_iff ..).mpr ⟨hrow, rfl⟩
  case h_8 => exact (encode_regWrite_iff ..).mpr ⟨hrow, rfl, rfl, rfl⟩
  case h_9 => exact (encode_regRead_iff ..).mpr ⟨hrow, rfl, rfl, rfl⟩

/-! ### The decoders of `PF_CMD` words and of packet headers (R113, R117) -/

theorem decodeFramerCmd_encode {i : Instr} (hi : i.port = .framerCmd) : decode .framerCmd (encode i) = .ok i := by
  cases i with
  | readPacket | writePacket => rfl
  | init | start | stop | writeBit | readBit | writeByte | readByte | regWrite | regRead | pktAck | pktNak | pktReset
  | pktId | pktWriteReg | pktReadReg | pktEcho | pktSsn | pktUid | pktOpt | pktIsn | pktDiag => cases hi

theorem encode_of_decodeFramerCmd {w : Word} {i : Instr} (h : decode .framerCmd w = .ok i) : encode i = w := by
  simp only [decode, decodeFramerCmd] at h
  split_ifs at h with h1 h2
  · cases h; exact h1.symm
  · cases h; exact h2.symm

theorem decodePacket_encode {i : Instr} (hi : i.port = .packet) : decode .packet (encode i) = .ok i := by
  cases i with
  | init | start | stop | writeBit | readBit | writeByte | readByte | regWrite | regRead | readPacket | writePacket =>
    cases hi
  | pktAck | pktNak | pktReset | pktId | pktWriteReg | pktReadReg | pktEcho | pktSsn | pktUid | pktOpt | pktIsn
  | pktDiag => simp [decode, decodePacket, encode]

/-- A header word with type `t` is put together again from its length, `t` and its checksum. -/
theorem headerWord_of_type {w : Word} {t : Byte} (h : (fieldPktType w).toNat = t.toNat) :
    headerWord (fieldPktLength w) t (fieldPktChecksum w) = w := by
  rw [← BitVec.eq_of_toNat_eq h, headerWord_fields]

theorem encode_of_decodePacket {w : Word} {i : Instr} (h : decode .packet w = .ok i) : encode i = w := by
  simp only [decode, decodePacket] at h
  split at h
  case h_13 => cases h
  all_goals
    cases h
    exact headerWord_of_type ‹_›

/-- From 12 on a type code is undefined (R117). -/
theorem decodePacket_undefined {w : Word} (h : 12 ≤ (fieldPktType w).toNat) :
    decode .packet w = .error .undefinedType := by
  simp only [decode, decodePacket]
  split
  case h_13 => rfl
  all_goals omega

theorem decodeFramerCmd_eq_ok_iff {i : Instr} (hi : i.port = .framerCmd) (w : Word) :
    decode .framerCmd w = .ok i ↔ w = encode i :=
  ⟨fun h => (encode_of_decodeFramerCmd h).symm, fun h => h ▸ decodeFramerCmd_encode hi⟩

theorem decodeFramerCmd_illegal_iff (w : Word) :
    decode .framerCmd w = .error .illegalFramerWord ↔ w ≠ 0x00000001 ∧ w ≠ 0x00000002 := by
  simp only [decode, decodeFramerCmd]
  split_ifs <;> simp_all

/-! ### The statements -/

/-- Settles O1: for each port, the word of an instruction has its row's fixed bits and gives its operands back, and a
word that decodes is put together again from them. -/
theorem decodeEncodeAgree : Obligations.DecodeEncodeAgree := by
  refine ⟨fun i => ?_, fun p w i h => ⟨?_, Machine.decode_port h⟩⟩
  · cases hp : i.port with
    | busCmd => exact decodeBusCmd_encode hp
    | framerCmd => exact decodeFramerCmd_encode hp
    | packet => exact decodePacket_encode hp
  · cases p with
    | busCmd => exact encode_of_decodeBusCmd h
    | framerCmd => exact encode_of_decodeFramerCmd h
    | packet => exact encode_of_decodePacket h

/-- A `BE_CMD` word decodes to an instruction exactly when it is its encoding. -/
theorem decodeBusCmd_eq_ok_iff {i : Instr} (hi : i.port = .busCmd) (w : Word) :
    decode .busCmd w = .ok i ↔ encode i = w :=
  ⟨encode_of_decodeBusCmd, fun h => h ▸ decodeBusCmd_encode hi⟩

/-- A word is illegal exactly when no instruction has it as its encoding. -/
theorem decodeBusCmd_error_iff (w : Word) :
    (∃ e, decode .busCmd w = .error e) ↔ ∀ i : Instr, i.port = .busCmd → encode i ≠ w := by
  constructor
  · rintro ⟨e, he⟩ i hi rfl
    cases (decodeBusCmd_encode hi).symm.trans he
  · intro h
    cases hd : decode .busCmd w with
    | error e => exact ⟨e, rfl⟩
    | ok i => exact absurd (encode_of_decodeBusCmd hd) (h i (Machine.decode_port hd))

/-- Settles O2: a word decodes to an instruction exactly when it is its encoding, that is, by its row's mask and
operands. -/
theorem busDecodeByMask : Obligations.BusDecodeByMask := by
  intro w
  have fixed {i : Instr} (hi : i.port = .busCmd) {p : Word} (hrow : encode i &&& 0xFFFFFFFF = p) :
      decode .busCmd w = .ok i ↔ w &&& 0xFFFFFFFF = p :=
    (decodeBusCmd_eq_ok_iff hi w).trans (encode_fixed_iff hrow w)
  refine ⟨fixed rfl Laws.TableRow.init, fixed rfl Laws.TableRow.start, fixed rfl Laws.TableRow.stop, fun b => ?_,
    fixed rfl Laws.TableRow.readBit, fun d => ?_, fun k => ?_, fun dev reg n => ?_, fun dev reg n => ?_, ?illegal⟩
  · exact (decodeBusCmd_eq_ok_iff rfl w).trans (encode_writeBit_iff b w)
  · exact (decodeBusCmd_eq_ok_iff rfl w).trans (encode_writeByte_iff d w)
  · exact (decodeBusCmd_eq_ok_iff rfl w).trans (encode_readByte_iff k w)
  · exact (decodeBusCmd_eq_ok_iff rfl w).trans (encode_regWrite_iff dev reg n w)
  · exact (decodeBusCmd_eq_ok_iff rfl w).trans (encode_regRead_iff dev reg n w)
  case illegal =>
    rw [decodeBusCmd_error_iff]
    constructor
    · intro h
      exact ⟨fun e => h .init rfl e.symm, fun e => h .start rfl e.symm, fun e => h .stop rfl e.symm,
        fun e => h _ rfl ((encode_writeBit_iff _ w).mpr ⟨e, rfl⟩), fun e => h .readBit rfl e.symm,
        fun e => h _ rfl ((encode_writeByte_iff _ w).mpr ⟨e, rfl⟩),
        fun e => h _ rfl ((encode_readByte_iff _ w).mpr ⟨e, rfl⟩),
        fun e => h _ rfl ((encode_regWrite_iff _ _ _ w).mpr ⟨e, rfl, rfl, rfl⟩),
        fun e => h _ rfl ((encode_regRead_iff _ _ _ w).mpr ⟨e, rfl, rfl, rfl⟩)⟩
    · rintro ⟨hinit, hstart, hstop, hwriteBit, hreadBit, hwriteByte, hreadByte, hregWrite, hregRead⟩ i hi rfl
      cases i with
      | init => exact hinit rfl
      | start => exact hstart rfl
      | stop => exact hstop rfl
      | writeBit b => exact hwriteBit (Laws.TableRow.writeBit b)
      | readBit => exact hreadBit rfl
      | writeByte d => exact hwriteByte (Laws.TableRow.writeByte d)
      | readByte k => exact hreadByte (Laws.TableRow.readByte k)
      | regWrite dev reg n => exact hregWrite (Laws.TableRow.regWrite dev reg n)
      | regRead dev reg n => exact hregRead (Laws.TableRow.regRead dev reg n)
      | readPacket | writePacket | pktAck | pktNak | pktReset | pktId | pktWriteReg | pktReadReg | pktEcho | pktSsn
      | pktUid | pktOpt | pktIsn | pktDiag => cases hi

/-- The header bytes of a packet, in the order they travel, are the header word of its fields (R115). -/
theorem leWord_header (len t c0 c1 : Byte) : Machine.leWord [len, t, c0, c1] = headerWord len t (c1 ++ c0) := by
  refine BitVec.eq_of_getLsbD_eq fun j hj => ?_
  rw [Machine.leWord_getLsbD, headerWord_getLsbD, BitVec.getLsbD_append]
  interval_cases j <;> rfl

/-- Settles O3: the framer's two words by cases, and each packet type as the header word of its encoding. -/
theorem framerWordAndPacketTypeDecoding : Obligations.FramerWordAndPacketTypeDecoding := by
  refine ⟨fun w => ⟨decodeFramerCmd_eq_ok_iff rfl w, decodeFramerCmd_eq_ok_iff rfl w, decodeFramerCmd_illegal_iff w⟩,
    fun len c0 c1 => ?_⟩
  simp only [leWord_header]
  exact ⟨decodePacket_encode (i := .pktAck len _) rfl, decodePacket_encode (i := .pktNak len _) rfl,
    decodePacket_encode (i := .pktReset len _) rfl, decodePacket_encode (i := .pktId len _) rfl,
    decodePacket_encode (i := .pktWriteReg len _) rfl, decodePacket_encode (i := .pktReadReg len _) rfl,
    decodePacket_encode (i := .pktEcho len _) rfl, decodePacket_encode (i := .pktSsn len _) rfl,
    decodePacket_encode (i := .pktUid len _) rfl, decodePacket_encode (i := .pktOpt len _) rfl,
    decodePacket_encode (i := .pktIsn len _) rfl, decodePacket_encode (i := .pktDiag len _) rfl,
    fun t ht => decodePacket_undefined (by rwa [fieldPktType_headerWord])⟩

/-- Settles O4: each worked word is the encoding listed beside it, and so decodes to it. -/
theorem workedEncodings : Obligations.WorkedEncodings := by
  intro p hp
  have hword : encode p.2 = p.1 ∧ p.2.port = .busCmd := by
    simp only [List.mem_cons, List.not_mem_nil, or_false] at hp
    rcases hp with rfl | rfl | rfl | rfl | rfl | rfl | rfl | rfl | rfl | rfl | rfl <;> exact ⟨rfl, rfl⟩
  exact ⟨(decodeBusCmd_eq_ok_iff hword.2 p.1).mpr hword.1, hword.1⟩

end Sys2Proof

/-! PROOFS. The dispatch step's replies that carry a payload, byte by byte (spec/43_responder.md R282, R289 to R292),
and the command words that encode no instruction (spec/30_encoding.md R111, R114). -/

namespace Sys2Proof.Machine

/-! ### Replies (R282) -/

/-- A dispatch step that writes a payload and replies with type `t` leaves `reply`'s bytes. -/
theorem repliesWith_payload {i : Instr} {s : State} {t : Byte} {p : List Byte} (hp : p.length ≤ Config.maxPayload)
    (h : exec i s = replied s ((s.pf.putBytes 4 p).reply t p.length)) :
    RepliesWith i s (replyBytes s.pf.buf t p) := by
  refine ⟨((s.pf.putBytes 4 p).reply t p.length).buf, h, fun a => ?_⟩
  rw [Framer.read_reply, Framer.read_payload s.pf p a hp]
  rfl

/-- `reply(NAK, 0)` (R287, R293). -/
theorem repliesWith_nak {i : Instr} {s : State} (h : exec i s = replyNak s) :
    RepliesWith i s (replyBytes s.pf.buf 1 []) :=
  repliesWith_payload (p := []) (Nat.zero_le _) h

/-- A payload answered with ACK, its bytes spelt out. -/
theorem repliesWith_ack {i : Instr} {s : State} {p : List Byte} {bytes : Nat → Option Byte}
    (hp : p.length ≤ Config.maxPayload) (h : exec i s = replyPayload s p)
    (hbytes : ∀ a, replyBytes s.pf.buf 0 p a = bytes a) : RepliesWith i s bytes :=
  funext hbytes ▸ repliesWith_payload hp h

/-- Past its payload a reply leaves the buffer as it was. -/
theorem replyBytes_past {m : Memory} {t : Byte} {p : List Byte} {a : Nat} (h : 4 + p.length ≤ a) :
    replyBytes m t p a = m.read a := by
  rw [replyBytes, if_neg (by omega), if_neg (by omega), if_neg (by omega)]

/-! ### The identity record (R289, spec/30_encoding.md R119) -/

/-- A record that keeps the constraints of R289 has a hash of 8 bytes and an info string of 1 to 220. -/
theorem identOk_lengths {x : Ident} (h : identOk x = true) :
    x.buildHash.length = 8 ∧ x.buildInfo.length ≤ 220 := by
  simp only [identOk, Bool.and_eq_true, beq_iff_eq, decide_eq_true_eq] at h
  obtain ⟨⟨⟨⟨hhash, -⟩, -⟩, hinfo⟩, -⟩ := h
  exact ⟨hhash, hinfo⟩

theorem identPayload_length {x : Ident} (h : x.buildHash.length = 8) :
    (identPayload x).length = 16 + x.buildInfo.length := by
  simp [identPayload, h]
  omega

/-- The identity record's strings in the reply: the hash from byte 11, the info string's length at byte 19, and the info
string after it. -/
theorem identPayload_strings {x : Ident} (h : x.buildHash.length = 8) {a : Nat} (ha : 11 ≤ a) :
    (identPayload x)[a - 4]? =
      if a < 19 then x.buildHash[a - 11]?
      else if a = 19 then some (BitVec.ofNat 8 x.buildInfo.length) else x.buildInfo[a - 20]? := by
  obtain ⟨k, rfl⟩ := Nat.exists_eq_add_of_le ha
  have hsplit : (identPayload x)[11 + k - 4]? =
      (x.buildHash ++ (BitVec.ofNat 8 x.buildInfo.length :: x.buildInfo))[k]? := by
    rw [identPayload, List.append_assoc, List.append_assoc, List.getElem?_append_right (by simp; omega)]
    simp [show 11 + k - 4 - 7 = k by omega]
  rw [hsplit, Nat.add_sub_cancel_left]
  rcases Nat.lt_trichotomy k 8 with hk | rfl | hk
  · rw [List.getElem?_append_left (by omega), if_pos (by omega)]
  · rw [List.getElem?_append_right (by omega), h]
    rfl
  · obtain ⟨m, rfl⟩ := Nat.exists_eq_add_of_lt hk
    rw [List.getElem?_append_right (by omega), h, if_neg (by omega), if_neg (by omega),
      show 8 + m + 1 - 8 = m + 1 by omega, show 11 + (8 + m + 1) - 20 = m by omega, List.getElem?_cons_succ]

/-- Settles O40: the reply's payload is the identity record, whose fixed bytes are read off and whose strings are found
by their lengths. -/
theorem idPacketAnswered : Obligations.IdPacketAnswered := by
  intro len csum s hident
  obtain ⟨hhash, hinfo⟩ := identOk_lengths hident
  have hlen := identPayload_length hhash
  refine ⟨fun h => repliesWith_nak (if_neg (by rw [h]; decide)), fun h => ?_⟩
  refine repliesWith_ack (p := identPayload s.par.ident) (by simp only [hlen, Config.maxPayload]; omega) (if_pos h)
    fun a => ?_
  rw [replyBytes, hlen, ← Nat.add_assoc]
  by_cases hfixed : a < 11
  · interval_cases a <;> simp [identPayload, lowByte, highByte] <;> omega
  · have hne : ∀ c, c < 11 → a ≠ c := by omega
    have h11 : 11 ≤ a := Nat.le_of_not_lt hfixed
    have h4 : 4 ≤ a := by omega
    simp only [hne, identPayload_strings hhash h11, h11, h4, Nat.reduceLT, if_false, true_and]
    split_ifs <;> first | rfl | omega

/-! ### The unique id (R291, R292, spec/30_encoding.md R120, R121) -/

theorem uidDraw_eq (e : Env) (j : Nat) : uidDraw e j = ([e.uid0, e.uid1, e.uid2, e.uid3][j]?).getD 0 := by
  rcases j with _ | _ | _ | _ | j <;> rfl

/-- Settles O42: the payload's 20 bytes are the count, three zeros and the bytes of four words. -/
theorem ssnPacketAnswered : Obligations.SsnPacketAnswered := by
  intro len csum s hlo hhi
  refine ⟨fun h => repliesWith_nak (if_neg (by rw [h]; decide)), fun h => ?_⟩
  refine repliesWith_ack (p := ssnPayload s.par s.env) (Nat.le_of_ble_eq_true rfl) (if_pos h) fun a => ?_
  have hslot : ∀ j, uidSlot s.par s.env j =
      if j < s.par.uidWords then ([s.env.uid0, s.env.uid1, s.env.uid2, s.env.uid3][j]?).getD 0 else 0 := by
    intro j
    rw [uidSlot, uidDraw_eq]
  simp only [← hslot]
  by_cases ha : a < 24
  · interval_cases a <;> rfl
  · have hne : ∀ c, c < 24 → a ≠ c := by omega
    rw [replyBytes_past (p := ssnPayload s.par s.env) (Nat.le_of_not_lt ha)]
    simp [hne, ha, show ¬ a < 8 by omega]

/-- The unique id's bytes by index: byte `k` is byte `k % 4` of word `k / 4` (R292). -/
theorem uidBytes_eq (p : Params) (e : Env) :
    uidBytes p e = (List.range (4 * p.uidWords)).map fun k => (uidDraw e (k / 4)).extractLsb' (8 * (k % 4)) 8 := by
  unfold uidBytes
  induction p.uidWords with
  | zero => rfl
  | succ n ih =>
    rw [List.range_succ, List.map_append, List.flatten_append, ih, Nat.mul_succ, List.range_add, List.map_append]
    congr 1
    have hblock : ∀ j, (4 * n + j) / 4 = n + j / 4 ∧ (4 * n + j) % 4 = j % 4 := by omega
    have hbyte : ∀ j, j < 4 → j / 4 = 0 ∧ j % 4 = j := by omega
    simp +contextual [hblock, hbyte, leBytes, wordByte]

/-- Settles O43: the payload is the first six bytes of the digest of the unique id's bytes. -/
theorem uidPacketAnswered : Obligations.UidPacketAnswered := by
  intro len csum s hlo hhi
  refine ⟨fun h => repliesWith_nak (if_neg (by rw [h]; decide)), fun h => ?_⟩
  refine repliesWith_ack (p := fingerprint s.par s.env) (Nat.le_of_ble_eq_true rfl) (if_pos h) fun a => ?_
  simp only [← uidDraw_eq, ← uidBytes_eq]
  by_cases ha : a < 10
  · interval_cases a <;> rfl
  · have hne : ∀ c, c < 10 → a ≠ c := by omega
    rw [replyBytes_past (p := fingerprint s.par s.env) (Nat.le_of_not_lt ha)]
    simp [hne, ha]

/-! ### Words that encode no instruction -/

/-- Settles O6: the turn's agent finds its latched word and, decoding it in vain, ends the command. -/
theorem illegalWordsEndAtOnce : Obligations.IllegalWordsEndAtOnce := by
  refine fun s e rest w hp => ⟨fun err h hpos herr => ⟨{}, ?_⟩, fun l h hpos h1 h2 => ?_⟩
  · refine (step_of_script hp h).trans ?_
    simp only [agentStep, busAgent, BusEngine.word?, hpos, herr]
    rfl
  · refine (step_of_script hp h).trans ?_
    have herr : decode .framerCmd w = .error .illegalFramerWord := (decodeFramerCmd_illegal_iff w).mpr ⟨h1, h2⟩
    simp only [agentStep, framerAgent, Framer.word?, hpos, herr]
    rfl

end Sys2Proof.Machine

/-! PROOFS. The bits a Bus Engine command clocks onto the bus while it runs (spec/40_bus_primitives.md R149 to R165): each
procedure's steps give the state after them, as the laws of its runs say, and the bits of its trace. -/

namespace Sys2Proof.Machine

/-! ### Runs with the bits they clock -/

/-- The steps `es` of command `i` lead from `s` to `t`, and the master clocks `bits` in them, whatever steps follow. -/
structure Clocks (i : Instr) (es : List Env) (s t : State) (bits : List Bool) : Prop where
  run : runCommand i es s = .next t
  trace : ∀ es', clockedBits s.be.sdaOut (traceCommand i (es ++ es') s) =
    bits ++ clockedBits t.be.sdaOut (traceCommand i es' t)

theorem runCommand_append {i : Instr} {es : List Env} {s t : State} (h : runCommand i es s = .next t)
    (es' : List Env) : runCommand i (es ++ es') s = runCommand i es' t := by
  induction es generalizing s with
  | nil => cases h; rfl
  | cons e es ih =>
    simp only [List.cons_append, runCommand] at h ⊢
    split at h
    · exact ih h
    · cases h
    · cases h

theorem Clocks.append {i : Instr} {es es' : List Env} {s t u : State} {bs bs' : List Bool}
    (h : Clocks i es s t bs) (h' : Clocks i es' t u bs') : Clocks i (es ++ es') s u (bs ++ bs') where
  run := (runCommand_append h.run es').trans h'.run
  trace es'' := by rw [List.append_assoc, h.trace, h'.trace, List.append_assoc]

/-- A law of runs, followed by no further step. -/
theorem run_of_continuation {i : Instr} {es : List Env} {s t : State}
    (h : runCommand i (es ++ []) s = runCommand i [] t) : runCommand i es s = .next t := by
  rwa [List.append_nil] at h

/-- A run leads to one state only. -/
theorem Clocks.of_run {i : Instr} {es : List Env} {s t u : State} {bs : List Bool} (h : Clocks i es s t bs)
    (hrun : runCommand i es s = .next u) : Clocks i es s u bs := by
  cases h.run.symm.trans hrun
  exact h

theorem Clocks.append_exists {i : Instr} {es es' : List Env} {s t : State} {bs bs' : List Bool}
    (h : Clocks i es s t bs) (h' : ∃ u, Clocks i es' t u bs') : ∃ u, Clocks i (es ++ es') s u (bs ++ bs') :=
  h'.imp fun _ hu => h.append hu

/-- A whole run clocks its bits and no other. -/
theorem Clocks.clockedBits_eq {i : Instr} {es : List Env} {s t : State} {bs : List Bool} (h : Clocks i es s t bs) :
    clockedBits s.be.sdaOut (traceCommand i es s) = bs := by
  simpa [traceCommand, clockedBits] using h.trace []

/-- Two states whose next step is the same, with the same micro-operation, clock the same bits. -/
theorem Clocks.of_same_step {i : Instr} {e : Env} {es : List Env} {s s' t : State} {bs : List Bool}
    (hexec : runCommand i [e] s = runCommand i [e] s') (htoken : nextToken i e s.be = nextToken i e s'.be)
    (hsda : s.be.sdaOut = s'.be.sdaOut) (h : Clocks i (e :: es) s' t bs) : Clocks i (e :: es) s t bs := by
  have hstep : exec i { s with env := e } = exec i { s' with env := e } := by
    simp only [runCommand] at hexec
    split at hexec <;> split at hexec <;> simp_all
  refine ⟨?_, fun es' => ?_⟩
  · rw [← h.run]
    simp only [runCommand, hstep]
  · rw [← h.trace es']
    simp only [List.cons_append, traceCommand, hstep, htoken, hsda]

/-! ### Bits, starts and stops -/

/-- One step of a command at a line operation, in the trace; as a rewriting rule. -/
theorem traceCommand_fields {i : Instr} {pub : Publish} (hi : RunsWith i pub) {op : BusOp}
    (hop : ∀ i n, op ≠ .sendLoop i n) {r : List BusOp} {w : Word} {e env : Env} {es : List Env}
    {par pf now cr tr rdata script turns}
    {opened needRecov sclOut sdaOut arb code rxBit rxByte pulses xcnt arbAbort stretchBound stretchLimit buf priv} :
    traceCommand i (e :: es)
        ⟨par, ⟨opened, needRecov, sclOut, sdaOut, arb, code, rxBit, rxByte, pulses, xcnt, arbAbort, stretchBound,
          stretchLimit, buf, .running w (op :: r), priv⟩, pf, now, cr, tr, rdata, env, script, turns⟩ =
      (lineToken e ⟨opened, needRecov, sclOut, sdaOut, arb, code, rxBit, rxByte, pulses, xcnt, arbAbort, stretchBound,
        stretchLimit, buf, .running w (op :: r), priv⟩ op).toList ++
      traceCommand i es
        ⟨par, lineStep pub e (op :: r) ⟨opened, needRecov, sclOut, sdaOut, arb, code, rxBit, rxByte, pulses, xcnt,
          arbAbort, stretchBound, stretchLimit, buf, .running w (op :: r), priv⟩, pf, now, cr, tr, rdata, e, script,
          turns⟩ := by
  have hexec := hi ⟨par, ⟨opened, needRecov, sclOut, sdaOut, arb, code, rxBit, rxByte, pulses, xcnt, arbAbort,
    stretchBound, stretchLimit, buf, .running w (op :: r), priv⟩, pf, now, cr, tr, rdata, e, script, turns⟩ w _ rfl
  rw [sequencerStep_plain pub op r _ hop] at hexec
  simp only [traceCommand, hexec, nextToken]
  cases op <;> first | rfl | exact absurd rfl (hop _ _)

@[simp] theorem settle_sdaOut (pub : Publish) (ops : List BusOp) (b : BusEngine) :
    (settle pub ops b).sdaOut = b.sdaOut := (settle_frame pub ops b).2.1

/-- A written bit is clocked (R156). -/
theorem Clocks.writeBit {i : Instr} {pub : Publish} (hi : RunsWith i pub) {s : State} {w : Word} {r : List BusOp}
    (v : Bool) (envs : Nat → Env) (o : Nat) (hpos : s.be.pos = .running w (writeBitOps v ++ r))
    (hscl : ∀ k, o ≤ k → k < o + 6 → (envs k).scl = true)
    (harb : s.be.arbAbort = false ∨ v = false ∨ (envs (o + 3)).sda = true) :
    Clocks i (envsFrom envs o 6) s
      { s with
        env := envs (o + 5)
        be := settle pub r
          { s.be with
            pos := .running w [], sdaOut := v, sclOut := false
            arb := s.be.arb || (v && !(envs (o + 3)).sda) } } [v] := by
  refine ⟨run_of_continuation (run_writeBit hi v envs o [] hpos hscl harb), fun es => ?_⟩
  have h2 := hscl (o + 2) (by omega) (by omega)
  have h3 := hscl (o + 3) (by omega) (by omega)
  obtain ⟨par, be, pf, now, cr, tr, rdata, env, script, turns⟩ := s
  obtain ⟨opened, needRecov, sclOut, sdaOut, arb, code, rxBit, rxByte, pulses, xcnt, arbAbort, stretchBound,
    stretchLimit, buf, pos, priv⟩ := be
  simp only at hpos harb
  subst hpos
  cases v
  · simp [envsFrom_six, writeBitOps, loOps, raiseScl, traceCommand_fields hi, lineStep, lineToken, clockedBits, settle,
      settle_pos_fields pub r, BusEngine.withTodo, waitStep, BusEngine.sample, BusEngine.release, BusEngine.driveLow,
      h3]
  · cases hs : (envs (o + 3)).sda
    · obtain rfl : arbAbort = false := by simpa [hs] using harb
      simp [envsFrom_six, writeBitOps, loOps, raiseScl, traceCommand_fields hi, lineStep, lineToken, clockedBits,
        settle, arbLost, settle_pos_fields pub r, BusEngine.withTodo, waitStep, BusEngine.sample, BusEngine.release,
        BusEngine.driveLow, h2, hs]
    · simp [envsFrom_six, writeBitOps, loOps, raiseScl, traceCommand_fields hi, lineStep, lineToken, clockedBits,
        settle, settle_pos_fields pub r, BusEngine.withTodo, waitStep, BusEngine.sample, BusEngine.release,
        BusEngine.driveLow, h2, hs]

/-- A read bit is clocked with SDA released (R159). -/
theorem Clocks.readBit {i : Instr} {pub : Publish} (hi : RunsWith i pub) {s : State} {w : Word} {r : List BusOp}
    (envs : Nat → Env) (o : Nat) (hpos : s.be.pos = .running w (readBitOps ++ r))
    (hscl : ∀ k, o ≤ k → k < o + 6 → (envs k).scl = true) :
    Clocks i (envsFrom envs o 6) s
      { s with
        env := envs (o + 5)
        be := settle pub r
          { s.be with
            pos := .running w [], sdaOut := true, sclOut := false
            priv := { s.be.priv with bit := (envs (o + 3)).sda } } } [true] := by
  refine ⟨run_of_continuation (run_readBit hi envs o [] hpos hscl), fun es => ?_⟩
  have h2 := hscl (o + 2) (by omega) (by omega)
  obtain ⟨par, be, pf, now, cr, tr, rdata, env, script, turns⟩ := s
  obtain ⟨opened, needRecov, sclOut, sdaOut, arb, code, rxBit, rxByte, pulses, xcnt, arbAbort, stretchBound,
    stretchLimit, buf, pos, priv⟩ := be
  simp only at hpos
  subst hpos
  simp [envsFrom_six, readBitOps, loOps, raiseScl, traceCommand_fields hi, lineStep, lineToken, clockedBits, settle,
    settle_pos_fields pub r, BusEngine.withTodo, waitStep, BusEngine.sample, BusEngine.release, BusEngine.driveLow, h2]

/-- A plain start clocks nothing, a repeated start the released SDA of its first clock (R150). -/
theorem Clocks.start {i : Instr} {pub : Publish} (hi : RunsWith i pub) (rep : Bool) {s : State} {w : Word}
    {r : List BusOp} (envs : Nat → Env) (o : Nat) (hpos : s.be.pos = .running w (startOps rep ++ r))
    (hscl : rep = true → (envs (o + 2)).scl = true)
    (harb : s.be.arbAbort = false ∨
      ((rep || s.be.sdaOut) && (envs (if rep then o + 3 else o)).sda) = true) :
    Clocks i (envsFrom envs o (if rep then 7 else 4)) s
      { s with
        env := envs (if rep then o + 6 else o + 3)
        be := settle pub r
          { s.be with
            pos := .running w [], opened := true, sdaOut := false, sclOut := false
            arb := s.be.arb || !((rep || s.be.sdaOut) && (envs (if rep then o + 3 else o)).sda) } }
      (if rep then [true] else []) := by
  refine ⟨run_of_continuation (run_start hi rep envs o [] hpos hscl harb), fun es => ?_⟩
  obtain ⟨par, be, pf, now, cr, tr, rdata, env, script, turns⟩ := s
  obtain ⟨opened, needRecov, sclOut, sdaOut, arb, code, rxBit, rxByte, pulses, xcnt, arbAbort, stretchBound,
    stretchLimit, buf, pos, priv⟩ := be
  simp only at hpos harb
  subst hpos
  cases rep
  · have e4 : envsFrom envs o 4 = [envs o, envs (o + 1), envs (o + 2), envs (o + 3)] := rfl
    cases hs : (sdaOut && (envs o).sda)
    · obtain rfl : arbAbort = false := by simpa [hs] using harb
      simp [e4, startOps, loOps, traceCommand_fields hi, lineStep, lineToken, clockedBits, settle,
        settle_pos_fields pub r, arbLost, BusEngine.withTodo, BusEngine.sample, BusEngine.driveLow, hs]
    · simp [e4, startOps, loOps, traceCommand_fields hi, lineStep, lineToken, clockedBits, settle,
        settle_pos_fields pub r, BusEngine.withTodo, BusEngine.sample, BusEngine.driveLow, hs]
  · have e7 : envsFrom envs o 7 =
      [envs o, envs (o + 1), envs (o + 2), envs (o + 3), envs (o + 4), envs (o + 5), envs (o + 6)] := rfl
    have h2 := hscl rfl
    cases hs : (envs (o + 3)).sda
    · obtain rfl : arbAbort = false := by simpa [hs] using harb
      simp [e7, startOps, raiseScl, loOps, traceCommand_fields hi, lineStep, lineToken, clockedBits, settle,
        settle_pos_fields pub r, arbLost, waitStep, BusEngine.withTodo, BusEngine.sample, BusEngine.driveLow,
        BusEngine.release, hs, h2]
    · simp [e7, startOps, raiseScl, loOps, traceCommand_fields hi, lineStep, lineToken, clockedBits, settle,
        settle_pos_fields pub r, waitStep, BusEngine.withTodo, BusEngine.sample, BusEngine.driveLow,
        BusEngine.release, hs, h2]

/-- A stop clocks SDA driven low (R153). -/
theorem Clocks.stop {i : Instr} {pub : Publish} (hi : RunsWith i pub) {s : State} {w : Word} {r : List BusOp}
    (envs : Nat → Env) (o : Nat) (hpos : s.be.pos = .running w (stopOps ++ r)) (hscl : (envs (o + 3)).scl = true)
    (harb : s.be.arbAbort = false ∨ (envs (o + 5)).sda = true) :
    Clocks i (envsFrom envs o 6) s
      { s with
        env := envs (o + 5)
        be := settle pub r
          { s.be with
            pos := .running w [], opened := false, sdaOut := true, sclOut := true
            arb := s.be.arb || !(envs (o + 5)).sda } } [false] := by
  refine ⟨run_of_continuation (run_stop hi envs o [] hpos hscl harb), fun es => ?_⟩
  obtain ⟨par, be, pf, now, cr, tr, rdata, env, script, turns⟩ := s
  obtain ⟨opened, needRecov, sclOut, sdaOut, arb, code, rxBit, rxByte, pulses, xcnt, arbAbort, stretchBound,
    stretchLimit, buf, pos, priv⟩ := be
  simp only at hpos harb
  subst hpos
  cases hs : (envs (o + 5)).sda
  · obtain rfl : arbAbort = false := by simpa [hs] using harb
    simp [envsFrom_six, stopOps, raiseScl, loOps, traceCommand_fields hi, lineStep, lineToken, clockedBits, settle,
      settle_pos_fields pub r, arbLost, waitStep, BusEngine.withTodo, BusEngine.sample, BusEngine.driveLow,
      BusEngine.release, hs, hscl]
  · simp [envsFrom_six, stopOps, raiseScl, loOps, traceCommand_fields hi, lineStep, lineToken, clockedBits, settle,
      settle_pos_fields pub r, waitStep, BusEngine.withTodo, BusEngine.sample, BusEngine.driveLow, BusEngine.release,
      hs, hscl]

/-! ### Bytes -/

/-- The bits of a byte to write, or the read bit after them, wait for their first step. -/
theorem settle_bits (pub : Publish) (vs : List Bool) (r : List BusOp) (b : BusEngine) :
    settle pub (vs.flatMap writeBitOps ++ readBitOps ++ r) b =
      b.withTodo (vs.flatMap writeBitOps ++ readBitOps ++ r) := by
  cases vs with
  | nil => exact settle_readBit pub r b
  | cons v vs =>
    rw [List.flatMap_cons, List.append_assoc, List.append_assoc]
    exact settle_writeBit pub v _ b

theorem settle_received (pub : Publish) (m : Nat) (k : Bool) (r : List BusOp) (b : BusEngine) :
    settle pub ((List.replicate m (readBitOps ++ [.shiftIn])).flatten ++ writeBitOps k ++ r) b =
      b.withTodo ((List.replicate m (readBitOps ++ [.shiftIn])).flatten ++ writeBitOps k ++ r) := by
  cases m with
  | zero => exact settle_writeBit pub k r b
  | succ m =>
    rw [List.replicate_succ, List.flatten_cons, List.append_assoc, List.append_assoc, List.append_assoc]
    exact settle_readBit pub _ b

/-- A run of written bits and the read bit after them are clocked in order. -/
theorem Clocks.bits {i : Instr} {pub : Publish} (hi : RunsWith i pub) (vs : List Bool) {s : State} {w : Word}
    {r : List BusOp} (envs : Nat → Env) (o : Nat)
    (hpos : s.be.pos = .running w (vs.flatMap writeBitOps ++ readBitOps ++ r))
    (hscl : ∀ k, o ≤ k → k < o + 6 * vs.length + 6 → (envs k).scl = true)
    (harb : s.be.arbAbort = false ∨ bitsLost envs o vs = false) :
    ∃ t, Clocks i (envsFrom envs o (6 * vs.length + 6)) s t (vs ++ [true]) := by
  induction vs generalizing s o with
  | nil => exact ⟨_, Clocks.readBit hi envs o hpos hscl⟩
  | cons v vs ih =>
    rw [List.length_cons] at hscl ⊢
    have hcheck : s.be.arbAbort = false ∨ v = false ∨ (envs (o + 3)).sda = true := by
      refine harb.imp id fun h => ?_
      cases v <;> simp_all [bitsLost]
    have hrest : s.be.arbAbort = false ∨ bitsLost envs (o + 6) vs = false := by
      refine harb.imp id fun h => ?_
      simp_all [bitsLost]
    have hbit := Clocks.writeBit hi v (w := w) (r := vs.flatMap writeBitOps ++ readBitOps ++ r) envs o
      (by rw [hpos, List.flatMap_cons]; simp only [List.append_assoc]) (fun k h1 h2 => hscl k h1 (by omega)) hcheck
    rw [settle_bits] at hbit
    rw [show 6 * (vs.length + 1) + 6 = 6 + (6 * vs.length + 6) by omega, envsFrom_add]
    exact hbit.append_exists (ih (o + 6) rfl (fun k h1 h2 => hscl k (by omega) (by omega)) hrest)

/-- In the 54 steps from `o` a peer takes a byte: it leaves both lines released but for its acknowledge (R162, R168). -/
structure TakesByte (envs : Nat → Env) (o : Nat) : Prop where
  scl : ∀ k, o ≤ k → k < o + 54 → (envs k).scl = true
  bits : ∀ k, k < 51 → (envs (o + k)).sda = true
  ack : (envs (o + 51)).sda = false

theorem TakesByte.bitsLost {envs : Nat → Env} {o : Nat} (h : TakesByte envs o) (d : Byte) :
    bitsLost envs o (bitsMsbFirst d) = false :=
  bitsLost_eq_false fun b (hb : b < 8) => by
    rw [Nat.add_assoc]
    exact h.bits _ (by omega)

/-- An acknowledged byte is clocked most significant bit first, with the released acknowledge bit after it (R197). -/
theorem Clocks.send {i : Instr} {pub : Publish} (hi : RunsWith i pub) (d : Byte) (err : BusCode) {s : State} {w : Word}
    {r : List BusOp} {envs : Nat → Env} {o : Nat} (hpos : s.be.pos = .running w (sendOps d err ++ r))
    (hpeer : TakesByte envs o) :
    Clocks i (envsFrom envs o 54) s
      { s with
        env := envs (o + 53)
        be := settle pub r
          { s.be with
            pos := .running w [], sdaOut := true, sclOut := false
            priv := { s.be.priv with bit := false, xcnt := s.be.priv.xcnt + 1 } } } (writtenBits d) := by
  have hlost := hpeer.bitsLost d
  obtain ⟨t, ht⟩ := Clocks.bits hi (bitsMsbFirst d) (w := w) (r := .ackTest err :: r) envs o
    (by rw [hpos]; simp [sendOps, writeByteOps]) hpeer.scl (.inr hlost)
  have hrun := run_send_ack hi d err envs o [] hpos hpeer.scl (.inr hlost) hpeer.ack
  rw [hlost, Bool.or_false] at hrun
  exact ht.of_run (run_of_continuation hrun)

/-- Received bits are clocked with SDA released, and the acknowledge bit sent after them (R165). -/
theorem Clocks.received {i : Instr} {pub : Publish} (hi : RunsWith i pub) (m : Nat) (k : Bool) {s : State} {w : Word}
    {r : List BusOp} (envs : Nat → Env) (o : Nat)
    (hpos : s.be.pos = .running w ((List.replicate m (readBitOps ++ [.shiftIn])).flatten ++ writeBitOps k ++ r))
    (hscl : ∀ j, o ≤ j → j < o + 6 * m + 6 → (envs j).scl = true)
    (harb : s.be.arbAbort = false ∨ k = false ∨ (envs (o + 6 * m + 3)).sda = true) :
    ∃ t, Clocks i (envsFrom envs o (6 * m + 6)) s t (List.replicate m true ++ [k]) := by
  induction m generalizing s o with
  | zero => exact ⟨_, Clocks.writeBit hi k envs o hpos hscl harb⟩
  | succ m ih =>
    have hbit := Clocks.readBit hi (w := w)
      (r := .shiftIn :: ((List.replicate m (readBitOps ++ [.shiftIn])).flatten ++ writeBitOps k ++ r)) envs o
      (by
        rw [hpos, List.replicate_succ, List.flatten_cons]
        simp only [List.append_assoc, List.cons_append, List.nil_append])
      (fun j h1 h2 => hscl j h1 (by omega))
    rw [settle, settle_received] at hbit
    rw [show 6 * (m + 1) + 6 = 6 + (6 * m + 6) by omega, envsFrom_add]
    rw [show o + 6 * (m + 1) + 3 = o + 6 + 6 * m + 3 by omega] at harb
    exact hbit.append_exists (ih (o + 6) rfl (fun j h1 h2 => hscl j (by omega) (by omega)) harb)

/-! ### The loops over data bytes -/

/-- REG_WRITE's loop performs, at a byte to send, the micro-operation that begins the byte (R198). -/
theorem nextToken_sendLoop {i : Instr} (e : Env) {b : BusEngine} {w : Word} {j n : Nat} {d : Byte} {r : List BusOp}
    (hpos : b.pos = .running w (.sendLoop j n :: r)) (hd : b.buf.read j = some d) (err : BusCode) (r' : List BusOp) :
    nextToken i e b = nextToken i e { b with pos := .running w (sendOps d err ++ r') } := by
  simp only [nextToken, hpos, headToken, hd, sendOps, writeByteOps, bitsMsbFirst, List.map_cons, List.flatMap_cons]
  cases d.getLsbD 7 <;> rfl

/-- One byte of REG_WRITE's loop (R198). -/
theorem Clocks.sendLoop_step {i : Instr} {pub : Publish} (hi : RunsWith i pub) {s : State} {w : Word} {j n : Nat}
    {d : Byte} {r : List BusOp} {envs : Nat → Env} {o : Nat} (hpos : s.be.pos = .running w (.sendLoop j n :: r))
    (hj : j < n) (hd : s.be.buf.read j = some d) (hpeer : TakesByte envs o) :
    Clocks i (envsFrom envs o 54) s
      { s with
        env := envs (o + 53)
        be := settle pub (.sendLoop (j + 1) n :: r)
          { s.be with
            pos := .running w [], sdaOut := true, sclOut := false
            priv := { s.be.priv with bit := false, xcnt := s.be.priv.xcnt + 1 } } } (writtenBits d) :=
  Clocks.of_same_step (es := envsFrom envs (o + 1) 53) (run_sendLoop_enter hi (envs o) [] hpos hj hd)
    (nextToken_sendLoop (envs o) hpos hd ..) rfl
    (Clocks.send hi d .writeFail
      (s := { s with be := { s.be with pos := .running w (sendOps d .writeFail ++ .sendLoop (j + 1) n :: r) } }) rfl
      hpeer)

/-- REG_WRITE's loop clocks the bytes to send in order (R198, R200). -/
theorem Clocks.sendLoop_bits {i : Instr} {pub : Publish} (hi : RunsWith i pub) (m : Nat) {s : State} {b : BusEngine}
    {w : Word} {j : Nat} {r : List BusOp} (data : Nat → Byte) {envs : Nat → Env} {o : Nat}
    (hbe : s.be = settle pub (.sendLoop j (j + m) :: r) b) (hb : b.pos = .running w [])
    (hdata : ∀ k, k < m → b.buf.read (j + k) = some (data k))
    (hpeer : ∀ k, k < m → TakesByte envs (o + 54 * k)) :
    ∃ t, Clocks i (envsFrom envs o (54 * m)) s t ((List.range m).flatMap fun k => writtenBits (data k)) := by
  induction m generalizing s b j o data with
  | zero => exact ⟨s, rfl, fun es => rfl⟩
  | succ m ih =>
    have hlt : j < j + (m + 1) := by omega
    have hbe' : s.be = { b with pos := .running w (.sendLoop j (j + (m + 1)) :: r) } := by
      rw [hbe]
      simp only [settle, if_pos hlt, BusEngine.withTodo, hb]
    have hfirst := Clocks.sendLoop_step hi (s := s) (by rw [hbe']) hlt (by rw [hbe']; exact hdata 0 (by omega))
      (hpeer 0 (by omega))
    have hdata' : ∀ k, k < m → b.buf.read (j + 1 + k) = some (data (k + 1)) := fun k hk => by
      rw [Nat.add_assoc, Nat.add_comm 1]
      exact hdata (k + 1) (by omega)
    have hpeer' : ∀ k, k < m → TakesByte envs (o + 54 + 54 * k) := fun k hk => by
      have := hpeer (k + 1) (by omega)
      rwa [show o + 54 * (k + 1) = o + 54 + 54 * k by omega] at this
    rw [show 54 * (m + 1) = 54 + 54 * m by omega, envsFrom_add, List.range_succ_eq_map, List.flatMap_cons,
      List.flatMap_map]
    rw [show j + (m + 1) = j + 1 + m by omega] at hfirst
    rw [hbe'] at hfirst
    exact hfirst.append_exists (ih (fun k => data (k + 1)) rfl rfl hdata' hpeer')

/-- REG_WRITE's loop, with the state after it (R198, R200). -/
theorem Clocks.sendLoop {i : Instr} {pub : Publish} (hi : RunsWith i pub) (m : Nat) {s : State} {b : BusEngine}
    {w : Word} {j : Nat} {r : List BusOp} (data : Nat → Byte) {envs : Nat → Env} {o : Nat}
    (hbe : s.be = settle pub (.sendLoop j (j + m) :: r) b) (hb : b.pos = .running w []) (hsda : b.sdaOut = true)
    (hscl : b.sclOut = false) (hbit : b.priv.bit = false) (henv : s.env = envs (o - 1)) (ho : 0 < o)
    (hdata : ∀ k, k < m → b.buf.read (j + k) = some (data k))
    (hpeer : ∀ k, k < m → TakesByte envs (o + 54 * k)) :
    Clocks i (envsFrom envs o (54 * m)) s
      { s with
        env := envs (o + 54 * m - 1)
        be := settle pub r { b with priv := { b.priv with xcnt := b.priv.xcnt + BitVec.ofNat 16 m } } }
      ((List.range m).flatMap fun k => writtenBits (data k)) := by
  obtain ⟨t, ht⟩ := Clocks.sendLoop_bits hi m data hbe hb hdata hpeer
  refine ht.of_run (run_of_continuation (run_sendLoop hi m data envs o [] hbe hb hsda hscl hbit henv ho hdata ?_
    (fun k hk => (hpeer k hk).bits) fun k hk => (hpeer k hk).ack))
  intro k hlo hhi
  exact (hpeer ((k - o) / 54) (by omega)).scl k (by omega) (by omega)

/-- A byte read is clocked as eight released bits and the acknowledge bit sent (R165). -/
theorem Clocks.readByte {i : Instr} {pub : Publish} (hi : RunsWith i pub) (k : Bool) {s : State} {w : Word}
    {r : List BusOp} {envs : Nat → Env} {o : Nat} (hpos : s.be.pos = .running w (readByteOps k ++ r))
    (hscl : ∀ j, o ≤ j → j < o + 54 → (envs j).scl = true)
    (harb : s.be.arbAbort = false ∨ k = false ∨ (envs (o + 51)).sda = true) :
    Clocks i (envsFrom envs o 54) s
      { s with
        env := envs (o + 53)
        be := settle pub r
          { s.be with
            pos := .running w [], sdaOut := k, sclOut := false
            arb := s.be.arb || (k && !(envs (o + 51)).sda)
            priv := { s.be.priv with
              byte := receivedFrom envs o 8 s.be.priv.byte
              bit := lastReceived envs o 8 s.be.priv.bit } } } (List.replicate 8 true ++ [k]) := by
  obtain ⟨t, ht⟩ := Clocks.received hi 8 k envs o hpos hscl harb
  exact ht.of_run (run_of_continuation (run_readByte hi k envs o [] hpos hscl harb))

/-- REG_READ's loop begins its next byte, with NAK for the last (R203). -/
theorem settle_readLoop_pos (pub : Publish) {b : BusEngine} {w : Word} {j n : Nat} {r : List BusOp}
    (hb : b.pos = .running w []) (hj : j < n) :
    (settle pub (.readLoop j n :: r) b).pos =
      .running w (readByteOps (j + 1 == n) ++ (.storeByte j :: .readLoop (j + 1) n :: r)) := by
  simp [settle, hj, BusEngine.withTodo, hb]

/-- REG_READ's loop clocks eight released bits for each byte and an acknowledge bit, NAK for the last only (R203). -/
theorem Clocks.readLoop_bits {i : Instr} {pub : Publish} (hi : RunsWith i pub) (m : Nat) {s : State} {w : Word}
    {j : Nat} {r : List BusOp} {envs : Nat → Env} {o : Nat}
    (hpos : s.be.pos = .running w (readByteOps (j + 1 == j + (m + 1)) ++
      (.storeByte j :: .readLoop (j + 1) (j + (m + 1)) :: r)))
    (hscl : ∀ k, o ≤ k → k < o + 54 * (m + 1) → (envs k).scl = true)
    (hlast : (envs (o + 54 * m + 51)).sda = true) :
    ∃ t, Clocks i (envsFrom envs o (54 * (m + 1))) s t
      ((List.range (m + 1)).flatMap fun k => List.replicate 8 true ++ [k == m]) := by
  induction m generalizing s j o with
  | zero =>
    rw [beq_self_eq_true] at hpos
    exact ⟨_, Clocks.readByte hi true hpos hscl (.inr (.inr hlast))⟩
  | succ m ih =>
    have hmore : (j + 1 == j + (m + 1 + 1)) = false := by simp
    rw [hmore] at hpos
    have hfirst := Clocks.readByte hi false (o := o) hpos (fun k h1 h2 => hscl k h1 (by omega)) (.inr (.inl rfl))
    rw [show j + (m + 1 + 1) = j + 1 + (m + 1) by omega] at hfirst
    rw [show 54 * (m + 1 + 1) = 54 + 54 * (m + 1) by omega, envsFrom_add, List.range_succ_eq_map, List.flatMap_cons,
      List.flatMap_map]
    have hack : ∀ k : Nat, (k.succ == m + 1) = (k == m) := fun k => by simp
    simp only [hack]
    refine hfirst.append_exists (ih (j := j + 1) ?_ (fun k h1 h2 => hscl k (by omega) (by omega)) ?_)
    · exact settle_readLoop_pos pub rfl (by omega)
    · rwa [show o + 54 * (m + 1) + 51 = o + 54 + 54 * m + 51 by omega] at hlast

/-- REG_READ's loop, with the state after it (R203, R206). -/
theorem Clocks.readLoop {i : Instr} {pub : Publish} (hi : RunsWith i pub) (m : Nat) {s : State} {b : BusEngine}
    {w : Word} {j : Nat} {r : List BusOp} (data : Nat → Byte) {envs : Nat → Env} {o : Nat}
    (hbe : s.be = settle pub (.readLoop j (j + (m + 1)) :: r) b) (hb : b.pos = .running w []) (hscl : b.sclOut = false)
    (ho : 0 < o) (hfree : ∀ k, o ≤ k → k < o + 54 * (m + 1) → (envs k).scl = true)
    (hpeer : ∀ k, k < m + 1 → ∀ t, t < 8 → (envs (o + 54 * k + 6 * t + 3)).sda = (data k).getLsbD (7 - t))
    (hlast : (envs (o + 54 * m + 51)).sda = true) :
    ∃ bit byte, Clocks i (envsFrom envs o (54 * (m + 1))) s
      { s with
        env := envs (o + 54 * (m + 1) - 1)
        be := settle pub r
          { b with
            sdaOut := true
            buf := b.buf.putBytes Config.beBufBytes j ((List.range (m + 1)).map data)
            priv := { b.priv with bit := bit, byte := byte, xcnt := b.priv.xcnt + BitVec.ofNat 16 (m + 1) } } }
      ((List.range (m + 1)).flatMap fun k => List.replicate 8 true ++ [k == m]) := by
  have hpos := settle_readLoop_pos pub (j := j) (n := j + (m + 1)) (r := r) hb (by omega)
  rw [← hbe] at hpos
  obtain ⟨t, ht⟩ := Clocks.readLoop_bits hi m hpos hfree hlast
  obtain ⟨bit, byte, hrun⟩ := run_readLoop hi m data envs o [] hbe hb hscl ho hfree hpeer hlast
  exact ⟨bit, byte, ht.of_run (run_of_continuation hrun)⟩

end Sys2Proof.Machine

/-! PROOFS. What the two register commands clock onto the bus and where they end, when the peer takes and gives every
byte (spec/41_bus_composite.md R198, R203). -/

namespace Sys2Proof.Machine

/-! ### A peer that acknowledges (R162, R168) -/

theorem ackPeer_before {p n k : Nat} (h : k < p) : ackPeer p n k = true := by
  simp [ackPeer, Nat.not_le_of_lt h]

theorem ackPeer_after {p n k : Nat} (h : p + 54 * n ≤ k) : ackPeer p n k = true := by
  have hpast : ¬ (k - p) / 54 < n := by omega
  simp [ackPeer, hpast]

theorem ackPeer_bit {p n j t : Nat} (ht : t < 51) : ackPeer p n (p + 54 * j + t) = true := by
  have hphase : (p + 54 * j + t - p) % 54 ≠ 51 := by omega
  simp [ackPeer, hphase]

theorem ackPeer_ack {p n j : Nat} (hj : j < n) : ackPeer p n (p + 54 * j + 51) = false := by
  have hphase : (p + 54 * j + 51 - p) % 54 = 51 := by omega
  have hbyte : (p + 54 * j + 51 - p) / 54 < n := by omega
  have hfrom : p ≤ p + 54 * j + 51 := by omega
  simp [ackPeer, hphase, hbyte, hfrom]

/-- Such a peer takes each of its bytes. -/
theorem takesByte_of_ackPeer {envs : Nat → Env} {p n j : Nat} (hj : j < n)
    (h : ∀ k, p + 54 * j ≤ k → k < p + 54 * j + 54 → (envs k).scl = true ∧ (envs k).sda = ackPeer p n k) :
    TakesByte envs (p + 54 * j) where
  scl k hlo hhi := (h k hlo hhi).1
  bits k hk := ((h _ (by omega) (by omega)).2).trans (ackPeer_bit hk)
  ack := ((h _ (by omega) (by omega)).2).trans (ackPeer_ack hj)

/-! ### A peer that is read from (R203) -/

/-- A peer of REG_READ acknowledges the three bytes written (R203). -/
theorem regReadPeer_written {o n k : Nat} {d : Nat → Byte} (h : k < o + 115) :
    regReadPeer o n d k = ackPeer o 2 k := if_pos h

theorem regReadPeer_readAddress {o n k : Nat} {d : Nat → Byte} (hlo : o + 115 ≤ k) (hhi : k < o + 169) :
    regReadPeer o n d k = ackPeer (o + 115) 1 k := by
  rw [regReadPeer, if_neg (by omega), if_pos hhi]

/-- It gives the bits of byte `k`, most significant first, at the samples of READ_BIT. -/
theorem regReadPeer_bit {o n k t : Nat} {d : Nat → Byte} (hk : k < n) (ht : t < 8) :
    regReadPeer o n d (o + 169 + 54 * k + 6 * t + 3) = (d k).getLsbD (7 - t) := by
  have hoff : o + 169 + 54 * k + 6 * t + 3 - (o + 169) = 54 * k + (6 * t + 3) := by omega
  have hbyte : (54 * k + (6 * t + 3)) / 54 = k := by omega
  have hphase : (54 * k + (6 * t + 3)) % 54 = 6 * t + 3 := by omega
  have hidx : (6 * t + 3) / 6 = t := by omega
  rw [regReadPeer, if_neg (by omega), if_neg (by omega)]
  simp only [hoff, hbyte, hphase, hidx]
  rw [if_pos ⟨hk, by omega, by omega⟩]

/-- It releases SDA outside those samples. -/
theorem regReadPeer_released {o n k : Nat} {d : Nat → Byte} (hlo : o + 169 ≤ k)
    (h : n ≤ (k - (o + 169)) / 54 ∨ 48 ≤ (k - (o + 169)) % 54) : regReadPeer o n d k = true := by
  rw [regReadPeer, if_neg (by omega), if_neg (by omega)]
  exact if_neg (by omega)

/-! ### The beginning of a command -/

/-- A command just latched begins with its first line operation, in the trace too (R190). -/
theorem Clocks.begin {i : Instr} (hi : i.port = .busCmd) {s t : State} {e : Env} {es : List Env} {bs : List Bool}
    {todo : List BusOp} (hacc : Accepted i s)
    (hbegin : ∀ pub, s.be.begin (encode i) pub (procedureOf i) = s.be.begun (encode i) todo s.be.opened)
    (h : Clocks i (e :: es) { s with be := s.be.begun (encode i) todo s.be.opened } t bs) :
    Clocks i (e :: es) s t bs := by
  obtain ⟨hpos, hrecov⟩ := hacc
  have hexec := runCommand_begin (runsWith_publishOf hi) (exec_eq_busTurn hi) e [] hpos (by rw [hrecov]; rfl)
    (by rw [hbegin]; rfl)
  rw [hbegin] at hexec
  refine Clocks.of_same_step hexec ?_ rfl h
  simp only [nextToken, hpos, hrecov, hbegin]
  rfl

theorem ofNat_add_ofNat (k n : Nat) : BitVec.ofNat 16 k + BitVec.ofNat 16 n = BitVec.ofNat 16 (n + k) := by
  rw [← BitVec.ofNat_add, Nat.add_comm]

/-- The Bus Engine inside a register command of word `w`, `count` bytes written and each acknowledged. -/
def BusEngine.acknowledged (b : BusEngine) (w : Word) (count : Half) : BusEngine :=
  { b with
    pos := .running w [], opened := true, sdaOut := true, sclOut := false, arb := b.arb || b.startLost
    priv := { bit := false, byte := 0, xcnt := count, pulses := 0 } }

/-- The Bus Engine after a register command that ended with OK, `count` bytes counted and `m` in its buffer. -/
def BusEngine.registerDone (b : BusEngine) (count : Nat) (m : Memory) : BusEngine :=
  { b with
    opened := false, sclOut := true, sdaOut := true, arb := b.arb || b.startLost, xcnt := BitVec.ofNat 16 count
    buf := m, code := .ok, pos := .idle, priv := {} }

/-- Where both register commands begin: the start, the address byte with the write direction and the register byte
(R198, R203), before the operations `r`. -/
theorem Clocks.addressed {i : Instr} (hi : i.port = .busCmd) {s : State} {envs : Nat → Env} {o : Nat} {dev : BitVec 7}
    {reg : Byte} {r : List BusOp} (ho : o = s.be.startSteps) (hacc : Accepted i s)
    (hbegin : ∀ pub, s.be.begin (encode i) pub (procedureOf i) =
      s.be.begun (encode i)
        (startOps s.be.opened ++ (sendOps (addrWrite dev) .addrNak ++ (sendOps reg .regNak ++ r))) s.be.opened)
    (hlost : s.be.startLost = false ∨ s.be.arbAbort = false)
    (hfree : ∀ k, k < o → (envs k).scl = true ∧ (envs k).sda = true)
    (haddr : TakesByte envs o) (hreg : TakesByte envs (o + 54)) :
    Clocks i (envsFrom envs 0 (o + 108)) s
      { s with
        env := envs (o + 107)
        be := settle (publishOf i) r (s.be.acknowledged (encode i) 2) }
      ((if s.be.opened then [true] else []) ++ writtenBits (addrWrite dev) ++ writtenBits reg) := by
  have hrun := runsWith_publishOf hi
  have hsda : (envs (if s.be.opened then 0 + 3 else 0)).sda = true :=
    (hfree _ (by rw [ho, BusEngine.startSteps]; split <;> decide)).2
  have hcheck : (!((s.be.opened || s.be.sdaOut) && (envs (if s.be.opened then 0 + 3 else 0)).sda)) =
      s.be.startLost := by
    rw [hsda, BusEngine.startLost]
    simp
  have hstart := Clocks.start hrun s.be.opened (s := { s with be := s.be.begun _ _ s.be.opened }) envs 0 rfl
    (fun hrep => (hfree 2 (by rw [ho, BusEngine.startSteps, hrep]; decide)).1)
    (hlost.symm.imp id fun h => by rw [← hcheck, Bool.not_eq_false'] at h; exact h)
    (w := encode i) (r := sendOps (addrWrite dev) .addrNak ++ (sendOps reg .regNak ++ r))
  rw [settle_send] at hstart
  have hdev := hstart.append (Clocks.send hrun (addrWrite dev) .addrNak (w := encode i) rfl haddr)
  rw [settle_send] at hdev
  have hall := hdev.append (Clocks.send hrun reg .regNak (w := encode i) rfl hreg)
  have hes : envsFrom envs 0 (o + 108) =
      envsFrom envs 0 s.be.startSteps ++ envsFrom envs o 54 ++ envsFrom envs (o + 54) 54 := by
    rw [show o + 108 = o + 54 + 54 by omega, envsFrom_add, envsFrom_add, Nat.zero_add, Nat.zero_add, ← ho]
  refine Clocks.begin hi (es := envsFrom envs 1 (o + 107)) hacc hbegin ?_
  change Clocks i (envsFrom envs 0 (o + 108)) _ _ _
  rw [hes, BusEngine.acknowledged, ← hcheck]
  exact hall

/-- Both register commands end with a stop (R198, R203), which nobody contests. -/
theorem Clocks.stopOk {i : Instr} (hi : RunsWith i .xcnt) {s : State} {w : Word} {envs : Nat → Env} {o : Nat}
    (hpos : s.be.pos = .running w (stopOps ++ [.finish .ok])) (hscl : (envs (o + 3)).scl = true)
    (hsda : (envs (o + 5)).sda = true) :
    Clocks i (envsFrom envs o 6) s
      { s with
        env := envs (o + 5)
        be := { s.be with
          opened := false, sdaOut := true, sclOut := true, xcnt := s.be.priv.xcnt, code := .ok, pos := .idle
          priv := {} } }
      [false] := by
  have hstop := Clocks.stop hi envs o hpos hscl (.inr hsda)
  rw [hsda, Bool.not_true, Bool.or_false] at hstop
  exact hstop

/-! ### REG_WRITE (R198) -/

theorem begin_regWrite (dev : BitVec 7) (reg n : Byte) (b : BusEngine) (w : Word) (pub : Publish) :
    b.begin w pub (procedureOf (.regWrite dev reg n)) =
      b.begun w (startOps b.opened ++ (sendOps (addrWrite dev) .addrNak ++ (sendOps reg .regNak ++
        (.sendLoop 0 n.toNat :: (stopOps ++ [.finish .ok]))))) b.opened := by
  simp [BusEngine.begin, procedureOf, regWriteOps, settle, BusEngine.withTodo, BusEngine.begun]

/-- REG_WRITE whose every byte is taken: its end, and the bits it clocks (R198, R200). -/
theorem clocks_regWrite {dev : BitVec 7} {reg n : Byte} {data : Nat → Byte} {s : State} {envs : Nat → Env} {o : Nat}
    (ho : o = s.be.startSteps) (hacc : Accepted (.regWrite dev reg n) s)
    (hlost : s.be.startLost = false ∨ s.be.arbAbort = false)
    (hdata : ∀ k, k < n.toNat → s.be.buf.read (0 + k) = some (data k))
    (hpeer : PeersHold (ackPeer o (n.toNat + 2)) envs (o + 54 * (n.toNat + 2) + 6)) :
    Clocks (.regWrite dev reg n) (envsFrom envs 0 (o + 54 * (n.toNat + 2) + 6)) s
      { s with env := envs (o + 54 * (n.toNat + 2) + 6 - 1), be := s.be.registerDone (n.toNat + 2) s.be.buf }
      ((if s.be.opened then [true] else []) ++ writtenBits (addrWrite dev) ++ writtenBits reg ++
        ((List.range n.toNat).flatMap fun k => writtenBits (data k)) ++ [false]) := by
  have hi := runsWith_regWrite dev reg n
  have htake : ∀ j, j < n.toNat + 2 → TakesByte envs (o + 54 * j) := fun j hj =>
    takesByte_of_ackPeer hj fun k _ _ => hpeer k (by omega)
  have hfree : ∀ k, k < o → (envs k).scl = true ∧ (envs k).sda = true := fun k hk => by
    rw [(hpeer k (by omega)).2]
    exact ⟨(hpeer k (by omega)).1, ackPeer_before hk⟩
  have haddr := Clocks.addressed rfl ho hacc (begin_regWrite dev reg n s.be _) hlost hfree (htake 0 (by omega))
    (htake 1 (by omega))
  have hloop := haddr.append (Clocks.sendLoop hi n.toNat data (b := s.be.acknowledged _ 2)
    (j := 0) (o := o + 108) (by rw [Nat.zero_add]; rfl) rfl rfl rfl rfl rfl (by omega) hdata fun k hk => by
      have := htake (k + 2) (by omega)
      rwa [show o + 54 * (k + 2) = o + 108 + 54 * k by omega] at this)
  have hall := hloop.append (Clocks.stopOk hi (w := encode (.regWrite dev reg n))
    (o := o + 108 + 54 * n.toNat) rfl (hpeer _ (by omega)).1
    ((hpeer _ (by omega)).2.trans (ackPeer_after (by omega))))
  rw [show o + 54 * (n.toNat + 2) + 6 = o + 108 + 54 * n.toNat + 6 by omega, envsFrom_add, envsFrom_add, Nat.zero_add,
    Nat.zero_add, BusEngine.registerDone, ← ofNat_add_ofNat]
  exact hall

/-- The bytes of a list, by index. -/
theorem flatMap_range_getD (data : List Byte) (f : Byte → List Bool) :
    ((List.range data.length).flatMap fun k => f (data.getD k 0)) = data.flatMap f := by
  have hdata : (List.range data.length).map (fun k => data.getD k 0) = data := by
    refine List.ext_getElem (by simp) fun k h1 h2 => ?_
    simp [h2]
  rw [← List.flatMap_map, hdata]

/-- Settles O22: the bits of the run are those of its phases, the data bytes those of the buffer. -/
theorem regWriteBytesOnBus : Obligations.RegWriteBytesOnBus := by
  intro dev reg n data s envs o total hacc hlost hdata hpeer
  obtain ⟨hlen, hread⟩ := (Memory.readBytes_eq_some _ _ _ _).mp hdata
  have hbytes : ∀ k, k < n.toNat → s.be.buf.read (0 + k) = some (data.getD k 0) := fun k hk => by
    rw [hread k hk]
    simp [hlen, hk]
  have hclocks := clocks_regWrite rfl hacc hlost hbytes hpeer
  rw [steps, ← envsFrom_range, hclocks.clockedBits_eq, ← hlen, flatMap_range_getD data writtenBits]
  simp [addrWrite]

/-! ### REG_READ (R203) -/

theorem begin_regRead {dev : BitVec 7} {reg n : Byte} (hn : n ≠ 0) (b : BusEngine) (w : Word) (pub : Publish) :
    b.begin w pub (procedureOf (.regRead dev reg n)) =
      b.begun w (startOps b.opened ++ (sendOps (addrWrite dev) .addrNak ++ (sendOps reg .regNak ++
        (.startTest :: (sendOps (addrRead dev) .addrNak ++ (.readLoop 0 n.toNat :: (stopOps ++ [.finish .ok])))))))
        b.opened := by
  rw [procedureOf, regReadOps, if_neg hn]
  simp [BusEngine.begin, settle, BusEngine.withTodo, BusEngine.begun]

/-- REG_READ's repeated start and its address byte with the read direction (R203). -/
theorem Clocks.readdressed {i : Instr} {pub : Publish} (hi : RunsWith i pub) {s : State} {b : BusEngine} {w : Word}
    {d : Byte} {r : List BusOp} {envs : Nat → Env} {o : Nat}
    (hbe : s.be = settle pub (.startTest :: (sendOps d .addrNak ++ r)) (b.acknowledged w 2))
    (hscl : (envs (o + 2)).scl = true) (hsda : (envs (o + 3)).sda = true) (hpeer : TakesByte envs (o + 7)) :
    Clocks i (envsFrom envs o 61) s
      { s with env := envs (o + 60), be := settle pub r (b.acknowledged w 3) } ([true] ++ writtenBits d) := by
  have hbe' : s.be = { b.acknowledged w 2 with pos := .running w (startOps true ++ (sendOps d .addrNak ++ r)) } := hbe
  have hstart := Clocks.start hi true (s := s) envs o (by rw [hbe']) (fun _ => hscl) (.inr hsda)
  rw [settle_send, hbe'] at hstart
  have hall := hstart.append (Clocks.send hi d .addrNak (w := w) rfl hpeer)
  have hchecked : b.acknowledged w 3 =
      { b.acknowledged w 2 with
        arb := (b.acknowledged w 2).arb || !((true || (b.acknowledged w 2).sdaOut) && (envs (o + 3)).sda)
        priv := { bit := false, byte := 0, xcnt := 3, pulses := 0 } } := by
    rw [hsda, Bool.true_or, Bool.and_self, Bool.not_true, Bool.or_false]
    rfl
  rw [show 61 = 7 + 54 from rfl, envsFrom_add, hchecked]
  exact hall

/-- REG_READ from a peer that acknowledges and gives the bytes `d`: its end, and the bits it clocks (R203, R206). -/
theorem clocks_regRead {dev : BitVec 7} {reg n : Byte} {d : Nat → Byte} {s : State} {envs : Nat → Env} {o m : Nat}
    (ho : o = s.be.startSteps) (hacc : Accepted (.regRead dev reg n) s)
    (hlost : s.be.startLost = false ∨ s.be.arbAbort = false) (hn : n.toNat = m + 1)
    (hpeer : PeersHold (regReadPeer o (m + 1) d) envs (o + 169 + 54 * (m + 1) + 6)) :
    Clocks (.regRead dev reg n) (envsFrom envs 0 (o + 169 + 54 * (m + 1) + 6)) s
      { s with
        env := envs (o + 169 + 54 * (m + 1) + 6 - 1)
        be := s.be.registerDone (m + 1 + 3) (s.be.buf.putBytes Config.beBufBytes 0 ((List.range (m + 1)).map d)) }
      ((if s.be.opened then [true] else []) ++ writtenBits (addrWrite dev) ++ writtenBits reg ++
        ([true] ++ writtenBits (addrRead dev)) ++
        ((List.range (m + 1)).flatMap fun k => List.replicate 8 true ++ [k == m]) ++ [false]) := by
  have hi := runsWith_regRead dev reg n
  have hn0 : n ≠ 0 := by
    rintro rfl
    cases hn
  have htake : ∀ j, j < 2 → TakesByte envs (o + 54 * j) := fun j hj =>
    takesByte_of_ackPeer hj fun k _ _ => by
      rw [← regReadPeer_written (n := m + 1) (d := d) (by omega)]
      exact hpeer k (by omega)
  have htakeRead : TakesByte envs (o + 115 + 54 * 0) :=
    takesByte_of_ackPeer Nat.one_pos fun k hlo hhi => by
      rw [← regReadPeer_readAddress (n := m + 1) (d := d) (by omega) (by omega)]
      exact hpeer k (by omega)
  have hfree : ∀ k, k < o → (envs k).scl = true ∧ (envs k).sda = true := fun k hk => by
    rw [(hpeer k (by omega)).2, regReadPeer_written (by omega)]
    exact ⟨(hpeer k (by omega)).1, ackPeer_before hk⟩
  have hrestart : (envs (o + 108 + 3)).sda = true := by
    rw [(hpeer _ (by omega)).2, regReadPeer_written (by omega)]
    exact ackPeer_after (by omega)
  have hstop : (envs (o + 169 + 54 * (m + 1) + 5)).sda = true :=
    (hpeer _ (by omega)).2.trans (regReadPeer_released (by omega) (by omega))
  have haddr := Clocks.addressed rfl ho hacc (begin_regRead hn0 s.be _) hlost hfree (htake 0 (by omega))
    (htake 1 (by omega))
  have hread := haddr.append (Clocks.readdressed hi (b := s.be) (o := o + 108) rfl (hpeer _ (by omega)).1 hrestart
    htakeRead)
  obtain ⟨bit, byte, hloop⟩ := Clocks.readLoop hi m d (o := o + 169) (j := 0)
    (b := s.be.acknowledged (encode (.regRead dev reg n)) 3) (r := stopOps ++ [.finish .ok])
    (s := { s with
      env := envs (o + 168)
      be := settle .xcnt (.readLoop 0 n.toNat :: (stopOps ++ [.finish .ok])) (s.be.acknowledged _ 3) })
    (by rw [Nat.zero_add, ← hn]) rfl rfl (by omega) (fun k _ _ => (hpeer k (by omega)).1)
    (fun k hk t ht => (hpeer _ (by omega)).2.trans (regReadPeer_bit hk ht))
    ((hpeer _ (by omega)).2.trans (regReadPeer_released (by omega) (by omega)))
  have hall := (hread.append hloop).append (Clocks.stopOk hi (w := encode (.regRead dev reg n))
    (o := o + 169 + 54 * (m + 1)) rfl (hpeer _ (by omega)).1 hstop)
  rw [envsFrom_add, envsFrom_add, show o + 169 = o + 108 + 61 from rfl, envsFrom_add]
  simp only [Nat.zero_add]
  rw [BusEngine.registerDone, ← ofNat_add_ofNat]
  exact hall

/-- Settles O25: the run and its bits are those of its phases; the bytes given stand in the buffer, which holds 256. -/
theorem regReadStoresReceivedBytes : Obligations.RegReadStoresReceivedBytes := by
  intro dev reg n d s envs o total hacc hlost hn0 hpeer
  obtain ⟨m, hm⟩ : ∃ m, n.toNat = m + 1 :=
    Nat.exists_eq_succ_of_ne_zero fun h => hn0 (BitVec.eq_of_toNat_eq h)
  have hsize : n.toNat < 256 := n.isLt
  have hclocks := clocks_regRead (o := o) rfl hacc hlost hm (by rw [← hm]; exact hpeer)
  rw [← hm, envsFrom_range] at hclocks
  refine ⟨⟨_, {}, hclocks.run, fun a => ?_⟩, ?_⟩
  · rw [Memory.read_putBytes]
    by_cases ha : a < n.toNat
    · have h256 : a < Config.beBufBytes := Nat.lt_trans ha hsize
      simp [ha, h256]
    · simp [ha]
  · rw [steps, hclocks.clockedBits_eq]
    simp [addrWrite, addrRead, hm]

end Sys2Proof.Machine

/-! PROOFS. A clock-stretch wait, an arbitration check and an abort, in whatever Bus Engine command they stand
(spec/40_bus_primitives.md R146 to R148): how many steps each takes, and what it leaves. -/

namespace Sys2Proof.Machine

theorem steps_eq_envsFrom (envs : Nat → Env) (n : Nat) : steps envs n = envsFrom envs 0 n :=
  (envsFrom_range envs n).symm

/-- `settle` on the state a step finds: the operations its position records do not matter. -/
theorem settle_of_running (pub : Publish) (ops : List BusOp) {b : BusEngine} {w : Word} {x : List BusOp}
    (hpos : b.pos = .running w x) (y : List BusOp) :
    settle pub ops { b with pos := .running w y } = settle pub ops b := by
  rw [settle_pos pub ops b w y x, ← hpos]

/-! ### The clock-stretch wait (R146) -/

/-- A low sample within the bound is counted and nothing else changes. -/
theorem run_waitScl_low {i : Instr} {pub : Publish} (hi : RunsWith i pub) {s : State} {w : Word} {lows : Nat}
    {r : List BusOp} (e : Env) (es : List Env) (hpos : s.be.pos = .running w (.waitScl lows :: r))
    (hlow : (s.be.sclOut && e.scl) = false) (hbound : s.be.stretchBound = true → lows + 1 < s.be.stretchMax) :
    runCommand i (e :: es) s =
      runCommand i es { s with env := e, be := { s.be with pos := .running w (.waitScl (lows + 1) :: r) } } := by
  have hgo : (s.be.stretchBound && decide (s.be.stretchMax ≤ lows + 1)) = false := by
    cases hb : s.be.stretchBound with
    | false => rfl
    | true => simpa using hbound hb
  rw [runCommand_line hi e es hpos nofun]
  simp [lineStep, waitStep, BusEngine.sample, BusEngine.withTodo, hlow, hgo, hpos]

/-- The low sample that reaches the bound begins the abort. -/
theorem run_waitScl_last {i : Instr} {pub : Publish} (hi : RunsWith i pub) {s : State} {w : Word} {lows : Nat}
    {r : List BusOp} (e : Env) (es : List Env) (hpos : s.be.pos = .running w (.waitScl lows :: r))
    (hlow : e.scl = false) (hbound : s.be.stretchBound = true) (hlast : s.be.stretchMax ≤ lows + 1) :
    runCommand i (e :: es) s =
      runCommand i es { s with env := e, be := { s.be with pos := .running w (abortOps .stretchTimeout) } } := by
  rw [runCommand_line hi e es hpos nofun]
  simp [lineStep, waitStep, BusEngine.sample, BusEngine.withTodo, hlow, hbound, hlast, hpos]

/-- A high sample ends the wait. -/
theorem run_waitScl_high {i : Instr} {pub : Publish} (hi : RunsWith i pub) {s : State} {w : Word} {lows : Nat}
    {r : List BusOp} (e : Env) (es : List Env) (hpos : s.be.pos = .running w (.waitScl lows :: r))
    (hhigh : (s.be.sclOut && e.scl) = true) :
    runCommand i (e :: es) s = runCommand i es { s with env := e, be := settle pub r s.be } := by
  rw [runCommand_line hi e es hpos nofun]
  simp [lineStep, waitStep, BusEngine.sample, hhigh]

/-- The whole wait: `m` low samples within the bound, then a high one. -/
theorem run_waitScl {i : Instr} {pub : Publish} (hi : RunsWith i pub) (m : Nat) {s : State} {w : Word} {lows : Nat}
    {r : List BusOp} (envs : Nat → Env) (o : Nat) (es : List Env) (hpos : s.be.pos = .running w (.waitScl lows :: r))
    (hlow : ∀ k, k < m → (s.be.sclOut && (envs (o + k)).scl) = false)
    (hhigh : (s.be.sclOut && (envs (o + m)).scl) = true)
    (hbound : s.be.stretchBound = true → m = 0 ∨ lows + m < s.be.stretchMax) :
    runCommand i (envsFrom envs o (m + 1) ++ es) s =
      runCommand i es { s with env := envs (o + m), be := settle pub r s.be } := by
  induction m generalizing s lows o with
  | zero => exact run_waitScl_high hi (envs o) es hpos hhigh
  | succ m ih =>
    have hshift : ∀ k, o + 1 + k = o + (k + 1) := by omega
    change runCommand i (envs o :: (envsFrom envs (o + 1) (m + 1) ++ es)) s = _
    rw [run_waitScl_low hi (envs o) _ hpos (hlow 0 (by omega)) fun hb => by have := hbound hb; omega,
      ih (o + 1) rfl (fun k hk => by rw [hshift]; exact hlow (k + 1) (by omega)) (by rw [hshift]; exact hhigh)
        (fun hb => .inr (by have := hbound hb; change lows + 1 + m < s.be.stretchMax; omega)),
      settle_of_running pub r hpos, hshift]

/-- With no bound a clock held low keeps the wait going. -/
theorem run_waitScl_unbounded {i : Instr} {pub : Publish} (hi : RunsWith i pub) {s : State} {w : Word} {lows : Nat}
    {r : List BusOp} {envs : Nat → Env} (hpos : s.be.pos = .running w (.waitScl lows :: r))
    (hbound : s.be.stretchBound = false) (hlow : ∀ k, (envs k).scl = false) (n o : Nat) :
    ∃ e, runCommand i (envsFrom envs o n) s =
      .next { s with env := e, be := { s.be with pos := .running w (.waitScl (lows + n) :: r) } } := by
  induction n generalizing s lows o with
  | zero => exact ⟨s.env, by rw [Nat.add_zero, ← hpos]; rfl⟩
  | succ n ih =>
    obtain ⟨e, he⟩ := ih
      (s := { s with env := envs o, be := { s.be with pos := .running w (.waitScl (lows + 1) :: r) } }) rfl
      hbound (o + 1)
    refine ⟨e, ?_⟩
    change runCommand i (envs o :: envsFrom envs (o + 1) n) s = _
    rw [run_waitScl_low hi _ _ hpos (by rw [hlow, Bool.and_false]) (by simp [hbound]), he]
    simp only [Nat.add_assoc, Nat.add_comm 1]

/-- A bounded wait whose every sample is low begins the abort when the bound is reached. -/
theorem run_waitScl_timeout {i : Instr} {pub : Publish} (hi : RunsWith i pub) (m : Nat) {s : State} {w : Word}
    {lows : Nat} {r : List BusOp} (envs : Nat → Env) (o : Nat) (es : List Env)
    (hpos : s.be.pos = .running w (.waitScl lows :: r)) (hbound : s.be.stretchBound = true)
    (hmax : s.be.stretchMax = lows + (m + 1)) (hlow : ∀ k, k < m + 1 → (envs (o + k)).scl = false) :
    runCommand i (envsFrom envs o (m + 1) ++ es) s =
      runCommand i es
        { s with env := envs (o + m), be := { s.be with pos := .running w (abortOps .stretchTimeout) } } := by
  induction m generalizing s lows o with
  | zero => exact run_waitScl_last hi (envs o) es hpos (hlow 0 (by omega)) hbound hmax.le
  | succ m ih =>
    have hshift : ∀ k, o + 1 + k = o + (k + 1) := by omega
    have hlow0 : (envs o).scl = false := hlow 0 (by omega)
    have hrest := ih
      (s := { s with env := envs o, be := { s.be with pos := .running w (.waitScl (lows + 1) :: r) } }) (o + 1) rfl
      hbound (hmax.trans (by omega)) fun k hk => by rw [hshift]; exact hlow (k + 1) (by omega)
    change runCommand i (envs o :: (envsFrom envs (o + 1) (m + 1) ++ es)) s = _
    rw [run_waitScl_low hi (envs o) _ hpos (by rw [hlow0, Bool.and_false]) (fun _ => by omega), hrest, hshift]

/-! ### The abort (R148) -/

/-- The Bus Engine after `abort(c)` of command `i`, the fields of spec/41_bus_composite.md R191 published. -/
def BusEngine.aborted (i : Instr) (c : BusCode) (b : BusEngine) : BusEngine :=
  { b with
    opened := false, needRecov := true, sclOut := true, sdaOut := true, code := c, pos := .idle, priv := {}
    xcnt := if countsBytes i then b.priv.xcnt else b.xcnt }

theorem abortedWith_aborted (i : Instr) (c : BusCode) (b : BusEngine) : AbortedWith i c b (b.aborted i c) := ⟨{}, rfl⟩

/-- On an abort REG_WRITE and REG_READ publish their count and the primitives nothing (R191). -/
theorem endAbort_eq_aborted {i : Instr} (hi : i.port = .busCmd) (hne : i ≠ .init) (c : BusCode) (b : BusEngine) :
    ({ b with sdaOut := true, sclOut := true }).endAbort (publishOf i) c = b.aborted i c := by
  cases i with
  | init => exact absurd rfl hne
  | start | stop | writeBit | readBit | writeByte | readByte | regWrite | regRead => rfl
  | readPacket | writePacket | pktAck | pktNak | pktReset | pktId | pktWriteReg | pktReadReg | pktEcho | pktSsn | pktUid
  | pktOpt | pktIsn | pktDiag => cases hi

/-- Both lines released, SDA first. -/
theorem run_releaseLines {i : Instr} {pub : Publish} (hi : RunsWith i pub) {s : State} {w : Word} {r : List BusOp}
    (e e' : Env) (es : List Env) (hpos : s.be.pos = .running w (.release .sda :: .release .scl :: r)) :
    runCommand i (e :: e' :: es) s =
      runCommand i es
        { s with
          env := e'
          be := settle pub r { s.be with pos := .running w [], sdaOut := true, sclOut := true } } := by
  have hsda : settle pub (.release .scl :: r) (s.be.release .sda) =
      { s.be with pos := .running w (.release .scl :: r), sdaOut := true } := by
    simp [settle, BusEngine.withTodo, BusEngine.release, hpos]
  rw [runCommand_line hi e _ hpos nofun, lineStep, hsda,
    runCommand_line hi (op := .release .scl) e' es rfl nofun, lineStep,
    settle_pos pub r { s.be with sdaOut := true, sclOut := true } w [] (.release .scl :: r)]
  rfl

/-- An abort takes two steps, with no wait between them. -/
theorem run_abort {i : Instr} (hi : i.port = .busCmd) (hne : i ≠ .init) {s : State} {w : Word} {c : BusCode}
    (e e' : Env) (hpos : s.be.pos = .running w (abortOps c)) :
    runCommand i [e, e'] s = .next { s with env := e', be := s.be.aborted i c } := by
  have hend := endAbort_eq_aborted hi hne c { s.be with pos := .running w [] }
  rw [run_releaseLines (runsWith_publishOf hi) e e' [] hpos, settle, hend]
  rfl

/-- Settles O16: the wait's low samples reach the bound, and the abort takes the two steps after them. -/
theorem boundedStretchAborts : Obligations.BoundedStretchAborts := by
  intro i s w m r envs hi hne hpos hbound left hleft hlow
  obtain ⟨n, hn⟩ : ∃ n, left = n + 1 := Nat.exists_eq_succ_of_ne_zero hleft.ne'
  have hmax : s.be.stretchMax = m + (n + 1) := by
    change max s.be.stretchLimit.toNat 1 = _
    omega
  refine ⟨s.be.aborted i .stretchTimeout, ?_, abortedWith_aborted i _ _⟩
  rw [steps_eq_envsFrom, envsFrom_add, hn, run_waitScl_timeout (runsWith_publishOf hi) n envs 0 _ hpos hbound hmax
    fun k hk => by rw [Nat.zero_add]; exact hlow k (by omega)]
  simp only [Nat.zero_add]
  exact run_abort hi hne _ _ rfl

/-- Settles O17: every number of low samples leaves the wait where it was, a higher count aside. -/
theorem unboundedStretchNeverEnds : Obligations.UnboundedStretchNeverEnds := by
  intro i s w m r envs hi hpos hbound hlow n
  obtain ⟨e, he⟩ := run_waitScl_unbounded (runsWith_publishOf hi) hpos hbound hlow n 0
  exact ⟨_, (congrArg (runCommand i · s) (steps_eq_envsFrom envs n)).trans he, rfl, rfl, rfl, rfl⟩

/-! ### The arbitration check (R147) -/

/-- The operation is an arbitration check; START's is the pre-read of SDA (R150). -/
def BusOp.IsCheck (op : BusOp) : Prop := op = .arbCheck ∨ op = .startCheck

theorem lineStep_check {op : BusOp} (hop : op.IsCheck) (pub : Publish) (e : Env) (r : List BusOp) (b : BusEngine) :
    lineStep pub e (op :: r) b = if (b.sdaOut && e.sda) = true then settle pub r b else arbLost pub r b := by
  rcases hop with rfl | rfl <;> rfl

theorem BusOp.IsCheck.ne_sendLoop {op : BusOp} (hop : op.IsCheck) : ∀ i n, op ≠ .sendLoop i n := by
  rcases hop with rfl | rfl <;> simp

/-- A check that finds SDA high, or that must not abort, records its level in `ARB` and the command goes on. -/
theorem run_check {i : Instr} {pub : Publish} (hi : RunsWith i pub) {op : BusOp} (hop : op.IsCheck) {s : State}
    {w : Word} {r : List BusOp} (e : Env) (es : List Env) (hpos : s.be.pos = .running w (op :: r))
    (harb : s.be.arbAbort = false ∨ (s.be.sdaOut && e.sda) = true) :
    runCommand i (e :: es) s =
      runCommand i es
        { s with env := e, be := settle pub r { s.be with arb := s.be.arb || !(s.be.sdaOut && e.sda) } } := by
  rw [runCommand_line hi e es hpos hop.ne_sendLoop, lineStep_check hop]
  cases hlevel : s.be.sdaOut && e.sda with
  | true => simp
  | false =>
    have hgo : s.be.arbAbort = false := by simpa [hlevel] using harb
    simp [arbLost, hgo]

/-- A lost check aborts the command in that step and the two after it. -/
theorem run_lostCheck {i : Instr} (hi : i.port = .busCmd) (hne : i ≠ .init) {op : BusOp} (hop : op.IsCheck) {s : State}
    {w : Word} {r : List BusOp} (e e' e'' : Env) (hpos : s.be.pos = .running w (op :: r))
    (habort : s.be.arbAbort = true) (hlost : (s.be.sdaOut && e.sda) = false) :
    runCommand i [e, e', e''] s =
      .next { s with env := e'', be := { s.be with arb := true }.aborted i .arbLost } := by
  have hline : lineStep (publishOf i) e (op :: r) s.be =
      { s.be with arb := true, pos := .running w (abortOps .arbLost) } := by
    simp [lineStep_check hop, arbLost, habort, hlost, BusEngine.withTodo, hpos]
  rw [runCommand_line (runsWith_publishOf hi) e _ hpos hop.ne_sendLoop, hline, run_abort hi hne e' e'' rfl]
  rfl

end Sys2Proof.Machine

/-! PROOFS. The primitive Bus Engine commands from the latched word to their end (spec/40_bus_primitives.md R150 to
R168): each is the beginning of its procedure, the run of that procedure's operations and `finish_BE`. -/

namespace Sys2Proof.Machine

/-! ### Where an accepted command begins (spec/41_bus_composite.md R190) -/

theorem envsFrom_ne_nil (envs : Nat → Env) (o : Nat) {n : Nat} (hn : 0 < n) : envsFrom envs o n ≠ [] := by
  obtain ⟨m, rfl⟩ := Nat.exists_eq_succ_of_ne_zero hn.ne'
  exact List.cons_ne_nil _ _

/-- The state with command `i` in progress from its first line operation on. -/
def State.begun (i : Instr) (todo : List BusOp) (s : State) : State :=
  { s with be := s.be.begun (encode i) todo s.be.opened }

section
variable {i : Instr} {s : State} {todo : List BusOp} (hi : i.port = .busCmd) (hacc : Accepted i s)
  (hbegin : ∀ pub, s.be.begin (encode i) pub (procedureOf i) = s.be.begun (encode i) todo s.be.opened)
include hi hacc hbegin

/-- The step that finds the word latched is the step on the first line operation. -/
theorem exec_accepted (e : Env) :
    exec i { s with env := e } = exec i { s.begun i todo with env := e } := by
  obtain ⟨hpos, hrecov⟩ := hacc
  rw [runsWith_publishOf hi { s.begun i todo with env := e } (encode i) todo rfl, exec_eq_busTurn hi]
  simp only [busTurn, hpos, hrecov, hbegin]
  rfl

/-- A run of an accepted command is a run from its first line operation on. -/
theorem runCommand_accepted {es : List Env} (hes : es ≠ []) :
    runCommand i es s = runCommand i es (s.begun i todo) := by
  obtain ⟨e, es, rfl⟩ := List.exists_cons_of_ne_nil hes
  simp only [runCommand, exec_accepted hi hacc hbegin]

/-- So is its trace. -/
theorem traceCommand_accepted {es : List Env} (hes : es ≠ []) :
    traceCommand i es s = traceCommand i es (s.begun i todo) := by
  obtain ⟨e, es, rfl⟩ := List.exists_cons_of_ne_nil hes
  have htoken : nextToken i e s.be = nextToken i e (s.begun i todo).be := by
    obtain ⟨hpos, hrecov⟩ := hacc
    simp only [nextToken, hpos, hrecov, hbegin]
    rfl
  simp only [traceCommand, exec_accepted hi hacc hbegin, htoken]

/-- A run of an accepted command, given the run of its operations from the first on. -/
theorem steps_accepted {t : State} {envs : Nat → Env} {n : Nat} (hn : 0 < n)
    (hrun : runCommand i (envsFrom envs 0 n ++ []) (s.begun i todo) = runCommand i [] t) :
    runCommand i (steps envs n) s = .next t := by
  rw [steps_eq_envsFrom, runCommand_accepted hi hacc hbegin (envsFrom_ne_nil envs 0 hn)]
  exact run_of_continuation hrun

end

theorem begin_start {b : BusEngine} {v : Bool} (hv : b.opened = v) (w : Word) (pub : Publish) :
    b.begin w pub (procedureOf .start) = b.begun w (startOps v ++ [.finish .ok]) b.opened := by
  rw [← hv]
  rfl

theorem begin_stop (b : BusEngine) (w : Word) (pub : Publish) :
    b.begin w pub (procedureOf .stop) = b.begun w (stopOps ++ [.finish .ok]) b.opened := rfl

theorem begin_writeBit (v : Bool) (b : BusEngine) (w : Word) (pub : Publish) :
    b.begin w pub (procedureOf (.writeBit v)) = b.begun w (writeBitOps v ++ [.finish .ok]) b.opened :=
  begin_of_line (startsWithLine_append _ (writeBitOps_line v))

theorem begin_readBit (b : BusEngine) (w : Word) (pub : Publish) :
    b.begin w pub (procedureOf .readBit) = b.begun w (readBitOps ++ [.finish .ok]) b.opened := rfl

theorem begin_writeByte (d : Byte) (b : BusEngine) (w : Word) (pub : Publish) :
    b.begin w pub (procedureOf (.writeByte d)) = b.begun w (writeByteOps d ++ [.finish .ok]) b.opened :=
  begin_of_line (startsWithLine_append _ (writeByteOps_line d))

theorem begin_readByte (k : Bool) (b : BusEngine) (w : Word) (pub : Publish) :
    b.begin w pub (procedureOf (.readByte k)) = b.begun w (readByteOps k ++ [.finish .ok]) b.opened :=
  begin_of_line rfl

/-! ### START (R150) -/

theorem BusEngine.startSteps_pos (b : BusEngine) : 0 < b.startSteps := by
  unfold BusEngine.startSteps
  split <;> decide

theorem BusEngine.startSteps_of_opened {b : BusEngine} (h : b.opened = true) : b.startSteps = 7 := if_pos h

theorem BusEngine.startSteps_of_closed {b : BusEngine} (h : b.opened = false) : b.startSteps = 4 := by
  rw [BusEngine.startSteps, h]
  rfl

/-- START to its end; only a repeated start waits for the clock. -/
theorem run_startCommand {s : State} {envs : Nat → Env} (hacc : Accepted .start s)
    (hscl : s.be.opened = true → (envs 2).scl = true)
    (harb : s.be.arbAbort = false ∨
      ((s.be.opened || s.be.sdaOut) && (envs (s.be.startSteps - 4)).sda) = true) :
    runCommand .start (steps envs s.be.startSteps) s = .next { s with
      env := envs (s.be.startSteps - 1)
      be := { s.be with
        opened := true, sclOut := false, sdaOut := false
        arb := s.be.arb || !((s.be.opened || s.be.sdaOut) && (envs (s.be.startSteps - 4)).sda)
        code := .ok, pos := .idle, priv := {} } } := by
  have hcheck : s.be.startSteps - 4 = if s.be.opened then 0 + 3 else 0 := by
    unfold BusEngine.startSteps
    split <;> rfl
  have hend : s.be.startSteps - 1 = if s.be.opened then 0 + 6 else 0 + 3 := by
    unfold BusEngine.startSteps
    split <;> rfl
  rw [hcheck] at harb ⊢
  rw [hend]
  exact steps_accepted rfl hacc (begin_start rfl _) s.be.startSteps_pos
    (run_start runsWith_start s.be.opened (s := s.begun .start _) envs 0 [] rfl hscl harb)

/-- Settles O9: the run of START to its end. -/
theorem startOpensTransaction : Obligations.StartOpensTransaction := by
  intro s envs o level hacc hfree harb
  refine ⟨{}, run_startCommand hacc (fun hopen => hfree 2 ?_) harb⟩
  exact lt_of_lt_of_eq (by decide) (BusEngine.startSteps_of_opened hopen).symm

/-! ### STOP (R153) -/

/-- Settles O11: the run of STOP's operations, and then its end. -/
theorem stopClosesTransaction : Obligations.StopClosesTransaction := by
  intro s envs hacc hfree harb
  exact ⟨{}, steps_accepted rfl hacc (begin_stop _ _) (by decide)
    (run_stop runsWith_stop (s := s.begun .stop _) envs 0 [] rfl (hfree 3 (by decide)) harb)⟩

/-! ### Bits (R156, R159) -/

/-- Settles O12: the run of a written bit, and then its end. -/
theorem writeBitDrivesSda : Obligations.WriteBitDrivesSda := by
  intro v s envs hacc hfree harb
  exact ⟨{}, steps_accepted rfl hacc (begin_writeBit v _ _) (by decide)
    (run_writeBit (runsWith_writeBit v) (s := s.begun (.writeBit v) _) v envs 0 [] rfl (fun k _ hk => hfree k hk) harb)⟩

/-- Both lines raised, the peers holding SCL low for `m` samples within the bound (R146, R159). -/
theorem run_raise {i : Instr} {pub : Publish} (hi : RunsWith i pub) (m : Nat) {s : State} {w : Word} {r : List BusOp}
    (envs : Nat → Env) (o : Nat) (es : List Env) (hpos : s.be.pos = .running w (.release .sda :: (raiseScl ++ r)))
    (hlow : ∀ k, k < m → (envs (o + 2 + k)).scl = false) (hhigh : (envs (o + 2 + m)).scl = true)
    (hbound : s.be.stretchBound = true → m = 0 ∨ m < s.be.stretchMax) :
    runCommand i (envsFrom envs o (2 + (m + 1)) ++ es) s =
      runCommand i es
        { s with
          env := envs (o + 2 + m)
          be := settle pub r { s.be with pos := .running w [], sdaOut := true, sclOut := true } } := by
  have hwait := run_waitScl hi m
    (s := { s with
      env := envs (o + 1)
      be := { s.be with pos := .running w (.waitScl 0 :: r), sdaOut := true, sclOut := true } })
    envs (o + 2) es rfl hlow hhigh (fun hb => by rw [Nat.zero_add]; exact hbound hb)
  rw [settle_pos pub r { s.be with sdaOut := true, sclOut := true } w _ []] at hwait
  rw [envsFrom_add, List.append_assoc]
  exact (run_releaseLines hi (envs o) (envs (o + 1)) _ hpos).trans hwait

/-- READ_BIT's sample of SDA, and SCL driven low after it (R159). -/
theorem run_sampleBit {i : Instr} {pub : Publish} (hi : RunsWith i pub) {s : State} {w : Word} {r : List BusOp}
    (e e' e'' : Env) (es : List Env) (hpos : s.be.pos = .running w (.readBit :: (loOps .scl ++ r))) :
    runCommand i (e :: e' :: e'' :: es) s =
      runCommand i es
        { s with
          env := e''
          be := settle pub r
            { s.be with
              pos := .running w [], sclOut := false
              priv := { s.be.priv with bit := s.be.sdaOut && e.sda } } } := by
  obtain ⟨par, be, pf, now, cr, tr, rdata, env, script, turns⟩ := s
  obtain ⟨opened, needRecov, sclOut, sdaOut, arb, code, rxBit, rxByte, pulses, xcnt, arbAbort, stretchBound,
    stretchLimit, buf, pos, priv⟩ := be
  simp only at hpos
  subst hpos
  simp [loOps, runCommand_fields hi, lineStep, settle, settle_pos_fields pub r, BusEngine.withTodo, BusEngine.sample,
    BusEngine.driveLow]

/-- READ_BIT whose clock is stretched for `m` samples: both lines raised, the sample, and the end. -/
theorem run_readBitCommand {s : State} {envs : Nat → Env} {m : Nat} (hacc : Accepted .readBit s)
    (hlow : ∀ k, k < m → (envs (2 + k)).scl = false) (hhigh : (envs (2 + m)).scl = true)
    (hbound : s.be.stretchBound = true → m < s.be.stretchMax) :
    runCommand .readBit (steps envs (6 + m)) s = .next { s with
      env := envs (5 + m)
      be := { s.be with
        sclOut := false, sdaOut := true, rxBit := (envs (3 + m)).sda, code := .ok, pos := .idle, priv := {} } } := by
  have hraise := run_raise runsWith_readBit m (s := s.begun .readBit _) (r := .readBit :: (loOps .scl ++ [.finish .ok]))
    envs 0 (envsFrom envs (3 + m) 3 ++ []) rfl hlow hhigh (fun hb => .inr (hbound hb))
  refine steps_accepted rfl hacc (begin_readBit _ _) (by omega) ?_
  rw [show 6 + m = 2 + (m + 1) + 3 by omega, envsFrom_add, List.append_assoc,
    show 0 + (2 + (m + 1)) = 3 + m by omega]
  refine hraise.trans ((run_sampleBit runsWith_readBit _ _ _ [] rfl).trans ?_)
  rw [show 5 + m = 3 + m + 1 + 1 by omega]
  rfl

/-- Settles O13: READ_BIT is its three parts, and the wait is the same in every command. -/
theorem readBitSamplesSda : Obligations.ReadBitSamplesSda := by
  refine ⟨fun m s envs hacc hlow hhigh hbound => ⟨{}, run_readBitCommand hacc hlow hhigh hbound⟩, ?_⟩
  intro i s w lows m r envs hi hpos hlow hhigh hbound
  have hwait := run_waitScl (runsWith_publishOf hi) m envs 0 [] hpos (by simpa using hlow) (by simpa using hhigh) hbound
  rw [Nat.zero_add] at hwait
  rw [steps_eq_envsFrom]
  exact run_of_continuation hwait

/-! ### Bytes (R162, R165) -/

/-- The checks of a byte's 1 bits, one in each group of six steps. -/
theorem bitsLost_byte (envs : Nat → Env) (d : Byte) :
    bitsLost envs 0 (bitsMsbFirst d) =
      (List.range 8).any fun j => d.getLsbD (7 - j) && !(envs (6 * j + 3)).sda := rfl

/-- Settles O14: the run of a written byte and of its bits. -/
theorem writeByteSendsMsbFirst : Obligations.WriteByteSendsMsbFirst := by
  intro d s envs lost hacc hfree harb
  have hlost : lost = bitsLost envs 0 (bitsMsbFirst d) := (bitsLost_byte envs d).symm
  have hscl : ∀ k, 0 ≤ k → k < 54 → (envs k).scl = true := fun k _ hk => hfree k hk
  rw [hlost] at harb ⊢
  have hrun := run_writeByte (runsWith_writeByte d) d (s := s.begun (.writeByte d) _) (r := [.finish .ok]) envs 0 [] rfl
    hscl harb
  obtain ⟨t, hclocks⟩ := Clocks.bits (runsWith_writeByte d) (bitsMsbFirst d) (s := s.begun (.writeByte d) _)
    (r := [.finish .ok]) envs 0 rfl hscl harb
  refine ⟨{}, steps_accepted rfl hacc (begin_writeByte d _ _) (by decide) hrun, ?_⟩
  rw [steps_eq_envsFrom, traceCommand_accepted rfl hacc (begin_writeByte d _ _) (envsFrom_ne_nil envs 0 (by decide))]
  exact hclocks.clockedBits_eq

/-- Settles O15: the run of a received byte, whose bits are those the peer sent. -/
theorem readByteAssemblesMsbFirst : Obligations.ReadByteAssemblesMsbFirst := by
  intro k d s envs hacc hfree hpeer harb
  have hbyte : receivedFrom envs 0 8 (s.begun (.readByte k) []).be.priv.byte = d :=
    receivedFrom_eq d _ (by simpa using hpeer)
  have hrun := run_readByte (runsWith_readByte k) k (s := s.begun (.readByte k) _) (r := [.finish .ok]) envs 0 [] rfl
    (fun j _ hj => hfree j hj) harb
  refine ⟨{}, steps_accepted rfl hacc (begin_readByte k _ _) (by decide) ?_⟩
  rw [← hbyte]
  exact hrun

/-! ### Lost arbitration (R147, R148) -/

/-- A check lost after both lines were raised, as in a repeated start and in a written 1: the abort ends the command in
six steps. -/
theorem run_raise_lost {i : Instr} (hi : i.port = .busCmd) (hne : i ≠ .init) {op : BusOp} (hop : op.IsCheck) {s : State}
    {w : Word} {r : List BusOp} (envs : Nat → Env)
    (hpos : s.be.pos = .running w (.release .sda :: (raiseScl ++ op :: r))) (hscl : (envs 2).scl = true)
    (habort : s.be.arbAbort = true) (hlost : (envs 3).sda = false) :
    runCommand i (envsFrom envs 0 6) s =
      .next { s with env := envs 5, be := { s.be with arb := true }.aborted i .arbLost } := by
  have hline : op.takesStep = true := by rcases hop with rfl | rfl <;> rfl
  have hraise := run_raise (runsWith_publishOf hi) 0 envs 0 (envsFrom envs 3 3) hpos (by simp) hscl (fun _ => .inl rfl)
  rw [settle_line _ _ _ hline] at hraise
  exact hraise.trans (run_lostCheck hi hne hop _ _ _ rfl habort hlost)

/-- STOP up to its check. -/
theorem run_stop_toCheck {i : Instr} {pub : Publish} (hi : RunsWith i pub) {s : State} {w : Word} {r : List BusOp}
    (envs : Nat → Env) (o : Nat) (es : List Env) (hpos : s.be.pos = .running w (stopOps ++ r))
    (hscl : (envs (o + 3)).scl = true) :
    runCommand i (envsFrom envs o 5 ++ es) s =
      runCommand i es
        { s with
          env := envs (o + 4)
          be := { s.be with
            pos := .running w (.arbCheck :: .setOpen false :: r), sdaOut := true, sclOut := true } } := by
  have h5 : envsFrom envs o 5 = [envs o, envs (o + 1), envs (o + 2), envs (o + 3), envs (o + 4)] := rfl
  obtain ⟨par, be, pf, now, cr, tr, rdata, env, script, turns⟩ := s
  obtain ⟨opened, needRecov, sclOut, sdaOut, arb, code, rxBit, rxByte, pulses, xcnt, arbAbort, stretchBound,
    stretchLimit, buf, pos, priv⟩ := be
  simp only at hpos
  subst hpos
  simp [h5, stopOps, raiseScl, loOps, runCommand_fields hi, lineStep, settle, waitStep, BusEngine.withTodo,
    BusEngine.sample, BusEngine.driveLow, BusEngine.release, hscl]

/-- START that loses its check ends in the two steps after it; only a repeated start waits for the clock. -/
theorem run_startCommand_lost {s : State} {envs : Nat → Env} (hacc : Accepted .start s) (habort : s.be.arbAbort = true)
    (hscl : s.be.opened = true → (envs 2).scl = true)
    (hlost : ((s.be.opened || s.be.sdaOut) && (envs (s.be.startSteps - 4)).sda) = false) :
    runCommand .start (steps envs (s.be.startSteps - 1)) s =
      .next { s with
        env := envs (s.be.startSteps - 2), be := { s.be with arb := true }.aborted .start .arbLost } := by
  obtain hopen | hopen := Bool.eq_false_or_eq_true s.be.opened
  · have hsteps := BusEngine.startSteps_of_opened hopen
    rw [hsteps, hopen] at hlost
    rw [hsteps]
    exact steps_accepted rfl hacc (begin_start hopen _) (by decide)
      (run_raise_lost (i := .start) rfl (by decide) (.inr rfl) (s := s.begun .start _) envs rfl (hscl hopen) habort
        hlost)
  · have hsteps := BusEngine.startSteps_of_closed hopen
    rw [hsteps, hopen] at hlost
    rw [hsteps]
    exact steps_accepted rfl hacc (begin_start hopen _) (by decide)
      (run_lostCheck (i := .start) rfl (by decide) (.inr rfl) (s := s.begun .start _) _ _ _ rfl habort hlost)

/-- STOP that loses its check. -/
theorem run_stopCommand_lost {s : State} {envs : Nat → Env} (hacc : Accepted .stop s) (habort : s.be.arbAbort = true)
    (hscl : (envs 3).scl = true) (hlost : (envs 5).sda = false) :
    runCommand .stop (steps envs 8) s =
      .next { s with env := envs 7, be := { s.be with arb := true }.aborted .stop .arbLost } :=
  steps_accepted rfl hacc (begin_stop _ _) (by decide)
    ((run_stop_toCheck runsWith_stop (s := s.begun .stop _) envs 0 (envsFrom envs 5 3) rfl hscl).trans
      (run_lostCheck rfl (by decide) (.inl rfl) _ _ _ rfl habort hlost))

/-- WRITE_BIT of a 1 that loses its check. -/
theorem run_writeBitCommand_lost {s : State} {envs : Nat → Env} (hacc : Accepted (.writeBit true) s)
    (habort : s.be.arbAbort = true) (hscl : (envs 2).scl = true) (hlost : (envs 3).sda = false) :
    runCommand (.writeBit true) (steps envs 6) s =
      .next { s with env := envs 5, be := { s.be with arb := true }.aborted (.writeBit true) .arbLost } :=
  steps_accepted rfl hacc (begin_writeBit true _ _) (by decide)
    (run_raise_lost rfl (by decide) (.inl rfl) (s := s.begun (.writeBit true) _) envs rfl hscl habort hlost)

/-- Settles O18: a lost check and the abort after it, for each command that has one and wherever it stands; and a check
that does not abort. -/
theorem arbitrationLossAborts : Obligations.ArbitrationLossAborts := by
  refine ⟨?_, ?_⟩
  · intro s envs habort lostBe o
    refine ⟨fun hacc hfree hlost => ⟨{}, ?_⟩, fun hacc hfree hlost => ⟨{}, ?_⟩, fun hacc hfree hlost => ⟨{}, ?_⟩,
      fun i w r hi hne hpos hlost => ⟨_, ?_, abortedWith_aborted i _ _⟩⟩
    · refine run_startCommand_lost hacc habort (fun hopen => hfree 2 ?_) hlost
      exact lt_of_lt_of_eq (by decide) (BusEngine.startSteps_of_opened hopen).symm
    · exact run_stopCommand_lost hacc habort (hfree 3 (by decide)) hlost
    · exact run_writeBitCommand_lost hacc habort (hfree 2 (by decide)) hlost
    · obtain hpos | hpos := hpos
      · exact run_lostCheck hi hne (.inl rfl) _ _ _ hpos habort hlost
      · exact run_lostCheck hi hne (.inr rfl) _ _ _ hpos habort hlost
  · intro i s w r e hi hpos level harb
    obtain hpos | hpos := hpos
    · exact run_check (runsWith_publishOf hi) (.inl rfl) e [] hpos harb
    · exact run_check (runsWith_publishOf hi) (.inr rfl) e [] hpos harb

/-! ### The traces of START (R149, R151) -/

@[simp] theorem runCommand_nil (i : Instr) (s : State) : runCommand i [] s = .next s := rfl

@[simp] theorem traceCommand_nil (i : Instr) (s : State) : traceCommand i [] s = [] := rfl

/-- A repeated start in the trace. -/
theorem trace_repeatedStart {i : Instr} {pub : Publish} (hi : RunsWith i pub) {s : State} {w : Word} {r : List BusOp}
    {envs : Nat → Env} (hpos : s.be.pos = .running w (startOps true ++ r)) (hscl : (envs 2).scl = true)
    (hsda : (envs 3).sda = true) (hscl' : (envs 5).scl = true) :
    traceCommand i (envsFrom envs 0 7) s =
      [.high .sda, .high .scl, .read .scl true, .read .sda true, .low .sda, .read .scl true, .low .scl] := by
  have h7 : envsFrom envs 0 7 = [envs 0, envs 1, envs 2, envs 3, envs 4, envs 5, envs 6] := rfl
  obtain ⟨par, be, pf, now, cr, tr, rdata, env, script, turns⟩ := s
  obtain ⟨opened, needRecov, sclOut, sdaOut, arb, code, rxBit, rxByte, pulses, xcnt, arbAbort, stretchBound,
    stretchLimit, buf, pos, priv⟩ := be
  simp only at hpos
  subst hpos
  simp [h7, startOps, raiseScl, loOps, traceCommand_fields hi, lineStep, lineToken, settle, waitStep,
    BusEngine.withTodo, BusEngine.sample, BusEngine.driveLow, BusEngine.release, hscl, hsda, hscl']

/-- A plain start in the trace. -/
theorem trace_plainStart {i : Instr} {pub : Publish} (hi : RunsWith i pub) {s : State} {w : Word} {r : List BusOp}
    {envs : Nat → Env} (hpos : s.be.pos = .running w (startOps false ++ r)) (hout : s.be.sdaOut = true)
    (hsda : (envs 0).sda = true) :
    traceCommand i (envsFrom envs 0 4) s =
      [.read .sda true, .low .sda, .read .scl (s.be.sclOut && (envs 2).scl), .low .scl] := by
  have h4 : envsFrom envs 0 4 = [envs 0, envs 1, envs 2, envs 3] := rfl
  obtain ⟨par, be, pf, now, cr, tr, rdata, env, script, turns⟩ := s
  obtain ⟨opened, needRecov, sclOut, sdaOut, arb, code, rxBit, rxByte, pulses, xcnt, arbAbort, stretchBound,
    stretchLimit, buf, pos, priv⟩ := be
  simp only at hpos hout
  subst hpos hout
  simp [h4, startOps, loOps, traceCommand_fields hi, lineStep, lineToken, settle, BusEngine.withTodo,
    BusEngine.sample, BusEngine.driveLow, hsda]

/-- A start up to its last step: SCL has still to be driven low. -/
theorem run_start_toLast {i : Instr} {pub : Publish} (hi : RunsWith i pub) (rep : Bool) {s : State} {w : Word}
    {r : List BusOp} {envs : Nat → Env} (hpos : s.be.pos = .running w (startOps rep ++ r))
    (hscl : rep = true → (envs 2).scl = true)
    (hsda : ((rep || s.be.sdaOut) && (envs (if rep then 3 else 0)).sda) = true) :
    runCommand i (envsFrom envs 0 (if rep then 6 else 3)) s =
      .next { s with
        env := envs (if rep then 5 else 2)
        be := { s.be with
          pos := .running w (.driveLow .scl :: .setOpen true :: r), sdaOut := false
          sclOut := rep || s.be.sclOut } } := by
  have h3 : envsFrom envs 0 3 = [envs 0, envs 1, envs 2] := rfl
  obtain ⟨par, be, pf, now, cr, tr, rdata, env, script, turns⟩ := s
  obtain ⟨opened, needRecov, sclOut, sdaOut, arb, code, rxBit, rxByte, pulses, xcnt, arbAbort, stretchBound,
    stretchLimit, buf, pos, priv⟩ := be
  simp only at hpos hsda
  subst hpos
  cases rep with
  | false =>
    simp only [Bool.false_or, Bool.false_eq_true, if_false] at hsda
    simp [h3, startOps, loOps, runCommand_fields hi, lineStep, settle, BusEngine.withTodo, BusEngine.sample,
      BusEngine.driveLow, hsda]
  | true =>
    simp only [Bool.true_or, Bool.true_and, if_true] at hsda
    simp [envsFrom_six, startOps, raiseScl, loOps, runCommand_fields hi, lineStep, settle, waitStep,
      BusEngine.withTodo, BusEngine.sample, BusEngine.driveLow, BusEngine.release, hscl rfl, hsda]

/-- START is in progress before its last step. -/
theorem run_startCommand_toLast {s : State} {envs : Nat → Env} {rep : Bool} (hacc : Accepted .start s)
    (hopen : s.be.opened = rep) (hscl : rep = true → (envs 2).scl = true)
    (hsda : ((rep || s.be.sdaOut) && (envs (if rep then 3 else 0)).sda) = true) :
    ∃ t, runCommand .start (steps envs (if rep then 6 else 3)) s = .next t ∧ t.be.busy = true := by
  have hrun := run_start_toLast runsWith_start rep (s := s.begun .start _) (r := [.finish .ok]) rfl hscl hsda
  have hsome : 0 < if rep then 6 else 3 := by split <;> decide
  rw [← List.append_nil (envsFrom envs 0 _)] at hrun
  exact ⟨_, steps_accepted rfl hacc (begin_start hopen _) hsome hrun, rfl⟩

/-- Settles O10: each trace, the run to the end of O9, and the run to the step before it. -/
theorem startTraces : Obligations.StartTraces := by
  intro s envs hacc
  refine ⟨fun hopen hfree hsda => ?_, fun hopen hout hsda => ?_⟩
  · have hsteps := BusEngine.startSteps_of_opened hopen
    have hscl : (envs 2).scl = true := hfree 2 (by decide)
    have hrun := run_startCommand hacc (fun _ => hscl) (.inr (by rw [hsteps, hopen]; exact hsda))
    rw [hsteps] at hrun
    refine ⟨?_, ⟨_, hrun, rfl⟩, run_startCommand_toLast hacc hopen (fun _ => hscl) hsda⟩
    rw [steps_eq_envsFrom, traceCommand_accepted rfl hacc (begin_start hopen _) (envsFrom_ne_nil envs 0 (by decide))]
    exact trace_repeatedStart runsWith_start rfl hscl hsda (hfree 5 (by decide))
  · have hsteps := BusEngine.startSteps_of_closed hopen
    have hlevel : (s.be.sdaOut && (envs 0).sda) = true := by rw [hout, hsda]; rfl
    have hrun := run_startCommand hacc (by simp [hopen]) (.inr (by rw [hsteps, hopen]; exact hlevel))
    rw [hsteps] at hrun
    refine ⟨?_, ⟨_, hrun, rfl⟩, run_startCommand_toLast hacc hopen nofun hlevel⟩
    rw [steps_eq_envsFrom, traceCommand_accepted rfl hacc (begin_start hopen _) (envsFrom_ne_nil envs 0 (by decide))]
    exact trace_plainStart runsWith_start (s := s.begun .start _) rfl hout hsda

end Sys2Proof.Machine

/-! PROOFS. Every step keeps the counters of both units within their bounds (spec/60_exceptions.md R332). -/

namespace Sys2Proof.Machine

/-! ### Operations that count nothing -/

/-- An operation that counts no byte and whose own counter, if it has one, starts at 0. -/
def BusOp.isUncounted : BusOp → Bool
  | .waitScl lows => lows == 0
  | .release _ | .sample _ | .driveLow _ | .startCheck | .arbCheck | .readBit | .startTest | .shiftIn | .setOpen _
  | .finish _ | .reject _ | .abortEnd _ => true
  | .initScl _ | .initSda _ _ | .sendLoop _ _ | .ackTest _ | .storeByte _ | .readLoop _ _ => false

theorem startOps_uncounted (v : Bool) : (startOps v).all BusOp.isUncounted = true := by cases v <;> rfl

theorem writeBitOps_uncounted (v : Bool) : (writeBitOps v).all BusOp.isUncounted = true := by cases v <;> rfl

theorem writeByteOps_uncounted (d : Byte) : (writeByteOps d).all BusOp.isUncounted = true := by
  have hread : readBitOps.all BusOp.isUncounted = true := rfl
  simp only [writeByteOps, List.all_append, List.all_flatMap, writeBitOps_uncounted, hread, List.all_eq_true,
    Bool.and_true, implies_true]

theorem readByteOps_uncounted (k : Bool) : (readByteOps k).all BusOp.isUncounted = true := by cases k <;> rfl

/-! ### Operations within their bounds -/

/-- With the operations `todo` at most `n` more bytes are counted, and each operation's own counter is within its
bound. -/
def BusEngine.CountsAtMost (b : BusEngine) (todo : List BusOp) (n : Nat) : Prop :=
  pendingCount todo ≤ n ∧ ∀ op ∈ todo, op.counterOk b = true

theorem pendingCount_cons (op : BusOp) (r : List BusOp) : pendingCount (op :: r) = op.counts + pendingCount r := by
  simp [pendingCount]

theorem BusEngine.countsAtMost_nil (b : BusEngine) (n : Nat) : b.CountsAtMost [] n := ⟨Nat.zero_le n, by simp⟩

theorem BusEngine.countsAtMost_cons {b : BusEngine} {op : BusOp} {r : List BusOp} {n : Nat} :
    b.CountsAtMost (op :: r) n ↔ op.counts ≤ n ∧ op.counterOk b = true ∧ b.CountsAtMost r (n - op.counts) := by
  simp only [CountsAtMost, pendingCount_cons, List.forall_mem_cons]
  constructor
  · rintro ⟨hn, hop, hr⟩
    exact ⟨by omega, hop, by omega, hr⟩
  · rintro ⟨hc, hop, hn, hr⟩
    exact ⟨by omega, hop, hr⟩

theorem BusEngine.countsAtMost_uncounted {b : BusEngine} {xs ys : List BusOp} {n : Nat}
    (hx : xs.all BusOp.isUncounted = true) (hy : b.CountsAtMost ys n) : b.CountsAtMost (xs ++ ys) n := by
  induction xs with
  | nil => exact hy
  | cons op r ih =>
    obtain ⟨hop, hr⟩ : op.isUncounted = true ∧ r.all BusOp.isUncounted = true := by simpa using hx
    have hlast := ih hr
    rw [List.cons_append, countsAtMost_cons]
    cases op with
    | waitScl lows =>
      obtain rfl : lows = 0 := by simpa [BusOp.isUncounted] using hop
      exact ⟨Nat.zero_le n, by simp [BusOp.counterOk, stretchMax], hlast⟩
    | release | sample | driveLow | startCheck | arbCheck | readBit | startTest | shiftIn | setOpen | finish | reject
    | abortEnd => exact ⟨Nat.zero_le n, rfl, hlast⟩
    | initScl | initSda | sendLoop | ackTest | storeByte | readLoop => cases hop

/-- A byte to send counts once, when it is acknowledged (spec/41_bus_composite.md R196, R197). -/
theorem BusEngine.countsAtMost_send {b : BusEngine} {r : List BusOp} {n : Nat} (d : Byte) (c : BusCode)
    (hr : b.CountsAtMost r n) : b.CountsAtMost (sendOps d c ++ r) (n + 1) := by
  rw [sendOps, List.append_assoc]
  exact countsAtMost_uncounted (writeByteOps_uncounted d)
    (countsAtMost_cons.mpr ⟨Nat.le_add_left 1 n, rfl, hr⟩)

/-- The configuration is all of the Bus Engine that an operation's bound depends on. -/
theorem BusOp.counterOk_congr {b b' : BusEngine} (hbound : b'.stretchBound = b.stretchBound)
    (hlimit : b'.stretchLimit = b.stretchLimit) (op : BusOp) : op.counterOk b' = op.counterOk b := by
  cases op with
  | waitScl lows =>
    have hmax : b'.stretchMax = b.stretchMax := by rw [BusEngine.stretchMax, BusEngine.stretchMax, hlimit]
    simp only [BusOp.counterOk, hbound, hmax]
  | _ => rfl

/-! ### The Bus Engine about to do its operations -/

/-- The bounds of R332 for a Bus Engine that is about to do the operations `todo`. -/
structure BusEngine.BoundedFor (b : BusEngine) (todo : List BusOp) : Prop where
  xcnt : b.xcnt.toNat ≤ 258
  pulses : b.pulses.toNat ≤ Config.recoveryMaxPulses
  privPulses : b.priv.pulses.toNat ≤ Config.recoveryMaxPulses
  privXcnt : b.priv.xcnt.toNat ≤ 258
  todo : b.CountsAtMost todo (258 - b.priv.xcnt.toNat)

/-- The same bounds where the position is not that of a command in progress. -/
theorem busCountersBounded_not_running {b : BusEngine} (hpos : ∀ w todo, b.pos ≠ .running w todo) :
    BusCountersBounded b ↔ b.xcnt.toNat ≤ 258 ∧ b.pulses.toNat ≤ Config.recoveryMaxPulses ∧
      b.priv.pulses.toNat ≤ Config.recoveryMaxPulses := by
  unfold BusCountersBounded
  split
  · simp only [and_true]
  · simp only [and_true]
  · next w todo h => exact absurd h (hpos w todo)

theorem busCountersBounded_running {b : BusEngine} {w : Word} {todo : List BusOp} (hpos : b.pos = .running w todo) :
    BusCountersBounded b ↔ b.BoundedFor todo := by
  simp only [BusCountersBounded, hpos, List.all_eq_true]
  constructor
  · rintro ⟨hx, hp, hpp, hn, hall⟩
    exact ⟨hx, hp, hpp, by omega, by omega, hall⟩
  · rintro ⟨hx, hp, hpp, hpx, hn, hall⟩
    exact ⟨hx, hp, hpp, by omega, hall⟩

/-- Whatever the position, the completion fields are within their bounds. -/
theorem BusCountersBounded.fields {b : BusEngine} (h : BusCountersBounded b) :
    b.xcnt.toNat ≤ 258 ∧ b.pulses.toNat ≤ Config.recoveryMaxPulses ∧ b.priv.pulses.toNat ≤ Config.recoveryMaxPulses :=
  ⟨h.1, h.2.1, h.2.2.1⟩

theorem busCountersBounded_idle {b : BusEngine} (hpos : b.pos = .idle)
    (hfields : b.xcnt.toNat ≤ 258 ∧ b.pulses.toNat ≤ Config.recoveryMaxPulses ∧
      b.priv.pulses.toNat ≤ Config.recoveryMaxPulses) : BusCountersBounded b :=
  (busCountersBounded_not_running fun w todo h => by rw [hpos] at h; cases h).mpr hfields

/-- The operations become those still to do. -/
theorem BusEngine.BoundedFor.withTodo {b : BusEngine} {todo : List BusOp} (h : b.BoundedFor todo) :
    BusCountersBounded (b.withTodo todo) := by
  obtain ⟨w, hpos⟩ : ∃ w, (b.withTodo todo).pos = .running w todo := by
    unfold BusEngine.withTodo
    split <;> exact ⟨_, rfl⟩
  refine (busCountersBounded_running hpos).mpr ⟨?_, ?_, ?_, ?_, ?_⟩
  · simpa using h.xcnt
  · simpa using h.pulses
  · simpa using h.privPulses
  · simpa using h.privXcnt
  · rw [BusEngine.withTodo_priv]
    exact ⟨h.todo.1, fun op hop => (BusOp.counterOk_congr (by simp) (by simp) op).trans (h.todo.2 op hop)⟩

/-- Another list of operations within the bounds takes the place of the one to do. -/
theorem BusEngine.BoundedFor.replace {b : BusEngine} {todo todo' : List BusOp} (h : b.BoundedFor todo)
    (h' : b.CountsAtMost todo' (258 - b.priv.xcnt.toNat)) : b.BoundedFor todo' :=
  ⟨h.xcnt, h.pulses, h.privPulses, h.privXcnt, h'⟩

theorem BusEngine.BoundedFor.tail {b : BusEngine} {op : BusOp} {r : List BusOp} (h : b.BoundedFor (op :: r)) :
    b.BoundedFor r := by
  obtain ⟨-, -, hn, hr⟩ := BusEngine.countsAtMost_cons.mp h.todo
  exact h.replace ⟨by omega, hr⟩

/-- Nothing but the counters and the configuration matters. -/
theorem BusEngine.BoundedFor.congr {b b' : BusEngine} {todo : List BusOp} (h : b.BoundedFor todo)
    (hx : b'.xcnt = b.xcnt) (hp : b'.pulses = b.pulses) (hpp : b'.priv.pulses = b.priv.pulses)
    (hpx : b'.priv.xcnt = b.priv.xcnt) (hbound : b'.stretchBound = b.stretchBound)
    (hlimit : b'.stretchLimit = b.stretchLimit) : b'.BoundedFor todo := by
  refine ⟨hx ▸ h.xcnt, hp ▸ h.pulses, hpp ▸ h.privPulses, hpx ▸ h.privXcnt, ?_⟩
  rw [hpx]
  exact ⟨h.todo.1, fun op hop => (BusOp.counterOk_congr hbound hlimit op).trans (h.todo.2 op hop)⟩

/-- A byte counted: the private count goes up by the one that the operation stood for (R196). -/
theorem BusEngine.BoundedFor.count {b b' : BusEngine} {op : BusOp} {r : List BusOp} (h : b.BoundedFor (op :: r))
    (hop : op.counts = 1) (hx : b'.xcnt = b.xcnt) (hp : b'.pulses = b.pulses)
    (hpv : b'.priv = { b.priv with xcnt := b.priv.xcnt + 1 }) (hbound : b'.stretchBound = b.stretchBound)
    (hlimit : b'.stretchLimit = b.stretchLimit) : b'.BoundedFor r := by
  obtain ⟨hle, -, hn, hr⟩ := BusEngine.countsAtMost_cons.mp h.todo
  have hnext : (b.priv.xcnt + 1).toNat = b.priv.xcnt.toNat + 1 := by
    rw [BitVec.toNat_add]
    exact Nat.mod_eq_of_lt (by change b.priv.xcnt.toNat + 1 < 65536; omega)
  refine ⟨hx ▸ h.xcnt, hp ▸ h.pulses, by rw [hpv]; exact h.privPulses, ?_, ?_, ?_⟩
  · rw [hpv, hnext]; omega
  · rw [hpv, hnext]; omega
  · exact fun op hop => (BusOp.counterOk_congr hbound hlimit op).trans (hr op hop)

/-- The end of a command publishes counters that are within their bounds. -/
theorem BusEngine.BoundedFor.finish {b : BusEngine} {todo : List BusOp} (h : b.BoundedFor todo) (pub : Publish)
    (c : BusCode) : BusCountersBounded (b.finish pub c) := by
  refine busCountersBounded_idle (BusEngine.finish_pos _ _ _) ⟨?_, ?_, Nat.zero_le _⟩
  · cases pub with
    | xcnt => exact h.privXcnt
    | pulses => exact Nat.zero_le _
    | nothing | bit | byte => exact h.xcnt
  · cases pub with
    | pulses => exact h.privPulses
    | nothing | bit | byte | xcnt => exact h.pulses

/-! ### What a step does -/

theorem settle_bounded (pub : Publish) {ops : List BusOp} {b : BusEngine} (h : b.BoundedFor ops) :
    BusCountersBounded (settle pub ops b) := by
  induction ops generalizing b with
  | nil => exact h.withTodo
  | cons op r ih =>
    cases op with
    | startTest =>
      exact (h.tail.replace (BusEngine.countsAtMost_uncounted (startOps_uncounted _) h.tail.todo)).withTodo
    | shiftIn | setOpen => exact ih (h.tail.congr rfl rfl rfl rfl rfl rfl)
    | ackTest c =>
      simp only [settle]
      split
      · exact (h.replace (BusEngine.countsAtMost_uncounted (xs := stopOps ++ [.finish c]) rfl
          (BusEngine.countsAtMost_nil _ _))).withTodo
      · exact ih (h.count rfl rfl rfl rfl rfl rfl)
    | storeByte i => exact ih (h.count rfl rfl rfl rfl rfl rfl)
    | sendLoop i n =>
      simp only [settle]
      split
      · exact h.withTodo
      · exact ih h.tail
    | readLoop i n =>
      simp only [settle]
      split
      · next hi =>
        have hbyte : ({ b with priv := { b.priv with byte := 0 } } : BusEngine).BoundedFor (.readLoop i n :: r) :=
          h.congr rfl rfl rfl rfl rfl rfl
        obtain ⟨hn, -, hr⟩ := BusEngine.countsAtMost_cons.mp hbyte.todo
        simp only [BusOp.counts] at hn hr
        refine (hbyte.replace ?_).withTodo
        rw [List.append_assoc, List.cons_append, List.cons_append, List.nil_append]
        refine BusEngine.countsAtMost_uncounted (readByteOps_uncounted _) (BusEngine.countsAtMost_cons.mpr ⟨?_, rfl,
          BusEngine.countsAtMost_cons.mpr ⟨?_, rfl, ?_⟩⟩)
        · simp only [BusOp.counts]; omega
        · simp only [BusOp.counts]; omega
        · obtain ⟨hrn, hall⟩ := hr
          exact ⟨by simp only [BusOp.counts]; omega, hall⟩
      · exact ih h.tail
    | finish c => exact h.finish pub c
    | reject c => exact h.finish .nothing c
    | abortEnd c =>
      exact (h.congr (b' := { b with opened := false, needRecov := true }) rfl rfl rfl rfl rfl rfl).finish _ c
    | release | sample | driveLow | waitScl | startCheck | arbCheck | readBit | initScl | initSda => exact h.withTodo

theorem abort_bounded {b : BusEngine} {todo : List BusOp} (h : b.BoundedFor todo) (c : BusCode) :
    BusCountersBounded (b.withTodo (abortOps c)) :=
  (h.replace (BusEngine.countsAtMost_uncounted (xs := abortOps c) rfl (BusEngine.countsAtMost_nil _ _))).withTodo

theorem arbLost_bounded (pub : Publish) {r : List BusOp} {b : BusEngine} (h : b.BoundedFor r) :
    BusCountersBounded (arbLost pub r b) := by
  have harb : ({ b with arb := true } : BusEngine).BoundedFor r := h.congr rfl rfl rfl rfl rfl rfl
  unfold arbLost
  split
  · exact abort_bounded harb _
  · exact settle_bounded pub harb

/-- The clock-stretch counter stays below its limit: the sample that would reach it aborts (spec/40_bus_primitives.md
R146). -/
theorem waitStep_bounded (pub : Publish) (e : Env) {lows : Nat} {r : List BusOp} {b : BusEngine}
    (h : b.BoundedFor (.waitScl lows :: r)) : BusCountersBounded (waitStep pub e lows r b) := by
  unfold waitStep
  split
  · exact settle_bounded pub h.tail
  · split
    · exact abort_bounded h _
    · next hgo =>
      obtain ⟨hn, -, hr⟩ := BusEngine.countsAtMost_cons.mp h.todo
      refine (h.replace (todo' := .waitScl (lows + 1) :: r) (BusEngine.countsAtMost_cons.mpr ⟨hn, ?_, hr⟩)).withTodo
      cases hbound : b.stretchBound with
      | false => simp [BusOp.counterOk, hbound]
      | true => simpa [BusOp.counterOk, hbound] using hgo

/-- INIT counts at most 9 pulses (spec/41_bus_composite.md R192, R193). -/
theorem initTest_bounded (pub : Publish) (scl sda : Bool) {p : Nat} {v : Bool} {r : List BusOp} {b : BusEngine}
    (h : b.BoundedFor (.initSda p v :: r)) : BusCountersBounded (initTest pub p scl sda b) := by
  obtain ⟨-, hp, -⟩ := BusEngine.countsAtMost_cons.mp h.todo
  have hp9 : p ≤ 9 := by simpa [BusOp.counterOk] using hp
  have hends : ∀ (x : Bool) (n : BitVec 4), n.toNat ≤ Config.recoveryMaxPulses →
      ({ b with needRecov := x, priv := { b.priv with pulses := n } } : BusEngine).BoundedFor [] := fun x n hn =>
    ⟨h.xcnt, h.pulses, hn, h.privXcnt, BusEngine.countsAtMost_nil _ _⟩
  unfold initTest
  split
  · refine (hends false (BitVec.ofNat 4 p) ?_).finish pub .ok
    rw [BitVec.toNat_ofNat]
    exact (Nat.mod_le _ _).trans hp9
  · split
    · next hlt =>
      refine (h.replace (todo' := pulseOps (p + 1)) (BusEngine.countsAtMost_uncounted
        (xs := loOps .scl ++ [.release .scl]) (ys := [.initScl (p + 1)]) rfl
        (BusEngine.countsAtMost_cons.mpr ⟨Nat.zero_le _, ?_, BusEngine.countsAtMost_nil _ _⟩))).withTodo
      simpa [BusOp.counterOk] using hlt
    · exact (hends true 9 (by decide)).finish pub .recoveryFail

theorem lineStep_bounded (pub : Publish) (e : Env) {ops : List BusOp} {b : BusEngine} (h : b.BoundedFor ops) :
    BusCountersBounded (lineStep pub e ops b) := by
  cases ops with
  | nil => exact settle_bounded pub h
  | cons op r =>
    cases op with
    | release l | driveLow l => cases l <;> exact settle_bounded pub (h.tail.congr rfl rfl rfl rfl rfl rfl)
    | sample => exact settle_bounded pub h.tail
    | readBit => exact settle_bounded pub (h.tail.congr rfl rfl rfl rfl rfl rfl)
    | waitScl lows => exact waitStep_bounded pub e h
    | startCheck | arbCheck =>
      simp only [lineStep]
      split
      · exact settle_bounded pub h.tail
      · exact arbLost_bounded pub h.tail
    | initScl p =>
      obtain ⟨-, hp, -⟩ := BusEngine.countsAtMost_cons.mp h.todo
      exact (h.replace (todo' := [.initSda p _])
        (BusEngine.countsAtMost_cons.mpr ⟨Nat.zero_le _, hp, BusEngine.countsAtMost_nil _ _⟩)).withTodo
    | initSda p v => exact initTest_bounded pub v _ h
    | startTest | shiftIn | setOpen | ackTest | storeByte | sendLoop | readLoop | finish | reject | abortEnd =>
      exact settle_bounded pub h

theorem sequencerStep_bounded {pub : Publish} {todo : List BusOp} {s t : State}
    (hstep : sequencerStep pub todo s = .next t) (h : s.be.BoundedFor todo) : BusCountersBounded t.be := by
  unfold sequencerStep at hstep
  split at hstep
  · next i n r =>
    split at hstep
    · next hi =>
      split at hstep
      · cases hstep
      · next d _ =>
        cases hstep
        obtain ⟨hn, -, hr, hall⟩ := BusEngine.countsAtMost_cons.mp h.todo
        simp only [BusOp.counts] at hn hr
        obtain ⟨m, hm⟩ : ∃ m, 258 - s.be.priv.xcnt.toNat = m + 1 := Nat.exists_eq_succ_of_ne_zero (by omega)
        refine lineStep_bounded pub _ (h.replace ?_)
        rw [hm]
        refine BusEngine.countsAtMost_send d _ (BusEngine.countsAtMost_cons.mpr ⟨?_, rfl, ?_, hall⟩)
        · simp only [BusOp.counts]; omega
        · simp only [BusOp.counts]; omega
    · cases hstep; exact lineStep_bounded pub _ h
  · cases hstep; exact lineStep_bounded pub _ h

/-! ### Where a command begins -/

/-- A command's procedure counts at most 258 bytes: REG_READ the three it writes and 255 it reads (R196, R332). -/
theorem countsAtMost_procedureOf {i : Instr} (hi : i.port = .busCmd) (b : BusEngine) :
    b.CountsAtMost (procedureOf i) 258 := by
  have hplain : ∀ {xs : List BusOp} {n : Nat}, xs.all BusOp.isUncounted = true → b.CountsAtMost xs n := by
    intro xs n h
    simpa using BusEngine.countsAtMost_uncounted h (b.countsAtMost_nil n)
  have hend : ∀ {n : Nat}, b.CountsAtMost (stopOps ++ [.finish .ok]) n := hplain rfl
  have hlen : ∀ n : Byte, n.toNat ≤ 255 := fun n => Nat.le_of_lt_succ n.isLt
  cases i with
  | init =>
    exact BusEngine.countsAtMost_uncounted (xs := [.setOpen false, .release .sda, .release .scl]) rfl
      (BusEngine.countsAtMost_cons.mpr ⟨Nat.zero_le _, rfl, b.countsAtMost_nil _⟩)
  | start | stop | readBit => exact hplain rfl
  | writeBit v => exact BusEngine.countsAtMost_uncounted (writeBitOps_uncounted v) (hplain rfl)
  | writeByte d => exact BusEngine.countsAtMost_uncounted (writeByteOps_uncounted d) (hplain rfl)
  | readByte k => exact BusEngine.countsAtMost_uncounted (readByteOps_uncounted k) (hplain rfl)
  | regWrite dev reg n =>
    have hloop : b.CountsAtMost (.sendLoop 0 n.toNat :: (stopOps ++ [.finish .ok])) 256 :=
      BusEngine.countsAtMost_cons.mpr ⟨(hlen n).trans (by decide), rfl, hend⟩
    have hall := BusEngine.countsAtMost_send (addrWrite dev) .addrNak (BusEngine.countsAtMost_send reg .regNak hloop)
    simp only [procedureOf, regWriteOps, List.cons_append, List.append_assoc]
    exact BusEngine.countsAtMost_uncounted (xs := [.startTest]) rfl hall
  | regRead dev reg n =>
    have hloop : b.CountsAtMost (.readLoop 0 n.toNat :: (stopOps ++ [.finish .ok])) 255 :=
      BusEngine.countsAtMost_cons.mpr ⟨hlen n, rfl, hend⟩
    have hread := BusEngine.countsAtMost_uncounted (xs := [.startTest]) rfl
      (BusEngine.countsAtMost_send (addrRead dev) .addrNak hloop)
    have hall := BusEngine.countsAtMost_send (addrWrite dev) .addrNak (BusEngine.countsAtMost_send reg .regNak hread)
    by_cases hn : n = 0
    · rw [procedureOf, regReadOps, if_pos hn]
      exact hplain rfl
    · rw [procedureOf, regReadOps, if_neg hn]
      simp only [List.cons_append, List.append_assoc]
      exact BusEngine.countsAtMost_uncounted (xs := [.startTest]) rfl hall
  | readPacket | writePacket | pktAck | pktNak | pktReset | pktId | pktWriteReg | pktReadReg | pktEcho | pktSsn | pktUid
  | pktOpt | pktIsn | pktDiag => cases hi

theorem exec_keeps_busCounters {i : Instr} {s t : State} (hi : i.port = .busCmd) (h : exec i s = .next t)
    (hs : BusCountersBounded s.be) : BusCountersBounded t.be := by
  obtain ⟨hx, hp, -⟩ := hs.fields
  rw [exec_eq_busTurn hi] at h
  unfold busTurn at h
  split at h
  · next w todo hpos => exact sequencerStep_bounded h ((busCountersBounded_running hpos).mp hs)
  · split at h
    · cases h
      exact busCountersBounded_idle (BusEngine.finish_pos _ _ _) ⟨hx, hp, Nat.zero_le _⟩
    · have hbegin : BusCountersBounded (s.be.begin (encode i) (publishOf i) (procedureOf i)) :=
        settle_bounded _ ⟨hx, hp, Nat.zero_le _, Nat.zero_le _, countsAtMost_procedureOf hi _⟩
      dsimp only at h
      split at h
      · next w todo hpos => exact sequencerStep_bounded h ((busCountersBounded_running hpos).mp hbegin)
      · cases h; exact hbegin

/-- Every step keeps `XCNT`, `PULSES` and the clock-stretch counter within their bounds (R332). -/
theorem step_keeps_busCounters {s t : State} (h : step s = .next t) (hs : BusCountersBounded s.be) :
    BusCountersBounded t.be := by
  have hidle : ∀ {b : BusEngine}, b.busy = false → b.pos = .idle := fun {b} hb => by
    by_contra hpos
    rw [BusEngine.busy_eq_true.mpr hpos] at hb
    cases hb
  refine step_keeps_bus BusCountersBounded (hreset := ?reset) (hill := ?ill)
    (hexec := fun i s t hi hb _ hx => exec_keeps_busCounters hi hx hb)
    (hstart := fun b w hb _ => (busCountersBounded_not_running (by simp)).mpr hb.fields)
    (hconf := fun b w hb hbusy => busCountersBounded_idle (hidle hbusy) hb.fields) (hstat := ?stat)
    (hput := fun b i bs hb hbusy => busCountersBounded_idle (hidle hbusy) hb.fields) h hs
  case reset => exact busCountersBounded_idle rfl (by decide)
  case ill =>
    intro b hb _
    obtain ⟨hx, hp, -⟩ := hb.fields
    exact busCountersBounded_idle (BusEngine.finish_pos _ _ _) ⟨hx, hp, Nat.zero_le _⟩
  case stat =>
    intro b w hb
    unfold BusEngine.writeStatus
    split <;> exact hb

/-! ### The Packet Framer's counters -/

/-- The number of bytes reported is a packet's length at most. -/
theorem count_le_maxLen {n : Nat} (h : n ≤ Config.maxLen) : (BitVec.ofNat 8 n).toNat ≤ Config.maxLen := by
  rw [BitVec.toNat_ofNat]
  exact (Nat.mod_le _ _).trans h

/-- A framer command that ends reports a count within its bound, or leaves the one before it. -/
theorem framerCountersBounded_finish {f : Framer} {r : FramerResult} {n : Option Byte} {c : Option Half}
    (h : (n.getD f.count).toNat ≤ Config.maxLen) : FramerCountersBounded (f.finish r n c) := ⟨h, trivial⟩

theorem readEnds_bounded {w : Word} {l : Latch} {lens : Nat → Prop} {s t : State} (h : ReadEnds w l lens s t)
    (hlens : ∀ len, lens len → len ≤ Config.maxLen) (hcount : s.pf.count.toNat ≤ Config.maxLen) :
    FramerCountersBounded t.pf := by
  cases h with
  | goesOn phase ht hp =>
    rw [ht]
    rcases hp with ⟨got, rfl, hgot⟩ | ⟨len, got, rfl, hgot, hlen⟩
    · exact ⟨hcount, hgot.le⟩
    · exact ⟨hcount, hgot.le, hlens len hlen⟩
  | ends r n c ht hn =>
    rw [ht]
    refine framerCountersBounded_finish ?_
    rcases hn with rfl | ⟨len, hlen, rfl⟩
    · exact Nat.zero_le _
    · exact count_le_maxLen (hlens len hlen)

theorem execReadPacket_keeps_counters {s t : State} (h : execReadPacket s = .next t)
    (hs : FramerCountersBounded s.pf) : FramerCountersBounded t.pf := by
  obtain ⟨hcount, hphase⟩ := hs
  rcases execReadPacket_next h with ⟨-, rfl⟩ | ⟨-, ⟨got, -, -, hr⟩ | ⟨w, l, len, got, hpos, hr⟩⟩
  · exact framerCountersBounded_finish (Nat.zero_le _)
  · exact readEnds_bounded hr (fun _ hlen => hlen.2) hcount
  · rw [hpos] at hphase
    refine readEnds_bounded hr ?_ hcount
    rintro _ rfl
    exact hphase.2

theorem sendTurn_bounded {w : Word} {l : Latch} {len sent : Nat} {csum : Option Half} {s t : State}
    (h : sendTurn w l len sent csum s = .next t) (hcount : s.pf.count.toNat ≤ Config.maxLen) (hsent : sent ≤ len)
    (hlen : len ≤ Config.maxLen) : FramerCountersBounded t.pf := by
  rcases sendTurn_next h with ⟨-, rfl⟩ | ⟨-, k, bs, -, -, ⟨hk, rfl⟩ | ⟨-, rfl⟩⟩
  · exact framerCountersBounded_finish (count_le_maxLen (hsent.trans hlen))
  · exact ⟨hcount, hk.le, hlen⟩
  · exact framerCountersBounded_finish (count_le_maxLen hlen)

theorem execWritePacket_keeps_counters {s t : State} (h : execWritePacket s = .next t)
    (hs : FramerCountersBounded s.pf) : FramerCountersBounded t.pf := by
  obtain ⟨hcount, hphase⟩ := hs
  rcases execWritePacket_next h with ⟨w, l, len, sent, csum, hpos, hsend⟩ | hbegin
  · rw [hpos] at hphase
    exact sendTurn_bounded hsend hcount hphase.1 hphase.2
  · rcases beginWrite_next hbegin with rfl | ⟨len, csum, bs, -, hlen, -, hsend⟩
    · exact framerCountersBounded_finish (Nat.zero_le _)
    · exact sendTurn_bounded hsend hcount (Nat.zero_le _) hlen

/-- Every step keeps `got` and `sent` within the packet's length (R332). -/
theorem step_keeps_framerCounters {s t : State} (h : step s = .next t) (hs : FramerCountersBounded s.pf) :
    FramerCountersBounded t.pf :=
  step_keeps_framer FramerCountersBounded (hreset := ⟨Nat.zero_le _, trivial⟩)
    (hill := fun _ hf => framerCountersBounded_finish hf.1)
    (hread := fun _ _ hf hx => execReadPacket_keeps_counters hx hf)
    (hwrite := fun _ _ hf hx => execWritePacket_keeps_counters hx hf) (hstart := fun _ _ _ hf _ => ⟨hf.1, trivial⟩)
    (hcall := fun _ _ _ _ hf _ => ⟨hf.1, trivial⟩) (hdl := fun _ _ hf => hf) (hst := fun _ _ hf => hf)
    (hz := fun _ hf => hf) (hput := fun _ _ _ hf => hf) h hs

/-- Settles O57: each unit's bounds are kept; the Bus Engine's with the bytes its pending operations still count. -/
theorem countersStayBounded : Obligations.CountersStayBounded :=
  fun _ _ ⟨hbus, hframer⟩ h => ⟨step_keeps_busCounters h hbus, step_keeps_framerCounters h hframer⟩

end Sys2Proof.Machine

/-! PROOFS. Where the register commands end when a byte is not acknowledged or holds no value, and the endings decided
before any line operation (spec/41_bus_composite.md R190, R191, R197 to R208, spec/60_exceptions.md R323). -/

namespace Sys2Proof.Machine

/-! ### Before any line operation -/

/-- Settles O19: the test of `NEED_RECOV` comes before the procedure, and the count's before its first operation. -/
theorem endingsBeforeAnyLineOperation : Obligations.EndingsBeforeAnyLineOperation := by
  refine ⟨fun i s hi hne hpos hrecov => ⟨{}, ?_⟩, fun dev reg s ⟨hpos, hrecov⟩ => ⟨{}, ?_⟩⟩
  · simp [exec_eq_busTurn hi, busTurn, hpos, hrecov, hne, BusEngine.finish, BusEngine.publish]
  · rw [exec_eq_busTurn rfl]
    simp [busTurn, hpos, hrecov, BusEngine.begin, procedureOf, regReadOps, settle, BusEngine.finish, BusEngine.publish]

/-! ### Runs from a command's first step -/

/-- The first `n` steps of command `i` lead from `s` to the Bus Engine `b`, nothing else changed. -/
def Reaches (i : Instr) (envs : Nat → Env) (s : State) (n : Nat) (b : BusEngine) : Prop :=
  runCommand i (envsFrom envs 0 n) s = .next { s with env := envs (n - 1), be := b }

theorem Reaches.andThen {i : Instr} {envs : Nat → Env} {s : State} {n m : Nat} {b b' : BusEngine}
    (h : Reaches i envs s n b)
    (h' : runCommand i (envsFrom envs n m) { s with env := envs (n - 1), be := b } =
      .next { s with env := envs (n + m - 1), be := b' }) : Reaches i envs s (n + m) b' := by
  rw [Reaches, envsFrom_add, runCommand_append h, Nat.zero_add]
  exact h'

/-- In the steps from `lo` up to `hi` no peer holds a line low. -/
def Released (envs : Nat → Env) (lo hi : Nat) : Prop :=
  ∀ k, lo ≤ k → k < hi → (envs k).scl = true ∧ (envs k).sda = true

theorem Released.mono {envs : Nat → Env} {lo hi hi' : Nat} (h : Released envs lo hi) (hle : hi' ≤ hi) :
    Released envs lo hi' := fun k hlo hk => h k hlo (hk.trans_le hle)

theorem Released.bitsLost {envs : Nat → Env} {o : Nat} (h : Released envs o (o + 54)) (d : Byte) :
    bitsLost envs o (bitsMsbFirst d) = false :=
  bitsLost_eq_false fun b (hb : b < 8) => (h _ (by omega) (by omega)).2

/-- A peer that acknowledges the bytes before byte `j` takes each of them. -/
theorem takesByte_of_peer {envs : Nat → Env} {o n j m : Nat}
    (hpeer : PeersHold (ackPeer o m) envs n) (hj : j < m) (hn : o + 54 * (j + 1) ≤ n) :
    TakesByte envs (o + 54 * j) :=
  takesByte_of_ackPeer hj fun k _ hk => hpeer k (by omega)

theorem released_before {envs : Nat → Env} {o n m : Nat} (hpeer : PeersHold (ackPeer o m) envs n) (hn : o ≤ n) :
    Released envs 0 o := fun k _ hk => by
  obtain ⟨hscl, hsda⟩ := hpeer k (by omega)
  exact ⟨hscl, hsda.trans (ackPeer_before hk)⟩

/-- It releases both lines from byte `j` on. -/
theorem released_after {envs : Nat → Env} {o n j : Nat} (hpeer : PeersHold (ackPeer o j) envs n) :
    Released envs (o + 54 * j) n := fun k hlo hk => by
  obtain ⟨hscl, hsda⟩ := hpeer k hk
  exact ⟨hscl, hsda.trans (ackPeer_after hlo)⟩

/-! ### The phases of a register command -/

section
variable {i : Instr} {envs : Nat → Env} {s : State} {o : Nat} {w : Word} {d : Byte} {c : BusCode} {r : List BusOp}
  {b : BusEngine} {j n count : Nat}

/-- The start a register command begins with (R150): the address byte is next. -/
theorem Reaches.start (hi : i.port = .busCmd) (hacc : Accepted i s)
    (hbegin : ∀ pub, s.be.begin (encode i) pub (procedureOf i) =
      s.be.begun (encode i) (startOps s.be.opened ++ (sendOps d c ++ r)) s.be.opened)
    (hlost : s.be.startLost = false ∨ s.be.arbAbort = false) (hfree : Released envs 0 s.be.startSteps) :
    Reaches i envs s s.be.startSteps
      { s.be.acknowledged (encode i) 0 with sdaOut := false, pos := .running (encode i) (sendOps d c ++ r) } := by
  have hsda : (envs (if s.be.opened then 0 + 3 else 0)).sda = true :=
    (hfree _ (Nat.zero_le _) (by rw [BusEngine.startSteps]; split <;> decide)).2
  have hcheck : (!((s.be.opened || s.be.sdaOut) && (envs (if s.be.opened then 0 + 3 else 0)).sda)) =
      s.be.startLost := by
    rw [hsda, BusEngine.startLost]
    simp
  have hstart := run_start (runsWith_publishOf hi) s.be.opened (s := s.begun i _) envs 0 [] rfl
    (fun hrep => (hfree 2 (Nat.zero_le _) (by rw [BusEngine.startSteps, hrep]; decide)).1)
    (hlost.symm.imp id fun h => by rw [← hcheck, Bool.not_eq_false'] at h; exact h)
    (w := encode i) (r := sendOps d c ++ r)
  have hend : s.be.startSteps - 1 = if s.be.opened then 0 + 6 else 0 + 3 := by
    unfold BusEngine.startSteps
    split <;> rfl
  rw [Reaches, runCommand_accepted hi hacc hbegin (envsFrom_ne_nil envs 0 s.be.startSteps_pos), hend,
    BusEngine.acknowledged, ← hcheck]
  rw [settle_send] at hstart
  exact run_of_continuation hstart

/-- An acknowledged byte is counted (R197). -/
theorem Reaches.ack (h : Reaches i envs s o b) {pub : Publish} (hi : RunsWith i pub)
    (hpos : b.pos = .running w (sendOps d c ++ r)) (hpeer : TakesByte envs o) :
    Reaches i envs s (o + 54)
      (settle pub r
        { b with
          pos := .running w [], sdaOut := true, sclOut := false
          priv := { b.priv with bit := false, xcnt := b.priv.xcnt + 1 } }) := by
  have hrun := run_send_ack hi d c (s := { s with env := envs (o - 1), be := b }) envs o [] hpos hpeer.scl
    (.inr (hpeer.bitsLost d)) hpeer.ack
  rw [hpeer.bitsLost, Bool.or_false] at hrun
  exact h.andThen (run_of_continuation hrun)

/-- A byte that no peer acknowledges: the stop is next (R197). -/
theorem run_nak {pub : Publish} (hi : RunsWith i pub) (hpos : s.be.pos = .running w (sendOps d c ++ r))
    (hpeer : Released envs o (o + 54)) :
    runCommand i (envsFrom envs o 54) s =
      .next { s with
        env := envs (o + 53)
        be := { s.be with
          pos := .running w (stopOps ++ [.finish c]), sdaOut := true, sclOut := false
          priv := { s.be.priv with bit := true } } } := by
  have hrun := run_send_nak hi d c envs o [] hpos (fun k hlo hk => (hpeer k hlo hk).1) (.inr (hpeer.bitsLost d))
    (hpeer _ (by omega) (by omega)).2
  rw [hpeer.bitsLost, Bool.or_false] at hrun
  exact run_of_continuation hrun

theorem Reaches.nak (h : Reaches i envs s o b) {pub : Publish} (hi : RunsWith i pub)
    (hpos : b.pos = .running w (sendOps d c ++ r)) (hpeer : Released envs o (o + 54)) :
    Reaches i envs s (o + 54)
      { b with
        pos := .running w (stopOps ++ [.finish c]), sdaOut := true, sclOut := false
        priv := { b.priv with bit := true } } :=
  h.andThen (run_nak hi (s := { s with env := envs (o - 1), be := b }) hpos hpeer)

/-- REG_WRITE's loop over a data byte that is acknowledged (R198). -/
theorem Reaches.dataAck (h : Reaches i envs s o b) {pub : Publish} (hi : RunsWith i pub)
    (hpos : b.pos = .running w (.sendLoop j n :: r)) (hj : j < n) (hd : b.buf.read j = some d)
    (hpeer : TakesByte envs o) :
    Reaches i envs s (o + 54)
      (settle pub (.sendLoop (j + 1) n :: r)
        { b with
          pos := .running w [], sdaOut := true, sclOut := false
          priv := { b.priv with bit := false, xcnt := b.priv.xcnt + 1 } }) :=
  h.andThen (Clocks.sendLoop_step hi (s := { s with env := envs (o - 1), be := b }) hpos hj hd hpeer).run

/-- REG_WRITE's loop over a data byte that is not acknowledged: the run is the byte's, and the stop is next (R198). -/
theorem Reaches.dataNak (h : Reaches i envs s o b) {pub : Publish} (hi : RunsWith i pub)
    (hpos : b.pos = .running w (.sendLoop j n :: r)) (hj : j < n) (hd : b.buf.read j = some d)
    (hpeer : Released envs o (o + 54)) :
    Reaches i envs s (o + 54)
      { b with
        pos := .running w (stopOps ++ [.finish .writeFail]), sdaOut := true, sclOut := false
        priv := { b.priv with bit := true } } := by
  have henter := run_sendLoop_enter hi (s := { s with env := envs (o - 1), be := b }) (envs o)
    (envsFrom envs (o + 1) 53) hpos hj hd
  have hrun := run_nak hi (c := .writeFail) (d := d) (r := .sendLoop (j + 1) n :: r)
    (s := { s with
      env := envs (o - 1), be := { b with pos := .running w (sendOps d .writeFail ++ .sendLoop (j + 1) n :: r) } })
    rfl hpeer
  exact h.andThen (henter.trans hrun)

/-- At a data byte that holds no value the loop's step faults (spec/10_state.md R42). -/
theorem Reaches.dataFault (h : Reaches i envs s o b) {pub : Publish} (hi : RunsWith i pub)
    (hpos : b.pos = .running w (.sendLoop j n :: r)) (hj : j < n) (hnone : b.buf.read j = none) :
    runCommand i (envsFrom envs 0 (o + 1)) s = .fault .unwrittenRead := by
  have hexec := hi { s with env := envs o, be := b } w _ hpos
  simp only [sequencerStep, if_pos hj, hnone] at hexec
  rw [envsFrom_add, runCommand_append h, Nat.zero_add]
  simp only [envsFrom, List.range'_one, List.map_cons, List.map_nil, runCommand, hexec]

/-- The Bus Engine `b` in a register command whose byte `count` was not acknowledged: the stop is next, and then the
end with code `c` (R197). -/
def BusEngine.refusedByte (b : BusEngine) (w : Word) (c : BusCode) (count : Nat) : BusEngine :=
  { b.acknowledged w (BitVec.ofNat 16 count) with
    pos := .running w (stopOps ++ [.finish c])
    priv := { bit := true, byte := 0, xcnt := BitVec.ofNat 16 count, pulses := 0 } }

/-- The stop after a byte that is not acknowledged ends the command with the byte's code (R197, R207). -/
theorem Reaches.stop (h : Reaches i envs s o (s.be.refusedByte w c count)) (hi : RunsWith i .xcnt)
    (hpeer : Released envs o (o + 6)) :
    Reaches i envs s (o + 6) { s.be.registerDone count s.be.buf with code := c } := by
  have hsda : (envs (o + 5)).sda = true := (hpeer _ (by omega) (by omega)).2
  have hrun := run_stop hi (s := { s with env := envs (o - 1), be := s.be.refusedByte w c count }) envs o [] rfl
    (hpeer _ (by omega) (by omega)).1 (.inr hsda)
  rw [hsda, Bool.not_true, Bool.or_false] at hrun
  exact h.andThen (run_of_continuation hrun)

/-- An arbitration loss in that stop aborts the command instead (spec/60_exceptions.md R323). -/
theorem Reaches.stopLost (h : Reaches i envs s o (s.be.refusedByte w c count)) (hi : i.port = .busCmd)
    (hne : i ≠ .init) (habort : s.be.arbAbort = true) (hscl : (envs (o + 3)).scl = true)
    (hlost : (envs (o + 5)).sda = false) :
    Reaches i envs s (o + 8) ({ s.be.refusedByte w c count with arb := true }.aborted i .arbLost) := by
  refine h.andThen (m := 8) ?_
  have hcheck := run_stop_toCheck (runsWith_publishOf hi)
    (s := { s with env := envs (o - 1), be := s.be.refusedByte w c count }) envs o (envsFrom envs (o + 5) 3) rfl hscl
  rw [show 8 = 5 + 3 from rfl, envsFrom_add, hcheck]
  exact run_lostCheck hi hne (.inl rfl) _ _ _ rfl habort hlost

/-- An address byte or register byte that is not acknowledged, in either command (R198, R203). -/
theorem reaches_refusedAddressing {dev : BitVec 7} {reg : Byte} (hi : i.port = .busCmd)
    (hacc : Accepted i s)
    (hbegin : ∀ pub, s.be.begin (encode i) pub (procedureOf i) =
      s.be.begun (encode i)
        (startOps s.be.opened ++ (sendOps (addrWrite dev) .addrNak ++ (sendOps reg .regNak ++ r))) s.be.opened)
    (hlost : s.be.startLost = false ∨ s.be.arbAbort = false) (hj : j < 2)
    (hpeer : PeersHold (ackPeer s.be.startSteps j) envs n) (hn : s.be.startSteps + 54 * (j + 1) ≤ n) :
    Reaches i envs s (s.be.startSteps + 54 * (j + 1)) (s.be.refusedByte (encode i) (nakCode j) j) := by
  have hrun := runsWith_publishOf hi
  have hstart := Reaches.start hi hacc hbegin hlost (released_before hpeer (by omega))
  have hnak : Released envs (s.be.startSteps + 54 * j) (s.be.startSteps + 54 * j + 54) :=
    (released_after hpeer).mono hn
  match j, hj with
  | 0, _ => exact hstart.nak hrun rfl hnak
  | 1, _ =>
    have htake : TakesByte envs (s.be.startSteps + 54 * 0) := takesByte_of_peer hpeer (by omega) (by omega)
    have haddr := hstart.ack hrun rfl htake
    rw [settle_send] at haddr
    exact haddr.nak hrun rfl hnak

end

/-! ### REG_WRITE (R198) -/

/-- REG_WRITE's loop waits at a data byte that is still to send (R198). -/
theorem settle_sendLoop_pos (pub : Publish) {b : BusEngine} {w : Word} {j n : Nat} {r : List BusOp}
    (hb : b.pos = .running w []) (hj : j < n) :
    settle pub (.sendLoop j n :: r) b = { b with pos := .running w (.sendLoop j n :: r) } := by
  simp only [settle, if_pos hj, BusEngine.withTodo, hb]

section
variable {dev : BitVec 7} {reg n : Byte} {envs : Nat → Env} {s : State} (hacc : Accepted (.regWrite dev reg n) s)
  (hlost : s.be.startLost = false ∨ s.be.arbAbort = false)
include hacc hlost

/-- REG_WRITE with its first `j` data bytes sent and acknowledged (R198). -/
theorem reaches_dataByte (j : Nat) (hj : j ≤ n.toNat) (hdata : ∀ a, a < j → s.be.buf.read a ≠ none)
    (htakes : ∀ k, k < j + 2 → TakesByte envs (s.be.startSteps + 54 * k)) (hfree : Released envs 0 s.be.startSteps) :
    Reaches (.regWrite dev reg n) envs s (s.be.startSteps + 54 * (j + 2))
      (settle .xcnt (.sendLoop j n.toNat :: (stopOps ++ [.finish .ok]))
        (s.be.acknowledged (encode (.regWrite dev reg n)) (BitVec.ofNat 16 (j + 2)))) := by
  induction j with
  | zero =>
    exact (Clocks.addressed rfl rfl hacc (begin_regWrite dev reg n s.be _) hlost
      (fun k hk => hfree k (Nat.zero_le k) hk) (htakes 0 (by decide)) (htakes 1 (by decide))).run
  | succ j ih =>
    obtain ⟨d, hd⟩ := Option.ne_none_iff_exists'.mp (hdata j (Nat.lt_succ_self j))
    have hbefore := ih (by omega) (fun a ha => hdata a (by omega)) (fun k hk => htakes k (by omega))
    rw [settle_sendLoop_pos _ rfl hj] at hbefore
    have hbyte := hbefore.dataAck (runsWith_regWrite dev reg n) rfl hj hd (htakes (j + 2) (by omega))
    rw [show BitVec.ofNat 16 (j + 1 + 2) = BitVec.ofNat 16 (j + 2) + 1 from BitVec.ofNat_add (j + 2) 1]
    exact hbyte

/-- REG_WRITE whose byte `j` is the first not acknowledged (R197, R199, R207). -/
theorem reaches_regWriteNak {j m : Nat} (hj : j < n.toNat + 2) (hdata : ∀ a, a + 2 ≤ j → s.be.buf.read a ≠ none)
    (hpeer : PeersHold (ackPeer s.be.startSteps j) envs m) (hm : s.be.startSteps + 54 * (j + 1) ≤ m) :
    Reaches (.regWrite dev reg n) envs s (s.be.startSteps + 54 * (j + 1))
      (s.be.refusedByte (encode (.regWrite dev reg n)) (nakCode j) j) := by
  by_cases haddr : j < 2
  · exact reaches_refusedAddressing rfl hacc (begin_regWrite dev reg n s.be _) hlost haddr hpeer hm
  · obtain ⟨k, rfl⟩ : ∃ k, j = k + 2 := ⟨j - 2, by omega⟩
    have hk : k < n.toNat := by omega
    obtain ⟨d, hd⟩ := Option.ne_none_iff_exists'.mp (hdata k (Nat.le_refl _))
    have hbefore := reaches_dataByte hacc hlost k hk.le (fun a ha => hdata a (by omega))
      (fun a ha => takesByte_of_peer hpeer ha (by omega)) (released_before hpeer (by omega))
    rw [settle_sendLoop_pos _ rfl hk] at hbefore
    exact hbefore.dataNak (runsWith_regWrite dev reg n) rfl hk hd ((released_after hpeer).mono hm)

end

/-- Settles O21: the run of every phase, as for the bits it clocks. -/
theorem regWriteAcknowledged : Obligations.RegWriteAcknowledged := by
  intro dev reg n data s envs o total hacc hlost hdata hpeer
  obtain ⟨hlen, hread⟩ := (Memory.readBytes_eq_some _ _ _ _).mp hdata
  have hbytes : ∀ k, k < n.toNat → s.be.buf.read (0 + k) = some (data.getD k 0) := fun k hk => by
    rw [hread k hk]
    simp [hlen, hk]
  rw [steps_eq_envsFrom]
  exact ⟨{}, (clocks_regWrite rfl hacc hlost hbytes hpeer).run⟩

/-- Settles O23: the run to the byte not acknowledged, and the stop after it. -/
theorem regWriteStopsAtNak : Obligations.RegWriteStopsAtNak := by
  intro dev reg n j s envs o total hacc hlost hj hdata hpeer
  rw [steps_eq_envsFrom]
  refine ⟨{}, (reaches_regWriteNak hacc hlost hj hdata hpeer (Nat.le_add_right _ _)).stop
    (runsWith_regWrite dev reg n) fun k hlo hk => released_after hpeer k ?_ hk⟩
  change o + 54 * (j + 1) ≤ k at hlo
  omega

/-- Settles O24: the bytes before it sent, the step that begins the byte reads it. -/
theorem regWriteFaultsOnUnwrittenByte : Obligations.RegWriteFaultsOnUnwrittenByte := by
  intro dev reg n j s envs o total hacc hlost hj hdata hnone hpeer
  have hbefore := reaches_dataByte (envs := envs) hacc hlost j hj.le hdata
    (fun k hk => takesByte_of_peer hpeer hk (by change _ ≤ o + 54 * (j + 2) + 1; omega))
    (released_before hpeer (by change _ ≤ o + 54 * (j + 2) + 1; omega))
  rw [settle_sendLoop_pos _ rfl hj] at hbefore
  rw [steps_eq_envsFrom]
  exact hbefore.dataFault (runsWith_regWrite dev reg n) rfl hj hnone

/-! ### REG_READ (R203) -/

/-- The repeated start before REG_READ's second address byte (R203). -/
theorem Reaches.restart {i : Instr} {envs : Nat → Env} {s : State} {o : Nat} {w : Word} {d : Byte} {c : BusCode}
    {r : List BusOp} {pub : Publish} {count : Half}
    (h : Reaches i envs s o (settle pub (.startTest :: (sendOps d c ++ r)) (s.be.acknowledged w count)))
    (hi : RunsWith i pub) (hpeer : Released envs o (o + 7)) :
    Reaches i envs s (o + 7)
      { s.be.acknowledged w count with sdaOut := false, pos := .running w (sendOps d c ++ r) } := by
  have hsda : (envs (o + 3)).sda = true := (hpeer _ (by omega) (by omega)).2
  have hstart := run_start hi true (w := w) (r := sendOps d c ++ r)
    (s := { s with
      env := envs (o - 1), be := settle pub (.startTest :: (sendOps d c ++ r)) (s.be.acknowledged w count) })
    envs o [] rfl (fun _ => (hpeer _ (by omega) (by omega)).1) (.inr hsda)
  simp only [if_true, hsda, Bool.true_or, Bool.and_self, Bool.not_true, Bool.or_false] at hstart
  rw [settle_send] at hstart
  exact h.andThen (run_of_continuation hstart)

section
variable {dev : BitVec 7} {reg n : Byte} {envs : Nat → Env} {s : State} (hacc : Accepted (.regRead dev reg n) s)
  (hlost : s.be.startLost = false ∨ s.be.arbAbort = false) (hn : n ≠ 0)
include hacc hlost hn

/-- REG_READ whose address byte after the repeated start is not acknowledged (R203, R207). -/
theorem reaches_readAddressNak {m : Nat} (hpeer : PeersHold (ackPeer s.be.startSteps 2) envs m)
    (hm : s.be.startSteps + 108 + 7 + 54 ≤ m) :
    Reaches (.regRead dev reg n) envs s (s.be.startSteps + 108 + 7 + 54)
      (s.be.refusedByte (encode (.regRead dev reg n)) .addrNak 2) := by
  have hi := runsWith_regRead dev reg n
  have hafter : Released envs (s.be.startSteps + 108) m := released_after hpeer
  have htakes : ∀ j, j < 2 → TakesByte envs (s.be.startSteps + 54 * j) := fun j hj =>
    takesByte_of_peer hpeer hj (by omega)
  have haddressed : Reaches (.regRead dev reg n) envs s (s.be.startSteps + 108) _ :=
    (Clocks.addressed rfl rfl hacc (begin_regRead hn s.be _) hlost
      (fun k hk => released_before hpeer (by omega) k (Nat.zero_le k) hk) (htakes 0 (by decide))
      (htakes 1 (by decide))).run
  exact (haddressed.restart hi (hafter.mono (by omega))).nak hi rfl fun k hlo hk => hafter k (by omega) (by omega)

/-- REG_READ whose byte `j` is the first not acknowledged (R203, R207). -/
theorem reaches_regReadNak {j m : Nat} (hj : j ≤ 2) (hpeer : PeersHold (ackPeer s.be.startSteps j) envs m)
    (hm : s.be.startSteps + 54 * (j + 1) + (if j = 2 then 7 else 0) ≤ m) :
    Reaches (.regRead dev reg n) envs s (s.be.startSteps + 54 * (j + 1) + if j = 2 then 7 else 0)
      (s.be.refusedByte (encode (.regRead dev reg n)) (if j = 1 then .regNak else .addrNak) j) := by
  obtain hj2 | rfl := Nat.lt_or_eq_of_le hj
  · have hcode : (if j = 1 then BusCode.regNak else .addrNak) = nakCode j := by
      interval_cases j <;> rfl
    rw [if_neg hj2.ne, Nat.add_zero] at hm ⊢
    rw [hcode]
    exact reaches_refusedAddressing rfl hacc (begin_regRead hn s.be _) hlost hj2 hpeer hm
  · have hsteps : s.be.startSteps + 54 * (2 + 1) + 7 = s.be.startSteps + 108 + 7 + 54 := by omega
    rw [if_pos rfl, hsteps] at hm ⊢
    exact reaches_readAddressNak hacc hlost hn hpeer hm

end

/-- Settles O26: the run to the byte not acknowledged, and the stop after it. -/
theorem regReadStopsAtNak : Obligations.RegReadStopsAtNak := by
  intro dev reg n j s envs o total hacc hlost hn hj hpeer
  rw [steps_eq_envsFrom]
  refine ⟨{}, (reaches_regReadNak hacc hlost hn hj hpeer (Nat.le_add_right _ _)).stop
    (runsWith_regRead dev reg n) fun k hlo hk => released_after hpeer k ?_ hk⟩
  change o + 54 * (j + 1) + _ ≤ k at hlo
  omega

/-! ### An arbitration loss after a NAK (spec/60_exceptions.md R323) -/

/-- A peer that contests only the stop acknowledges as before in the steps that lead to it. -/
theorem peersHold_before_stop {envs : Nat → Env} {p : Nat → Bool} {e : Nat}
    (h : PeersHold (fun k => p k && k != e + 5) envs (e + 8)) : PeersHold p envs e := fun k hk => by
  obtain ⟨hscl, hsda⟩ := h k (by omega)
  have hother : (k != e + 5) = true := bne_iff_ne.mpr (by omega)
  exact ⟨hscl, hsda.trans (by simp only [hother, Bool.and_true])⟩

/-- The stop that such a peer contests, after byte `j` of a register command. -/
theorem Reaches.stopContested {i : Instr} {envs : Nat → Env} {s : State} {e j : Nat} {w : Word} {c : BusCode}
    {p : Nat → Bool} (h : Reaches i envs s e (s.be.refusedByte w c j)) (hi : i.port = .busCmd) (hne : i ≠ .init)
    (habort : s.be.arbAbort = true) (hpeer : PeersHold (fun k => p k && k != e + 5) envs (e + 8)) :
    runCommand i (steps envs (e + 8)) s =
      .next { s with
        env := envs (e + 7), be := { s.be.refusedByte w c j with arb := true }.aborted i .arbLost } := by
  have hlow : (envs (e + 5)).sda = false := by simpa using (hpeer (e + 5) (by omega)).2
  rw [steps_eq_envsFrom]
  exact h.stopLost hi hne habort (hpeer _ (by omega)).1 hlow

/-- Settles O27: the run to the byte not acknowledged, and the abort in the stop after it. -/
theorem abortSupersedesNak : Obligations.AbortSupersedesNak := by
  intro dev reg n j s envs habort hstart o lostBe e
  constructor
  · intro hacc hj hdata hpeer
    have hnak := reaches_regWriteNak hacc (.inl hstart) hj hdata (peersHold_before_stop hpeer) (Nat.le_refl _)
    exact ⟨{}, hnak.stopContested rfl nofun habort hpeer⟩
  · intro hacc hn hj e' hpeer
    have hnak := reaches_regReadNak hacc (.inl hstart) hn hj (peersHold_before_stop hpeer) (Nat.le_refl _)
    exact ⟨{}, hnak.stopContested rfl nofun habort hpeer⟩

end Sys2Proof.Machine

/-! PROOFS. Bus recovery, from the latched word of INIT to its end (spec/41_bus_composite.md R192 to R194). -/

namespace Sys2Proof.Machine

/-! ### Runs of INIT with the pulses they issue -/

/-- The steps `es` of INIT lead from `s` to `t` and issue `k` pulses, whatever steps follow. -/
structure Recovers (es : List Env) (s t : State) (k : Nat) : Prop where
  run : runCommand .init es s = .next t
  pulses : ∀ es', (traceCommand .init (es ++ es') s).count (.low .scl) =
    k + (traceCommand .init es' t).count (.low .scl)

theorem Recovers.append {es es' : List Env} {s t u : State} {k k' : Nat} (h : Recovers es s t k)
    (h' : Recovers es' t u k') : Recovers (es ++ es') s u (k + k') where
  run := (runCommand_append h.run es').trans h'.run
  pulses es'' := by rw [List.append_assoc, h.pulses, h'.pulses, Nat.add_assoc]

/-- A whole run issues its pulses and no other. -/
theorem Recovers.count_eq {es : List Env} {s t : State} {k : Nat} (h : Recovers es s t k) :
    (traceCommand .init es s).count (.low .scl) = k := by
  simpa using h.pulses []

/-- A step that does not drive SCL low issues no pulse. -/
theorem recovers_step {e : Env} {s t : State} {token : Token} (hexec : exec .init { s with env := e } = .next t)
    (htoken : nextToken .init e s.be = some token) (hne : token ≠ .low .scl) : Recovers [e] s t 0 where
  run := by simp only [runCommand, hexec]
  pulses es := by
    simp only [List.singleton_append, traceCommand, hexec, htoken]
    simp [hne]

/-- INIT in progress with both lines released and `p` pulses issued, about to sample SCL (R192). -/
def State.recovering (s : State) (p : Nat) (e : Env) : State :=
  { s with
    env := e
    be := { s.be with
      opened := false, sclOut := true, sdaOut := true, pos := .running (encode .init) [.initScl p], priv := {} } }

/-- The Bus Engine after INIT: no transaction open, both lines released, and the pulses issued published (R191). -/
def BusEngine.recovered (b : BusEngine) (c : BusCode) (needRecov : Bool) (p : BitVec 4) : BusEngine :=
  { b with
    opened := false, needRecov := needRecov, sclOut := true, sdaOut := true, pulses := p, xcnt := 0, code := c
    pos := .idle, priv := {} }

/-- INIT releases both lines, whether a recovery is required or not. -/
theorem recovers_begin {s : State} (e e' : Env) (hpos : s.be.pos = .latched (encode .init)) :
    Recovers [e, e'] s (s.recovering 0 e') 0 := by
  have hexec : exec .init { s with env := e } =
      .next { s with
        env := e
        be := { s.be with
          opened := false, sdaOut := true, priv := {}
          pos := .running (encode .init) [.release .scl, .initScl 0] } } := by
    rw [exec_eq_busTurn rfl]
    simp [busTurn, hpos, procedureOf, initOps, BusEngine.begin, settle, BusEngine.withTodo, sequencerStep, lineStep]
  have htoken : nextToken .init e s.be = some (.high .sda) := by
    simp [nextToken, hpos, procedureOf, initOps, BusEngine.begin, settle, BusEngine.withTodo, headToken, lineToken]
  refine (recovers_step hexec htoken (by decide)).append (es' := [e']) (k' := 0) ⟨rfl, fun es => ?_⟩
  simp [traceCommand_fields runsWith_init, lineToken, lineStep, settle, BusEngine.withTodo, State.recovering]

/-- INIT's two samples and the test of its loop (R192). -/
theorem recovers_samples (s : State) (p : Nat) (e e0 e1 : Env) :
    Recovers [e0, e1] (s.recovering p e)
      { s with env := e1, be := initTest .pulses p e0.scl e1.sda (s.recovering p e).be } 0 := by
  constructor
  · simp [State.recovering, runCommand_fields runsWith_init, lineStep, initTest, BusEngine.withTodo, BusEngine.sample,
      BusEngine.finish, BusEngine.publish]
  · intro es
    simp [State.recovering, traceCommand_fields runsWith_init, lineToken, lineStep, initTest, BusEngine.withTodo,
      BusEngine.sample, BusEngine.finish, BusEngine.publish]

/-- Both lines high end it with OK. -/
theorem recovers_high (s : State) (p : Nat) (e : Env) {e0 e1 : Env} (hscl : e0.scl = true) (hsda : e1.sda = true) :
    Recovers [e0, e1] (s.recovering p e)
      { s with env := e1, be := s.be.recovered .ok false (BitVec.ofNat 4 p) } 0 := by
  have hsamples := recovers_samples s p e e0 e1
  rw [hscl, hsda] at hsamples
  exact hsamples

/-- A line low before the ninth pulse: one more pulse, with no wait for the clock (R193). -/
theorem recovers_pulse (s : State) {p : Nat} (e : Env) {e0 e1 : Env} (e2 e3 e4 : Env) (hp : p < 9)
    (hlow : (e0.scl && e1.sda) = false) :
    Recovers ([e0, e1] ++ [e2, e3, e4]) (s.recovering p e) (s.recovering (p + 1) e4) (0 + 1) := by
  have hsamples := recovers_samples s p e e0 e1
  have hmore : initTest .pulses p e0.scl e1.sda (s.recovering p e).be =
      { (s.recovering p e).be with pos := .running (encode .init) (pulseOps (p + 1)) } := by
    rw [initTest, hlow, if_neg Bool.false_ne_true, if_pos hp]
    rfl
  rw [hmore] at hsamples
  refine hsamples.append ⟨?_, fun es => ?_⟩
  · simp [State.recovering, runCommand_fields runsWith_init, lineStep, BusEngine.withTodo, pulseOps, loOps, settle]
  · simp [State.recovering, traceCommand_fields runsWith_init, lineToken, lineStep, BusEngine.withTodo, pulseOps,
      loOps, settle, Nat.add_comm]

/-- A line low after the ninth pulse: INIT gives up (R192). -/
theorem recovers_giveUp (s : State) (e : Env) {e0 e1 : Env} (hlow : (e0.scl && e1.sda) = false) :
    Recovers [e0, e1] (s.recovering 9 e) { s with env := e1, be := s.be.recovered .recoveryFail true 9 } 0 := by
  have hsamples := recovers_samples s 9 e e0 e1
  rw [initTest, hlow] at hsamples
  exact hsamples

/-- As long as a line reads low at the samples, `k` pulses are issued in the first `2 + 5 k` steps (R194). -/
theorem recovers_pulses {s : State} {envs : Nat → Env} (hpos : s.be.pos = .latched (encode .init)) (k : Nat)
    (hk : k ≤ 9) (hlow : ∀ p, p < k → ((envs (2 + 5 * p)).scl && (envs (3 + 5 * p)).sda) = false) :
    Recovers (envsFrom envs 0 (2 + 5 * k)) s (s.recovering k (envs (1 + 5 * k))) k := by
  induction k with
  | zero => exact recovers_begin (envs 0) (envs 1) hpos
  | succ k ih =>
    have hbefore := ih (by omega) fun p hp => hlow p (by omega)
    have hnext := hbefore.append (recovers_pulse s _ (envs (4 + 5 * k)) (envs (5 + 5 * k)) (envs (6 + 5 * k)) hk
      (hlow k (Nat.lt_succ_self k)))
    have hfive : [envs (2 + 5 * k), envs (3 + 5 * k)] ++ [envs (4 + 5 * k), envs (5 + 5 * k), envs (6 + 5 * k)] =
        envsFrom envs (2 + 5 * k) 5 := by
      simp [envsFrom, List.range', show ∀ a, a + 5 * k + 1 = a + 1 + 5 * k by omega]
    rw [hfive] at hnext
    rw [show 2 + 5 * (k + 1) = 2 + 5 * k + 5 by omega, envsFrom_add, Nat.zero_add,
      show 1 + 5 * (k + 1) = 6 + 5 * k by omega]
    exact hnext

/-- Settles O20: the pulses issued while a line reads low, and the two samples that end INIT. -/
theorem initRecoversOrGivesUp : Obligations.InitRecoversOrGivesUp := by
  have hsamples : ∀ (envs : Nat → Env) (k : Nat), steps envs (4 + 5 * k) =
      envsFrom envs 0 (2 + 5 * k) ++ [envs (2 + 5 * k), envs (3 + 5 * k)] := fun envs k => by
    rw [steps_eq_envsFrom, show 4 + 5 * k = 2 + 5 * k + 2 by omega, envsFrom_add, Nat.zero_add,
      show 3 + 5 * k = 2 + 5 * k + 1 by omega]
    rfl
  intro s envs hpos
  refine ⟨fun k hk hlow hscl hsda => ?_, fun hlow => ?_⟩
  · have hall := (recovers_pulses hpos k hk hlow).append (recovers_high s k _ hscl hsda)
    rw [hsamples]
    exact ⟨{}, hall.run, hall.count_eq⟩
  · have hall := (recovers_pulses hpos 9 (Nat.le_refl 9) fun p hp => hlow p hp.le).append
      (recovers_giveUp s _ (hlow 9 (Nat.le_refl 9)))
    exact ⟨{}, (congrArg (runCommand .init · s) (hsamples envs 9)).trans hall.run⟩

end Sys2Proof.Machine

/-! PROOFS. The step of each Packet Framer command, by what it finds: the deadline, the phase, the bytes in the buffer
(spec/42_framer.md R230 to R251). -/

namespace Sys2Proof.Machine

/-! ### Deadlines (spec/42_framer.md R231, R232) and the checksum function (R243) -/

theorem Latch.elapsed_toNat (l : Latch) (now : Word) :
    (l.elapsed now).toNat = (2 ^ 32 + now.toNat - l.t0.toNat) % 2 ^ 32 := by
  have ht0 : l.t0.toNat < 2 ^ 32 := l.t0.isLt
  rw [Latch.elapsed, BitVec.toNat_sub]
  congr 1
  omega

theorem Latch.expired_iff (l : Latch) (now : Word) :
    l.expired now = true ↔ l.d ≠ 0 ∧ l.d.toNat ≤ (l.elapsed now).toNat := by
  simp [Latch.expired, BitVec.le_def]

/-- A deadline has not passed in the tick that starts it. -/
theorem Latch.not_expired_at_start {l : Latch} {now : Word} (h : l.t0 = now) : l.expired now = false := by
  rw [← Bool.not_eq_true, Latch.expired_iff, Latch.elapsed, h, BitVec.sub_self]
  exact fun ⟨hd, hle⟩ => hd (BitVec.eq_of_toNat_eq (Nat.le_zero.mp hle))

/-- Settles O37: the elapsed time is the modular difference, and the other two are tests and differences on it. -/
theorem deadlineIsModular : Obligations.DeadlineIsModular := by
  intro l now
  dsimp only
  rw [← Latch.elapsed_toNat]
  refine ⟨rfl, l.expired_iff now, ?_, fun r hr => ?_⟩
  · simp [Latch.remaining]
  · have hexp := l.expired_iff now
    unfold Latch.remaining at hr
    split at hr
    · cases hr
    · next hd =>
      cases hr
      split
      · next he => exact (Nat.sub_eq_zero_of_le (hexp.mp he).2).symm
      · next he =>
        have hlt : (l.elapsed now).toNat < l.d.toNat := Nat.lt_of_not_le fun hle => he (hexp.mpr ⟨hd, hle⟩)
        exact BitVec.toNat_sub_of_le (BitVec.le_def.mpr hlt.le)

/-- Settles O38, by evaluating the function on the bytes of R243 and R246. -/
theorem workedChecksums : Obligations.WorkedChecksums := by
  unfold Obligations.WorkedChecksums
  decide

/-! ### Runs of bytes in a buffer -/

/-- Two runs of bytes one behind the other are one run. -/
theorem Memory.putBytes_append (size : Nat) (xs ys : List Byte) (m : Memory) (a : Nat) :
    m.putBytes size a (xs ++ ys) = (m.putBytes size a xs).putBytes size (a + xs.length) ys := by
  induction xs generalizing m a with
  | nil => rfl
  | cons x xs ih =>
    rw [List.cons_append, Memory.putBytes, Memory.putBytes, ih, List.length_cons, Nat.add_assoc, Nat.add_comm 1]

/-- A run of bytes is not read when one of them holds no value. -/
theorem Memory.readBytes_eq_none {m : Memory} {a lo n : Nat} (h : m.read a = none) (hlo : lo ≤ a) (hhi : a < lo + n) :
    m.readBytes lo n = none := by
  refine Option.eq_none_iff_forall_ne_some.mpr fun bs hbs => ?_
  obtain ⟨hlen, hread⟩ := (Memory.readBytes_eq_some _ _ _ _).mp hbs
  have hsome := hread (a - lo) (by omega)
  rw [Nat.add_sub_cancel' hlo, h, List.getElem?_eq_getElem (by omega)] at hsome
  cases hsome

/-- A piece of a packet is read when the buffer holds each of its bytes. -/
theorem Memory.readBytes_piece {m : Memory} {p : List Byte} {a n : Nat} (hle : a + n ≤ p.length)
    (h : ∀ i, a ≤ i → i < a + n → m.read i = p[i]?) : m.readBytes a n = some ((p.drop a).take n) := by
  refine (Memory.readBytes_eq_some _ _ _ _).mpr ⟨by simp; omega, fun i hi => ?_⟩
  rw [h (a + i) (by omega) (by omega), List.getElem?_take_of_lt hi, List.getElem?_drop]

/-- A packet in a buffer: any piece of it is read. -/
theorem PacketIn.readBytes {m : Memory} {p : List Byte} (h : PacketIn m false p) {a n : Nat} (hle : a + n ≤ p.length) :
    m.readBytes a n = some ((p.drop a).take n) :=
  Memory.readBytes_piece hle fun i _ hi => h i (by omega) fun hs => by cases hs

/-- A packet put at the start of a buffer that it fits in stands there. -/
theorem packetIn_putBytes (m : Memory) (strict : Bool) {p : List Byte} (h : p.length ≤ Config.pfBufBytes) :
    PacketIn (m.putBytes Config.pfBufBytes 0 p) strict p := by
  intro a ha _
  rw [Memory.read_putBytes, if_pos (by omega), Nat.sub_zero]

/-! ### Packets and their checksum field (spec/30_encoding.md R115, R116, spec/42_framer.md R245) -/

/-- A length that READ_PACKET and WRITE_PACKET do not reject. -/
theorem not_malformed {n : Nat} (h4 : 4 ≤ n) (hmax : n ≤ 254) : ¬ (n < Config.hdrBytes ∨ Config.maxLen < n) :=
  not_or.mpr ⟨Nat.not_lt.mpr h4, Nat.not_lt.mpr hmax⟩

theorem LegalPacket.min_length {p : List Byte} (h : LegalPacket p) : 4 ≤ p.length := h.1

theorem LegalPacket.first {p : List Byte} (h : LegalPacket p) : p[0]? = some (BitVec.ofNat 8 p.length) := h.2.2

theorem LegalPacket.max_length {p : List Byte} (h : LegalPacket p) : p.length ≤ 254 := h.2.1

/-- The length byte of a legal packet, as a number. -/
theorem LegalPacket.lengthByte {p : List Byte} (h : LegalPacket p) : (BitVec.ofNat 8 p.length).toNat = p.length := by
  have hmax := h.max_length
  rw [BitVec.toNat_ofNat]
  omega

theorem withChecksum_length (p : List Byte) (c : Half) : (withChecksum p c).length = p.length := by
  simp [withChecksum]

/-- The checksum field lies behind the length and type bytes. -/
theorem withChecksum_take_two (p : List Byte) (c : Half) : (withChecksum p c).take 2 = p.take 2 := by
  simp [withChecksum, List.take_set_of_le]

/-- A packet holds the checksum `c` exactly when its bytes 2 and 3 are those of `c`, low byte first. -/
theorem withChecksum_eq_iff {p : List Byte} (h4 : 4 ≤ p.length) (c : Half) :
    withChecksum p c = p ↔ [lowByte c, highByte c] = (p.drop 2).take 2 := by
  match p, h4 with
  | b0 :: b1 :: b2 :: b3 :: r, _ => simp [withChecksum]

theorem packetSent_length (fn : ChecksumFn) (strict : Bool) (p : List Byte) :
    (packetSent fn strict p).length = p.length := by
  unfold packetSent
  split
  · exact withChecksum_length p _
  · rfl

/-- What WRITE_PACKET sends has the packet's length and type bytes (R252). -/
theorem packetSent_take_two (fn : ChecksumFn) (strict : Bool) (p : List Byte) :
    (packetSent fn strict p).take 2 = p.take 2 := by
  unfold packetSent
  split
  · exact withChecksum_take_two p _
  · rfl

/-- Before its first call WRITE_PACKET leaves in the buffer what it is going to send (R249). -/
theorem packetIn_stamped {f : Framer} (fn : ChecksumFn) {strict : Bool} {p : List Byte} (h4 : 4 ≤ p.length)
    (h : PacketIn f.buf strict p) : PacketIn (f.stamped fn strict p).buf false (packetSent fn strict p) := by
  intro a ha _
  rw [packetSent_length] at ha
  cases strict with
  | false => exact h a ha fun hs => by cases hs
  | true =>
    simp only [Framer.stamped, packetSent, if_true, withChecksum, Memory.read_putBytes, List.length_cons,
      List.length_nil, List.getElem?_set, List.length_set, Config.pfBufBytes]
    by_cases h2 : a = 2
    · simp [h2, show 2 < p.length by omega]
    · by_cases h3 : a = 3
      · simp [h3, show 3 < p.length by omega]
      · rw [if_neg (by omega), if_neg (by omega), if_neg (by omega)]
        exact h a ha fun _ => ⟨h2, h3⟩

/-! ### One step of READ_PACKET (R239) -/

/-- The bytes a call of READ_PACKET takes for a phase that has `got` bytes and goes on to `want` (R236). -/
def State.callBytes (s : State) (got want : Nat) : List Byte :=
  (s.tr.rx ++ s.env.arriving).take (min s.env.count (want - got))

/-- The state after that call: the bytes leave the transport for the buffer. -/
def State.afterCall (s : State) (got want : Nat) : State :=
  { s with
    tr := { s.tr with rx := (s.tr.rx ++ s.env.arriving).drop (s.callBytes got want).length }
    pf := s.pf.putBytes got (s.callBytes got want) }

/-- Dropping as many bytes as were taken is dropping as many as were asked for. -/
theorem drop_length_take {α : Type} (k : Nat) (xs : List α) : xs.drop (xs.take k).length = xs.drop k := by
  rw [List.length_take]
  rcases Nat.le_total k xs.length with h | h
  · rw [Nat.min_eq_left h]
  · rw [Nat.min_eq_right h, List.drop_length, List.drop_eq_nil_of_le h]

theorem receive_eq (got want : Nat) (s : State) :
    receive got want s = (s.afterCall got want, got + (s.callBytes got want).length) := by
  simp only [receive, Transport.readCall, State.afterCall, State.callBytes, drop_length_take]

/-- A call takes no more than its phase still needs. -/
theorem callBytes_length_le (s : State) (got want : Nat) : (s.callBytes got want).length ≤ want - got := by
  simp only [State.callBytes, List.length_take]
  omega

/-- READ_PACKET has `got` bytes of the header: none when its command word was just latched. -/
def HeaderAt (f : Framer) (w : Word) (l : Latch) (got : Nat) : Prop :=
  f.pos = .latched w l ∧ got = 0 ∨ f.pos = .running w l (.header got)

section ReadStep
variable {s : State} {w : Word} {l : Latch} {got len : Nat}

theorem exec_readPacket_header (h : HeaderAt s.pf w l got) :
    exec .readPacket s = headerTurn (encode .readPacket) l got s := by
  obtain ⟨hpos, rfl⟩ | hpos := h <;> simp only [exec, execReadPacket, Framer.latch, hpos]

theorem exec_readPacket_payload (hpos : s.pf.pos = .running w l (.payload len got)) :
    exec .readPacket s = payloadTurn (encode .readPacket) l len got s := by
  simp only [exec, execReadPacket, Framer.latch, hpos]

theorem exec_readPacket_header_live (h : HeaderAt s.pf w l got) (hlive : l.expired s.now = false) :
    exec .readPacket s =
      headerTest (encode .readPacket) l (got + (s.callBytes got 4).length) (s.afterCall got 4) := by
  rw [exec_readPacket_header h, headerTurn, hlive, if_neg Bool.false_ne_true, receive_eq]

theorem exec_readPacket_payload_live (hpos : s.pf.pos = .running w l (.payload len got))
    (hlive : l.expired s.now = false) :
    exec .readPacket s =
      payloadTest (encode .readPacket) l len (got + (s.callBytes got len).length) (s.afterCall got len) := by
  rw [exec_readPacket_payload hpos, payloadTurn, hlive, if_neg Bool.false_ne_true, receive_eq]

/-- An expired deadline ends READ_PACKET before any call, in each phase (R233). -/
theorem exec_readPacket_expired
    (h : s.pf.pos = .latched w l ∨ s.pf.pos = .running w l (.header got) ∨ s.pf.pos = .running w l (.payload len got))
    (hexp : l.expired s.now = true) : exec .readPacket s = finishFramer s .timeout (some 0) none := by
  obtain hpos | hpos | hpos := h
  · rw [exec_readPacket_header (.inl ⟨hpos, rfl⟩), headerTurn, if_pos hexp]
  · rw [exec_readPacket_header (.inr hpos), headerTurn, if_pos hexp]
  · rw [exec_readPacket_payload hpos, payloadTurn, if_pos hexp]

theorem headerTest_more (h : got < 4) :
    headerTest w l got s = .next { s with pf := { s.pf with pos := .running w l (.header got) } } :=
  if_pos h

/-- A malformed header is dropped (R241). -/
theorem headerTest_malformed {h0 : Byte} (h : 4 ≤ got) (hread : s.pf.buf.read 0 = some h0)
    (hbad : h0.toNat < 4 ∨ 254 < h0.toNat) : headerTest w l got s = finishFramer s .framingError (some 0) none := by
  rw [headerTest, if_neg (Nat.not_lt.mpr h), hread]
  exact if_pos hbad

theorem headerTest_legal {h0 : Byte} (h : 4 ≤ got) (hread : s.pf.buf.read 0 = some h0) (h4 : 4 ≤ h0.toNat)
    (hmax : h0.toNat ≤ 254) : headerTest w l got s = payloadTest w l h0.toNat got s := by
  rw [headerTest, if_neg (Nat.not_lt.mpr h), hread]
  exact if_neg (not_malformed h4 hmax)

theorem payloadTest_more (h : got < len) :
    payloadTest w l len got s = .next { s with pf := { s.pf with pos := .running w l (.payload len got) } } :=
  if_pos h

/-- The whole packet is in: the command ends, in strict mode by its checksum (R239, R244). -/
theorem payloadTest_done {p : List Byte} (hp : PacketIn s.pf.buf false p) (h4 : 4 ≤ p.length) :
    payloadTest w l p.length p.length s =
      .next { s with pf := s.pf.afterPacket s.par.checksumFn l.strict p } := by
  rw [payloadTest, if_neg (Nat.lt_irrefl _), completePacket]
  cases hstrict : l.strict with
  | false => rfl
  | true =>
    have hcsum := pktChecksum_of_packetIn (fn := s.par.checksumFn) hp h4
    have hfield := hp.readBytes (a := 2) (n := 2) (by omega)
    have hgood := withChecksum_eq_iff h4 (checksumOf s.par.checksumFn (withoutChecksum p))
    simp only [if_true, hcsum, hfield, ← hgood]
    split
    · next h => simp [finishFramer, Framer.finish, Framer.afterPacket, h]
    · next h => simp [finishFramer, Framer.finish, Framer.afterPacket, h]

end ReadStep

/-! ### One step of WRITE_PACKET (R249) -/

section WriteStep
variable {s : State} {w : Word} {l : Latch}

theorem exec_writePacket_latched (hpos : s.pf.pos = .latched w l) :
    exec .writePacket s = beginWrite (encode .writePacket) l s := by
  simp only [exec, execWritePacket, Framer.latch, hpos]

theorem exec_writePacket_sending {len sent : Nat} {csum : Option Half}
    (hpos : s.pf.pos = .running w l (.sending len sent csum)) :
    exec .writePacket s = sendTurn (encode .writePacket) l len sent csum s := by
  simp only [exec, execWritePacket, Framer.latch, hpos]

/-- An expired deadline ends the command before any call, with the count of the bytes sent (R250). -/
theorem sendTurn_expired (len sent : Nat) (csum : Option Half) (hexp : l.expired s.now = true) :
    sendTurn w l len sent csum s = finishFramer s .partialWrite (some (BitVec.ofNat 8 sent)) csum :=
  if_pos hexp

/-- Before the deadline: one call, and the command goes on or ends. -/
theorem sendTurn_live {len sent : Nat} {csum : Option Half} {bs : List Byte} (hlive : l.expired s.now = false)
    (hread : s.pf.buf.readBytes sent (min s.env.count (len - sent)) = some bs) :
    sendTurn w l len sent csum s = .next { s with
      tr := s.tr.accept bs
      pf :=
        if sent + min s.env.count (len - sent) < len then
          { s.pf with pos := .running w l (.sending len (sent + min s.env.count (len - sent)) csum) }
        else s.pf.finish .ok (some (BitVec.ofNat 8 len)) csum } := by
  simp only [sendTurn, hlive, Bool.false_eq_true, if_false, hread, finishFramer]
  split <;> rfl

theorem sendTurn_unwritten {len sent a : Nat} {csum : Option Half} (hlive : l.expired s.now = false)
    (hread : s.pf.buf.read a = none) (hlo : sent ≤ a) (hhi : a < sent + min s.env.count (len - sent)) :
    sendTurn w l len sent csum s = .fault .unwrittenRead := by
  simp only [sendTurn, hlive, Bool.false_eq_true, if_false, Memory.readBytes_eq_none hread hlo hhi]

theorem beginWrite_no_length (hread : s.pf.buf.read 0 = none) : beginWrite w l s = .fault .unwrittenRead := by
  simp only [beginWrite, hread]

/-- An illegal length ends the command before the deadline is looked at (R251). -/
theorem beginWrite_malformed {len : Byte} (hread : s.pf.buf.read 0 = some len)
    (hbad : len.toNat < 4 ∨ 254 < len.toNat) : beginWrite w l s = finishFramer s .framingError (some 0) none := by
  simp only [beginWrite, hread]
  exact if_pos hbad

theorem beginWrite_compatible {len : Byte} (hread : s.pf.buf.read 0 = some len) (h4 : 4 ≤ len.toNat)
    (hmax : len.toNat ≤ 254) (hstrict : l.strict = false) :
    beginWrite w l s = sendTurn w l len.toNat 0 none s := by
  simp only [beginWrite, hread, hstrict]
  exact if_neg (not_malformed h4 hmax)

/-- In strict mode a byte that the checksum sums and that holds no value is the fault (R245). -/
theorem beginWrite_unwritten {len : Byte} {a : Nat} (hlen : s.pf.buf.read 0 = some len) (h4 : 4 ≤ len.toNat)
    (hmax : len.toNat ≤ 254) (hstrict : l.strict = true) (ha : a < len.toNat) (h2 : a ≠ 2) (h3 : a ≠ 3)
    (hread : s.pf.buf.read a = none) : beginWrite w l s = .fault .unwrittenRead := by
  have hcsum : pktChecksum s.par.checksumFn s.pf.buf len.toNat = none := by
    rcases Nat.lt_or_ge a 2 with hlt | hge
    · rw [pktChecksum, Memory.readBytes_eq_none hread (Nat.zero_le a) (by omega)]
    · rw [pktChecksum, Memory.readBytes_eq_none hread (show 4 ≤ a by omega) (by omega)]
      cases s.pf.buf.readBytes 0 2 <;> rfl
  simp only [beginWrite, hlen, hstrict, if_true, hcsum]
  exact if_neg (not_malformed h4 hmax)

/-- The first step on a legal packet: its checks, then the first pass of the loop on the stamped buffer. -/
theorem exec_writePacket_legal {p : List Byte} (hpos : s.pf.pos = .latched w l) (hp : LegalPacket p)
    (hlen : s.pf.buf.read 0 = p[0]?) (hin : l.strict = true → PacketIn s.pf.buf true p) :
    exec .writePacket s = sendTurn (encode .writePacket) l p.length 0
      (if l.strict then some (checksumOf s.par.checksumFn (withoutChecksum p)) else none)
      { s with pf := s.pf.stamped s.par.checksumFn l.strict p } := by
  have hbyte := hp.lengthByte
  obtain ⟨h4, hmax, h0⟩ := hp
  rw [h0] at hlen
  rw [exec_writePacket_latched hpos]
  cases hstrict : l.strict with
  | false =>
    rw [beginWrite_compatible hlen (hbyte.symm ▸ h4) (hbyte.symm ▸ hmax) hstrict, hbyte]
    rfl
  | true =>
    simp only [beginWrite, hlen, hbyte, hstrict, if_true, pktChecksum_of_packetIn (hin hstrict) h4]
    exact if_neg (not_malformed h4 hmax)

end WriteStep

/-! ### One step before the deadline (R236, R239, R244, R249) -/

/-- Settles O35: each clause is its command's step at that phase, by the outcome of the test after the call. -/
theorem framerStepCompletes : Obligations.FramerStepCompletes := by
  refine fun s w l hlive => ⟨fun got hhead hgot => ⟨?more, ?header, ?short⟩, fun len got hpos => ⟨?payload, ?whole⟩,
    ?first, ?later⟩
  case more =>
    exact fun h => (exec_readPacket_header_live hhead hlive).trans (headerTest_more h)
  case header =>
    intro h0 h hread h4 hmax
    refine (exec_readPacket_header_live hhead hlive).trans ?_
    rw [show got + (s.callBytes got 4).length = 4 from h, headerTest_legal (Nat.le_refl 4) hread h4.le hmax,
      payloadTest_more h4]
    rfl
  case short =>
    intro p h hread h0
    obtain ⟨hlen, -⟩ := (Memory.readBytes_eq_some _ _ _ _).mp hread
    have hin : PacketIn (s.afterCall got 4).pf.buf false p := packetIn_of_readBytes false (by rw [hlen]; exact hread)
    have hread0 : (s.afterCall got 4).pf.buf.read 0 = some 4 :=
      (hin 0 (by omega) fun hs => by cases hs).trans h0
    refine (exec_readPacket_header_live hhead hlive).trans ?_
    rw [show got + (s.callBytes got 4).length = 4 from h,
      headerTest_legal (Nat.le_refl 4) hread0 (by decide) (by decide)]
    have hdone := payloadTest_done (s := s.afterCall got 4) (w := encode .readPacket) (l := l) hin hlen.ge
    rw [hlen] at hdone
    exact hdone
  case payload =>
    exact fun h => (exec_readPacket_payload_live hpos hlive).trans (payloadTest_more h)
  case whole =>
    intro p h h4 hread
    obtain ⟨hlen, -⟩ := (Memory.readBytes_eq_some _ _ _ _).mp hread
    subst hlen
    refine (exec_readPacket_payload_live hpos hlive).trans ?_
    rw [show got + (s.callBytes got p.length).length = p.length from h]
    exact payloadTest_done (packetIn_of_readBytes false hread) h4
  case first =>
    intro p hpos hp hlen k hin c pf1
    have hbytes : pf1.buf.readBytes 0 k = some ((packetSent s.par.checksumFn l.strict p).take k) := by
      have hle : 0 + k ≤ (packetSent s.par.checksumFn l.strict p).length := by
        rw [packetSent_length]
        omega
      cases hstrict : l.strict with
      | true =>
        rw [hstrict, if_pos rfl] at hin
        rw [hstrict] at hle
        simp only [pf1, hstrict]
        exact (packetIn_stamped s.par.checksumFn hp.min_length hin).readBytes hle
      | false =>
        rw [hstrict, if_neg Bool.false_ne_true] at hin
        rw [hstrict] at hle
        simp only [pf1, hstrict]
        exact Memory.readBytes_piece hle fun i _ hi => hin i (by omega)
    have hsummed : l.strict = true → PacketIn s.pf.buf true p := fun hs => by rwa [if_pos hs] at hin
    refine (exec_writePacket_legal hpos hp hlen hsummed).trans
      ((sendTurn_live (s := { s with pf := pf1 }) hlive hbytes).trans ?_)
    simp only [pf1, Nat.sub_zero, Nat.zero_add]
    cases l.strict <;> rfl
  case later =>
    exact fun len sent csum bs hpos hread => (exec_writePacket_sending hpos).trans (sendTurn_live hlive hread)


/-! ### Early endings (R233, R241, R249 to R251) -/

/-- Settles O30: the malformed header is what `headerTest` finds after the call; an expired deadline comes before it. -/
theorem readPacketEndsEarly : Obligations.ReadPacketEndsEarly := by
  refine ⟨?malformed, fun s w l len got hpos hexp => exec_readPacket_expired hpos hexp⟩
  intro s w l got h0 hhead hgot hlive stream bs hlen hcount hread hbad
  have hbytes : s.callBytes got 4 = bs := by rw [State.callBytes, Nat.min_eq_right hcount]
  have hfirst : (s.afterCall got 4).pf.buf.read 0 = some h0 := by
    rw [State.afterCall, hbytes, Framer.putBytes, Memory.read_putBytes, hlen, ← hread]
    by_cases hz : got = 0
    · rw [if_pos hz, if_pos ⟨hz.le, by omega, by decide⟩, List.head?_eq_getElem?, Nat.zero_sub]
    · rw [if_neg hz, if_neg (by omega)]
  refine (exec_readPacket_header_live hhead hlive).trans ((headerTest_malformed ?_ hfirst hbad).trans ?_)
  · rw [hbytes]
    omega
  · rw [State.afterCall, hbytes, hlen]
    rfl

/-- WRITE_PACKET ends in a state that differs in what it stamped, sent and reported. -/
theorem stamped_finish (f : Framer) (fn : ChecksumFn) (strict : Bool) (p : List Byte) (r : FramerResult) (n : Byte) :
    (f.stamped fn strict p).finish r (some n)
        (if strict then some (checksumOf fn (withoutChecksum p)) else none) =
      { f with
        buf := if strict then f.buf.putBytes Config.pfBufBytes 2
            [lowByte (checksumOf fn (withoutChecksum p)), highByte (checksumOf fn (withoutChecksum p))] else f.buf
        checksum := if strict then checksumOf fn (withoutChecksum p) else f.checksum
        result := r, count := n, pos := .idle } := by
  cases strict <;> rfl

/-- Settles O33: each ending is the first test of WRITE_PACKET that fails. -/
theorem writePacketEndsEarly : Obligations.WritePacketEndsEarly := by
  refine ⟨?late, ?unsent, ?malformed, ?noLength, ?unwritten, ?sending⟩
  case late =>
    exact fun s w l len sent csum hpos hexp => (exec_writePacket_sending hpos).trans (sendTurn_expired _ _ _ hexp)
  case unsent =>
    intro p s l hp hpos hexp hlen hin
    refine (exec_writePacket_legal hpos hp hlen hin).trans
      ((sendTurn_expired (s := { s with pf := s.pf.stamped s.par.checksumFn l.strict p }) _ 0 _ hexp).trans ?_)
    rw [finishFramer, stamped_finish]
    rfl
  case malformed =>
    exact fun s l len hpos hread hbad => (exec_writePacket_latched hpos).trans (beginWrite_malformed hread hbad)
  case noLength =>
    exact fun s l hpos hread => (exec_writePacket_latched hpos).trans (beginWrite_no_length hread)
  case unwritten =>
    rintro s l len a hpos hlen h4 hmax hread (⟨hstrict, ha, h2, h3⟩ | ⟨hstrict, hlive, ha⟩)
    · exact (exec_writePacket_latched hpos).trans (beginWrite_unwritten hlen h4 hmax hstrict ha h2 h3 hread)
    · refine (exec_writePacket_latched hpos).trans ((beginWrite_compatible hlen h4 hmax hstrict).trans ?_)
      exact sendTurn_unwritten hlive hread (Nat.zero_le a) (by omega)
  case sending =>
    exact fun s w l len sent csum a hpos hlive hread hlo hhi =>
      (exec_writePacket_sending hpos).trans (sendTurn_unwritten hlive hread hlo hhi)

/-! ### What a step leaves alone (R37, R239, R240, R249) -/

/-- The result fields of a framer (spec/10_state.md R37). -/
def Framer.SameResults (f f' : Framer) : Prop :=
  f'.result = f.result ∧ f'.count = f.count ∧ f'.checksum = f.checksum

/-- After its transport call a READ_PACKET step changes neither the transport nor the buffer again, and while the command
goes on no result field. -/
theorem ReadEnds.kept {w : Word} {l : Latch} {lens : Nat → Prop} {s t : State} (h : ReadEnds w l lens s t) :
    t.tr = s.tr ∧ t.pf.buf = s.pf.buf ∧ (t.pf.busy = true → s.pf.SameResults t.pf) := by
  cases h with
  | goesOn phase h _ => subst h; exact ⟨rfl, rfl, fun _ => ⟨rfl, rfl, rfl⟩⟩
  | ends r n c h _ => subst h; exact ⟨rfl, rfl, fun hbusy => by cases hbusy⟩

/-- A READ_PACKET step that goes on after its call has the results from before the call. -/
theorem ReadEnds.kept_results {w : Word} {l : Latch} {lens : Nat → Prop} {s t : State} {got want : Nat}
    (h : ReadEnds w l lens (receive got want s).1 t) (hbusy : t.pf.busy = true) : s.pf.SameResults t.pf := by
  obtain ⟨-, -, hresults⟩ := h.kept
  exact hresults hbusy

theorem execReadPacket_results {s t : State} (h : execReadPacket s = .next t) (hbusy : t.pf.busy = true) :
    s.pf.SameResults t.pf := by
  rcases execReadPacket_next h with ⟨-, rfl⟩ | ⟨-, ⟨got, -, -, hr⟩ | ⟨w, l, len, got, -, hr⟩⟩
  · cases hbusy
  · exact hr.kept_results hbusy
  · exact hr.kept_results hbusy

theorem sendTurn_results {w : Word} {l : Latch} {len sent : Nat} {csum : Option Half} {s t : State}
    (h : sendTurn w l len sent csum s = .next t) (hbusy : t.pf.busy = true) : s.pf.SameResults t.pf := by
  rcases sendTurn_next h with ⟨-, rfl⟩ | ⟨-, k, bs, -, -, ⟨-, rfl⟩ | ⟨-, rfl⟩⟩
  · cases hbusy
  · exact ⟨rfl, rfl, rfl⟩
  · cases hbusy

theorem execWritePacket_results {s t : State} (h : execWritePacket s = .next t) (hbusy : t.pf.busy = true) :
    s.pf.SameResults t.pf := by
  rcases execWritePacket_next h with ⟨w, l, len, sent, csum, -, hsend⟩ | hbegin
  · exact sendTurn_results hsend hbusy
  · rcases beginWrite_next hbegin with rfl | ⟨len, csum, bs, -, -, -, hsend⟩
    · cases hbusy
    · exact (sendTurn_results hsend hbusy :)

/-- No WRITE_PACKET step changes a byte outside the checksum field (R249). -/
theorem execWritePacket_read {s t : State} (h : execWritePacket s = .next t) {a : Nat} (h2 : a ≠ 2) (h3 : a ≠ 3) :
    t.pf.buf.read a = s.pf.buf.read a := by
  rcases execWritePacket_next h with ⟨w, l, len, sent, csum, -, hsend⟩ | hbegin
  · rw [sendTurn_buf hsend]
  · rcases beginWrite_next hbegin with rfl | ⟨len, csum, bs, -, -, hbs, hsend⟩
    · rfl
    · rw [sendTurn_buf hsend]
      refine Memory.read_putBytes_outside _ _ _ _ _ ?_
      rcases hbs with rfl | ⟨c, rfl⟩
      · simp only [List.length_nil]; omega
      · simp only [List.length_cons, List.length_nil]; omega

/-- In compatible mode the first step changes no byte at all. -/
theorem beginWrite_buf {w : Word} {l : Latch} {s t : State} (h : beginWrite w l s = .next t)
    (hstrict : l.strict = false) : t.pf.buf = s.pf.buf := by
  cases hread : s.pf.buf.read 0 with
  | none => rw [beginWrite_no_length hread] at h; cases h
  | some len =>
    by_cases hbad : len.toNat < 4 ∨ 254 < len.toNat
    · rw [beginWrite_malformed hread hbad] at h; cases h; rfl
    · rw [beginWrite_compatible hread (by omega) (by omega) hstrict] at h
      exact sendTurn_buf h

/-- What a READ_PACKET step received for a phase that has `got` bytes and goes on to `want`: some next bytes of the
stream, no more than the phase needs, put behind those it has. -/
theorem ReadEnds.received {w : Word} {l : Latch} {lens : Nat → Prop} {s t : State} {got want : Nat}
    (h : ReadEnds w l lens (s.afterCall got want) t) :
    ∃ k, k ≤ want - got ∧ k ≤ (s.tr.rx ++ s.env.arriving).length ∧ t.tr.rx = (s.tr.rx ++ s.env.arriving).drop k ∧
      ∀ a, t.pf.buf.read a =
        if got ≤ a ∧ a < got + k ∧ a < 254 then (s.tr.rx ++ s.env.arriving)[a - got]? else s.pf.buf.read a := by
  obtain ⟨htr, hbuf, -⟩ := h.kept
  refine ⟨(s.callBytes got want).length, callBytes_length_le s got want, List.length_take_le' _ _, ?_, fun a => ?_⟩
  · rw [htr]; rfl
  · rw [hbuf, State.afterCall, Framer.putBytes, Memory.read_putBytes]
    by_cases ha : got ≤ a ∧ a < got + (s.callBytes got want).length ∧ a < 254
    · have hlt : a - got < min s.env.count (want - got) := by
        have hlen := ha.2.1
        simp only [State.callBytes, List.length_take] at hlen
        omega
      rw [if_pos ha, if_pos ha, State.callBytes, List.getElem?_take_of_lt hlt]
    · rw [if_neg ha, if_neg ha]

/-- Settles O36: the frames of the two commands, and for each phase of READ_PACKET what its call received. -/
theorem framerStepFrame : Obligations.FramerStepFrame := by
  intro s t stream received
  refine ⟨?both, fun h => ⟨?sent, fun w l len got => ⟨?expired, fun hlive => ?live⟩⟩, fun h => ?write⟩
  case both =>
    rintro (h | h)
    · obtain ⟨hframe, hstrict, hdeadline, -⟩ := execReadPacket_frame h
      exact ⟨hframe, hstrict, hdeadline, execReadPacket_results h⟩
    · obtain ⟨hframe, hstrict, hdeadline, -⟩ := execWritePacket_frame h
      exact ⟨hframe, hstrict, hdeadline, execWritePacket_results h⟩
  case sent =>
    obtain ⟨-, -, -, htx⟩ := execReadPacket_frame h
    exact htx
  case expired =>
    intro hexp hpos
    rw [exec_readPacket_expired hpos hexp] at h
    cases h
    exact ⟨rfl, rfl⟩
  case live =>
    have hheader : ∀ {g}, HeaderAt s.pf w l g → received g 4 := fun hhead => by
      rw [exec_readPacket_header_live hhead hlive] at h
      exact (headerTest_next h).received
    refine ⟨fun hpos => hheader (.inl ⟨hpos, rfl⟩), fun hpos => hheader (.inr hpos), fun hpos => ?_⟩
    rw [exec_readPacket_payload_live hpos hlive] at h
    exact (payloadTest_next (lens := fun _ => True) trivial h).received
  case write =>
    obtain ⟨-, -, -, hrx⟩ := execWritePacket_frame h
    refine ⟨hrx, fun a h2 h3 => execWritePacket_read h h2 h3, fun w l => ⟨fun hpos hstrict => ?_, ?_⟩⟩
    · rw [exec_writePacket_latched hpos] at h
      exact beginWrite_buf h hstrict
    · intro len sent csum hpos
      rw [exec_writePacket_sending hpos] at h
      exact sendTurn_buf h

end Sys2Proof.Machine

/-! PROOFS. Whole runs of the Packet Framer's commands: READ_PACKET on a stream that arrives in pieces, WRITE_PACKET to a
transport that accepts in pieces, and both on one buffer (spec/42_framer.md R239, R249, R252 to R254). -/

namespace Sys2Proof.Machine

/-! ### Runs, by their last step -/

theorem runCommand_concat {i : Instr} {es : List Env} {s u : State} (h : runCommand i es s = .next u) (e : Env) :
    runCommand i (es ++ [e]) s = exec i { u with env := e } := by
  rw [runCommand_append h, runCommand]
  cases exec i { u with env := e } <;> rfl

/-- A relation between the answers so far, the bytes they moved and the state holds along a run, as long as fewer than
`n` bytes are moved, when each such step keeps it. -/
theorem run_counted {i : Instr} {s : State} {n : Nat} {Ok : Env → Prop} {P : List Env → Nat → State → Prop}
    (hstart : P [] 0 s)
    (hstep : ∀ es got u e, P es got u → Ok e → got + e.count < n →
      ∃ v, exec i { u with env := e } = .next v ∧ P (es ++ [e]) (got + e.count) v)
    (es : List Env) (hok : ∀ e ∈ es, Ok e) (hsum : (es.map Env.count).sum < n) :
    ∃ u, runCommand i es s = .next u ∧ P es (es.map Env.count).sum u := by
  induction es using List.reverseRecOn with
  | nil => exact ⟨s, rfl, hstart⟩
  | append_singleton es e ih =>
    rw [List.map_append, List.sum_append, List.map_singleton, List.sum_singleton] at hsum ⊢
    obtain ⟨u, hrun, hu⟩ := ih (fun e' he' => hok e' (List.mem_append_left _ he')) (by omega)
    obtain ⟨v, hexec, hv⟩ := hstep es _ u e hu (hok e (by simp)) hsum
    exact ⟨v, (runCommand_concat hrun e).trans hexec, hv⟩

/-- The last step of a framer command, and what holds before it when every step that goes on keeps it. -/
theorem FramerRun.lastStep {i : Instr} {es : List Env} {s t : State} {P : List Env → State → Prop}
    (h : FramerRun i es s t) (hbusy : s.pf.busy = true) (hstart : P [] s)
    (hstep : ∀ es u e v, P es u → exec i { u with env := e } = .next v → v.pf.busy = true → P (es ++ [e]) v) :
    ∃ es' e u, es = es' ++ [e] ∧ P es' u ∧ exec i { u with env := e } = .next t := by
  obtain ⟨hrun, hidle, hgoing⟩ := h
  obtain rfl | ⟨es', e, rfl⟩ := List.eq_nil_or_concat' es
  · cases hrun
    rw [Framer.busy, hidle] at hbusy
    cases hbusy
  · have hbefore : ∀ k, k ≤ es'.length → ∃ u, runCommand i (es'.take k) s = .next u ∧ P (es'.take k) u := by
      intro k
      induction k with
      | zero => exact fun _ => ⟨s, rfl, hstart⟩
      | succ k ih =>
        intro hk
        obtain ⟨u, hu, hP⟩ := ih (by omega)
        obtain ⟨v, hv, hvbusy⟩ := hgoing (k + 1) (by simp; omega)
        rw [List.take_append_of_le_length hk] at hv
        rw [List.take_succ_eq_append_getElem hk] at hv ⊢
        exact ⟨v, hv, hstep _ _ _ _ hP ((runCommand_concat hu _).symm.trans hv) hvbusy⟩
    obtain ⟨u, hu, hP⟩ := hbefore es'.length (Nat.le_refl _)
    rw [List.take_length] at hu hP
    exact ⟨es', e, u, rfl, hP, (runCommand_concat hu e).symm.trans hrun⟩

/-- The state with the framer at another position of its sequencer. -/
def State.framerAt (s : State) (pos : FramerPos) : State := { s with pf := { s.pf with pos := pos } }

/-! ### READ_PACKET inside a packet (R239, R240) -/

/-- The stream the transport has offered through the steps `es`. -/
def State.offered (s : State) (es : List Env) : List Byte := s.tr.rx ++ es.flatMap Env.arriving

/-- `s` after the steps `es` of a READ_PACKET that received the first `got` bytes of the stream. -/
def State.received (s : State) (es : List Env) (got : Nat) : State :=
  { s with
    env := es.getLast?.getD s.env
    tr := { s.tr with rx := (s.offered es).drop got }
    pf := s.pf.putBytes 0 ((s.offered es).take got) }

/-- The position of a READ_PACKET that has `got` bytes of the stream: inside the header, or behind it in a packet of the
legal length that its first byte gives. -/
inductive ReadPos (l : Latch) (stream : List Byte) (got : Nat) (f : Framer) : Prop where
  | header (w : Word) (hpos : HeaderAt f w l got) (hgot : got < 4)
  | payload (w : Word) (len : Byte) (hpos : f.pos = .running w l (.payload len.toNat got)) (hlen : stream[0]? = some len)
      (hgot : 4 ≤ got) (hlt : got < len.toNat) (hmax : len.toNat ≤ 254)

/-- A READ_PACKET started in `s` stands, after the steps `es`, in the state `u` with `got` bytes. -/
structure Reading (l : Latch) (s : State) (es : List Env) (got : Nat) (u : State) : Prop where
  pos : ReadPos l (s.offered es) got u.pf
  state : u = (s.received es got).framerAt u.pf.pos
  enough : got ≤ (s.offered es).length

theorem offered_concat (s : State) (es : List Env) (e : Env) :
    s.offered (es ++ [e]) = s.offered es ++ e.arriving := by
  simp [State.offered]

theorem received_zero (s : State) : s.received [] 0 = s := by
  simp [State.received, State.offered, Framer.putBytes, Memory.putBytes]

theorem Reading.start {l : Latch} {s : State} (h : FramerLatched .readPacket l s) : Reading l s [] 0 s where
  pos := .header _ (.inl ⟨h, rfl⟩) (by decide)
  state := by rw [received_zero]; rfl
  enough := Nat.zero_le _

/-- Byte 0 of the buffer is the first byte of the stream. -/
theorem read_received (s : State) (es : List Env) {got : Nat} (hgot : 0 < got) (hle : got ≤ (s.offered es).length) :
    (s.received es got).pf.buf.read 0 = (s.offered es)[0]? := by
  rw [State.received, Framer.putBytes, Memory.read_putBytes, List.length_take,
    if_pos ⟨Nat.le_refl 0, by omega, by decide⟩, Nat.sub_zero, List.getElem?_take_of_lt hgot]

section ReadRun
variable {l : Latch} {s u : State} {es : List Env} {got : Nat}

/-- One call of a READ_PACKET that has `got` bytes: the next ones of the stream come behind them. -/
theorem Reading.afterCall (h : Reading l s es got u) (e : Env) (want : Nat) :
    ({ u with env := e } : State).afterCall got want =
      (s.received (es ++ [e])
        (got + (({ u with env := e } : State).callBytes got want).length)).framerAt u.pf.pos := by
  have hrest : (s.offered es).drop got ++ e.arriving = (s.offered (es ++ [e])).drop got := by
    rw [offered_concat, List.drop_append_of_le_length h.enough]
  have hfirst : (s.offered es).take got = (s.offered (es ++ [e])).take got := by
    rw [offered_concat, List.take_append_of_le_length h.enough]
  have hbytes : ({ u with env := e } : State).callBytes got want =
      ((s.offered (es ++ [e])).drop got).take (min e.count (want - got)) := by
    rw [h.state, State.callBytes, ← hrest]
    rfl
  have hlen : ((s.offered (es ++ [e])).take got).length = got := by
    rw [← hfirst, List.length_take, Nat.min_eq_left h.enough]
  generalize hk : ({ u with env := e } : State).callBytes got want = bs at hbytes ⊢
  have hbuf : s.pf.buf.putBytes Config.pfBufBytes 0 ((s.offered (es ++ [e])).take (got + bs.length)) =
      (s.pf.buf.putBytes Config.pfBufBytes 0 ((s.offered es).take got)).putBytes Config.pfBufBytes got bs := by
    have hsplit := Memory.putBytes_append Config.pfBufBytes ((s.offered (es ++ [e])).take got) bs s.pf.buf 0
    rw [hlen, Nat.zero_add, ← hfirst] at hsplit
    rw [List.take_add, ← hfirst, ← hsplit, hbytes, List.length_take, ← List.take_eq_take_min]
  rw [State.afterCall, hk, h.state]
  simp only [State.framerAt, State.received, Framer.putBytes, hbuf, hrest, List.drop_drop, List.getLast?_concat,
    Option.getD_some]

/-- A call returns what the transport answers, as far as the phase needs it and the stream has it. -/
theorem Reading.callBytes_length (h : Reading l s es got u) (e : Env) (want : Nat) :
    (({ u with env := e } : State).callBytes got want).length =
      min (min e.count (want - got)) ((s.offered (es ++ [e])).length - got) := by
  have henough := h.enough
  rw [h.state]
  simp only [State.callBytes, State.framerAt, State.received, List.length_take, List.length_append, List.length_drop,
    offered_concat]
  omega

/-- The bytes a READ_PACKET has after a call are bytes of the stream. -/
theorem Reading.afterCall_enough (h : Reading l s es got u) (e : Env) (want : Nat) :
    got + (({ u with env := e } : State).callBytes got want).length ≤ (s.offered (es ++ [e])).length := by
  have henough := h.enough
  rw [h.callBytes_length, offered_concat, List.length_append]
  omega

/-- One step of a READ_PACKET before its deadline, in either phase: a call for at least one byte, then the tests, in which
the header's come first and pass once they have passed. -/
theorem Reading.step (h : Reading l s es got u) (hlive : l.expired s.now = false) (e : Env) :
    ∃ want k, got < want ∧ k = min (min e.count (want - got)) ((s.offered (es ++ [e])).length - got) ∧
      (∀ len : Byte, (s.offered (es ++ [e]))[0]? = some len → 4 ≤ len.toNat → got + k ≤ len.toNat) ∧
      exec .readPacket { u with env := e } =
        headerTest (encode .readPacket) l (got + k) ((s.received (es ++ [e]) (got + k)).framerAt u.pf.pos) := by
  have hnow : u.now = s.now := by rw [h.state]; rfl
  rw [← hnow] at hlive
  obtain ⟨w, hhead, hgot⟩ | ⟨w, len, hpos, hlen, hgot, hlt, hmax⟩ := h.pos
  · refine ⟨4, _, hgot, h.callBytes_length e 4, fun len _ h4 => ?_, ?_⟩
    · rw [h.callBytes_length]
      omega
    · rw [exec_readPacket_header_live (s := { u with env := e }) hhead hlive, h.afterCall]
  · have hfirst : (s.offered (es ++ [e]))[0]? = some len := by
      rw [offered_concat, List.getElem?_append_left (by have := h.enough; omega), hlen]
    refine ⟨len.toNat, _, hlt, h.callBytes_length e len.toNat, fun len' hlen' _ => ?_, ?_⟩
    · rw [hfirst] at hlen'
      cases hlen'
      rw [h.callBytes_length]
      omega
    · have hread := (read_received s (es ++ [e]) (by omega) (h.afterCall_enough e len.toNat)).trans hfirst
      rw [exec_readPacket_payload_live (s := { u with env := e }) hpos hlive, h.afterCall]
      exact (headerTest_legal (by omega) hread (by omega) hmax).symm

variable {pos : FramerPos}

/-- The tests after a call, when the header is not complete. -/
theorem headerTest_received_header (hle : got ≤ (s.offered es).length) (hgot : got < 4) :
    ∃ v, headerTest (encode .readPacket) l got ((s.received es got).framerAt pos) = .next v ∧ Reading l s es got v :=
  ⟨_, headerTest_more hgot, .header _ (.inr rfl) hgot, rfl, hle⟩

/-- The tests after a call, when the header gives a legal length and the packet is not complete. -/
theorem headerTest_received_payload {len : Byte} (hle : got ≤ (s.offered es).length) (hgot : 4 ≤ got)
    (hlen : (s.offered es)[0]? = some len) (hlt : got < len.toNat) (hmax : len.toNat ≤ 254) :
    ∃ v, headerTest (encode .readPacket) l got ((s.received es got).framerAt pos) = .next v ∧ Reading l s es got v := by
  have hread := (read_received s es (by omega) hle).trans hlen
  refine ⟨_, (headerTest_legal hgot hread (by omega) hmax).trans (payloadTest_more hlt), ?_, rfl, hle⟩
  exact .payload _ len rfl hlen hgot hlt hmax

/-- The state after a READ_PACKET that received the packet `p` in the steps `es`. -/
def State.readDone (s : State) (l : Latch) (es : List Env) (p : List Byte) : State :=
  { s.received es p.length with
    pf := (s.received es p.length).pf.afterPacket s.par.checksumFn l.strict p }

/-- The tests after a call, when the packet is complete. -/
theorem headerTest_received_done {p rest : List Byte} (hp : LegalPacket p) (hstream : s.offered es = p ++ rest) :
    headerTest (encode .readPacket) l p.length ((s.received es p.length).framerAt pos) =
      .next (s.readDone l es p) := by
  have h4 : 4 ≤ p.length := hp.min_length
  have hmax : p.length ≤ 254 := hp.max_length
  have hread : (s.received es p.length).pf.buf.read 0 = some (BitVec.ofNat 8 p.length) := by
    rw [read_received s es (by omega) (by simp [hstream]), hstream, List.getElem?_append_left (by omega), hp.first]
  have hin : PacketIn (s.received es p.length).pf.buf false p := by
    rw [State.received, hstream, List.take_left]
    exact packetIn_putBytes _ _ hmax
  have hlegal := headerTest_legal (s := (s.received es p.length).framerAt pos) (w := encode .readPacket) (l := l) h4 hread
  rw [hp.lengthByte] at hlegal
  exact (hlegal h4 hmax).trans (payloadTest_done hin h4)

/-! ### READ_PACKET from a transport that delivers at most one byte per call (R253) -/

/-- Inside the packet a call that answers at most one byte delivers what it answers, and the command goes on until the
packet is complete. -/
theorem Reading.step_oneByte {p rest : List Byte} (h : Reading l s es got u) (hlive : l.expired s.now = false)
    (hstream : s.tr.rx = p ++ rest) {e : Env} (hcount : e.count ≤ 1)
    (hle : got + e.count ≤ p.length) (hinside : got < p.length) :
    exec .readPacket { u with env := e } = headerTest (encode .readPacket) l (got + e.count)
      ((s.received (es ++ [e]) (got + e.count)).framerAt u.pf.pos) := by
  obtain ⟨want, k, hwant, hk, -, hexec⟩ := h.step hlive e
  have hlen : (s.offered (es ++ [e])).length ≥ p.length := by
    simp only [State.offered, hstream, List.length_append]
    omega
  obtain rfl : k = e.count := by omega
  exact hexec

theorem run_readPacket_oneByte {p rest : List Byte} (hp : LegalPacket p) (hpos : FramerLatched .readPacket l s)
    (hlive : l.expired s.now = false) (hstream : s.tr.rx = p ++ rest) (hcount : ∀ e ∈ es, e.count ≤ 1)
    (hsum : (es.map Env.count).sum = p.length) (hlast : es.getLast?.map Env.count = some 1) :
    runCommand .readPacket es s = .next (s.readDone l es p) := by
  have h4 : 4 ≤ p.length := hp.min_length
  have hmax : p.length ≤ 254 := hp.max_length
  have hoffered : ∀ es', s.offered es' = p ++ (rest ++ es'.flatMap Env.arriving) := fun es' => by
    rw [State.offered, hstream, List.append_assoc]
  have hlenp : ∀ es', p.length ≤ (s.offered es').length := fun es' => by
    rw [hoffered, List.length_append]
    omega
  have hfirst : ∀ es', (s.offered es')[0]? = some (BitVec.ofNat 8 p.length) := fun es' => by
    rw [hoffered, List.getElem?_append_left (by omega), hp.first]
  have hgoesOn : ∀ es' got u e, Reading l s es' got u → e.count ≤ 1 → got + e.count < p.length →
      ∃ v, exec .readPacket { u with env := e } = .next v ∧ Reading l s (es' ++ [e]) (got + e.count) v := by
    intro es' got u e h he hlt
    rw [h.step_oneByte hlive hstream he hlt.le (by omega)]
    have hle := hlt.le.trans (hlenp (es' ++ [e]))
    rcases Nat.lt_or_ge (got + e.count) 4 with hhead | hpay
    · exact headerTest_received_header hle hhead
    · exact headerTest_received_payload hle hpay (hfirst _) (by rw [hp.lengthByte]; exact hlt)
        (by rw [hp.lengthByte]; exact hmax)
  obtain ⟨e, he, hone⟩ := Option.map_eq_some_iff.mp hlast
  obtain ⟨es', rfl⟩ := List.getLast?_eq_some_iff.mp he
  rw [List.map_append, List.sum_append, List.map_singleton, List.sum_singleton] at hsum
  obtain ⟨u, hrun, hu⟩ := run_counted (Reading.start hpos) hgoesOn es'
    (fun e' he' => hcount e' (List.mem_append_left _ he')) (by omega)
  rw [runCommand_concat hrun, hu.step_oneByte hlive hstream hone.le hsum.le (by omega), hsum]
  exact headerTest_received_done hp (hoffered _)

end ReadRun

/-- The state in which such a run ends, field by field. -/
theorem readDone_eq {s : State} {l : Latch} {es : List Env} {p rest : List Byte} (hstream : s.tr.rx = p ++ rest) :
    s.readDone l es p = { s with
      env := es.getLast?.getD s.env
      tr := { s.tr with rx := rest ++ es.flatMap Env.arriving }
      pf := { s.pf with buf := s.pf.buf.putBytes Config.pfBufBytes 0 p }.afterPacket s.par.checksumFn l.strict p } := by
  have hoffered : s.offered es = p ++ (rest ++ es.flatMap Env.arriving) := by
    rw [State.offered, hstream, List.append_assoc]
  simp only [State.readDone, State.received, hoffered, List.drop_left, List.take_left, Framer.putBytes]

/-- Settles O28: in compatible mode the completed packet ends the command with OK. -/
theorem readPacketAssembles : Obligations.ReadPacketAssembles := by
  intro p rest l s es hp hpos hlive hstrict hstream hcount hsum hlast
  rw [run_readPacket_oneByte hp hpos hlive hstream hcount hsum hlast, readDone_eq hstream, hstrict]
  rfl

/-- Settles O29: in strict mode the completed packet's checksum field decides. -/
theorem readPacketChecksChecksum : Obligations.ReadPacketChecksChecksum := by
  intro p rest l s es hp hpos hlive hstrict hstream hcount hsum hlast c
  rw [run_readPacket_oneByte hp hpos hlive hstream hcount hsum hlast, readDone_eq hstream, hstrict]
  by_cases hgood : withChecksum p c = p
  · simp [Framer.afterPacket, c, hgood]
  · simp [Framer.afterPacket, c, hgood]

end Sys2Proof.Machine

/-! PROOFS. Whole runs of WRITE_PACKET, of READ_PACKET with WRITE_PACKET behind it on the same buffer, and of READ_PACKET
on a transport that stays empty (spec/42_framer.md R249, R252, R254). -/

namespace Sys2Proof.Machine

/-! ### WRITE_PACKET to a transport that accepts in pieces (R249) -/

/-- `s` after the steps `es` of a WRITE_PACKET that sent the first `n` bytes of what it sends for `p`. -/
def State.sentBy (s : State) (l : Latch) (p : List Byte) (es : List Env) (n : Nat) : State :=
  { s with
    env := es.getLast?.getD s.env
    tr := s.tr.accept ((packetSent s.par.checksumFn l.strict p).take n)
    pf := s.pf.stamped s.par.checksumFn l.strict p }

/-- The checksum that WRITE_PACKET carries from its first step to its end. -/
def sentChecksum (fn : ChecksumFn) (strict : Bool) (p : List Byte) : Option Half :=
  if strict then some (checksumOf fn (withoutChecksum p)) else none

/-- The position of a WRITE_PACKET of `p` that has sent `n` bytes. -/
def sendPos (fn : ChecksumFn) (l : Latch) (p : List Byte) (n : Nat) : FramerPos :=
  .running (encode .writePacket) l (.sending p.length n (sentChecksum fn l.strict p))

/-- A WRITE_PACKET of `p` started in `s` stands, after the steps `es`, in the state `u` with `n` bytes sent. -/
inductive Sending (l : Latch) (p : List Byte) (s : State) : List Env → Nat → State → Prop where
  | start : Sending l p s [] 0 s
  | inside (es : List Env) (n : Nat) (hn : n < p.length) :
      Sending l p s es n ((s.sentBy l p es n).framerAt (sendPos s.par.checksumFn l p n))

/-- The state after a WRITE_PACKET that sent the packet `p` in the steps `es`. -/
def State.writeDone (s : State) (l : Latch) (p : List Byte) (es : List Env) : State :=
  { s.sentBy l p es p.length with
    pf := (s.sentBy l p es p.length).pf.finish .ok (some (BitVec.ofNat 8 p.length))
      (sentChecksum s.par.checksumFn l.strict p) }

section WriteRun
variable {l : Latch} {p : List Byte} {s u : State} {es : List Env} {n : Nat}

/-- One pass of the loop on the stamped buffer, from any position. -/
theorem sendTurn_sentBy (h4 : 4 ≤ p.length) (hlive : l.expired s.now = false) (hin : PacketIn s.pf.buf l.strict p)
    (hn : n ≤ p.length) (pos : FramerPos) (e : Env) :
    sendTurn (encode .writePacket) l p.length n (sentChecksum s.par.checksumFn l.strict p)
        { (s.sentBy l p es n).framerAt pos with env := e } =
      .next (if n + min e.count (p.length - n) < p.length then
          (s.sentBy l p (es ++ [e]) (n + min e.count (p.length - n))).framerAt
            (sendPos s.par.checksumFn l p (n + min e.count (p.length - n)))
        else s.writeDone l p (es ++ [e])) := by
  have hle : n + min e.count (p.length - n) ≤ (packetSent s.par.checksumFn l.strict p).length := by
    rw [packetSent_length]
    omega
  have hread := (packetIn_stamped s.par.checksumFn h4 hin).readBytes hle
  have hturn := sendTurn_live (s := { (s.sentBy l p es n).framerAt pos with env := e }) (w := encode .writePacket)
    (csum := sentChecksum s.par.checksumFn l.strict p) hlive hread
  refine hturn.trans ?_
  have hsent : ∀ k, (s.tr.accept ((packetSent s.par.checksumFn l.strict p).take n)).accept
      (((packetSent s.par.checksumFn l.strict p).drop n).take k) =
        s.tr.accept ((packetSent s.par.checksumFn l.strict p).take (n + k)) := fun k => by
    simp only [Transport.accept, List.append_assoc, ← List.take_add]
  simp only [State.sentBy, State.framerAt, State.writeDone, hsent, List.getLast?_concat, Option.getD_some]
  split
  · rfl
  · next hdone =>
    rw [show n + min e.count (p.length - n) = p.length by omega]
    rfl

/-- One step of a WRITE_PACKET before its deadline. -/
theorem Sending.step (h : Sending l p s es n u) (hp : LegalPacket p) (hpos : FramerLatched .writePacket l s)
    (hlive : l.expired s.now = false) (hin : PacketIn s.pf.buf l.strict p) (e : Env) :
    exec .writePacket { u with env := e } =
      .next (if n + min e.count (p.length - n) < p.length then
          (s.sentBy l p (es ++ [e]) (n + min e.count (p.length - n))).framerAt
            (sendPos s.par.checksumFn l p (n + min e.count (p.length - n)))
        else s.writeDone l p (es ++ [e])) := by
  have h4 : 4 ≤ p.length := hp.min_length
  cases h with
  | start =>
    have hstate : ({ (s.sentBy l p [] 0).framerAt (s.pf.stamped s.par.checksumFn l.strict p).pos with env := e } : State) =
        { s with env := e, pf := s.pf.stamped s.par.checksumFn l.strict p } := by
      simp [State.sentBy, State.framerAt, Transport.accept]
    have hlen : s.pf.buf.read 0 = p[0]? := hin 0 (by omega) fun _ => by decide
    have hfirst := exec_writePacket_legal (s := { s with env := e }) hpos hp hlen fun hs => hs ▸ hin
    refine hfirst.trans ?_
    rw [← sendTurn_sentBy h4 hlive hin (Nat.zero_le _) (s.pf.stamped s.par.checksumFn l.strict p).pos e, hstate]
    rfl
  | inside es n hn =>
    exact (exec_writePacket_sending rfl).trans (sendTurn_sentBy h4 hlive hin hn.le _ e)

theorem run_writePacket (hp : LegalPacket p) (hpos : FramerLatched .writePacket l s)
    (hlive : l.expired s.now = false) (hin : PacketIn s.pf.buf l.strict p)
    (hsum : (es.map Env.count).sum = p.length) (hlast : ∃ e, es.getLast? = some e ∧ 0 < e.count) :
    runCommand .writePacket es s = .next (s.writeDone l p es) := by
  have hgoesOn : ∀ es' n u e, Sending l p s es' n u → True → n + e.count < p.length →
      ∃ v, exec .writePacket { u with env := e } = .next v ∧ Sending l p s (es' ++ [e]) (n + e.count) v := by
    intro es' n u e h _ hlt
    have hstep := h.step hp hpos hlive hin e
    rw [show min e.count (p.length - n) = e.count by omega, if_pos hlt] at hstep
    exact ⟨_, hstep, .inside _ _ hlt⟩
  obtain ⟨e, he, hpositive⟩ := hlast
  obtain ⟨es', rfl⟩ := List.getLast?_eq_some_iff.mp he
  rw [List.map_append, List.sum_append, List.map_singleton, List.sum_singleton] at hsum
  obtain ⟨u, hrun, hu⟩ := run_counted .start hgoesOn es' (fun _ _ => trivial) (by omega)
  rw [runCommand_concat hrun, hu.step hp hpos hlive hin, if_neg (by omega)]

end WriteRun

/-- Settles O32: the state in which the run ends, field by field. -/
theorem writePacketSends : Obligations.WritePacketSends := by
  intro p l s es hp hpos hlive hin hsum hlast c
  have hall : (packetSent s.par.checksumFn l.strict p).take p.length = packetSent s.par.checksumFn l.strict p :=
    List.take_of_length_le (packetSent_length _ _ _).le
  rw [run_writePacket hp hpos hlive hin hsum hlast]
  simp only [State.writeDone, State.sentBy, hall, sentChecksum, stamped_finish]
  rfl

/-! ### READ_PACKET, then WRITE_PACKET on the same buffer (R252) -/

/-- A READ_PACKET that has not ended is in progress. -/
theorem Reading.busy {l : Latch} {s u : State} {es : List Env} {got : Nat} (h : Reading l s es got u) :
    u.pf.busy = true := by
  obtain ⟨w, ⟨hpos, -⟩ | hpos, -⟩ | ⟨w, len, hpos⟩ := h.pos <;> rw [Framer.busy, hpos]

/-- The first bytes of a stream whose length byte is legal are a legal packet. -/
theorem legalPacket_take {stream : List Byte} {len : Byte} (hlen : stream[0]? = some len) (h4 : 4 ≤ len.toNat)
    (hmax : len.toNat ≤ 254) (hle : len.toNat ≤ stream.length) :
    (stream.take len.toNat).length = len.toNat ∧ LegalPacket (stream.take len.toNat) := by
  have hlength : (stream.take len.toNat).length = len.toNat := by rw [List.length_take, Nat.min_eq_left hle]
  refine ⟨hlength, by rw [hlength]; exact h4, by rw [hlength]; exact hmax, ?_⟩
  rw [hlength, List.getElem?_take_of_lt (by omega), hlen, BitVec.ofNat_toNat, BitVec.setWidth_eq]

/-- What one more step makes of a READ_PACKET: it goes on, or ends with a whole legal packet, or ends with another result
than OK. -/
theorem Reading.next {l : Latch} {s u v : State} {es : List Env} {got : Nat} {e : Env} (h : Reading l s es got u)
    (hexec : exec .readPacket { u with env := e } = .next v) :
    (∃ got', Reading l s (es ++ [e]) got' v) ∨
    (v.pf.pos = .idle ∧ (v.pf.result = .ok →
      ∃ p rest, LegalPacket p ∧ s.offered (es ++ [e]) = p ++ rest ∧ v = s.readDone l (es ++ [e]) p)) := by
  cases hexp : l.expired s.now with
  | true =>
    have hnow : u.now = s.now := by rw [h.state]; rfl
    have hpos : ∃ w len got, u.pf.pos = .latched w l ∨ u.pf.pos = .running w l (.header got) ∨
        u.pf.pos = .running w l (.payload len got) := by
      obtain ⟨w, ⟨hpos, -⟩ | hpos, -⟩ | ⟨w, len, hpos⟩ := h.pos
      · exact ⟨w, 0, 0, .inl hpos⟩
      · exact ⟨w, 0, _, .inr (.inl hpos)⟩
      · exact ⟨w, _, _, .inr (.inr hpos)⟩
    obtain ⟨w, len, g, hpos⟩ := hpos
    rw [exec_readPacket_expired (s := { u with env := e }) hpos (hnow.symm ▸ hexp)] at hexec
    cases hexec
    exact .inr ⟨rfl, fun hok => by cases hok⟩
  | false =>
    obtain ⟨want, k, -, hk, hbound, hstep⟩ := h.step hexp e
    have hle : got + k ≤ (s.offered (es ++ [e])).length := by
      have henough := h.enough
      rw [offered_concat, List.length_append] at hk ⊢
      omega
    rw [hstep] at hexec
    rcases Nat.lt_or_ge (got + k) 4 with hhead | hpay
    · obtain ⟨v', hv', hreading⟩ := headerTest_received_header (l := l) (pos := u.pf.pos) hle hhead
      cases hv'.symm.trans hexec
      exact .inl ⟨_, hreading⟩
    · obtain ⟨len, hlen⟩ : ∃ len, (s.offered (es ++ [e]))[0]? = some len :=
        ⟨_, List.getElem?_eq_getElem (by omega)⟩
      by_cases hbad : len.toNat < 4 ∨ 254 < len.toNat
      · have hread := (read_received s (es ++ [e]) (by omega) hle).trans hlen
        cases (headerTest_malformed hpay hread hbad).symm.trans hexec
        exact .inr ⟨rfl, fun hok => by cases hok⟩
      · obtain ⟨h4, hmax⟩ : 4 ≤ len.toNat ∧ len.toNat ≤ 254 := by omega
        rcases Nat.lt_or_ge (got + k) len.toNat with hlt | hge
        · obtain ⟨v', hv', hreading⟩ := headerTest_received_payload (l := l) (pos := u.pf.pos) hle hpay hlen hlt hmax
          cases hv'.symm.trans hexec
          exact .inl ⟨_, hreading⟩
        · have hall : got + k = len.toNat := Nat.le_antisymm (hbound len hlen h4) hge
          obtain ⟨hlength, hp⟩ := legalPacket_take hlen h4 hmax (hall ▸ hle)
          have hdone := headerTest_received_done (l := l) (pos := u.pf.pos) hp (List.take_append_drop _ _).symm
          rw [hlength, ← hall] at hdone
          cases hdone.symm.trans hexec
          rw [hall]
          exact .inr ⟨rfl, fun _ => ⟨_, _, hp, (List.take_append_drop _ _).symm, rfl⟩⟩

/-- A READ_PACKET that ended with OK received a legal packet: the first bytes of the stream. -/
theorem FramerRun.readDone {l : Latch} {s t : State} {es : List Env} (hpos : FramerLatched .readPacket l s)
    (h : FramerRun .readPacket es s t) (hok : t.pf.result = .ok) :
    ∃ p rest, LegalPacket p ∧ s.offered es = p ++ rest ∧ t = s.readDone l es p := by
  have hidle : ∀ {v : State}, v.pf.pos = .idle → v.pf.busy ≠ true := fun hv => by rw [Framer.busy, hv]; decide
  obtain ⟨es', e, u, rfl, ⟨got, hu⟩, hexec⟩ := h.lastStep (P := fun es u => ∃ got, Reading l s es got u)
    (Reading.start hpos).busy ⟨0, .start hpos⟩
    fun es u e v ⟨got, hu⟩ hexec hbusy => (hu.next hexec).resolve_right fun hend => hidle hend.1 hbusy
  obtain ⟨got', hv⟩ | ⟨-, hdone⟩ := hu.next hexec
  · exact absurd hv.busy (hidle h.2.1)
  · exact hdone hok

/-- A WRITE_PACKET of a packet in the buffer that ended before its deadline sent all of it. -/
theorem FramerRun.writeDone {l : Latch} {p : List Byte} {s t : State} {es : List Env} (hp : LegalPacket p)
    (hpos : FramerLatched .writePacket l s) (hlive : l.expired s.now = false) (hin : PacketIn s.pf.buf l.strict p)
    (h : FramerRun .writePacket es s t) : t = s.writeDone l p es := by
  have hbusy : s.pf.busy = true := by rw [Framer.busy, hpos]
  have hstep : ∀ es u e v, (∃ n, Sending l p s es n u) → exec .writePacket { u with env := e } = .next v →
      (v.pf.busy = true ∧ ∃ n, Sending l p s (es ++ [e]) n v) ∨ v = s.writeDone l p (es ++ [e]) := by
    intro es u e v ⟨n, hu⟩ hexec
    rw [hu.step hp hpos hlive hin] at hexec
    split at hexec
    · next hlt => cases hexec; exact .inl ⟨rfl, _, .inside _ _ hlt⟩
    · cases hexec; exact .inr rfl
  obtain ⟨es', e, u, rfl, hu, hexec⟩ := h.lastStep (P := fun es u => ∃ n, Sending l p s es n u) hbusy ⟨0, .start⟩
    fun es u e v hu hexec hvbusy => by
      obtain ⟨-, hv⟩ | rfl := hstep es u e v hu hexec
      · exact hv
      · cases hvbusy
  obtain ⟨htbusy, -⟩ | hdone := hstep es' u e t hu hexec
  · rw [Framer.busy, h.2.1] at htbusy
    cases htbusy
  · exact hdone

/-- READ_PACKET's OK with a legal packet `p`: `COUNT` is its length. -/
theorem afterPacket_ok {f : Framer} {fn : ChecksumFn} {strict : Bool} {p : List Byte}
    (hok : (f.afterPacket fn strict p).result = .ok) :
    (f.afterPacket fn strict p).count = BitVec.ofNat 8 p.length := by
  simp only [Framer.afterPacket] at hok ⊢
  split at hok
  · next hgood => exact if_pos hgood
  · cases hok

/-- Settles O34: the packet received stands in the buffer, and that packet is sent, stamped in strict mode. -/
theorem echoRoundTrip : Obligations.EchoRoundTrip := by
  intro l s t u es1 es2 hpos hread hok hwrite _
  obtain ⟨p, rest, hp, hstream, rfl⟩ := hread.readDone hpos hok
  have hreceived : (s.tr.rx ++ es1.flatMap Env.arriving).take (s.readDone l es1 p).pf.count.toNat = p := by
    have hcount : (s.readDone l es1 p).pf.count = BitVec.ofNat 8 p.length := afterPacket_ok hok
    rw [hcount, hp.lengthByte]
    exact (congrArg (List.take p.length) hstream).trans List.take_left
  have hin : PacketIn (s.readDone l es1 p).pf.buf s.pf.strict p := by
    have hbuf : (s.readDone l es1 p).pf.buf =
        s.pf.buf.putBytes Config.pfBufBytes 0 ((s.offered es1).take p.length) := rfl
    rw [hbuf, hstream, List.take_left]
    exact packetIn_putBytes _ _ hp.max_length
  have hlatched : FramerLatched .writePacket ((s.readDone l es1 p).pf.latchNow s.now)
      { s.readDone l es1 p with pf := (s.readDone l es1 p).pf.startCommand s.now (encode .writePacket) } := rfl
  have hsent := FramerRun.writeDone hp hlatched (Latch.not_expired_at_start rfl) hin hwrite
  have hall : (packetSent s.par.checksumFn s.pf.strict p).take p.length = packetSent s.par.checksumFn s.pf.strict p :=
    List.take_of_length_le (packetSent_length _ _ _).le
  simp only [hreceived]
  refine ⟨hp, packetSent s.par.checksumFn s.pf.strict p, ?_, packetSent_length _ _ _, packetSent_take_two _ _ _,
    fun hcompat => by rw [hcompat]; rfl⟩
  rw [hsent, ← hall]
  rfl

/-! ### READ_PACKET on a transport that stays empty (R254) -/

/-- READ_PACKET has received nothing, or its deadline has ended it. -/
inductive Starving (l : Latch) (f : Framer) : Prop where
  | waiting (hpos : HeaderAt f (encode .readPacket) l 0)
  | timedOut (hidle : f.pos = .idle) (hresult : f.result = .timeout) (hcount : f.count = 0)

/-- What the turns of a starving READ_PACKET keep: its buffer and what was sent are as in `s`. -/
structure Starved (l : Latch) (s u : State) : Prop where
  framer : Starving l u.pf
  par : u.par = s.par
  buf : u.pf.buf = s.pf.buf
  tx : u.tr.tx = s.tr.tx

/-- The framer's turn while READ_PACKET waits is READ_PACKET's step. -/
theorem framerAgent_waiting {s : State} {l : Latch} (h : HeaderAt s.pf (encode .readPacket) l 0) :
    framerAgent s = exec .readPacket s := by
  refine framerAgent_of_decode (w := encode .readPacket) ?_ rfl
  obtain ⟨hpos, -⟩ | hpos := h <;> rw [Framer.word?, hpos]

/-- The framer's turn while its deadline has passed: the command ends, and once it has ended the turn passes. -/
theorem Starved.turn_expired {l : Latch} {s u : State} (h : Starved l s u) (hexp : l.expired u.now = true) :
    ∃ v, framerAgent u = .next v ∧ v.pf.pos = .idle ∧ v.pf.result = .timeout ∧ v.pf.count = 0 ∧
      Starved l s v ∧ v.now = u.now ∧ v.script = u.script := by
  obtain hpos | ⟨hidle, hresult, hcount⟩ := h.framer
  · have hphase : u.pf.pos = .latched (encode .readPacket) l ∨
        u.pf.pos = .running (encode .readPacket) l (.header 0) ∨
        u.pf.pos = .running (encode .readPacket) l (.payload 0 0) := hpos.elim (fun hl => .inl hl.1) (.inr ∘ .inl)
    exact ⟨_, (framerAgent_waiting hpos).trans (exec_readPacket_expired hphase hexp), rfl, rfl, rfl,
      ⟨.timedOut rfl rfl rfl, h.par, h.buf, h.tx⟩, rfl, rfl⟩
  · exact ⟨u, framerAgent_of_idle hidle, hidle, hresult, hcount, h, rfl, rfl⟩

/-- A framer turn whose call returns nothing leaves READ_PACKET starving. -/
theorem Starved.turn_empty {l : Latch} {s u : State} (h : Starved l s u) (hempty : u.env.count = 0) :
    ∃ v, framerAgent u = .next v ∧ Starved l s v ∧ v.now = u.now ∧ v.script = u.script := by
  cases hexp : l.expired u.now with
  | true =>
    obtain ⟨v, hv, -, -, -, hkept⟩ := h.turn_expired hexp
    exact ⟨v, hv, hkept⟩
  | false =>
    obtain hpos | ⟨hidle, -, -⟩ := h.framer
    · have hnothing : u.callBytes 0 4 = [] := by rw [State.callBytes, hempty, Nat.zero_min, List.take_zero]
      have hexec := exec_readPacket_header_live hpos hexp
      rw [hnothing, headerTest_more (by decide), State.afterCall, hnothing] at hexec
      exact ⟨_, (framerAgent_waiting hpos).trans hexec, ⟨.waiting (.inr rfl), h.par, h.buf, h.tx⟩, rfl, rfl⟩
    · exact ⟨u, framerAgent_of_idle hidle, h, rfl, rfl⟩

/-- The ticks among some turns. -/
def tickCount (turns : List Turn) : Nat := (turns.filter fun t => t.agent == .tick).length

theorem tickCount_tick {t : Turn} (h : t.agent = .tick) (turns : List Turn) :
    tickCount (t :: turns) = tickCount turns + 1 := by
  rw [tickCount, List.filter_cons_of_pos (by rw [h]; rfl)]
  rfl

theorem tickCount_framer {t : Turn} (h : t.agent = .framer) (turns : List Turn) :
    tickCount (t :: turns) = tickCount turns := by
  rw [tickCount, List.filter_cons_of_neg (by rw [h]; decide)]
  rfl

/-- A starving READ_PACKET through ticks and empty framer turns, `n` ticks after its start, up to the framer's turn at
which at least `D` ticks have passed. -/
theorem Starved.run {l : Latch} {s : State} (hp : paramsOk s.par = true) (hd : l.d ≠ 0) {rest : List Turn} {last : Env}
    (turns : List Turn) (hturns : ∀ t ∈ turns, t.agent = .tick ∨ (t.agent = .framer ∧ t.env.count = 0))
    {u : State} (h : Starved l s u) {n : Nat} (hnow : u.now = l.t0 + BitVec.ofNat 32 n)
    (hlate : l.d.toNat ≤ n + tickCount turns) (hwrap : n + tickCount turns < 2 ^ 32)
    (hscript : u.script = turns ++ ⟨.framer, last⟩ :: rest) :
    ∃ t, blockRun (turns.length + 1) u = .next t ∧ t.pf.pos = .idle ∧ t.pf.result = .timeout ∧ t.pf.count = 0 ∧
      Starved l s t := by
  induction turns generalizing u n with
  | nil =>
    have helapsed : (l.elapsed u.now).toNat = n := by
      rw [Latch.elapsed, hnow, add_sub_cancel_left, BitVec.toNat_ofNat]
      exact Nat.mod_eq_of_lt hwrap
    have hexp : l.expired u.now = true := (l.expired_iff u.now).mpr ⟨hd, by rw [helapsed]; exact hlate⟩
    have hu : Starved l s { u with script := rest, env := last } := ⟨h.framer, h.par, h.buf, h.tx⟩
    obtain ⟨v, hv, hidle, hresult, hcount, hkept, -⟩ := hu.turn_expired hexp
    have hstep : step u = .next v := (step_of_script (h.par ▸ hp) hscript).trans hv
    exact ⟨v, by simp only [List.length_nil, blockRun, hstep], hidle, hresult, hcount, hkept⟩
  | cons turn turns ih =>
    obtain ⟨a, e⟩ := turn
    have hrest : ∀ t ∈ turns, t.agent = .tick ∨ (t.agent = .framer ∧ t.env.count = 0) :=
      fun t ht => hturns t (List.mem_cons_of_mem _ ht)
    have hturn : step u = agentStep a { u with script := turns ++ ⟨.framer, last⟩ :: rest, env := e } :=
      step_of_script (h.par ▸ hp) hscript
    have hu : Starved l s { u with script := turns ++ ⟨.framer, last⟩ :: rest, env := e } :=
      ⟨h.framer, h.par, h.buf, h.tx⟩
    obtain rfl | ⟨rfl, hempty⟩ : a = .tick ∨ (a = .framer ∧ e.count = 0) := hturns _ (List.mem_cons_self ..)
    · rw [tickCount_tick rfl] at hlate hwrap
      rw [List.length_cons, blockRun, hturn]
      refine ih hrest (n := n + 1) ⟨h.framer, h.par, h.buf, h.tx⟩ ?_ (by omega) (by omega) rfl
      change u.now + 1 = _
      rw [hnow, BitVec.add_assoc, BitVec.ofNat_add]
      rfl
    · rw [tickCount_framer rfl] at hlate hwrap
      obtain ⟨v, hv, hkept, hvnow, hvscript⟩ := hu.turn_empty hempty
      have hstep : step u = .next v := hturn.trans hv
      rw [List.length_cons, blockRun, hstep]
      exact ih hrest hkept (hvnow.trans hnow) hlate hwrap hvscript

/-- Settles O31: a latched READ_PACKET starves from its first tick on. -/
theorem readPacketStarves : Obligations.ReadPacketStarves := by
  intro s l turns rest last hp hpos ht0 hd hturns ticks hlate hwrap hscript
  have hstart : Starved l s s := ⟨.waiting (.inl ⟨hpos, rfl⟩), rfl, rfl, rfl⟩
  have hnow : s.now = l.t0 + BitVec.ofNat 32 0 := by rw [ht0, BitVec.add_zero]
  rw [← Nat.zero_add ticks] at hlate hwrap
  obtain ⟨t, hrun, hidle, hresult, hcount, hkept⟩ := hstart.run hp hd turns hturns hnow hlate hwrap hscript
  exact ⟨t, hrun, hidle, hresult, hcount, hkept.buf, hkept.tx⟩

end Sys2Proof.Machine

/-! PROOFS. The Command Responder: its short replies, its loop line by line, and that the Packet Framer is its own
(spec/43_responder.md R280 to R290, R293, R294). -/

namespace Sys2Proof.Machine

/-! ### Short replies (R284 to R288, R290, R293) -/

/-- `reply(ACK, 0)` (R284, R285). -/
theorem repliesWith_shortAck {i : Instr} {s : State} (h : exec i s = replyAck s) :
    RepliesWith i s (replyBytes s.pf.buf 0 []) :=
  repliesWith_payload (p := []) (Nat.zero_le _) h

/-- RESET is answered with the type its outcome gives (R288). -/
theorem repliesWith_reset (len : Byte) (csum : Half) (s : State) :
    RepliesWith (.pktReset len csum) s (replyBytes s.pf.buf (if s.env.resetOk then 0 else 1) []) := by
  cases h : s.env.resetOk with
  | true => exact repliesWith_shortAck (if_pos h)
  | false => exact repliesWith_nak (if_neg (by rw [h]; decide))

/-- Settles O39: each type's meaning is `reply(ACK, 0)` or `reply(NAK, 0)`, RESET's by its outcome. -/
theorem shortRepliesByType : Obligations.ShortRepliesByType :=
  fun len csum s => ⟨repliesWith_shortAck rfl, repliesWith_shortAck rfl, repliesWith_reset len csum s,
    repliesWith_nak rfl, repliesWith_nak rfl, repliesWith_nak rfl, repliesWith_nak rfl, repliesWith_nak rfl⟩

/-- Settles O41: with a byte received the type byte is the only one written, and with none no byte is. -/
theorem echoPacketAnswered : Obligations.EchoPacketAnswered := by
  intro len csum s
  have hexec : exec (.pktEcho len csum) s =
      replied s (if 1 ≤ s.pf.count.toNat then s.pf.putBytes 1 [typeAck] else s.pf) := rfl
  by_cases hcount : 1 ≤ s.pf.count.toNat
  · rw [if_pos hcount] at hexec
    refine ⟨s.pf.buf.put Config.pfBufBytes 1 typeAck, hexec, fun a => ?_⟩
    simp only [Memory.read_put, Config.pfBufBytes, hcount, Nat.reduceLT, and_true, typeAck]
  · rw [if_neg hcount] at hexec
    exact ⟨s.pf.buf, hexec, fun a => (if_neg fun h => hcount h.2).symm⟩

/-! ### A turn of the responder (R280 to R282) -/

theorem responderAgent_absent {s : State} (h : s.par.responderPresent = false) : responderAgent s = .next s := by
  simp only [responderAgent, h, Bool.false_eq_true, if_false]

/-- The barrier (R282, line 1). -/
theorem responderAgent_waitReady {s : State} (hpresent : s.par.responderPresent = true) (hcr : s.cr = .waitReady) :
    responderAgent s = .next { s with cr := if s.env.ready then .cycle .zero else .waitReady } := by
  simp only [responderAgent, hpresent, hcr, if_true]
  split
  · rfl
  · rw [← hcr]

theorem responderAgent_busy {s : State} {c : CrStep} (hcr : s.cr = .cycle c) (hbusy : s.pf.busy = true) :
    responderAgent s = .next s := by
  simp only [responderAgent, hcr, hbusy, if_true, ite_self]

/-- With the framer idle the turn is the loop's next line. -/
theorem responderAgent_cycle {s : State} {c : CrStep} (hpresent : s.par.responderPresent = true)
    (hcr : s.cr = .cycle c) (hidle : s.pf.pos = .idle) : responderAgent s = cycleStep s c := by
  have hbusy : s.pf.busy = false := by simp only [Framer.busy, hidle]
  simp only [responderAgent, hpresent, hcr, hbusy, if_true, Bool.false_eq_true, if_false]

/-- Line (2) leaves every byte of `PFBUF` 0. -/
theorem zeroBuffer_reads (s : State) :
    ∃ m : Memory, zeroBuffer s = .next { s with pf := { s.pf with buf := m }, cr := .cycle .callRead } ∧
      ∀ a, m.read a = if a < 254 then some 0 else none :=
  ⟨.zeros Config.pfBufBytes, rfl, Memory.read_zeros Config.pfBufBytes⟩

/-- Line (5) zeroes the checksum field and no other byte. -/
theorem clearCsum_reads (s : State) :
    ∃ m : Memory, cycleStep s .clearCsum = .next { s with pf := { s.pf with buf := m }, cr := .cycle .callWrite } ∧
      ∀ a, m.read a = if a = 2 ∨ a = 3 then some 0 else s.pf.buf.read a := by
  refine ⟨s.pf.buf.putBytes Config.pfBufBytes 2 [0, 0], rfl, fun a => ?_⟩
  simp only [Memory.putBytes, Memory.read_put, Config.pfBufBytes, Nat.reduceAdd, Nat.reduceLT, and_true]
  by_cases h3 : a = 3
  · simp only [h3, or_true, if_true]
  · simp only [h3, or_false, if_false]

/-- A packet that is refused is answered as one of a type with no row in the table, such as DIAG (R287, R293). -/
theorem replyNak_reads (s : State) :
    ∃ m : Memory, replyNak s = .next { s with pf := { s.pf with buf := m }, cr := .cycle .clearCsum } ∧
      ∀ a, m.read a = replyBytes s.pf.buf 1 [] a :=
  repliesWith_nak (i := .pktDiag 0 0) rfl

/-- A type code from 12 on selects no row of the table (R293). -/
theorem dispatchPacket_undefined {s : State} {b0 b1 b2 b3 : Byte}
    (hheader : s.pf.buf.readBytes 0 4 = some [b0, b1, b2, b3]) (htype : 12 ≤ b1.toNat) :
    dispatchPacket s = replyNak s := by
  have hword : s.pf.header? = some (headerWord b0 b1 (b3 ++ b2)) := by
    rw [Framer.header?, hheader, Option.map_some, leWord_header]
  have hdecode : decode .packet (headerWord b0 b1 (b3 ++ b2)) = .error .undefinedType :=
    decodePacket_undefined (by rwa [fieldPktType_headerWord])
  simp only [dispatchPacket, hword, hdecode]

/-- Line (4) refuses what R287 and R293 name. -/
theorem gotRead_refuses {s : State} (h : s.pf.result = .checksumError ∨
    (s.pf.result = .ok ∧
      ∃ b0 b1 b2 b3 : Byte, s.pf.buf.readBytes 0 4 = some [b0, b1, b2, b3] ∧ 12 ≤ b1.toNat)) :
    cycleStep s .gotRead = replyNak s := by
  obtain hbad | ⟨hok, b0, b1, b2, b3, hheader, htype⟩ := h
  · simp only [cycleStep, hbad]
  · simp only [cycleStep, hok, dispatchPacket_undefined hheader htype]

/-- Line (4) makes no reply when READ_PACKET gave no packet (R282). -/
theorem gotRead_noPacket {s : State} (h : s.pf.result = .timeout ∨ s.pf.result = .framingError) :
    cycleStep s .gotRead = zeroBuffer s := by
  obtain h | h := h <;> simp only [cycleStep, h]

/-- Settles O44: line (4) refuses the packet, or begins the next iteration. -/
theorem responderRejects : Obligations.ResponderRejects := by
  intro s e rest hp hscript hpresent hcr hidle
  let s1 : State := { s with script := rest, env := e }
  have hstep : step s = cycleStep s1 .gotRead :=
    (step_of_script hp hscript).trans (responderAgent_cycle hpresent hcr hidle)
  rw [hstep]
  constructor
  · intro hrefused
    rw [gotRead_refuses (s := s1) hrefused]
    exact replyNak_reads s1
  · intro hnone
    rw [gotRead_noPacket (s := s1) hnone]
    exact zeroBuffer_reads s1

/-- Settles O45: the turn of an absent, waiting or blocked responder, and each line of its loop. -/
theorem responderCycle : Obligations.ResponderCycle := by
  intro s e rest hp hscript s1
  have hturn : step s = responderAgent s1 := step_of_script hp hscript
  have hline {c : CrStep} (hpresent : s.par.responderPresent = true) (hcr : s.cr = .cycle c)
      (hidle : s.pf.pos = .idle) : responderAgent s1 = cycleStep s1 c :=
    responderAgent_cycle (s := s1) hpresent hcr hidle
  rw [hturn]
  refine ⟨responderAgent_absent (s := s1), fun hpresent => ⟨responderAgent_waitReady (s := s1) hpresent,
    fun c => responderAgent_busy (s := s1), ?zero, hline hpresent, ?clearCsum, hline hpresent⟩⟩
  case zero =>
    intro hcr hidle
    rw [hline hpresent hcr hidle]
    exact zeroBuffer_reads s1
  case clearCsum =>
    intro hcr hidle
    rw [hline hpresent hcr hidle]
    exact clearCsum_reads s1

/-! ### The framer is the responder's (R280) -/

/-- A write with the responder present that completes changes of the framer only its strictness mode. -/
theorem windowWrite_owned {o n : Nat} {v : Word} {s t : State} (hpresent : s.par.responderPresent = true)
    (h : windowWrite s o n v = .next t) : t.pf = { s.pf with strict := t.pf.strict } ∧ t.cr = s.cr := by
  rcases windowWrite_next h with rfl | rfl | rfl | ⟨-, b, rfl, -⟩ | ⟨habsent, -⟩
  case inr.inr.inr.inr => cases hpresent.symm.trans habsent
  all_goals exact ⟨rfl, rfl⟩

/-- Settles O46: a read changes the value read alone, and a write by its cases. -/
theorem responderOwnsFramer : Obligations.ResponderOwnsFramer := by
  intro x s t hpresent h
  cases x with
  | read a n =>
    have ht : t = { s with rdata := t.rdata } := hostRead_next h
    rw [ht]
    exact ⟨rfl, rfl⟩
  | write a n v =>
    obtain ⟨o, -, -, hw⟩ := hostWrite_next h
    exact windowWrite_owned hpresent hw

end Sys2Proof.Machine

/-! PROOFS. The writes the register window refuses because their unit is in use, and the completion of every other
permitted write (spec/20_memory.md R75, spec/60_exceptions.md R331). -/

namespace Sys2Proof.Machine

/-- Whether a write to the region needs the Bus Engine idle: the first case of R331. -/
def Region.needsIdleBus : Region → Bool
  | .beCmd | .beConfig | .beBuf _ => true
  | _ => false

/-- Whether a write to the region needs the Packet Framer idle and not the responder's: the other two cases of R331. -/
def Region.needsFreeFramer : Region → Bool
  | .pfCmd | .pfDeadline | .pfBuf _ => true
  | _ => false

/-- `BE_CMD`, `BE_CONFIG` and `BE_BUF` by offset (spec/10_state.md R29). -/
theorem regionOf_needsIdleBus_iff (o : Nat) :
    (regionOf o).needsIdleBus = true ↔ o < 0x004 ∨ (0x008 ≤ o ∧ o < 0x00C) ∨ (0x100 ≤ o ∧ o < 0x200) := by
  simp only [regionOf, apply_ite Region.needsIdleBus]
  simp only [Region.needsIdleBus, Bool.if_true_left, Bool.if_false_left, ite_self, Bool.or_eq_true, Bool.and_eq_true,
    Bool.not_eq_true', decide_eq_true_eq, decide_eq_false_iff_not, Bool.false_eq_true, or_false]
  omega

/-- `PF_CMD`, `PF_DEADLINE` and `PF_BUF` by offset (spec/10_state.md R29). -/
theorem regionOf_needsFreeFramer_iff (o : Nat) :
    (regionOf o).needsFreeFramer = true ↔ (0x200 ≤ o ∧ o < 0x208) ∨ (0x300 ≤ o ∧ o < 0x3FE) := by
  simp only [regionOf, apply_ite Region.needsFreeFramer]
  simp only [Region.needsFreeFramer, Bool.if_true_left, Bool.if_false_left, Bool.or_eq_true, Bool.and_eq_true,
    Bool.not_eq_true', decide_eq_true_eq, decide_eq_false_iff_not, Bool.false_eq_true, or_false]
  omega

theorem busWrite_of_busy {s : State} (h : s.be.busy = true) (b : BusEngine) : busWrite s b = .fault .busyWrite := by
  simp only [busWrite, h, if_true]

theorem framerWrite_of_used {s : State} (h : s.pf.busy = true ∨ s.par.responderPresent = true) (f : Framer) :
    framerWrite s f = .fault .busyWrite :=
  if_pos (Bool.or_eq_true_iff.mpr h.symm)

theorem windowWrite_of_busBusy {s : State} {o : Nat} (hregion : (regionOf o).needsIdleBus = true)
    (hbusy : s.be.busy = true) (n : Nat) (v : Word) : windowWrite s o n v = .fault .busyWrite := by
  unfold windowWrite
  cases hr : regionOf o <;> rw [hr] at hregion
  case beCmd | beConfig | beBuf => exact busWrite_of_busy hbusy _
  all_goals cases hregion

theorem windowWrite_of_framerUsed {s : State} {o : Nat} (hregion : (regionOf o).needsFreeFramer = true)
    (hused : s.pf.busy = true ∨ s.par.responderPresent = true) (n : Nat) (v : Word) :
    windowWrite s o n v = .fault .busyWrite := by
  unfold windowWrite
  cases hr : regionOf o <;> rw [hr] at hregion
  case pfCmd | pfDeadline | pfBuf => exact framerWrite_of_used hused _
  all_goals cases hregion

/-- A write whose unit is free, where it needs it free, completes: the read-only and reserved offsets, `BE_STATUS` and
`PF_CONFIG` take every write. -/
theorem windowWrite_completes {s : State} {o : Nat} (hbus : (regionOf o).needsIdleBus = true → s.be.busy = false)
    (hframer : (regionOf o).needsFreeFramer = true → s.pf.busy = false ∧ s.par.responderPresent = false)
    (n : Nat) (v : Word) : ∃ t, windowWrite s o n v = .next t := by
  unfold windowWrite
  cases hr : regionOf o <;> rw [hr] at hbus hframer
  case beCmd | beConfig | beBuf => exact ⟨_, busWrite_of_idle (hbus rfl) _⟩
  case pfCmd | pfDeadline | pfBuf => exact ⟨_, framerWrite_of_free (hframer rfl).1 (hframer rfl).2 _⟩
  all_goals exact ⟨_, rfl⟩

/-- Settles O48: a permitted write is refused by the unit its region needs free, and by nothing else. -/
theorem busyWriteCases : Obligations.BusyWriteCases := by
  intro s o n v hp beOwned pfOwned
  have hbe : (regionOf o).needsIdleBus = true ↔ beOwned := regionOf_needsIdleBus_iff o
  have hpf : (regionOf o).needsFreeFramer = true ↔ pfOwned := regionOf_needsFreeFramer_iff o
  rw [hostWrite_permitted hp]
  split
  next hrefused =>
    rw [← hbe, ← hpf] at hrefused
    obtain ⟨hregion, hbusy⟩ | ⟨hregion, hused⟩ := hrefused
    · exact windowWrite_of_busBusy hregion hbusy n v
    · exact windowWrite_of_framerUsed hregion hused n v
  next hfree =>
    rw [← hbe, ← hpf] at hfree
    simp only [not_or, not_and, Bool.not_eq_true] at hfree
    obtain ⟨hbus, hframer⟩ := hfree
    exact windowWrite_completes hbus hframer n v

end Sys2Proof.Machine

/-! PROOFS. Reset: what the reset input does, that the reset state meets the invariants, and what the Host CPU reads
right after it (spec/70_reset_and_hazards.md R360, R361, spec/10_state.md R38 to R42). -/

namespace Sys2Proof.Machine

/-! ### The reset input (R360) -/

/-- A turn of the reset input resets the block and nothing around it, whatever was in progress. -/
theorem step_reset {s : State} {e : Env} {rest : List Turn} (hp : paramsOk s.par = true)
    (h : s.script = ⟨.reset, e⟩ :: rest) :
    step s = .next ({ s with script := rest, env := e } : State).applyReset :=
  step_of_script hp h

/-- Settles O54: `BusEngine.reset` and `Framer.reset` spelt out, the copies of an abandoned command among them. -/
theorem resetInput : Obligations.ResetInput :=
  fun _ _ _ hp h => ⟨BusEngine.reset.priv, step_reset hp h⟩

/-! ### The invariants at reset -/

/-- A buffer that holds no value is in canonical form, whatever its size. -/
theorem Memory.wf_nil (size : Nat) : Memory.wf size [] = true := rfl

theorem busCountersBounded_reset : BusCountersBounded .reset :=
  busCountersBounded_idle rfl (by decide)

theorem framerCountersBounded_reset : FramerCountersBounded .reset := ⟨Nat.zero_le _, trivial⟩

/-- After reset no recovery is required and no transaction is open (spec/10_state.md R38). -/
theorem recoveryClosed_reset : RecoveryClosed .reset :=
  (recoveryClosed_idle rfl).mpr fun _ => rfl

/-- After reset no command is in progress, so no store is pending. -/
theorem storesOnlyInRegRead_reset : StoresOnlyInRegRead .reset := trivial

/-- Settles O59: each invariant of the unit it speaks of, whose reset value no parameter enters. -/
theorem resetMeetsInvariants : Obligations.ResetMeetsInvariants :=
  fun _ => ⟨⟨Memory.wf_nil _, Memory.wf_nil _⟩, ⟨busCountersBounded_reset, framerCountersBounded_reset⟩,
    recoveryClosed_reset, storesOnlyInRegRead_reset⟩

/-! ### Reads right after reset (R361) -/

/-- `BE_STATUS` after reset: both outputs released, so each line reads as the peers hold it. -/
theorem statusWord_reset (e : Env) :
    BusEngine.reset.statusWord e =
      0x000C0000 ||| (if e.scl then 0x00010000 else 0) ||| (if e.sda then 0x00020000 else 0) := by
  have hscl : BusEngine.reset.sample e .scl = e.scl := Bool.true_and _
  have hsda : BusEngine.reset.sample e .sda = e.sda := Bool.true_and _
  rw [BusEngine.statusWord, hscl, hsda]
  cases e.scl <;> cases e.sda <;> rfl

/-- `BE_CONFIG` after reset: only the limit of the clock-stretch wait is not 0. -/
theorem busConfigWord_reset : BusEngine.reset.configWord = 0xFFFF0000 := rfl

/-- `BE_XCNT` after reset. -/
theorem xcntWord_reset : BusEngine.reset.xcntWord = 0 := rfl

/-- `PF_STATUS` after reset: idle, and every result 0. -/
theorem framerStatusWord_reset : Framer.reset.statusWord = 0 := rfl

/-- `PF_CONFIG` after reset: compatible mode. -/
theorem framerConfigWord_reset : Framer.reset.configWord = 0 := rfl

/-- A permitted read that begins inside a buffer holding no value finds its first byte unwritten (R42). -/
theorem readBuffer_nil {o n size i : Nat} (hp : permitted o n = true) (hi : i < size) :
    readBuffer size [] i n = .error .unwrittenRead := by
  have hn : 0 < n := by
    have := (permitted_width hp).1
    omega
  exact readBuffer_fault rfl ⟨0, by omega, Memory.read_nil _⟩

/-- Settles O55: each register by its region, and each buffer idle and empty. -/
theorem registersAfterReset : Obligations.RegistersAfterReset := by
  intro p e s
  have hread : ∀ {o : Nat} {w : Word}, permitted o 4 = true → windowRead s o 4 = .ok w →
      hostRead (p.blkBase + o) 4 s = .next { s with rdata := w } := hostRead_ok (s := s)
  refine ⟨hread rfl (congrArg Except.ok (statusWord_reset e)), hread rfl (congrArg Except.ok busConfigWord_reset),
    hread rfl (congrArg Except.ok xcntWord_reset), hread (o := 0) rfl rfl, hread rfl rfl, hread rfl rfl,
    hread rfl (congrArg Except.ok framerStatusWord_reset), hread rfl (congrArg Except.ok framerConfigWord_reset),
    hread rfl rfl, fun o n hp => ⟨fun hlo hhi => ?beBuf, fun hlo hhi habsent => ?pfBuf⟩⟩
  case beBuf =>
    refine hostRead_fault (s := s) hp ((windowRead_beBuf n hlo hhi).trans ?_)
    have hidle : s.be.busy = false := rfl
    have hinside : o - 0x100 < Config.beBufBytes := by simp only [Config.beBufBytes]; omega
    rw [hidle, if_neg Bool.false_ne_true]
    exact readBuffer_nil hp hinside
  case pfBuf =>
    refine hostRead_fault (s := s) hp ((windowRead_pfBuf n hlo hhi).trans ?_)
    have hfree : (s.pf.busy || s.par.responderPresent) = false := habsent
    have hinside : o - 0x300 < Config.pfBufBytes := by simp only [Config.pfBufBytes]; omega
    rw [hfree, if_neg Bool.false_ne_true]
    exact readBuffer_nil hp hinside

end Sys2Proof.Machine
